-- ==== Sys2Proof/Word.lean ====
section
/-! DEFINITION. The machine words of the IXP1200 and the plainest arithmetic on them (spec R23, R24). -/

namespace Sys2Proof

/-- A byte, 8 bits (R23). -/
abbrev Byte := BitVec 8

/-- A longword, 32 bits (R23): every general and transfer register of a microengine (R13). -/
abbrev Word := BitVec 32

/-- A quadword, 64 bits (R23): the unit of SDRAM, RFIFO and TFIFO. -/
abbrev Quad := BitVec 64

/-- A Boolean as one bit. -/
def bit (b : Bool) : BitVec 1 := if b then 1#1 else 0#1

end Sys2Proof
end

