-- ==== Sys2Proof/Syntax.lean ====
section
/-! DEFINITION. The instructions of the IXP1200 whose syntax the spec gives: the 54 microengine instructions at
assembler level (30_encoding.md R400, R402; D1) and the 91 one-byte Ready Bus sequencer instructions (R420). -/

namespace Sys2Proof

/-- The two GPR banks (10_state.md R41). -/
inductive Bank where
  | a | b
deriving DecidableEq, Repr, Inhabited

/-- A GPR name: context-relative, 16 a context and bank, or absolute, 64 a bank (R42). -/
inductive Gpr where
  | rel (bank : Bank) (r : Fin 16)
  | abs (bank : Bank) (r : Fin 64)
deriving DecidableEq, Repr, Inhabited

/-- A transfer register name inside one of the four files: relative, 8 a context, or absolute, 32 (R48). -/
inductive Xfer where
  | rel (r : Fin 8)
  | abs (r : Fin 32)
deriving DecidableEq, Repr, Inhabited

/-- A source operand (R454): a GPR, a read transfer register, an immediate, or `--`. -/
inductive Src where
  | gpr (g : Gpr)
  | sram (x : Xfer)
  | sdram (x : Xfer)
  | imm (v : Word)
  | none
deriving DecidableEq, Repr, Inhabited

/-- A destination operand (R450): a GPR, a write transfer register, or `--`. -/
inductive Dest where
  | gpr (g : Gpr)
  | sram (x : Xfer)
  | sdram (x : Xfer)
  | none
deriving DecidableEq, Repr, Inhabited

/-- The ALU operations of Table 4-9 (R452). -/
inductive AluOp where
  | b | notB | add | addCarry | add4 | add8 | add16 | sub | bMinusA
  | and | notAnd | andNot | or | xor | addIfSign
deriving DecidableEq, Repr, Inhabited

/-- The shift controls (R451, R455). -/
inductive Shf where
  | none
  | left (n : BitVec 5)
  | right (n : BitVec 5)
  | rotLeft (n : BitVec 5)
  | rotRight (n : BitVec 5)
  | leftIndirect
  | rightIndirect
deriving DecidableEq, Repr, Inhabited

/-- A control store word index (R481); 11 bits reach the larger control store of R21, and `Instr.wfIn` keeps a label
within the store a chip has. -/
abbrev Label := BitVec 11

/-- The nine signal events (10_state.md R75). -/
inductive SigEvent where
  | fbi | pci | sram | sdram | seqNum1 | seqNum2 | interThread | startReceive | autoPush
deriving DecidableEq, Repr, Inhabited

/-- The operand of `ctx_arb` (44_me_misc.md R640). -/
inductive CtxEvent where
  | signal (e : SigEvent)
  | voluntary
  | kill
deriving DecidableEq, Repr, Inhabited

/-- The two input states (R65). -/
inductive InpState where
  | recReqAvail | pushProtect
deriving DecidableEq, Repr, Inhabited

/-- The twenty local CSRs of a microengine (11_state_csrs.md R140). -/
inductive LocalCsr where
  | ustoreAddress | ustoreData | aluOutput | activeCtxSts | enableSramJournaling
  | ctxArbCntl | ctxEnables | ccEnable
  | ctxSts (n : Fin 4) | ctxSigEvents (n : Fin 4) | ctxWakeupEvents (n : Fin 4)
deriving DecidableEq, Repr, Inhabited

/-- The FBI control and status registers (11_state_csrs.md R200 to R230). -/
inductive FbiCsr where
  | rcvReq | rcvCntl | sopSeq1 | sopSeq2 | enqueueSeq1 | enqueueSeq2
  | incrEnqNum1 | incrEnqNum2 | xmitValidate | xmitPtr
  | rdybusTemplateCtl | rcvRdyCtl | xmitRdyCtl
  | rdybusProg1 | rdybusProg2 | rdybusProg3 | rdybusSynchCount | fpReadyWait | recFastportCtl
  | flowctlMask | rcvRdyCnt | rcvRdyHi | rcvRdyLo | xmitRdyHi | xmitRdyLo
  | getCmd | sendCmd
  | hashMult64Hi | hashMult64Lo | hashMult48Hi | hashMult48Lo
  | ireg | interThdSig | threadDone | threadDoneIncr1 | threadDoneIncr2
  | threadDoneReg0 | threadDoneReg1 | cycleCnt | selfDestruct
deriving DecidableEq, Repr, Inhabited

/-- The `fast_wr` targets (11_state_csrs.md R191). -/
inductive FastReg where
  | interThdSig | threadDone | threadDoneIncr1 | threadDoneIncr2 | xmitValidate
  | incrEnqNum1 | incrEnqNum2 | selfDestruct | ireg
deriving DecidableEq, Repr, Inhabited

/-- The four bit operations of `scratch` and `sram` (R544, R547). -/
inductive BitOp where
  | setBits | clearBits | testAndSet | testAndClear
deriving DecidableEq, Repr, Inhabited

/-- The optional tokens a reference may carry (R581). -/
structure RefTok where
  sigDone  : Bool
  ctxSwap  : Bool
  defer1   : Bool
  indirect : Bool
deriving DecidableEq, Repr, Inhabited

/-- The optional tokens a branch may carry: `defer[n]` (n = 0 when absent, R483) and `guess_branch` (R484). -/
structure BrTok where
  defer : Fin 4
  guess : Bool
deriving DecidableEq, Repr, Inhabited

/-- Direction of a `csr` reference (R540). -/
inductive RW where
  | read | write
deriving DecidableEq, Repr, Inhabited

/-- The `scratch` commands (R544). -/
inductive ScratchCmd where
  | read (x : Xfer) (cnt : Nat)
  | write (x : Xfer) (cnt : Nat)
  | bitWr (x : Xfer) (op : BitOp)
  | incr
deriving DecidableEq, Repr, Inhabited

/-- The `sdram` commands (R546). -/
inductive SdramCmd where
  | read (x : Xfer) (cnt : Nat)
  | write (x : Xfer) (cnt : Nat)
  | tFifoWr (cnt : Nat)
  | rFifoRd (cnt : Nat)
deriving DecidableEq, Repr, Inhabited

/-- The queue selector of an `sdram` reference (R581, R845). -/
inductive SdramQueue where
  | order | optimizeMem | priority
deriving DecidableEq, Repr, Inhabited

/-- The `sram` commands (R547). -/
inductive SramCmd where
  | read (x : Xfer) (cnt : Nat)
  | write (x : Xfer) (cnt : Nat)
  | bitWr (x : Xfer) (op : BitOp)
  | readLock (x : Xfer) (cnt : Nat)
  | writeUnlock (x : Xfer) (cnt : Nat)
  | unlock
  | push (list : Fin 8)
  | pop (x : Xfer) (list : Fin 8)
deriving DecidableEq, Repr, Inhabited

/-- The queue selector of an `sram` reference (R581, R900); `ordered` is the default. -/
inductive SramQueue where
  | ordered | optimizeMem | priority
deriving DecidableEq, Repr, Inhabited

/-- Every row of the opcode table: the microengine instructions at the assembler level of R402, then the Ready Bus
sequencer instructions, whose operands are in the opcode (R703). -/
inductive Instr where
  | alu (dest : Dest) (a : Src) (op : AluOp) (b : Src)
  | aluShf (dest : Dest) (a : Src) (op : AluOp) (b : Src) (shf : Shf)
  | dblShf (dest : Dest) (a : Src) (b : Src) (shf : Shf)
  | br (label : Label) (tok : BrTok)
  | brEq0 (label : Label) (tok : BrTok)
  | brNe0 (label : Label) (tok : BrTok)
  | brGt0 (label : Label) (tok : BrTok)
  | brGe0 (label : Label) (tok : BrTok)
  | brLt0 (label : Label) (tok : BrTok)
  | brLe0 (label : Label) (tok : BrTok)
  | brCout (label : Label) (tok : BrTok)
  | brNotCout (label : Label) (tok : BrTok)
  | brBset (reg : Src) (pos : BitVec 5) (label : Label) (tok : BrTok)
  | brBclr (reg : Src) (pos : BitVec 5) (label : Label) (tok : BrTok)
  | brEqByte (reg : Src) (byteSpec : Fin 4) (value : Byte) (label : Label) (tok : BrTok)
  | brNeByte (reg : Src) (byteSpec : Fin 4) (value : Byte) (label : Label) (tok : BrTok)
  | brEqCtx (ctx : Fin 4) (label : Label) (tok : BrTok)
  | brNeCtx (ctx : Fin 4) (label : Label) (tok : BrTok)
  | brInpState (st : InpState) (label : Label) (tok : BrTok)
  | brNotSignal (e : SigEvent) (label : Label) (tok : BrTok)
  | jump (reg : Src) (label : Label) (tok : BrTok)
  | rtn (reg : Src) (tok : BrTok)
  | csr (rw : RW) (x : Xfer) (reg : FbiCsr) (cnt : Nat) (tok : RefTok)
  | fastWr (imm : BitVec 10) (reg : FastReg) (indirect : Bool)
  | localCsrRd (reg : LocalCsr)
  | localCsrWr (reg : LocalCsr) (src : Gpr)
  | rFifoRd (x : Xfer) (op1 op2 : Src) (cnt : Nat) (tok : RefTok)
  | pciDma (x : Xfer) (orderQueue : Bool) (tok : RefTok)
  | scratch (cmd : ScratchCmd) (op1 op2 : Src) (tok : RefTok)
  | sdram (cmd : SdramCmd) (a1 a2 : Src) (queue : SdramQueue) (chain : Bool) (tok : RefTok)
  | sram (cmd : SramCmd) (a1 a2 : Src) (queue : SramQueue) (tok : RefTok)
  | tFifoWr (x : Xfer) (op1 op2 : Src) (cnt : Nat) (tok : RefTok)
  | findBset (src : Src) (shf : Shf) (clr : Bool)
  | findBsetWithMask (mask : Src) (src : Src) (shf : Shf) (clr : Bool)
  | immed (dest : Dest) (value : Int) (shift : Nat)
  | immedB0 (dest : Dest) (value : Byte)
  | immedB1 (dest : Dest) (value : Byte)
  | immedB2 (dest : Dest) (value : Byte)
  | immedB3 (dest : Dest) (value : Byte)
  | immedW0 (dest : Dest) (value : BitVec 16)
  | immedW1 (dest : Dest) (value : BitVec 16)
  | ldField (dest : Dest) (mask : BitVec 4) (src : Src) (shf : Shf)
  | ldFieldWClr (dest : Dest) (mask : BitVec 4) (src : Src) (shf : Shf)
  | loadAddr (dest : Dest) (label : Label)
  | loadBsetResult1 (dest : Dest)
  | loadBsetResult2 (dest : Dest)
  | ctxArb (ev : CtxEvent) (defer1 : Bool)
  | nop
  | hash1x48 (x : Xfer) (tok : RefTok)
  | hash2x48 (x : Xfer) (tok : RefTok)
  | hash3x48 (x : Xfer) (tok : RefTok)
  | hash1x64 (x : Xfer) (tok : RefTok)
  | hash2x64 (x : Xfer) (tok : RefTok)
  | hash3x64 (x : Xfer) (tok : RefTok)
  | nop1
  | nop2
  | nop3
  | nop4
  | nop5
  | nop6
  | nop7
  | nop8
  | rxrdy0
  | rxrdy0to1
  | rxrdy0to2
  | rxrdy0to3
  | rxrdy0to4
  | rxrdy0to5
  | rxrdy0to6
  | rxrdy1
  | rxrdy1to2
  | rxrdy1to3
  | rxrdy1to4
  | rxrdy1to5
  | rxrdy1to6
  | rxrdy2
  | rxrdy2to3
  | rxrdy2to4
  | rxrdy2to5
  | rxrdy2to6
  | rxrdy3
  | rxrdy3to4
  | rxrdy3to5
  | rxrdy3to6
  | rxrdy4
  | rxrdy4to5
  | rxrdy4to6
  | rxrdy5
  | rxrdy5to6
  | rxrdy6
  | txrdy0
  | txrdy0to1
  | txrdy0to2
  | txrdy0to3
  | txrdy0to4
  | txrdy0to5
  | txrdy0to6
  | txrdy1
  | txrdy1to2
  | txrdy1to3
  | txrdy1to4
  | txrdy1to5
  | txrdy1to6
  | txrdy2
  | txrdy2to3
  | txrdy2to4
  | txrdy2to5
  | txrdy2to6
  | txrdy3
  | txrdy3to4
  | txrdy3to5
  | txrdy3to6
  | txrdy4
  | txrdy4to5
  | txrdy4to6
  | txrdy5
  | txrdy5to6
  | txrdy6
  | rxAutopush
  | txAutopush
  | flwctl
  | get1x1
  | get1x2
  | get1x3
  | get1x4
  | get1x5
  | get1x6
  | get1x7
  | get1x8
  | get2x1
  | get2x2
  | get2x3
  | get2x4
  | get2x5
  | get2x6
  | get2x7
  | get2x8
  | sendx1
  | sendx2
  | sendx3
  | sendx4
  | sendx5
  | sendx6
  | sendx7
  | sendx8
deriving DecidableEq, Repr, Inhabited

end Sys2Proof
end

