-- ==== Sys2Proof/Config.lean ====
section
/-! DEFINITION. What an implementation fixes and the spec leaves open: the named parameters of 92_eei_decisions.md
section 2 as constants with no body, the free values of 93_implementation_defined.md, the board's plain constants, and
the events by which the environment and the scheduler drive the machine (R10, D22, D30, D54). -/

namespace Sys2Proof

/-! ### Plain data the events and the open parameters speak of -/

/-- PCI bus commands (53_pci_unit.md R995 to R1010). -/
inductive PciCmd where
  | memRead | memReadLine | memReadMultiple | memWrite | memWriteInvalidate
  | ioRead | ioWrite | cfgRead | cfgWrite | iack | special | dualAddress
deriving DecidableEq, Repr, Inhabited

/-- The answer of the host to a transaction of which the chip is master (R942), with a parity flag for each data
phase. -/
inductive PciAns where
  | done (data : List Word) (parity : List Bool)
  | retry
  | disconnectAfter (k : Nat) (data : List Word) (parity : List Bool)
  | masterAbort
  | targetAbort
deriving DecidableEq, Repr, Inhabited

/-- A transaction of an external master (R942), `master` 0 or 1 for the manual's Master 1 and Master 2 (R945): write
data with byte enables (a set bit enables the byte), the number of Dwords a read wants, and the parity flags of R1015,
one for each data phase. -/
structure PciTxn where
  master     : Fin 2
  cmd        : PciCmd
  addr       : Word
  idsel      : Bool
  data       : List (Word × BitVec 4)
  dwords     : Nat
  addrParity : Bool
  dataParity : List Bool
deriving DecidableEq, Repr, Inhabited

/-- What a MAC presents during one receive transfer (R775, R802 to R812): the quadwords, in 32-bit mode two cycles each,
`half` when the last cycle is the first of its quadword; FBE# of the last cycle, and the status. -/
structure RxData where
  quads  : List Quad
  half   : Bool
  sop    : Bool
  eop    : Bool
  rxfail : Bool
  fbe    : Byte
  status : Quad
deriving DecidableEq, Repr, Inhabited

/-- The PCI windows of the StrongARM map (20_memory.md R315). -/
inductive PciSpace where
  | memory | io | config0 | config1 | iackSpecial
deriving DecidableEq, Repr, Inhabited

/-- The event a context waits for (R76). -/
inductive Wakeup where
  | voluntary
  | signal (e : SigEvent)
deriving DecidableEq, Repr, Inhabited

/-- One step of one agent, or one act of the environment (R10, 92_eei_decisions.md section 3). The order of the
events is the free choice of D22 and D54. -/
inductive Event where
  /-- microengine `m` executes one instruction, or arbitrates when no context is executing -/
  | me (m : Fin 6)
  /-- the command bus arbiter moves the head of microengine `m`'s command FIFO (R590) -/
  | bus (m : Fin 6)
  | sdramUnit | sramUnit | fbiPull | fbiPush
  /-- the Ready Bus sequencer executes one instruction (R700) -/
  | readyBus
  /-- the sequence rate timer expires (R700) -/
  | seqTimer
  /-- the receive state machine processes one request; the MAC supplies `rx` (R806) -/
  | receive (rx : RxData)
  /-- the transmit state machine serves one element (R819) -/
  | transmit
  | dma (n : Fin 2) (ans : PciAns)
  /-- an idle channel takes the head microengine request (R966) -/
  | dmaAlloc (n : Fin 2)
  | pciTarget (t : PciTxn)
  /-- the request lines of the two external masters (R945) -/
  | pciRequests (v : BitVec 2)
  /-- the external master that holds the grant has not asserted frame_l in 16 idle cycles (R946) -/
  | pciNoFrame
  /-- the head of the Inbound FIFO reaches SDRAM (R997) -/
  | pciInbound
  | discardTimer
  /-- the head of the Outbound FIFO, a posted StrongARM store, reaches the PCI bus (R1006) -/
  | pciOutbound (ans : PciAns)
  /-- one StrongARM instruction, or the exception taken in its place (R686); `late` lets a pending interrupt wait
  inside the two-instruction latitude of R685; `ans` answers its loads from PCI windows, one each in order (R1007) -/
  | strongArm (late : Bool) (ans : List PciAns)
  /-- the oldest entry of the core's write buffer is written (R681) -/
  | writeBuffer
  /-- the oldest pending read buffer fill completes (R683); `ans` answers its loads from PCI windows -/
  | readBufferFill (ans : List PciAns)
  | timerTick (n : Fin 4)
  | rtcTick
  | cycleTick
  | uartRx (data : Byte) (parity framing : Bool)
  | uartTx
  | gpioIn (v : BitVec 4)
  | cint (level : Bool)
  | macRx (m : Fin 7) (flags : Byte)
  | macTx (m : Fin 7) (flags : Byte)
  | slaveData (w : Word)
  | chainData (w : Word)
  | fastRx (v : BitVec 2)
  /-- the slow port devices offer these bytes from byte `x` of their space on (R884, R1191) -/
  | slowData (x : Nat) (bs : List Byte)
  | sdramInitDone
  | resetIn
  | pciRst
deriving DecidableEq, Repr, Inhabited

/-- The kinds of free value (93_implementation_defined.md). -/
inductive Free where
  | carry | zero | sign | shiftIndirect | aLatch | bsetResult | aluOut | hashHigh | enables
  | autoEnd | rcvCntl | rfifoReserved | fiqPick | uartData | csrWord | pciAddress | prefetch | staleByte | slowPort
  | readyBusData | armReset | fifoAddress | pciAccept | staleFetch | bootHigh | unaligned | maskedBurst | aligner
  | pciChain
deriving DecidableEq, Repr, Inhabited

/-- The optional overrides an `indirect_ref` word may carry, one per row of Table 4-17 (R583, R585). -/
structure Overrides where
  me     : Option (Fin 6) := none
  ctx    : Option (Fin 4) := none
  xfer   : Option (Fin 32) := none
  /-- number of units, the field's value plus one -/
  count  : Option (Fin 16) := none
  /-- byte mask, a set bit writes the byte (D35); the low four bits for `sram` -/
  mask   : Option Byte := none
  imm    : Option (BitVec 10) := none
  /-- return the pre-modified data -/
  test   : Option Bool := none
  /-- set (true) or clear (false) -/
  set    : Option Bool := none
  list   : Option (Fin 8) := none
  /-- byte alignment of `sdram[t_fifo_wr]` -/
  align  : Option (BitVec 4) := none
  /-- TFIFO or RFIFO quadword address -/
  fifo   : Option Byte := none
deriving DecidableEq, Repr, Inhabited

/-- The instruction kinds of Table 4-17, and the lock commands, which R547 lets carry `indirect_ref`. -/
inductive IndirectKind where
  | fastWr | scratchRw | scratchBit | sdramRw | sdramTFifo | sdramRFifo
  | sramRw | sramPushPop | sramBit | sramLock | rFifoRd | tFifoWr
deriving DecidableEq, Repr, Inhabited

/-- The five field loads whose outside bytes the manual leaves open (R602, U4). -/
inductive ImmedKind where
  | b0 | b1 | b2 | b3 | w0
deriving DecidableEq, Repr, Inhabited

/-- CSR fields that the manual names without printing a bit position (R290). A field's width is in the operation
that reads it. -/
inductive CsrField where
  -- USTORE_ADDRESS, ACTIVE_CTX_STS, CTX_ARB_CNTL, CC_ENABLE, CTX_n_STS, CTX_n_SIG_EVENTS, CTX_n_WAKEUP_EVENTS
  | uaddr | cse | ecs | activeCtx | activeAb | activePc | arbNext | arbPrev | journalEnable
  | ccZero | ccSign | ccCarry | ccPrevZero | ccPrevSign | ccPrevCarry
  | ctxReady | ctxPc | sigEvent (e : SigEvent) | wakeEvent (e : SigEvent) | wakeVoluntary
  -- RCV_REQ
  | rqElem1 | rqElem2 | rqFast | rqTwo | rqIgnoreFast | rqSignalSched | rqThread | rqMac | rqPort | rqExtended | rqMsg
  -- RCV_CNTL
  | rcMsg | rcMacPort | rcSeq | rcFail | rcSecond | rcFirst | rcFilled | rcFastPort | rcValid | rcEop | rcSop
  -- RDYBUS_TEMPLATE_CTL
  | rbEnable | rbMany | rbUni | rbSlave | rbShared | rbBigEndian
  -- RCV_RDY_CTL, XMIT_RDY_CTL
  | apEnable | apSignal | apThread | apWindow | txValidFlags | dualValid
  -- FLOWCTL_MASK, RCV_RDY_CNT, REC_FASTPORT_CTL
  | fcMac | fcMask | rrCount | rrFastReady | rrFcma | rrMaster
  | fpHeader1 | fpBody1 | fpHeader2 | fpBody2
  -- IREG
  | irThreads | irBp
  -- PCI Unit
  | saWatchdog | dmaMode | chanError
  | rstMe (m : Fin 6) | rstSdram | rstChip
  | rawTimer (n : Fin 4) | rawInbound | rawDoorbell | rawMasterAbort | rawTargetAbort | rawParity | rawDataParity
  | rawSystemError | rawDiscard
  | tmEnable | tmPeriodic | tmPrescale
  | outbMask
  -- SRAM_CSR, SDRAM_CSR
  | srLockFail | srLockDone | srLockFailInt | srLockDoneInt | srIntFiq | srRlk | sdInit | sdBigEndian
  -- UART, RTC, GPIO, first level
  | uaEnable | uaRxInt | uaTxInt | uaFiq | uaClear | uaBreak | uaBits | uaStop | uaParity
  | usTxFull | usTxEmpty | usTxReady | usRxFull | usRxReady | usOverrun | usFraming | usParity
  | rtWrite | rvPrescale | rvLoad | rvTrim
  | l1Pci | l1Fbi | l1Uart | l1Rtc | l1Sram
  -- CP15 control register and breakpoint registers
  | cpAlign | cpEndian | cpVector | ibEnable | dbLoad | dbStore | dbData
deriving DecidableEq, Repr, Inhabited

/-- A PCI Unit register as StrongARM or a PCI master names it (11_state_csrs.md R160 to R180). -/
inductive PciReg where
  | cmdStat | cacheLnSize | memBar | ioBar | dramBar | addrExt | dramMask | saControl | reset | dmaMode
  | byteCount (n : Fin 2) | chanPci (n : Fin 2) | chanDram (n : Fin 2) | chanDesc (n : Fin 2) | chanControl (n : Fin 2)
  | inbFreeHead | inbPostTail | outbFreeTail | outbPostHead | inbFreeCount | inbPostCount | outbPostCount | outbMask
  | mailbox (n : Fin 4) | doorbell | doorbellSetup | dbellPciMask | dbellSaMask
  | irqEnable | fiqEnable | irqStatus | fiqStatus | irqRaw | fiqRaw
  | timerLoad (n : Fin 4) | timerValue (n : Fin 4) | timerControl (n : Fin 4) | timerClear (n : Fin 4)
deriving DecidableEq, Repr, Inhabited

/-- The PCI configuration registers (R160); the others are the unit's own CSRs. -/
def PciReg.isConfig : PciReg → Bool
  | .cmdStat | .cacheLnSize | .memBar | .ioBar | .dramBar => true
  | _ => false

/-- The system registers of Device 3 (R240 to R251, R241's first-level pair). -/
inductive SysReg where
  | pllCfg | irqFirst | fiqFirst | uartCr | uartSr | uartDr | gpioEn | gpioData
  | rtcDiv | rtcTint | rtcTval | rtcCntr | rtcAlm
deriving DecidableEq, Repr, Inhabited

/-- The SRAM CSRs (R281 to R284). -/
inductive SramCsr where
  | csr | slowConfig | bootConfig | slowportConfig | testMod | autoBase | autoEnd | autoPtr
deriving DecidableEq, Repr, Inhabited

/-- The SDRAM CSRs (R275). -/
inductive SdramCsr where
  | csr | memctl0 | memctl1 | meminit
deriving DecidableEq, Repr, Inhabited

/-- A cached translation (R673): virtual base and mask, physical base, cacheable and bufferable bits, and the
domain and permission bits the permission check reads. -/
structure TlbEntry where
  va     : Word
  mask   : Word
  pa     : Word
  c      : Bool
  b      : Bool
  domain : BitVec 4
  ap     : Byte
deriving DecidableEq, Repr, Inhabited

/-- What a level 1 descriptor says (R672). -/
inductive Walk1 where
  | fault
  | entry (e : TlbEntry)
  | table (level2 : Word)
deriving DecidableEq, Repr, Inhabited

/-- The kind of an access that is translated (R672). -/
inductive AccessKind where
  | fetch | load | store
deriving DecidableEq, Repr, Inhabited

/-- The access size of a StrongARM load or store. -/
inductive Size where
  | byte | half | word
deriving DecidableEq, Repr, Inhabited

/-- The processor modes. Supervisor and abort are the manual's (R80); the other numbers are ARM V4's (PRESUMED). -/
inductive ArmMode where
  | usr | fiq | irq | svc | abt | und | sys
deriving DecidableEq, Repr, Inhabited

/-- The registers `ARM_ISA` reads (R80, R670): r0 to r14 of User mode, every bank, the pc, CPSR and every SPSR. -/
structure ArmRegs where
  usr : Vector Word 15
  fiq : Vector Word 7
  svc : Vector Word 2
  abt : Vector Word 2
  irq : Vector Word 2
  und : Vector Word 2
  pc : Word
  cpsr : Word
  spsrFiq : Word
  spsrSvc : Word
  spsrAbt : Word
  spsrIrq : Word
  spsrUnd : Word
deriving DecidableEq, Repr

/-- The architectural acts an ARM V4 instruction is made of, as `ARM_ISA` lists them for one instruction (R670). `bank`
is the mode whose register is meant, none for the current one; `user` has the access checked as User mode's. -/
inductive ArmAct where
  | setReg (bank : Option ArmMode) (r : Fin 16) (v : Word)
  /-- MSR to CPSR or to the SPSR of the current mode -/
  | setCpsr (v : Word)
  | setSpsr (v : Word)
  /-- CPSR from the SPSR of the current mode, as a load multiple that loads the pc ends -/
  | restoreCpsr
  | load (bank : Option ArmMode) (r : Fin 16) (va : Word) (size : Size) (signed user : Bool)
  | store (va : Word) (size : Size) (v : Word) (user : Bool)
  /-- the core waits until the stores the units still hold for it are written, which follows a store that bypasses the
  write buffer (R372, R681) -/
  | settle
  /-- SWP: a read, then a write of `v` as a later step (D46) -/
  | swap (r : Fin 16) (va : Word) (size : Size) (v : Word)
  | mcr (cp : BitVec 4) (crn crm : BitVec 4) (op2 : BitVec 3) (v : Word)
  | mrc (cp : BitVec 4) (crn crm : BitVec 4) (op2 : BitVec 3) (r : Fin 16)
  /-- LDC, STC or CDP of any coprocessor (R671) -/
  | coprocOther
  | undefined
  | swi
  /-- a branch: the next instruction is at `target` -/
  | branch (target : Word)
  /-- SUBS PC and its like: the pc, and CPSR from the SPSR of the current mode (R1057) -/
  | exceptionReturn (target : Word)
deriving DecidableEq, Repr, Inhabited

/-- One decoded StrongARM instruction: its acts in order and the base register restored on an abort (R1055 (c)). -/
structure ArmInstr where
  acts : List ArmAct
  base : Option (Fin 16)
deriving DecidableEq, Repr, Inhabited

/-- Which of the three caches (R83, R84). -/
inductive CacheKind where
  | icache | dcache | mini
deriving DecidableEq, Repr, Inhabited

/-- Why an access of the core aborts (R674, R1055, R1061, R683). -/
inductive AbortKind where
  | alignment | translation | permission | reserved | breakpoint | readBuffer
deriving DecidableEq, Repr, Inhabited

/-- The CP15 operations a coprocessor 15 access may name (R260 to R268). -/
inductive Cp15 where
  | control | translationBase | domainAccess | faultStatus | faultAddress
  | flushICache | flushDCacheAll | flushDCacheEntry | cleanDCacheEntry | drainWriteBuffer
  | flushITlb | flushDTlb | flushDTlbEntry
  | rbAllocate (entry : Fin 4) (words : Fin 9) | rbFlush (entry : Fin 4) | rbFlushAll
  | ibcr | dbar | dbvr | dbmr | dbcr
  | clockIdle | idRegister
deriving DecidableEq, Repr, Inhabited

/-- The board and part constants of 92_eei_decisions.md section 2 that are plain numbers: State holds one, no step
changes it. -/
structure Board where
  ustoreWords  : Nat
  sdramBytes   : Nat
  sramBytes    : Nat
  bootromBytes : Nat
  /-- the BootROM device takes writes (Flash) -/
  bootWritable : Bool
  /-- PCI_CFN[0] and PCI_CFN[1] pins (R181) -/
  pciCfn0      : Bool
  pciCfn1      : Bool
  /-- GPIO[3] strap: true = 16-bit BootROM bus (R1097) -/
  boot16       : Bool
  /-- TK_IN pulled high at reset (R702, R777) -/
  tkIn         : Bool
  /-- FBI_QUEUE_DEPTH (R735) and DMA_REQ_FIFO_DEPTH (R965) -/
  fbiDepth     : Nat
  dmaDepth     : Nat
  /-- ICACHE_FLUSH_SHADOW (D48) -/
  flushShadow  : Nat
  /-- HASH_WORD_ORDER (D19): true = the first register is the high part -/
  hashHighFirst : Bool
  /-- FIFO_LW_ORDER (D27): true = the lower-numbered register carries bits 31:0 -/
  fifoLowFirst : Bool
deriving DecidableEq, Repr, Inhabited

/-- The width of a program counter field: log2(USTORE_WORDS) (R52). -/
def Board.pcBits (b : Board) : Nat := Nat.log2 b.ustoreWords

/-- The defaults of 92_eei_decisions.md section 2, and the largest memories R18 allows where the spec says 'board'. -/
def Board.default : Board where
  ustoreWords := 1024
  sdramBytes := 2 ^ 28
  sramBytes := 2 ^ 23
  bootromBytes := 2 ^ 23
  bootWritable := true
  pciCfn0 := false
  pciCfn1 := true
  boot16 := false
  tkIn := true
  fbiDepth := 16
  dmaDepth := 8
  flushShadow := 3
  hashHighFirst := true
  fifoLowFirst := true

namespace Config

/-! ### Free values: constants with no body, applied to State's draw counter -/

/-- A free bit of one kind at one draw. -/
opaque freeBit : Free → Nat → Bool
/-- A free longword of one kind at one draw; a narrower free value is its low bits. -/
opaque freeWord : Free → Nat → Word
/-- A free wakeup selector at one draw (R152, log entry 29). -/
opaque freeWakeup : Nat → Wakeup
/-- Which agent moves next, or what the environment does, when State lists no input (D22, D54). -/
opaque freeEvent : Nat → Event

/-! ### ME_ENCODING, INDIRECT_REF_FORMAT, CSR_LAYOUT -/

/-- The table behind `decode` of ME_ENCODING (R401, D1); Decode.lean keeps the words for which the law of R401 holds. -/
opaque meTable : BitVec 32 → Option Instr
/-- `encode` of ME_ENCODING (R401, D1). -/
opaque meEncode : Instr → BitVec 32
/-- `decode_indirect` (R583) for the fields the manual's examples do not fix. -/
opaque decodeIndirect : IndirectKind → Word → Overrides
/-- CSR_LAYOUT: the lowest bit of a field inside its register. -/
opaque fieldLo : CsrField → BitVec 5
/-- CSR_LAYOUT: the register at a byte offset inside its window. -/
opaque localCsrAt : BitVec 11 → Option LocalCsr
opaque fbiCsrAt : BitVec 14 → Option FbiCsr
/-- the register at a byte offset of the StrongARM core's PCI CSR window 4200 0000 and of its configuration register window
4000 0000 (R315) -/
opaque pciSaCsrAt : BitVec 10 → Option PciReg
opaque pciSaConfigAt : BitVec 25 → Option PciReg
/-- the CSR at PCI offset bits [7:2] (R1001) and the configuration register likewise (R1000) -/
opaque pciCsrAt : BitVec 6 → Option PciReg
opaque pciConfigAt : BitVec 6 → Option PciReg
opaque sysRegAt : BitVec 28 → Option SysReg
opaque sramCsrAt : BitVec 7 → Option SramCsr
opaque sdramCsrAt : BitVec 5 → Option SdramCsr
/-- Whether a status bit of SRAM_CSR is cleared by writing 1 to it (R914), else by writing 0. -/
opaque w1c : CsrField → Bool
/-- The code of a number of autopushed registers (R791), 1 to 3. -/
opaque autopushCount : BitVec 2 → Fin 3
/-- Of the five IREG bits beside the thread and breakpoint bits (R226): the CINT enable, the breakpoint enable and the FIQ
select; and which of the other two enables a thread. -/
opaque iregPlaces : Vector (Fin 5) 3
opaque iregGroup : Fin 24 → Fin 2
/-- The order of the three interrupt fields in RTC_DIV bits [18:16] (R247). -/
opaque rtcFieldOrder : Fin 6
/-- Whether bit 8 of UART_DR is the parity error and bit 9 the framing error, else the other way round (R244). -/
opaque uartParityLow : Bool
/-- Whether a 1 in GPIO_EN makes a pin an output (R245). -/
opaque gpioOutputHigh : Bool
/-- The DMA_INF_MODE code (R164): both StrongARM, both microengines, split. -/
opaque dmaModeCode : BitVec 2 → Fin 3

/-! ### Other open parameters -/

/-- U4: whether a field load keeps (true) or clears the bytes outside its field, a choice per instruction kind. -/
opaque immedKeeps : ImmedKind → Bool
/-- D32. -/
opaque sdramBankOdd : Word → Bool
/-- DMA_DIRECTION: true = SDRAM to PCI (R951). -/
opaque dmaToPci : Word → Word → Bool
/-- Dwords per burst of CHAN_n_CONTROL's read length code (R956). -/
opaque dmaReadLength : BitVec 3 → Nat
/-- Which of the three memory read commands a code of CHAN_n_CONTROL bits [6:5] selects (R957). -/
opaque dmaReadCode : BitVec 2 → Fin 3
/-- The fields the hardware sets in CHAN_n_CONTROL for a microengine request (R966). -/
opaque dmaAutoControl : Word
/-- I2O_FIFO_ENTRIES of SA_CONTROL[12:10] (R970). -/
opaque i2oEntries : BitVec 3 → Nat
/-- PCI_ADDR_MAP (R992). -/
opaque pciMasterAddr : PciSpace → Word → Word → Word
/-- The window mask DRAM_BASE_ADDR_MASK stands for (R991). -/
opaque dramWindowMask : Word → Word
/-- The IACK and Special Cycle window (R315). -/
opaque iackWindow : Word → Bool

/-! ### ARM_ISA (R670, R672) -/

/-- The instruction a 32-bit word is, given the whole register file. -/
opaque armIsa : Word → ArmRegs → ArmInstr
/-- Address of the level 1 descriptor, from the table base and the virtual address. -/
opaque walkAddr : Word → Word → Word
/-- What a level 1 descriptor says of a virtual address. -/
opaque walk1 : Word → Word → Walk1
/-- The entry of a level 1 and a level 2 descriptor for a virtual address; none for an invalid page. The level 1
descriptor is given too because the entry may need parts of both (R672). -/
opaque walk2 : Word → Word → Word → Option TlbEntry
/-- Access allowed, from the entry, DOMAIN_ACCESS_CONTROL, CONTROL_CP15, the mode bits, the kind of the access and its
virtual address, which may choose among an entry's permissions (R672, R674). -/
opaque permitted : TlbEntry → Word → Word → BitVec 5 → AccessKind → Word → Bool
/-- The fault status code of an MMU fault or a bus abort. -/
opaque faultCode : AbortKind → Byte
/-- The CP15 operation that CRm and opcode 2 select inside a register number; the numbers are ArmCp15.lean's. -/
opaque cp15At : BitVec 4 → BitVec 4 → BitVec 3 → Bool → Option Cp15
/-- Which set of a cache a virtual address selects. -/
opaque cacheSet : CacheKind → Word → Nat
/-- The value of a CP15 register the manual gives no content for. -/
opaque cp15Word : Cp15 → Word

end Config

end Sys2Proof
end

