-- ==== Sys2Proof/WellFormed.lean ====
section
/-! DEFINITION. Which microengine instructions there are: the bank rule of R43, the operand forms of each instruction's
rule, the token rules of R581, the counts. What the spec refuses here is no instruction, so no control store word decodes
to it (Decode.lean). A Ready Bus sequencer instruction has no operand outside its opcode, so each is well formed. -/

namespace Sys2Proof

/-- The GPR bank of a source operand, if it is a GPR. -/
def Src.bank : Src → Option Bank
  | .gpr (.rel k _) => Option.some k
  | .gpr (.abs k _) => Option.some k
  | _ => Option.none

/-- Two source operands of one instruction are not both in one GPR bank (R43, R454). -/
def banksOk (a b : Src) : Bool :=
  match a.bank, b.bank with
  | some x, some y => x != y
  | _, _ => true

/-- The operand is present. -/
def Src.present : Src → Bool
  | .none => false
  | _ => true

/-- An ALU operation that ignores its A operand (R452). -/
def AluOp.ignoresA : AluOp → Bool
  | .b | .notB => true
  | _ => false

/-- Not an indirect shift: those are forms of `alu_shf` and `dbl_shf` (R455). -/
def Shf.direct : Shf → Bool
  | .leftIndirect | .rightIndirect => false
  | _ => true

/-- The shifts of `dbl_shf` (R459); an amount of 0 moves nothing (R402). -/
def Shf.dblOk : Shf → Bool
  | .left _ | .right _ | .leftIndirect | .rightIndirect => true
  | _ => false

/-- An address operand is a GPR or a constant (R532). -/
def Src.addrOk : Src → Bool
  | .gpr _ | .imm _ => true
  | _ => false

/-- The address pair of a reference (R532). -/
def addrsOk (a b : Src) : Bool := a.addrOk && b.addrOk && banksOk a b

/-- `defer[n]` up to three on a branch of any class (R483); `guess_branch` only where R484 lists it (R581). -/
def BrTok.ok (guessOk : Bool) (t : BrTok) : Bool := guessOk || !t.guess

/-- `defer[1]` on a reference goes with `ctx_swap` (R581); `indirect_ref` only where R581 lists it. -/
def RefTok.ok (indirectOk : Bool) (t : RefTok) : Bool := (t.ctxSwap || !t.defer1) && (indirectOk || !t.indirect)

/-- A count from 1 to `hi`. -/
def countOk (hi n : Nat) : Bool := decide (1 ≤ n) && decide (n ≤ hi)

/-- The last register of `n` registers from `x` is one of the context's eight, or one of the file's 32 (R49, R650). -/
def Xfer.spanOk (n : Nat) : Xfer → Bool
  | .rel r => decide (r.val + n ≤ 8)
  | .abs r => decide (r.val + n ≤ 32)

/-- A source operand `br_bset` and its like may test: a GPR or a read transfer register (R497). -/
def Src.regOk : Src → Bool
  | .gpr _ | .sram _ | .sdram _ => true
  | _ => false

/-- The GPR or write transfer register a local register instruction writes (R600). -/
def Dest.present : Dest → Bool
  | .none => false
  | _ => true

/-- The accepted `immed` combinations (R601). -/
def immedOk (value : Int) (shift : Nat) : Bool :=
  (decide (0 ≤ value) && decide (value ≤ 0xFFFF) && (shift == 0 || shift == 8 || shift == 16))
    || (decide (-65536 ≤ value) && decide (value < 0) && shift == 0)

/-- The three local CSRs a microengine may not name (R140). -/
def LocalCsr.threadAccess : LocalCsr → Bool
  | .ustoreAddress | .ustoreData | .aluOutput => false
  | _ => true

/-- The registers a `csr` read may burst: GET_CMD up to eight (C9), CYCLE_CNT two; every other register one (R765).
A SEND_CMD write carries up to eight (R780). The spec does not say which count a CYCLE_CNT read carries: 1 and 2 are both
accepted, and two registers are filled either way (DESIGN CHOICE, log entry 31). -/
def csrCountOk (rw : RW) (reg : FbiCsr) (cnt : Nat) : Bool :=
  match rw, reg with
  | .read, .getCmd => countOk 8 cnt
  | .read, .cycleCnt => countOk 2 cnt
  | .write, .sendCmd => countOk 8 cnt
  | _, _ => cnt == 1

/-- The operand ranges of a `scratch` command (R544). -/
def ScratchCmd.ok : ScratchCmd → Bool
  | .read _ n | .write _ n => countOk 8 n
  | .bitWr .. | .incr => true

/-- Counts 1 to 16 (R546); the FIFO forms need `indirect_ref` (R861, R862). -/
def SdramCmd.ok (indirect : Bool) : SdramCmd → Bool
  | .read _ n | .write _ n => countOk 16 n
  | .tFifoWr n | .rFifoRd n => countOk 16 n && indirect

/-- Counts 1 to 8, with `indirect_ref` 1 to 16 (R547); `read_lock` carries `ctx_swap` (R911). -/
def SramCmd.ok (tok : RefTok) : SramCmd → Bool
  | .read _ n | .write _ n | .writeUnlock _ n => countOk (if tok.indirect then 16 else 8) n
  | .readLock _ n => countOk (if tok.indirect then 16 else 8) n && tok.ctxSwap
  | .unlock | .bitWr .. | .push _ | .pop .. => true

/-- `pop` takes no address; every other `sram` command does (R547). -/
def SramCmd.addrs (a b : Src) : SramCmd → Bool
  | .pop .. => !a.present && !b.present
  | _ => addrsOk a b

/-- A label is a word of a control store of `words` words: a target beyond it cannot be encoded (R402, R481). -/
def labelOk (words : Nat) (l : Label) : Bool := decide (l.toNat < words)

/-- Well-formedness on an engine with `words` control store words: what the rules of the instructions and the assembler of
the manual accept (R43, R402, R481, R581). A shift by 0 is accepted (R402). R621 speaks of a right shift in the find
instructions: that they take a left shift and a rotate too is the model's choice (DESIGN CHOICE, log entry 77). -/
def Instr.wfIn (words : Nat) : Instr → Bool
  | .alu _ a op b => banksOk a b && b.present && (op.ignoresA || a.present)
  | .aluShf _ a op b _ => banksOk a b && b.present && (op.ignoresA || a.present)
  | .dblShf _ a b shf => banksOk a b && a.present && b.present && shf.dblOk
  | .br l t => labelOk words l && t.ok false
  | .brEq0 l t | .brNe0 l t | .brGt0 l t | .brGe0 l t | .brLt0 l t | .brLe0 l t | .brCout l t | .brNotCout l t =>
      labelOk words l && t.ok true
  | .brBset r _ l t | .brBclr r _ l t => labelOk words l && r.regOk && t.ok true
  | .brEqByte r _ _ l t | .brNeByte r _ _ l t => labelOk words l && r.regOk && t.ok false
  | .brEqCtx _ l t | .brNeCtx _ l t => labelOk words l && t.ok false
  | .brInpState _ l t | .brNotSignal _ l t => labelOk words l && t.ok true
  | .jump r l t => labelOk words l && r.regOk && t.ok false
  | .rtn r t => r.regOk && t.ok false
  | .csr rw _ reg n t => csrCountOk rw reg n && t.ok false
  | .fastWr .. => true
  | .localCsrRd c | .localCsrWr c _ => c.threadAccess
  | .rFifoRd _ a b n t | .tFifoWr _ a b n t => addrsOk a b && countOk 16 n && t.ok true
  | .pciDma _ _ t => t.ok false
  | .scratch cmd a b t => cmd.ok && addrsOk a b && t.ok true
  | .sdram cmd a b q chain t => cmd.ok t.indirect && addrsOk a b && t.ok true && (!chain || q != .optimizeMem)
  | .sram cmd a b _ t => cmd.ok t && cmd.addrs a b && t.ok true
  | .findBset s shf _ => s.regOk && shf.direct
  | .findBsetWithMask m s shf _ => m.present && s.regOk && banksOk m s && shf.direct
  | .immed d v n => d.present && immedOk v n
  | .immedB0 d _ | .immedB1 d _ | .immedB2 d _ | .immedB3 d _ => d.present
  | .immedW0 d _ | .immedW1 d _ => d.present
  | .ldField d _ s shf | .ldFieldWClr d _ s shf => d.present && s.regOk && shf.direct
  | .loadAddr d l => labelOk words l && d.present
  | .loadBsetResult1 d | .loadBsetResult2 d => d.present
  | .ctxArb .. | .nop => true
  | .hash1x48 x t | .hash1x64 x t => x.spanOk 2 && t.ok false
  | .hash2x48 x t | .hash2x64 x t => x.spanOk 4 && t.ok false
  | .hash3x48 x t | .hash3x64 x t => x.spanOk 6 && t.ok false
  | .nop1 | .nop2 | .nop3 | .nop4 | .nop5 | .nop6 | .nop7 | .nop8 | .rxrdy0 | .rxrdy0to1 | .rxrdy0to2
  | .rxrdy0to3 | .rxrdy0to4 | .rxrdy0to5 | .rxrdy0to6 | .rxrdy1 | .rxrdy1to2 | .rxrdy1to3 | .rxrdy1to4
  | .rxrdy1to5 | .rxrdy1to6 | .rxrdy2 | .rxrdy2to3 | .rxrdy2to4 | .rxrdy2to5 | .rxrdy2to6 | .rxrdy3
  | .rxrdy3to4 | .rxrdy3to5 | .rxrdy3to6 | .rxrdy4 | .rxrdy4to5 | .rxrdy4to6 | .rxrdy5 | .rxrdy5to6 | .rxrdy6
  | .txrdy0 | .txrdy0to1 | .txrdy0to2 | .txrdy0to3 | .txrdy0to4 | .txrdy0to5 | .txrdy0to6 | .txrdy1
  | .txrdy1to2 | .txrdy1to3 | .txrdy1to4 | .txrdy1to5 | .txrdy1to6 | .txrdy2 | .txrdy2to3 | .txrdy2to4
  | .txrdy2to5 | .txrdy2to6 | .txrdy3 | .txrdy3to4 | .txrdy3to5 | .txrdy3to6 | .txrdy4 | .txrdy4to5
  | .txrdy4to6 | .txrdy5 | .txrdy5to6 | .txrdy6 | .rxAutopush | .txAutopush | .flwctl | .get1x1 | .get1x2
  | .get1x3 | .get1x4 | .get1x5 | .get1x6 | .get1x7 | .get1x8 | .get2x1 | .get2x2 | .get2x3 | .get2x4 | .get2x5
  | .get2x6 | .get2x7 | .get2x8 | .sendx1 | .sendx2 | .sendx3 | .sendx4 | .sendx5 | .sendx6 | .sendx7 | .sendx8 => true

/-- Well-formedness for the largest control store, 2048 words (R51): what a word can encode on some engine. -/
def Instr.wf (i : Instr) : Bool := i.wfIn 2048

end Sys2Proof
end

