-- ==== Sys2Proof/Decode.lean ====
section
/-! DEFINITION. Decoding and encoding. The Ready Bus sequencer's 91 opcodes are matched exactly (R430, R703 to R713);
a microengine word goes through ME_ENCODING, which no source gives (R401, D1). -/

namespace Sys2Proof

/-- Why bytes are no instruction. -/
inductive DecodeError where
  /-- a Ready Bus byte that is none of the 91 opcodes (U10) -/
  | undefinedOpcode (b : Byte)
  /-- a control store word that `decode` of ME_ENCODING rejects (U24) -/
  | illegalWord (w : Word)
  /-- neither one byte nor one 32-bit word -/
  | length (n : Nat)
deriving DecidableEq, Repr

/-- Tables of 46_ready_bus_sequencer.md, the nop rows: opcode byte and instruction. -/
def nopTable : List (Byte × Instr) := [
  (0x1F, .nop1), (0x3F, .nop2), (0x5F, .nop3), (0x7F, .nop4),
  (0x9F, .nop5), (0xBF, .nop6), (0xDF, .nop7), (0xFF, .nop8)]

/-- Tables of 46_ready_bus_sequencer.md, the rxrdy rows: opcode byte and instruction. -/
def rxrdyTable : List (Byte × Instr) := [
  (0xFB, .rxrdy0), (0xDB, .rxrdy0to1), (0xBB, .rxrdy0to2), (0x9B, .rxrdy0to3),
  (0x7B, .rxrdy0to4), (0x5B, .rxrdy0to5), (0x3B, .rxrdy0to6), (0xDA, .rxrdy1),
  (0xBA, .rxrdy1to2), (0x9A, .rxrdy1to3), (0x7A, .rxrdy1to4), (0x5A, .rxrdy1to5),
  (0x3A, .rxrdy1to6), (0xB9, .rxrdy2), (0x99, .rxrdy2to3), (0x79, .rxrdy2to4),
  (0x59, .rxrdy2to5), (0x39, .rxrdy2to6), (0x98, .rxrdy3), (0x78, .rxrdy3to4),
  (0x58, .rxrdy3to5), (0x38, .rxrdy3to6), (0x6B, .rxrdy4), (0x4B, .rxrdy4to5),
  (0x2B, .rxrdy4to6), (0x4A, .rxrdy5), (0x2A, .rxrdy5to6), (0x29, .rxrdy6)]

/-- Tables of 46_ready_bus_sequencer.md, the txrdy rows: opcode byte and instruction. -/
def txrdyTable : List (Byte × Instr) := [
  (0xF7, .txrdy0), (0xD7, .txrdy0to1), (0xB7, .txrdy0to2), (0x97, .txrdy0to3),
  (0x77, .txrdy0to4), (0x57, .txrdy0to5), (0x37, .txrdy0to6), (0xD6, .txrdy1),
  (0xB6, .txrdy1to2), (0x96, .txrdy1to3), (0x76, .txrdy1to4), (0x56, .txrdy1to5),
  (0x36, .txrdy1to6), (0xB5, .txrdy2), (0x95, .txrdy2to3), (0x75, .txrdy2to4),
  (0x55, .txrdy2to5), (0x35, .txrdy2to6), (0x94, .txrdy3), (0x74, .txrdy3to4),
  (0x54, .txrdy3to5), (0x34, .txrdy3to6), (0x67, .txrdy4), (0x47, .txrdy4to5),
  (0x27, .txrdy4to6), (0x46, .txrdy5), (0x26, .txrdy5to6), (0x25, .txrdy6)]

/-- Tables of 46_ready_bus_sequencer.md, the single rows: opcode byte and instruction. -/
def singleTable : List (Byte × Instr) := [
  (0x0C, .rxAutopush), (0x9C, .txAutopush), (0x00, .flwctl)]

/-- Tables of 46_ready_bus_sequencer.md, the get1 rows: opcode byte and instruction. -/
def get1Table : List (Byte × Instr) := [
  (0x1E, .get1x1), (0x3E, .get1x2), (0x5E, .get1x3), (0x7E, .get1x4),
  (0x9E, .get1x5), (0xBE, .get1x6), (0xDE, .get1x7), (0xFE, .get1x8)]

/-- Tables of 46_ready_bus_sequencer.md, the get2 rows: opcode byte and instruction. -/
def get2Table : List (Byte × Instr) := [
  (0x0E, .get2x1), (0x2E, .get2x2), (0x4E, .get2x3), (0x6E, .get2x4),
  (0x8E, .get2x5), (0xAE, .get2x6), (0xCE, .get2x7), (0xEE, .get2x8)]

/-- Tables of 46_ready_bus_sequencer.md, the send rows: opcode byte and instruction. -/
def sendTable : List (Byte × Instr) := [
  (0x0D, .sendx1), (0x2D, .sendx2), (0x4D, .sendx3), (0x6D, .sendx4),
  (0x8D, .sendx5), (0xAD, .sendx6), (0xCD, .sendx7), (0xED, .sendx8)]

/-- The opcode tables of 46_ready_bus_sequencer.md, together (R420). -/
def seqTable : List (Byte × Instr) :=
  nopTable ++ rxrdyTable ++ txrdyTable ++ singleTable ++ get1Table ++ get2Table ++ sendTable

/-- The first row of an opcode table whose byte is `b`. -/
def lookupOpcode (b : Byte) : List (Byte × Instr) → Option Instr
  | [] => none
  | (k, i) :: rest => if k = b then some i else lookupOpcode b rest

/-- Decode one Ready Bus sequencer byte: exact match against the 91 opcodes (R430). -/
def decodeSeq (b : Byte) : Option Instr := lookupOpcode b seqTable

/-! ### Encoding, from the formulas of R703 -/

/-- `NOPn`: `((n-1) << 5) | 0x1F`. -/
def nopByte (n : Nat) : Byte := (BitVec.ofNat 8 (n - 1) <<< 5) ||| 0x1F
/-- `get1` of `n` longwords. -/
def get1Byte (n : Nat) : Byte := (BitVec.ofNat 8 (n - 1) <<< 5) ||| 0x1E
/-- `get2` of `n` longwords. -/
def get2Byte (n : Nat) : Byte := (BitVec.ofNat 8 (n - 1) <<< 5) ||| 0x0E
/-- `send` of `n` longwords. -/
def sendByte (n : Nat) : Byte := (BitVec.ofNat 8 (n - 1) <<< 5) ||| 0x0D
/-- The MAC range field shared by `rxrdy` and `txrdy`, MACs `a` to `b`. -/
def macRange (a b : Nat) : Byte :=
  (BitVec.ofNat 8 (7 - b) <<< 5) ||| (BitVec.ofNat 8 ((7 - a) / 4) <<< 4) ||| BitVec.ofNat 8 ((7 - a) % 4)
/-- `rxrdy` of MACs `a` to `b`. -/
def rxrdyByte (a b : Nat) : Byte := macRange a b ||| 0x08
/-- `txrdy` of MACs `a` to `b`. -/
def txrdyByte (a b : Nat) : Byte := macRange a b ||| 0x04

/-- The opcode byte of a Ready Bus sequencer instruction; none for a microengine instruction. -/
def encodeSeq : Instr → Option Byte
  | .nop1 => some (nopByte 1)
  | .nop2 => some (nopByte 2)
  | .nop3 => some (nopByte 3)
  | .nop4 => some (nopByte 4)
  | .nop5 => some (nopByte 5)
  | .nop6 => some (nopByte 6)
  | .nop7 => some (nopByte 7)
  | .nop8 => some (nopByte 8)
  | .rxrdy0 => some (rxrdyByte 0 0)
  | .rxrdy0to1 => some (rxrdyByte 0 1)
  | .rxrdy0to2 => some (rxrdyByte 0 2)
  | .rxrdy0to3 => some (rxrdyByte 0 3)
  | .rxrdy0to4 => some (rxrdyByte 0 4)
  | .rxrdy0to5 => some (rxrdyByte 0 5)
  | .rxrdy0to6 => some (rxrdyByte 0 6)
  | .rxrdy1 => some (rxrdyByte 1 1)
  | .rxrdy1to2 => some (rxrdyByte 1 2)
  | .rxrdy1to3 => some (rxrdyByte 1 3)
  | .rxrdy1to4 => some (rxrdyByte 1 4)
  | .rxrdy1to5 => some (rxrdyByte 1 5)
  | .rxrdy1to6 => some (rxrdyByte 1 6)
  | .rxrdy2 => some (rxrdyByte 2 2)
  | .rxrdy2to3 => some (rxrdyByte 2 3)
  | .rxrdy2to4 => some (rxrdyByte 2 4)
  | .rxrdy2to5 => some (rxrdyByte 2 5)
  | .rxrdy2to6 => some (rxrdyByte 2 6)
  | .rxrdy3 => some (rxrdyByte 3 3)
  | .rxrdy3to4 => some (rxrdyByte 3 4)
  | .rxrdy3to5 => some (rxrdyByte 3 5)
  | .rxrdy3to6 => some (rxrdyByte 3 6)
  | .rxrdy4 => some (rxrdyByte 4 4)
  | .rxrdy4to5 => some (rxrdyByte 4 5)
  | .rxrdy4to6 => some (rxrdyByte 4 6)
  | .rxrdy5 => some (rxrdyByte 5 5)
  | .rxrdy5to6 => some (rxrdyByte 5 6)
  | .rxrdy6 => some (rxrdyByte 6 6)
  | .txrdy0 => some (txrdyByte 0 0)
  | .txrdy0to1 => some (txrdyByte 0 1)
  | .txrdy0to2 => some (txrdyByte 0 2)
  | .txrdy0to3 => some (txrdyByte 0 3)
  | .txrdy0to4 => some (txrdyByte 0 4)
  | .txrdy0to5 => some (txrdyByte 0 5)
  | .txrdy0to6 => some (txrdyByte 0 6)
  | .txrdy1 => some (txrdyByte 1 1)
  | .txrdy1to2 => some (txrdyByte 1 2)
  | .txrdy1to3 => some (txrdyByte 1 3)
  | .txrdy1to4 => some (txrdyByte 1 4)
  | .txrdy1to5 => some (txrdyByte 1 5)
  | .txrdy1to6 => some (txrdyByte 1 6)
  | .txrdy2 => some (txrdyByte 2 2)
  | .txrdy2to3 => some (txrdyByte 2 3)
  | .txrdy2to4 => some (txrdyByte 2 4)
  | .txrdy2to5 => some (txrdyByte 2 5)
  | .txrdy2to6 => some (txrdyByte 2 6)
  | .txrdy3 => some (txrdyByte 3 3)
  | .txrdy3to4 => some (txrdyByte 3 4)
  | .txrdy3to5 => some (txrdyByte 3 5)
  | .txrdy3to6 => some (txrdyByte 3 6)
  | .txrdy4 => some (txrdyByte 4 4)
  | .txrdy4to5 => some (txrdyByte 4 5)
  | .txrdy4to6 => some (txrdyByte 4 6)
  | .txrdy5 => some (txrdyByte 5 5)
  | .txrdy5to6 => some (txrdyByte 5 6)
  | .txrdy6 => some (txrdyByte 6 6)
  | .rxAutopush => some (0x0C)
  | .txAutopush => some (0x9C)
  | .flwctl => some (0x00)
  | .get1x1 => some (get1Byte 1)
  | .get1x2 => some (get1Byte 2)
  | .get1x3 => some (get1Byte 3)
  | .get1x4 => some (get1Byte 4)
  | .get1x5 => some (get1Byte 5)
  | .get1x6 => some (get1Byte 6)
  | .get1x7 => some (get1Byte 7)
  | .get1x8 => some (get1Byte 8)
  | .get2x1 => some (get2Byte 1)
  | .get2x2 => some (get2Byte 2)
  | .get2x3 => some (get2Byte 3)
  | .get2x4 => some (get2Byte 4)
  | .get2x5 => some (get2Byte 5)
  | .get2x6 => some (get2Byte 6)
  | .get2x7 => some (get2Byte 7)
  | .get2x8 => some (get2Byte 8)
  | .sendx1 => some (sendByte 1)
  | .sendx2 => some (sendByte 2)
  | .sendx3 => some (sendByte 3)
  | .sendx4 => some (sendByte 4)
  | .sendx5 => some (sendByte 5)
  | .sendx6 => some (sendByte 6)
  | .sendx7 => some (sendByte 7)
  | .sendx8 => some (sendByte 8)
  | _ => none

/-- The instruction is one of the Ready Bus sequencer's. -/
def Instr.isSeq (i : Instr) : Bool := (encodeSeq i).isSome

/-! ### Decoding -/

/-- The entry of ME_ENCODING's table is a microengine instruction that the spec accepts and that reads back from its own
encoding. -/
def lawfulEntry (i : Instr) : Bool := i.wf && !i.isSeq && Config.meTable (Config.meEncode i) == some i

/-- `decode` of ME_ENCODING (R401): a word of the table, so that `decode(encode(i)) = i` for every instruction it
yields. -/
def decodeMe (w : Word) : Option Instr := (Config.meTable w).filter lawfulEntry

/-- A little-endian word of the bytes at ascending addresses (D44). -/
def wordOfBytes (b0 b1 b2 b3 : Byte) : Word := b3 ++ b2 ++ b1 ++ b0

/-- Decode the bytes of one instruction: one byte is a Ready Bus instruction, four are a control store word. -/
def decode : List Byte → Except DecodeError Instr
  | [b] => match decodeSeq b with
    | some i => .ok i
    | none => .error (.undefinedOpcode b)
  | [b0, b1, b2, b3] => match decodeMe (wordOfBytes b0 b1 b2 b3) with
    | some i => .ok i
    | none => .error (.illegalWord (wordOfBytes b0 b1 b2 b3))
  | bs => .error (.length bs.length)

/-- The bytes of the table word `w` of `n` bytes, its least significant byte at the lowest address. -/
def tableBytes (n w : Nat) : List Byte :=
  match n with
  | 0 => []
  | k + 1 => BitVec.ofNat 8 w :: tableBytes k (w / 256)

/-- The instruction the decoder reads from a word of the opcode table. -/
def decodeTableWord (nbits w : Nat) : Option Instr :=
  match decode (tableBytes (nbits / 8) w) with
  | .ok i => some i
  | .error _ => none

/-- The bytes of a well-formed instruction: one opcode byte, or the control store word of ME_ENCODING. -/
def encode (i : Instr) : List Byte :=
  match encodeSeq i with
  | some b => [b]
  | none =>
    let w := Config.meEncode i
    [w.extractLsb' 0 8, w.extractLsb' 8 8, w.extractLsb' 16 8, w.extractLsb' 24 8]

end Sys2Proof
end

