-- ==== Sys2Proof/Machine/State.lean ====
section
/-! DEFINITION. The state of the machine, every agent's (10_state.md, 11_state_csrs.md), its faults and refusals, and
the state right after reset. Plain data throughout. A field's docstring names the rule that gives it; INVENTORY.md
lists each with its reset value and log entry. -/

namespace Sys2Proof.Machine

/-- One memory space: bytes by address, addresses strictly rising. An unlisted address holds no value (D10). -/
abbrev Mem := List Host.Cell

/-- The canonical form: addresses strictly rising. No listed entry can equal what an unlisted address reads as,
because an unlisted address reads as no value. -/
abbrev Mem.wf (m : Mem) : Prop := List.Pairwise (fun x y => x.1 < y.1) m

/-- Why the machine stops with a fault. -/
inductive Fault where
  /-- a control store word that ME_ENCODING's `decode` rejects was executed, or a term that is no instruction of the spec
  (U24, R581; raised by the fetch; safe) -/
  | illegalWord (w : Word)
  /-- an instruction fetch or jump at or beyond USTORE_WORDS (D8; raised by fetch, `jump`, `rtn`; safe) -/
  | pcOutOfStore (pc : Nat)
  /-- a control store word nothing has written was executed or read (D10; raised by fetch; safe) -/
  | unwrittenStore (index : Nat)
  /-- a memory location nothing has written was read (D10; raised by every unit read; safe) -/
  | unwrittenMemory
  /-- a read of an autopush target register outside the push protect protocol (U14; raised by operand reads; safe) -/
  | pushProtect
  /-- a 24th failed `read_lock` (U21; raised by the SRAM Unit; safe) -/
  | lockQueueOverflow
  /-- a `pci_dma` request with the request FIFO full (U28; raised by the command bus step; safe) -/
  | dmaOverflow
deriving DecidableEq, Repr

/-- Why a step is rejected with no state change. -/
inductive Refusal where
  /-- an instruction with no meaning yet (raised by `exec`'s refused arms; safe) -/
  | notModelled (mnemonic : String)
  /-- a branch-class instruction in a deferred position (D15; raised by branches and context swaps; safe) -/
  | branchInDeferSlot
  /-- a burst past transfer register 31 (D7; raised when the command is built; safe) -/
  | burstPastRegister31
  /-- a second pending instance of one signal event (U12; raised when the command is built; safe) -/
  | signalPending
  /-- a Ready Bus byte that is none of the 91 opcodes (U10; raised by the sequencer fetch and its enabling; safe) -/
  | undefinedOpcode (b : Byte)
  /-- an address outside a memory: scratchpad (U11), SDRAM or FIFO (U18), SRAM map (U20) (raised by the units; safe) -/
  | addressRange
  /-- a StrongARM sub-longword or unaligned access to a unit that takes longwords only (U13, D45; raised by StrongARM
  accesses; safe) -/
  | accessSize
  /-- RCV_REQ written when full, RCV_CNTL read when empty (U15; raised by FBI CSR accesses; safe) -/
  | fifoMisuse
  /-- two consecutive slow port receive requests to one port (U16; raised by an RCV_REQ write; safe) -/
  | slowPortRepeat
  /-- a value an FBI register does not take: a thread above 23, a bit above 31 (U17, R768; safe) -/
  | fbiValue
  /-- an access to a register in a way its rule does not give it (R229, U33; raised by CSR accesses; safe) -/
  | registerAccess
  /-- a GET_CMD or SEND_CMD overfill (R711, R780; raised by get and by csr; safe) -/
  | ringOverflow
  /-- a descriptor pointer that is not a multiple of 8 (U25; raised by the DMA channel; safe) -/
  | descriptorAlign
  /-- DMA ownership (U26; raised by PCI register writes and the command bus step; safe) -/
  | dmaOwner
  /-- an I2O count below 0 or above its size (U29; raised by PCI register accesses; safe) -/
  | i2oCount
  /-- a PCI master transaction with the bus master bit clear (U31; safe) -/
  | busMaster
  /-- an invalid CONTROL_CP15 value: enables (U35) or big endian (U37) (raised by MCR; safe) -/
  | controlValue
  /-- an invalid coprocessor 15 register (U36; raised by MCR and MRC; safe) -/
  | cp15Register
  /-- an instruction other than `alu[--, 0, B, reg]` under ECS (U38; raised by an ALU_OUTPUT read; safe) -/
  | debugLoop
deriving DecidableEq, Repr

/-! ### Microengine -/

/-- The three condition codes (R54). -/
structure Flags where
  zero : Bool
  sign : Bool
  cout : Bool
deriving DecidableEq, Repr, Inhabited

/-- One flag per signal event (R75), in the order of `sigBit`. -/
abbrev SigSet := BitVec 9

/-- A control store word in decoded form (R401): an instruction, or a word `decode` rejects. -/
inductive UEntry where
  | instr (i : Instr)
  | raw (w : Word)
deriving DecidableEq, Repr, Inhabited

/-- The operation of a command (R580), addresses summed, transfer registers absolute. -/
inductive CmdOp where
  | csrRead (reg : FbiCsr) (x cnt : Nat)
  | csrWrite (reg : FbiCsr) (x cnt : Nat)
  | fastWr (reg : FastReg) (imm : BitVec 10)
  | scratchRead (addr : Word) (x cnt : Nat)
  | scratchWrite (addr : Word) (x cnt : Nat)
  | scratchBit (addr : Word) (x : Nat) (op : BitOp)
  | scratchIncr (addr : Word)
  | rFifoRd (addr : Word) (x cnt : Nat)
  | tFifoWr (addr : Word) (x cnt : Nat)
  | hash (is64 : Bool) (total x : Nat)
  | pciDma (x : Nat) (orderQueue : Bool)
  | sdramRead (addr : Word) (x cnt : Nat)
  | sdramWrite (addr : Word) (x cnt : Nat) (mask : Option Byte)
  | sdramTFifo (addr : Word) (cnt fifo : Nat) (align : BitVec 4)
  | sdramRFifo (addr : Word) (cnt fifo : Nat)
  | sramRead (addr : Word) (x cnt : Nat)
  | sramWrite (addr : Word) (x cnt : Nat) (mask : Option Byte)
  | sramBit (addr : Word) (x : Nat) (op : BitOp)
  | sramReadLock (addr : Word) (x cnt : Nat)
  | sramWriteUnlock (addr : Word) (x cnt : Nat)
  | sramUnlock (addr : Word)
  | sramPush (addr : Word) (list : Fin 8)
  | sramPop (x : Nat) (list : Fin 8)
deriving DecidableEq, Repr, Inhabited

/-- The unit queue a command goes to (R735, R845, R900); `fast` bypasses the FBI queues (R734). -/
inductive UnitQueue where
  | fbiHash | fbiPull | fbiPush | fast | pci
  | sdramOrder | sdramOdd | sdramEven | sdramPrio
  | sramOrder | sramRead | sramPrio
deriving DecidableEq, Repr, Inhabited

/-- A command (R580): operation, queue, issuer, the microengine whose transfer registers are used, the thread to
signal and the signal asked for, the `chain_ref` mark, and the number of the chain it belongs to, which it gets at the
command bus (R844). -/
structure Cmd where
  op    : CmdOp
  queue : UnitQueue
  me    : Fin 6
  ctx   : Fin 4
  xfMe  : Fin 6
  sigMe : Fin 6
  sigCtx : Fin 4
  sig   : Option SigEvent
  chain : Bool
  link  : Option Nat
deriving DecidableEq, Repr, Inhabited

/-- What happens after the deferred instructions of a branch or context swap (R483, R641). -/
inductive DeferAct where
  | fall
  | jump (target : BitVec 12)
  | swap (w : Wakeup)
  | kill
deriving DecidableEq, Repr, Inhabited

/-- Deferred instructions still to run, and what follows them. -/
structure Deferred where
  left : Nat
  act  : DeferAct
deriving DecidableEq, Repr, Inhabited

/-- The microengine execution states (R64). -/
inductive MeStatus where
  | reset | stopped | running | paused
deriving DecidableEq, Repr, Inhabited

/-- One microengine (10_state.md R40 to R78). -/
structure Me where
  /-- held in reset, `me_reset` of IXP1200_RESET (R175) -/
  inReset : Bool
  /-- GPR banks (R41) -/
  gprA : Vector Word 64
  gprB : Vector Word 64
  /-- transfer register files (R45) -/
  sramRd : Vector Word 32
  sramWr : Vector Word 32
  sdramRd : Vector Word 32
  sdramWr : Vector Word 32
  /-- control store, written words in rising index order (R51) -/
  ustore : List (Nat × UEntry)
  /-- program counters (R52) -/
  pcs : Vector (BitVec 12) 4
  /-- condition codes (R54) and previous condition codes (R55) -/
  cc : Flags
  prevCc : Flags
  /-- ALU output latch (R56), A-operand latch (R57), local CSR read latch (R58) -/
  aluOut : Word
  aLatch : BitVec 5
  csrLatch : Option Word
  /-- the local CSR the previous instruction wrote and its old value (R153, R1165 (a)) -/
  csrShadow : Option (LocalCsr × Word)
  /-- find-bit-set results and counter (R60) -/
  result1 : Word
  result2 : Word
  fbsCnt : BitVec 4
  /-- instructions executed since a find or clear, up to three (R625) -/
  findAge : Nat
  /-- command FIFO, at most two (R61) -/
  cmdFifo : List Cmd
  /-- CTX_ENABLES (R62), the enables before the last write and the instructions its window still lasts (R1165 (c)) -/
  ctxEnables : BitVec 4
  oldEnables : BitVec 4
  enWindow : Nat
  /-- active, next and previous context (R62) -/
  active : Fin 4
  nctx : Fin 4
  pctx : Fin 4
  executing : Bool
  hasRun : Bool
  /-- signal events (R75), wakeup events (R76), requested and not yet arrived signals (R78) -/
  sigEvents : Vector SigSet 4
  wakeup : Vector Wakeup 4
  pending : Vector SigSet 4
  /-- deferred instructions of a branch or swap in progress (R483) -/
  defer : Option Deferred
  /-- instructions since a `br_inp_state[push_protect]` saw the state clear (R792) -/
  ppAge : Option Nat
  /-- ENABLE_SRAM_JOURNALING (R145) -/
  journaling : Bool
  /-- USTORE_ADDRESS fields (R141) -/
  uaddr : BitVec 11
  cse : Bool
  ecs : Bool
  /-- bits of the local CSRs with no named meaning, stored and returned (part 1 of 93) -/
  csrRaw : Vector Word 20
deriving DecidableEq, Repr

/-! ### FBI Unit -/

/-- A hash in progress (R651). -/
structure HashJob where
  cmd  : Cmd
  next : Nat
deriving DecidableEq, Repr

/-- A hash result waiting for the push engine (R651). -/
structure HashOut where
  cmd   : Cmd
  k     : Nat
  value : Quad
deriving DecidableEq, Repr

/-- An RCV_CNTL entry (R807): its word, the reads that retire it, the thread and scheduler it signals. -/
structure RcvEntry where
  word  : Word
  reads : Nat
  thread : Fin 24
  sched : Bool
deriving DecidableEq, Repr

/-- A receive request whose status is still to be fetched (R778): the request, and its entry without the RERR bit. -/
structure StatusDue where
  rq    : Word
  entry : RcvEntry
deriving DecidableEq, Repr

/-- The FBI Unit (R104, R730 to R820). -/
structure Fbi where
  /-- command queues (R735) -/
  hashQ : List Cmd
  pullQ : List Cmd
  pushQ : List Cmd
  /-- hash unit (R651) and the test-and-set returns waiting for the push engine (R754) -/
  hashJob : Option HashJob
  hashOut : List HashOut
  tasRet : List (Cmd × Nat × Word)
  /-- autopush requests and the push protect state (R708, R709, R792) -/
  rxPush : Bool
  txPush : Bool
  pushProtect : Bool
  /-- the next sequencer instruction is an autopush too, and the pushes pending follow back to back (R793) -/
  apHold : Bool
  apJoined : Bool
  /-- scratchpad (R750), RFIFO (R800), TFIFO (R815), as bytes -/
  scratch : Mem
  rfifo : Mem
  tfifo : Mem
  /-- TFIFO valid flags (R815, R818) and transmit pointer -/
  txValid : BitVec 16
  txValid2 : BitVec 16
  xmitPtr : BitVec 4
  /-- IX Bus arbiter turn: true = receive (R820) -/
  rxTurn : Bool
  /-- CYCLE_CNT (R229) -/
  cycleCnt : BitVec 64
  /-- sequence numbers per fast port (R810) -/
  sopSeq : Vector (BitVec 4) 2
  mpktSeq : Vector (BitVec 4) 2
  enqSeq : Vector (BitVec 4) 2
  /-- RCV_REQ (R200) and RCV_CNTL (R201) FIFOs -/
  rcvReq : List Word
  rcvCntl : List RcvEntry
  /-- requests whose status is still to be fetched, and whether a later request has finished since the head's data
  (R778) -/
  statusDue : List StatusDue
  statusTurn : Bool
  /-- MAC and port of the last receive request if it was a slow port request (R813) -/
  lastSlow : Option (BitVec 6)
  /-- GET_CMD and SEND_CMD arrays (R214) -/
  getCmd : List Word
  sendCmd : List Word
  /-- ready flags (R213) -/
  rcvRdyLo : Word
  rcvRdyHi : Word
  xmitRdyLo : Word
  xmitRdyHi : Word
  /-- RCV_RDY_CNT: Receive Ready Count (R212; eight bits wide, DESIGN CHOICE, log entry 34), the live Receive Request
  Count, its captured copy, the capture flag (R717) -/
  rdyCount : Byte
  reqCount : Byte
  reqCapture : Byte
  captured : Bool
  /-- FLOWCTL_MASK and its valid flag FCMA (R211, R781) -/
  flowMask : Word
  fcma : Bool
  /-- RDYBUS_TEMPLATE_CTL (R204): its word and the named controls, Status mode being bit 6 = 0 (R776) -/
  rdybusCtl : Word
  seqEnable : Bool
  seqSlave : Bool
  manyMac : Bool
  uniDir : Bool
  sharedBus : Bool
  bigEndian : Bool
  /-- RCV_RDY_CTL and XMIT_RDY_CTL (R205, R206): words and the autopush controls -/
  rcvRdyCtl : Word
  xmitRdyCtl : Word
  rxApEnable : Bool
  rxApSignal : Bool
  rxApThread : BitVec 5
  apWindow : BitVec 4
  txApEnable : Bool
  txApSignal : Bool
  txApThread : BitVec 5
  dualValid : Bool
  /-- sequencer program (R207), position, and whether the pass is over (R700); the IX Bus cycles its instructions have
  taken in this pass (R704), and whether the rate timer has expired since the pass began (R700) -/
  prog : Vector Byte 12
  seqPos : Fin 12
  seqWait : Bool
  seqTime : Nat
  seqExpired : Bool
  /-- RDYBUS_SYNCH_COUNT_DEFAULT (R208), FP_READY_WAIT (R209) -/
  synchCount : Word
  fpReadyWait : Word
  /-- REC_FASTPORT_CTL: header and body threads per fast port, and whether the body is assigned (R210, R812) -/
  fpHeader : Vector (BitVec 5) 2
  fpBody : Vector (BitVec 5) 2
  fpBodyValid : Vector Bool 2
  /-- hash multipliers (R225) -/
  mult64Hi : Word
  mult64Lo : Word
  mult48Hi : Word
  mult48Lo : Word
  /-- IREG (R226, R1085): interrupt bits, breakpoint bits, and its five other bits, which are the thread, breakpoint and
  CINT enables and the FIQ select -/
  iregThreads : BitVec 24
  iregBp : BitVec 3
  iregCtl : BitVec 5
  /-- THREAD_DONE messages (R228) and SELF_DESTRUCT (R230) -/
  threadDone : BitVec 48
  selfDestruct : Word
deriving DecidableEq, Repr

/-! ### SDRAM and SRAM Units -/

/-- The three clients of the SDRAM round robin (R841). -/
inductive SdramPort where
  | amba | pci | prio
deriving DecidableEq, Repr, Inhabited

/-- A write the StrongARM core posted (R681, R856, R904): its bytes and their address, a byte offset in SDRAM, a
physical address elsewhere; whether it came through the D000 0000 window (R858). -/
structure Posted where
  addr : Nat
  bytes : List Byte
  window : Bool
deriving DecidableEq, Repr

/-- The residue of the byte aligner across a chain (R851): the last quadword read and the alignment. -/
structure Residue where
  quad  : Quad
  align : BitVec 4
deriving DecidableEq, Repr

/-- A chain of a microengine that the SDRAM Unit has begun to serve (R844): its number, the queue its last served command
came from, and the byte aligner's residue (R851). -/
structure SdramChain where
  num : Nat
  queue : UnitQueue
  residue : Option Residue
deriving DecidableEq, Repr

/-- The SDRAM Unit (R103, R830 to R862). -/
structure Sdram where
  mem : Mem
  /-- command queues (R845) -/
  orderQ : List Cmd
  oddQ : List Cmd
  evenQ : List Cmd
  prioQ : List Cmd
  /-- round robin order (R841), bank of the last access (R842) -/
  rr : List SdramPort
  lastOdd : Bool
  /-- the chains begun at the unit and not complete, the one being served first; where the PCI Unit's last access ended,
  while its next one there would be chained to it (R844); the microengine whose chain is open at the command bus (R590) -/
  chains : List SdramChain
  pciChain : Option Nat
  busChain : Option (Fin 6)
  /-- MODEL's own: how many chains the command bus has seen, the number of the last -/
  chainCount : Nat
  /-- held in reset (R1146), initialisation under way, ready for accesses (R832) -/
  inReset : Bool
  initPending : Bool
  ready : Bool
  /-- SDRAM CSRs (R276 to R278) and the aligner's endian bit -/
  csr : Word
  memctl0 : Word
  memctl1 : Word
  meminit : Word
  bigEndian : Bool
  /-- AMBA write data buffer (R856) -/
  posted : List Posted
  /-- what the array held, newest first, before each write since the core's last access through the D000 0000 window, whose
  prefetch a later read may be served from (R858, D33); none before the first such access -/
  past : Option (List Mem)
deriving DecidableEq, Repr

/-- A failed read_lock waiting in the queue (R912): a microengine command or the StrongARM core's. -/
inductive LockWaiter where
  | me (c : Cmd)
  | strongArm (addr : Word)
deriving DecidableEq, Repr

/-- The class of the previously serviced command (Table 8-5, R902). -/
inductive SramSide where
  | order | read
deriving DecidableEq, Repr, Inhabited

/-- The SRAM Unit (R102, R880 to R927). -/
structure Sram where
  mem : Mem
  boot : Mem
  orderQ : List Cmd
  readQ : List Cmd
  prioQ : List Cmd
  /-- lock CAM (R910), read-lock fail queue (R912), retry due after an unlock -/
  cam : List Word
  lockFail : List LockWaiter
  retry : Bool
  /-- Table 8-5: the queue whose turn it is and the commands it has had -/
  side : SramSide
  served : Nat
  /-- push-pop registers (R890) -/
  pushPop : Vector Word 8
  /-- SRAM CSRs (R281 to R284): SRAM_CSR with its lock status bits, timing registers, SRAM_TEST_MOD, journal -/
  csr : Word
  failStatus : Bool
  doneStatus : Bool
  slowConfig : Word
  bootConfig : Word
  slowportConfig : Word
  testMod : Word
  autoBase : Word
  autoEnd : Word
  autoPtr : Word
  /-- AMBA write data buffer (R904) -/
  posted : List Posted
deriving DecidableEq, Repr

/-! ### PCI Unit -/

/-- A microengine DMA request (R965). -/
structure DmaReq where
  ptr : Word
  me : Fin 6
  ctx : Fin 4
  sig : Bool
  orderQueue : Bool
deriving DecidableEq, Repr

/-- The owner of a busy channel (R941). -/
inductive DmaOwner where
  | strongArm
  | thread (me : Fin 6) (ctx : Fin 4) (sig : Bool)
deriving DecidableEq, Repr

/-- One DMA channel (R165 to R169, R955). -/
structure Chan where
  byteCount : Word
  pciAddr : Word
  dramAddr : Word
  descPtr : Word
  control : Word
  error : Bool
  busy : Bool
  needDesc : Bool
  owner : DmaOwner
deriving DecidableEq, Repr

/-- One timer (R180, R1090). -/
structure Timer where
  load : BitVec 24
  value : BitVec 24
  enable : Bool
  periodic : Bool
  prescale : BitVec 2
  int : Bool
  control : Word
deriving DecidableEq, Repr

/-- The delayed-read latch (R997). -/
structure ReadLatch where
  addr : Word
  cmd : PciCmd
  i2o : Bool
  data : Option (List Word)
  /-- a PCI write to SDRAM was accepted since, so no streaming prefetch starts (R999) -/
  noStream : Bool
deriving DecidableEq, Repr

/-- An entry of the Inbound FIFO (R990): a target write of masked Dwords, an I2O list write, the latched read, or bytes a
DMA channel read from PCI. -/
inductive Inbound where
  | write (addr : Nat) (data : List (Word × BitVec 4))
  | i2oPost (v : Word)
  | i2oFree (v : Word)
  | read
  | dma (n : Fin 2) (addr : Nat) (bytes : List Byte)
deriving DecidableEq, Repr

/-- An entry of the Outbound FIFO (R990): the Dwords still to be written, of a StrongARM store (R1006) or of the burst of
a DMA channel (R956). -/
structure Outbound where
  cmd : PciCmd
  addr : Word
  data : List (Word × BitVec 4)
  chan : Option (Fin 2)
deriving DecidableEq, Repr

/-- The PCI Unit (R105, R941). -/
structure Pci where
  /-- PCI_CMD_STAT (R160): the bits with no named meaning, the named command bits and the status bits -/
  cmdStat : Word
  busMaster : Bool
  memWriteInv : Bool
  parityResp : Bool
  serrEnable : Bool
  masterAbort : Bool
  targetAbort : Bool
  parityErr : Bool
  dataParity : Bool
  systemErr : Bool
  cacheLnSize : Word
  /-- master latency timer value (R941), at bits 15:8 of the CACHE_LNSIZE longword (R160) -/
  latencyTimer : Byte
  memBar : Word
  ioBar : Word
  dramBar : Word
  addrExt : Word
  dramMask : Word
  /-- SA_CONTROL (R163): word, initialize complete, discard timer expired, watchdog enable -/
  saControl : Word
  initDone : Bool
  discardExp : Bool
  watchdog : Bool
  /-- IXP1200_RESET bits without a named meaning (R175) -/
  resetWord : Word
  /-- DMA_INF_MODE (R164): 0 StrongARM owns both, 1 microengines own both, 2 split; its other bits -/
  dmaMode : Fin 3
  dmaModeWord : Word
  chans : Vector Chan 2
  dmaReq : List DmaReq
  /-- I2O (R170) -/
  inbFreeHead : Word
  inbPostTail : Word
  outbFreeTail : Word
  outbPostHead : Word
  inbFreeCount : Nat
  inbPostCount : Nat
  outbPostCount : Nat
  outbMask : Bool
  outbMaskWord : Word
  /-- mailboxes (R171), doorbell and masks (R172) -/
  mailbox : Vector Word 4
  doorbell : Word
  dbellPciMask : Word
  dbellSaMask : Word
  /-- second-level interrupt enables (R173) -/
  irqEnable : Word
  fiqEnable : Word
  /-- FIFOs and delayed-read latch (R990, R997) -/
  inbound : List Inbound
  outbound : List Outbound
  latch : Option ReadLatch
  /-- arbiter (R941, R946): the master that had the bus last, 0 the chip, 1 and 2 the external masters; the external
  masters that get no grant until they drop their request; the core waits to read from PCI -/
  arbLast : Fin 3
  arbMuted : BitVec 2
  coreReq : Bool
  timers : Vector Timer 4
deriving DecidableEq, Repr

/-! ### StrongARM core and system registers -/

/-- A line of a cache (R83, R84): virtual and physical line address, bytes, none where nothing had written the memory
(D10), a dirty bit per half. -/
structure CacheLine where
  set : Nat
  way : Nat
  va : Word
  pa : Word
  data : List (Option Byte)
  dirtyLo : Bool
  dirtyHi : Bool
deriving DecidableEq, Repr

/-- A cache: its valid lines and the round robin pointer of each set, sets listed when not at way 0. -/
structure Cache where
  lines : List CacheLine
  ptrs : List (Nat × Nat)
deriving DecidableEq, Repr

/-- A translation buffer (R82, R673): 32 places and the round robin pointer, the place the next fill takes. -/
structure Tlb where
  slots : Vector (Option TlbEntry) 32
  ptr : Fin 32
deriving DecidableEq, Repr

/-- An entry of the core's write buffer (R85): 1 to 16 bytes from one address; a byte of a written back half line that
nothing has written is none, and is not written; `joined` says that it continues the transfer of the entry before it, a line
eviction or a store multiple (R904). -/
structure WbEntry where
  addr : Nat
  bytes : List (Option Byte)
  joined : Bool
deriving DecidableEq, Repr

/-- A read buffer entry (R86, R683): line virtual address, valid words, data (while it fills, the longwords read so far),
abort mark, fill pending; whether the entry has been flushed or invalidated while it fills, so that it holds nothing and is
free once its fill is over. -/
structure ReadBuf where
  va : Word
  valid : BitVec 8
  data : List (Option Byte)
  abort : Bool
  filling : Bool
  pa : Word
  dropped : Bool
deriving DecidableEq, Repr

/-- A StrongARM instruction that has begun and waits, or the write half of a SWP (D46): the acts still to come, the base
register and its value to restore on an abort, the next instruction's address, and whether its last store went into
the write buffer. -/
structure Resume where
  acts : List ArmAct
  base : Option (Fin 16 × Word)
  next : Word
  merging : Bool
deriving DecidableEq, Repr

/-- An instruction fetch that has begun and waits: the MMU setting it uses (R675), and the line of the old cache contents
that serves it, if one does (D48). -/
structure Fetching where
  mmu : Bool
  line : Option CacheLine
deriving DecidableEq, Repr

/-- The StrongARM core (R80 to R87). -/
structure Arm where
  /-- r0 to r14 of User mode, the banked registers, the pc (R80; the banks are ARM V4's) -/
  usr : Vector Word 15
  fiq : Vector Word 7
  svc : Vector Word 2
  abt : Vector Word 2
  irq : Vector Word 2
  und : Vector Word 2
  pc : Word
  cpsr : Word
  spsrFiq : Word
  spsrSvc : Word
  spsrAbt : Word
  spsrIrq : Word
  spsrUnd : Word
  /-- CONTROL_CP15 (R261): word and the bits M, C, W, I, alignment fault enable and vector relocation X -/
  control : Word
  mmuOn : Bool
  dcOn : Bool
  wbOn : Bool
  icOn : Bool
  alignOn : Bool
  vectorHigh : Bool
  ttb : Word
  domain : Word
  fsr : Word
  far : Word
  clockIdle : Word
  /-- breakpoint registers (R87) -/
  ibcr : Word
  ibEnable : Bool
  dbar : Word
  dbvr : Word
  dbmr : Word
  dbcr : Word
  dbLoad : Bool
  dbStore : Bool
  dbData : Bool
  itlb : Tlb
  dtlb : Tlb
  icache : Cache
  dcache : Cache
  mini : Cache
  /-- write buffer, at most eight (R85); read buffer, four entries (R86), and its fills still to come, oldest first -/
  wb : List WbEntry
  rb : Vector (Option ReadBuf) 4
  rbQueue : List (Fin 4)
  /-- fetches that still use the old MMU setting and that setting (R675) -/
  flatLeft : Nat
  flatMmu : Bool
  /-- fetches that may still come from the cache before a flush, and that cache (D48) -/
  staleLeft : Nat
  staleLines : List CacheLine
  /-- instructions for which an IRQ, an FIQ, may still wait after the MSR that enabled it (R685) -/
  irqLate : Nat
  fiqLate : Nat
  /-- MODEL's own: an enabled FIQ was pending when the core took the data abort just now, and comes next (R1052) -/
  fiqDue : Bool
  /-- MODEL's own: an instruction in progress -/
  resume : Option Resume
  /-- MODEL's own: a fetch in progress -/
  fetching : Option Fetching
  /-- MODEL's own: the longwords that the walk or fill in progress has read (R1007) -/
  readSoFar : List Byte
deriving DecidableEq, Repr

/-- A received UART byte with its error flags (R1095). -/
structure UartByte where
  data : Byte
  parity : Bool
  framing : Bool
  overrun : Bool
deriving DecidableEq, Repr

/-- The system-register devices (R106, R240 to R252). -/
structure Sys where
  pllCfg : Word
  /-- UART (R242 to R244) -/
  uartCr : Word
  uartRxInt : Bool
  uartTxInt : Bool
  uartFiq : Bool
  uartEnable : Bool
  uartTx : List Byte
  uartRx : List UartByte
  uartInt : Bool
  /-- GPIO (R245, R246): output pins, driven levels, unnamed bits of the two registers -/
  gpioEn : BitVec 4
  gpioDriven : BitVec 4
  gpioEnWord : Word
  gpioDataWord : Word
  /-- RTC holding registers (R247 to R251), interrupt fields, and working registers (R252) -/
  rtcDiv : BitVec 16
  rtcIntEnable : Bool
  rtcInt : Bool
  rtcFiq : Bool
  rtcDivWord : Word
  rtcTint : Word
  rtcTval : Word
  rtcAlm : Word
  rtcCntr : Word
  wDiv : BitVec 16
  wTint : Word
  wTval : Word
  wAlm : Word
  tintCount : Word
  prescaler : Bool
deriving DecidableEq, Repr

/-! ### Environment -/

/-- What leaves the chip, in order (92_eei_decisions.md section 3). -/
inductive Output where
  | ixTransmit (mac port : BitVec 3) (data : List Quad) (bytes : Nat) (fbe : Byte)
      (sop eop asIs err : Bool)
  | flowControl (mac : BitVec 3) (mask : Byte)
  | readyBusSend (w : Word)
  /-- a transaction of the chip as master: one Dword with its byte enables for each data phase, 0 for a read -/
  | pciMaster (cmd : PciCmd) (addr : Word) (data : List (Word × BitVec 4))
  | pciAccept (data : List Word)
  | pciRetry
  | pciDisconnect (k : Nat) (data : List Word)
  | pciNoClaim
  | serr
  /-- perr_l, asserted in the data phases flagged (R1015, R1016) -/
  | perr (phases : List Bool)
  /-- pci_irq_l became asserted or deasserted (R985) -/
  | pciIrq (asserted : Bool)
  /-- the GPIO pins the core drives and their levels, when either changes (R1097, R1191) -/
  | gpio (driven levels : BitVec 4)
  | uart (b : Byte)
  | slowPort (addr : Nat) (data : List Byte)
  | bootRom (addr : Nat) (data : List Byte)
  | resetOut
deriving DecidableEq, Repr

/-- Levels and data the environment holds for the chip (D30). -/
structure Env where
  macRx : Vector Byte 7
  macTx : Vector Byte 7
  fastRx : BitVec 2
  slave : List Word
  chained : List Word
  gpio : BitVec 4
  cint : Bool
  pciReq : BitVec 2
  /-- the bytes the slow port devices deliver (R884), by their byte address there -/
  slow : Mem
deriving DecidableEq, Repr

/-- The machine. -/
structure State where
  mes : Vector Me 6
  /-- MODEL's own: the microengine on which `exec` runs a microengine instruction -/
  cur : Fin 6
  fbi : Fbi
  sdram : Sdram
  sram : Sram
  pci : Pci
  arm : Arm
  sys : Sys
  env : Env
  board : Board
  /-- MODEL's own: the environment's and scheduler's choices still to come; when none is listed the next one is free -/
  inputs : List Event
  /-- the ordered trace of host-visible outputs, newest last -/
  outputs : List Output
  /-- MODEL's own: the draw counter of the free values -/
  free : Nat
deriving DecidableEq, Repr

/-! ### Reset -/

/-- The flags at reset: no value is stated; clear. -/
def Flags.clear : Flags := ⟨false, false, false⟩

/-- A microengine in Reset (R125, R126, R1151). CTX_ENABLES 0, the empty Command FIFO and the two cleared flags are the
spec's; every other value is the model's choice where R126 gives none (log entry 8): among them the active, next and
previous context numbers 0, no signal event set, and every wakeup selector voluntary, so that a context is ready as soon
as it is enabled. -/
def Me.reset : Me where
  inReset := true
  gprA := Vector.replicate 64 0
  gprB := Vector.replicate 64 0
  sramRd := Vector.replicate 32 0
  sramWr := Vector.replicate 32 0
  sdramRd := Vector.replicate 32 0
  sdramWr := Vector.replicate 32 0
  ustore := []
  pcs := Vector.replicate 4 0
  cc := Flags.clear
  prevCc := Flags.clear
  aluOut := 0
  aLatch := 0
  csrLatch := none
  csrShadow := none
  result1 := 0
  result2 := 0
  fbsCnt := 0
  findAge := 3
  cmdFifo := []
  ctxEnables := 0
  oldEnables := 0
  enWindow := 0
  active := 0
  nctx := 0
  pctx := 0
  executing := false
  hasRun := false
  sigEvents := Vector.replicate 4 0
  wakeup := Vector.replicate 4 .voluntary
  pending := Vector.replicate 4 0
  defer := none
  ppAge := none
  journaling := false
  uaddr := 0
  cse := false
  ecs := false
  csrRaw := Vector.replicate 20 0

/-- The FBI Unit after reset (R130, R1144): FP_READY_WAIT's two counts are 6 (R129), in the lowest eight bits. The packet,
MPKT and enqueue sequence counters start at 0, which R810 leaves open: the model's choice (DESIGN CHOICE, log entry 9). -/
def Fbi.reset : Fbi where
  hashQ := []
  pullQ := []
  pushQ := []
  hashJob := none
  hashOut := []
  tasRet := []
  rxPush := false
  txPush := false
  pushProtect := false
  apHold := false
  apJoined := false
  scratch := []
  rfifo := []
  tfifo := []
  txValid := 0
  txValid2 := 0
  xmitPtr := 0
  rxTurn := true
  cycleCnt := 0
  sopSeq := Vector.replicate 2 0
  mpktSeq := Vector.replicate 2 0
  enqSeq := Vector.replicate 2 0
  rcvReq := []
  rcvCntl := []
  statusDue := []
  statusTurn := false
  lastSlow := none
  getCmd := []
  sendCmd := []
  rcvRdyLo := 0
  rcvRdyHi := 0
  xmitRdyLo := 0
  xmitRdyHi := 0
  rdyCount := 0
  reqCount := 0
  reqCapture := 0
  captured := false
  flowMask := 0
  fcma := false
  rdybusCtl := 0
  seqEnable := false
  seqSlave := false
  manyMac := false
  uniDir := false
  sharedBus := false
  bigEndian := false
  rcvRdyCtl := 0
  xmitRdyCtl := 0
  rxApEnable := false
  rxApSignal := false
  rxApThread := 0
  apWindow := 0
  txApEnable := false
  txApSignal := false
  txApThread := 0
  dualValid := false
  prog := Vector.replicate 12 0
  seqPos := 0
  seqWait := false
  seqTime := 0
  seqExpired := false
  synchCount := 0
  fpReadyWait := 0x66
  fpHeader := Vector.replicate 2 0
  fpBody := Vector.replicate 2 0
  fpBodyValid := Vector.replicate 2 false
  mult64Hi := 0
  mult64Lo := 0
  mult48Hi := 0
  mult48Lo := 0
  iregThreads := 0
  iregBp := 0
  iregCtl := 0
  threadDone := 0
  selfDestruct := 0

/-- The SDRAM Unit after reset: held in reset, contents lost (R128, R841, R1146). That the arbiter's last bank starts as
even, which R842 leaves open, is the model's choice (DESIGN CHOICE, log entry 9). -/
def Sdram.reset : Sdram where
  mem := []
  orderQ := []
  oddQ := []
  evenQ := []
  prioQ := []
  rr := [.amba, .pci, .prio]
  lastOdd := false
  chains := []
  pciChain := none
  busChain := none
  chainCount := 0
  inReset := true
  initPending := false
  ready := false
  csr := 0
  memctl0 := 0
  memctl1 := 0
  meminit := 0
  bigEndian := false
  posted := []
  past := none

/-- The SRAM Unit after reset (R128, R130). That the Write/Order queue has the first turn of Table 8-5 is the model's
choice (log entry 70). -/
def Sram.reset : Sram where
  mem := []
  boot := []
  orderQ := []
  readQ := []
  prioQ := []
  cam := []
  lockFail := []
  retry := false
  side := .order
  served := 0
  pushPop := Vector.replicate 8 0
  csr := 0
  failStatus := false
  doneStatus := false
  slowConfig := 0
  bootConfig := 0
  slowportConfig := 0
  testMod := 0
  autoBase := 0
  autoEnd := 0
  autoPtr := 0
  posted := []

/-- An idle DMA channel. -/
def Chan.reset : Chan where
  byteCount := 0
  pciAddr := 0
  dramAddr := 0
  descPtr := 0
  control := 0
  error := false
  busy := false
  needDesc := false
  owner := .strongArm

/-- A disabled timer with no interrupt pending (R1092). -/
def Timer.reset : Timer where
  load := 0
  value := 0
  enable := false
  periodic := false
  prescale := 0
  int := false
  control := 0

/-- The PCI Unit after reset: inactive, DMA_INF_MODE split, WE clear (R129, R1145). -/
def Pci.reset : Pci where
  cmdStat := 0
  busMaster := false
  memWriteInv := false
  parityResp := false
  serrEnable := false
  masterAbort := false
  targetAbort := false
  parityErr := false
  dataParity := false
  systemErr := false
  cacheLnSize := 0
  latencyTimer := 0
  memBar := 0
  ioBar := 0
  dramBar := 0
  addrExt := 0
  dramMask := 0
  saControl := 0
  initDone := false
  discardExp := false
  watchdog := false
  resetWord := 0
  dmaMode := 2
  dmaModeWord := 0
  chans := Vector.replicate 2 Chan.reset
  dmaReq := []
  inbFreeHead := 0
  inbPostTail := 0
  outbFreeTail := 0
  outbPostHead := 0
  inbFreeCount := 0
  inbPostCount := 0
  outbPostCount := 0
  outbMask := false
  outbMaskWord := 0
  mailbox := Vector.replicate 4 0
  doorbell := 0
  dbellPciMask := 0
  dbellSaMask := 0
  irqEnable := 0
  fiqEnable := 0
  inbound := []
  outbound := []
  latch := none
  arbLast := 0
  arbMuted := 0
  coreReq := false
  timers := Vector.replicate 4 Timer.reset

/-- A translation buffer with no entry, its pointer at the first place. -/
def Tlb.empty : Tlb := ⟨Vector.replicate 32 none, 0⟩

/-- The StrongARM core after reset (R127, R1053): supervisor mode with I and F set, pc 0, MMU, caches and write buffer
off, little endian, vectors at 0. The spec starts the data caches' round robin pointers at way 0 (R129, R680); that those of
the Icache start there too, and that the read buffer and its queue of fills are empty, is the model's choice (log
entry 73). -/
def Arm.reset : Arm where
  usr := Vector.replicate 15 0
  fiq := Vector.replicate 7 0
  svc := Vector.replicate 2 0
  abt := Vector.replicate 2 0
  irq := Vector.replicate 2 0
  und := Vector.replicate 2 0
  pc := 0
  cpsr := 0xD3
  spsrFiq := 0
  spsrSvc := 0
  spsrAbt := 0
  spsrIrq := 0
  spsrUnd := 0
  control := 0
  mmuOn := false
  dcOn := false
  wbOn := false
  icOn := false
  alignOn := false
  vectorHigh := false
  ttb := 0
  domain := 0
  fsr := 0
  far := 0
  clockIdle := 0
  ibcr := 0
  ibEnable := false
  dbar := 0
  dbvr := 0
  dbmr := 0
  dbcr := 0
  dbLoad := false
  dbStore := false
  dbData := false
  itlb := Tlb.empty
  dtlb := Tlb.empty
  icache := ⟨[], []⟩
  dcache := ⟨[], []⟩
  mini := ⟨[], []⟩
  wb := []
  rb := Vector.replicate 4 none
  rbQueue := []
  flatLeft := 0
  flatMmu := false
  staleLeft := 0
  staleLines := []
  irqLate := 0
  fiqLate := 0
  fiqDue := false
  resume := none
  fetching := none
  readSoFar := []

/-- The system-register devices at power-up: the trim registers are zero, the GPIO pins inputs (R129, R252). -/
def Sys.reset : Sys where
  pllCfg := 0
  uartCr := 0
  uartRxInt := false
  uartTxInt := false
  uartFiq := false
  uartEnable := false
  uartTx := []
  uartRx := []
  uartInt := false
  gpioEn := 0
  gpioDriven := 0
  gpioEnWord := 0
  gpioDataWord := 0
  rtcDiv := 0
  rtcIntEnable := false
  rtcInt := false
  rtcFiq := false
  rtcDivWord := 0
  rtcTint := 0
  rtcTval := 0
  rtcAlm := 0
  rtcCntr := 0
  wDiv := 0
  wTint := 0
  wTval := 0
  wAlm := 0
  tintCount := 0
  prescaler := false

/-- The environment before any event: every level low, nothing offered. -/
def Env.initial : Env where
  macRx := Vector.replicate 7 0
  macTx := Vector.replicate 7 0
  fastRx := 0
  slave := []
  chained := []
  gpio := 0
  cint := false
  pciReq := 0
  slow := []

/-- The machine right after reset (R125 to R130, R1141). -/
def State.reset : State where
  mes := Vector.replicate 6 Me.reset
  cur := 0
  fbi := Fbi.reset
  sdram := Sdram.reset
  sram := Sram.reset
  pci := Pci.reset
  arm := Arm.reset
  sys := Sys.reset
  env := Env.initial
  board := Board.default
  inputs := []
  outputs := []
  free := 0

end Sys2Proof.Machine
end

