-- ==== Sys2Proof/Machine/Memory.lean ====
section
/-! DEFINITION. The named operations over one memory space (20_memory.md R300, R340): one byte, then longwords and
quadwords built from bytes in one place, little-endian (D44). -/

namespace Sys2Proof.Machine

/-- The byte at an address; none where nothing has been written (D10). -/
def Mem.read (a : Nat) : Mem → Option Byte
  | [] => none
  | c :: rest => if c.1 = a then some c.2 else Mem.read a rest

/-- Write one byte, keeping addresses strictly rising. -/
def Mem.write (a : Nat) (b : Byte) : Mem → Mem
  | [] => [(a, b)]
  | c :: rest => if a < c.1 then (a, b) :: c :: rest else if a = c.1 then (a, b) :: rest else c :: Mem.write a b rest

/-- The `n` bytes from `a`, if all have been written. -/
def Mem.readBytes (m : Mem) (a : Nat) : Nat → Option (List Byte)
  | 0 => some []
  | n + 1 => do
    let b ← m.read a
    let bs ← m.readBytes (a + 1) n
    pure (b :: bs)

/-- Write bytes at ascending addresses from `a`. -/
def Mem.writeBytes (m : Mem) (a : Nat) : List Byte → Mem
  | [] => m
  | b :: bs => (m.write a b).writeBytes (a + 1) bs

/-- Write the bytes whose mask bit, counted from bit 0, is set (R843, R906, D35). -/
def Mem.writeMasked (m : Mem) (a : Nat) (mask : Nat) : List Byte → Mem
  | [] => m
  | b :: bs => (if mask % 2 = 1 then m.write a b else m).writeMasked (a + 1) (mask / 2) bs

/-- The four bytes of a longword, lowest first (D44). -/
def wordBytes (v : Word) : List Byte :=
  [v.extractLsb' 0 8, v.extractLsb' 8 8, v.extractLsb' 16 8, v.extractLsb' 24 8]

/-- The eight bytes of a quadword, lowest first (D44). -/
def quadBytes (v : Quad) : List Byte := wordBytes (v.setWidth 32) ++ wordBytes (v.extractLsb' 32 32)

/-- A number from bytes, lowest first. -/
def natOfBytes : List Byte → Nat
  | [] => 0
  | b :: bs => b.toNat + 256 * natOfBytes bs

/-- A longword from its bytes. -/
def wordOf (bs : List Byte) : Word := BitVec.ofNat 32 (natOfBytes bs)

/-- A quadword from its bytes. -/
def quadOf (bs : List Byte) : Quad := BitVec.ofNat 64 (natOfBytes bs)

/-- Longword `i` of a space addressed by longwords. -/
def Mem.readWord (m : Mem) (i : Nat) : Option Word := (m.readBytes (4 * i) 4).map wordOf

/-- Write longword `i`. -/
def Mem.writeWord (m : Mem) (i : Nat) (v : Word) : Mem := m.writeBytes (4 * i) (wordBytes v)

/-- Quadword `i` of a space addressed by quadwords. -/
def Mem.readQuad (m : Mem) (i : Nat) : Option Quad := (m.readBytes (8 * i) 8).map quadOf

/-- Write quadword `i`. -/
def Mem.writeQuad (m : Mem) (i : Nat) (v : Quad) : Mem := m.writeBytes (8 * i) (quadBytes v)

/-- `n` longwords from longword `i`. -/
def Mem.readWords (m : Mem) (i : Nat) : Nat → Option (List Word)
  | 0 => some []
  | n + 1 => do
    let w ← m.readWord i
    let ws ← m.readWords (i + 1) n
    pure (w :: ws)

/-- Write longwords from longword `i` upward. -/
def Mem.writeWords (m : Mem) (i : Nat) : List Word → Mem
  | [] => m
  | w :: ws => (m.writeWord i w).writeWords (i + 1) ws

/-- `n` quadwords from quadword `i`. -/
def Mem.readQuads (m : Mem) (i : Nat) : Nat → Option (List Quad)
  | 0 => some []
  | n + 1 => do
    let q ← m.readQuad i
    let qs ← m.readQuads (i + 1) n
    pure (q :: qs)

/-- Write quadwords from quadword `i` upward. -/
def Mem.writeQuads (m : Mem) (i : Nat) : List Quad → Mem
  | [] => m
  | q :: qs => (m.writeQuad i q).writeQuads (i + 1) qs

/-- Low and high longword of a quadword. -/
def quadLow (q : Quad) : Word := q.setWidth 32
def quadHigh (q : Quad) : Word := q.extractLsb' 32 32

/-- A quadword from its low and high longword. -/
def quadOfWords (lo hi : Word) : Quad := hi ++ lo

/-- The bits of four byte enables. -/
def byteMask (en : BitVec 4) : Word :=
  let k : Nat → Byte := fun i => if en.getLsbD i then 0xFF else 0
  k 3 ++ k 2 ++ k 1 ++ k 0

/-- The enabled bytes of `v` over `old`. -/
def merge (old v mask : Word) : Word := (old &&& ~~~mask) ||| (v &&& mask)

/-! ### Fields of a register whose position is CSR_LAYOUT's (R290) -/

/-- One bit at a CSR_LAYOUT position. -/
def getBit (f : CsrField) (v : Word) : Bool := v.getLsbD (Config.fieldLo f).toNat

/-- A field of `w` bits at a CSR_LAYOUT position. -/
def getField (f : CsrField) (w : Nat) (v : Word) : BitVec w := (v >>> (Config.fieldLo f).toNat).setWidth w

/-- Put a field of `w` bits into a register word. -/
def putField (f : CsrField) {w : Nat} (x : BitVec w) (v : Word) : Word :=
  let lo := (Config.fieldLo f).toNat
  (v &&& ~~~(((BitVec.allOnes w).setWidth 32) <<< lo)) ||| ((x.setWidth 32) <<< lo)

/-- Put one bit into a register word. -/
def putBit (f : CsrField) (x : Bool) (v : Word) : Word := putField f (bit x) v

end Sys2Proof.Machine
end

