-- ==== Sys2Proof/Machine/Ops.lean ====
section
/-! DEFINITION. The shared operations of the agents: how a step stops, the microengine's register files, signals, the
context arbiter, how an instruction retires, how a command is issued; and the StrongARM core's exception entry and
return. -/

namespace Sys2Proof.Machine

/-! ### How an operation stops -/

/-- An operation stops with a fault or a refusal. -/
inductive Stop where
  | fault (f : Fault)
  | refused (r : Refusal)
deriving DecidableEq, Repr

/-- The result of an operation that may stop. -/
abbrev Res (α : Type) := Except Stop α

/-- Stop with a fault. -/
def stopFault {α : Type} (f : Fault) : Res α := .error (.fault f)

/-- Stop with a refusal. -/
def refuse {α : Type} (r : Refusal) : Res α := .error (.refused r)

/-- A value that must have been written (D10). -/
def written {α : Type} : Option α → Res α
  | some v => .ok v
  | none => stopFault .unwrittenMemory

/-- A condition that must hold, else a refusal. -/
def require (b : Bool) (r : Refusal) : Res Unit := if b then .ok () else refuse r

/-- The outcome of a step. -/
def finish : Res State → Host.Outcome State Fault Refusal
  | .ok s => .next s
  | .error (.fault f) => .fault f
  | .error (.refused r) => .refused r

/-! ### Microengines and threads -/

/-- Microengine `m`. -/
def State.me (s : State) (m : Fin 6) : Me := s.mes[m]

/-- Replace microengine `m`. -/
def State.setMe (s : State) (m : Fin 6) (e : Me) : State := { s with mes := s.mes.set m e }

/-- The microengine `exec` runs on. -/
def State.engine (s : State) : Me := s.me s.cur

/-- Thread number 4 * microengine + context (D3). -/
def threadNo (m : Fin 6) (c : Fin 4) : Nat := 4 * m.val + c.val

/-- The microengine of thread `t` (D3). -/
def threadMe (t : Fin 24) : Fin 6 := ⟨t.val / 4, by omega⟩

/-- The context of thread `t` (D3). -/
def threadCtx (t : Fin 24) : Fin 4 := ⟨t.val % 4, by omega⟩

/-- A thread number below 24 held in five bits; larger values are taken modulo 24 so that the map is total. -/
def threadOf (v : BitVec 5) : Fin 24 := ⟨v.toNat % 24, Nat.mod_lt _ (by decide)⟩

/-- The position of an event in a signal set. -/
def sigBit : SigEvent → Nat
  | .fbi => 0 | .pci => 1 | .sram => 2 | .sdram => 3 | .seqNum1 => 4 | .seqNum2 => 5
  | .interThread => 6 | .startReceive => 7 | .autoPush => 8

/-- The set holding one event. -/
def sigMask (e : SigEvent) : SigSet := 1#9 <<< sigBit e

/-- The event is in the set. -/
def SigSet.has (v : SigSet) (e : SigEvent) : Bool := v.getLsbD (sigBit e)

/-- Set event `e` of context `c`: one flag, not a count (R75); the request that asked for it is no longer pending
(R78). -/
def Me.raise (m : Me) (c : Fin 4) (e : SigEvent) : Me :=
  { m with sigEvents := m.sigEvents.set c (m.sigEvents[c] ||| sigMask e)
           pending := m.pending.set c (m.pending[c] &&& ~~~(sigMask e)) }

/-- `signal(t, ev)` of R26. -/
def State.signal (s : State) (m : Fin 6) (c : Fin 4) (e : SigEvent) : State := s.setMe m ((s.me m).raise c e)

/-- Signal thread number `t`. -/
def State.signalThread (s : State) (t : Fin 24) (e : SigEvent) : State := s.signal (threadMe t) (threadCtx t) e

/-- Signal all twenty-four threads (R810). -/
def State.signalAll (s : State) (e : SigEvent) : State :=
  { s with mes := s.mes.map fun m => (((m.raise 0 e).raise 1 e).raise 2 e).raise 3 e }

/-- The completion signal of a command, if it asked for one (R588). -/
def State.completed (s : State) (c : Cmd) : State :=
  match c.sig with
  | some e => s.signal c.sigMe c.sigCtx e
  | none => s

/-! ### Register files -/

/-- Absolute GPR number of a name in context `c` (R42, D5). -/
def gprIndex (c : Fin 4) : Gpr → Fin 64
  | .rel _ r => ⟨16 * c.val + r.val, by omega⟩
  | .abs _ r => r

/-- Absolute transfer register number of a name in context `c` (R48, D5). -/
def xferIndex (c : Fin 4) : Xfer → Fin 32
  | .rel r => ⟨8 * c.val + r.val, by omega⟩
  | .abs r => r

/-- Read a GPR. -/
def Me.gpr (m : Me) (c : Fin 4) (g : Gpr) : Word :=
  match g with
  | .rel .a _ | .abs .a _ => m.gprA[gprIndex c g]
  | .rel .b _ | .abs .b _ => m.gprB[gprIndex c g]

/-- Write a GPR. -/
def Me.setGpr (m : Me) (c : Fin 4) (g : Gpr) (v : Word) : Me :=
  match g with
  | .rel .a _ | .abs .a _ => { m with gprA := m.gprA.set (gprIndex c g) v }
  | .rel .b _ | .abs .b _ => { m with gprB := m.gprB.set (gprIndex c g) v }

/-- Write a destination: a GPR of either bank, a write transfer register, or nothing (R45, R450). -/
def Me.writeDest (m : Me) (c : Fin 4) (d : Dest) (v : Word) : Me :=
  match d with
  | .gpr g => m.setGpr c g v
  | .sram x => { m with sramWr := m.sramWr.set (xferIndex c x) v }
  | .sdram x => { m with sdramWr := m.sdramWr.set (xferIndex c x) v }
  | .none => m

/-- The present value of a destination, which the partial loads merge into (R602, R610). -/
def Me.readDest (m : Me) (c : Fin 4) (d : Dest) : Word :=
  match d with
  | .gpr g => m.gpr c g
  | .sram x => m.sramWr[xferIndex c x]
  | .sdram x => m.sdramWr[xferIndex c x]
  | .none => 0

/-- Register `n` of a transfer file by number; the callers keep `n` below 32 (D7). -/
def fileGet (f : Vector Word 32) (n : Nat) : Word := f[n]?.getD 0

/-- Write register `n` of a transfer file. -/
def fileSet (f : Vector Word 32) (n : Nat) (v : Word) : Vector Word 32 := f.setIfInBounds n v

/-- `n` registers from `x`. -/
def fileGets (f : Vector Word 32) (x : Nat) : Nat → List Word
  | 0 => []
  | n + 1 => fileGet f x :: fileGets f (x + 1) n

/-- Write registers from `x` upward. -/
def fileSets (f : Vector Word 32) (x : Nat) : List Word → Vector Word 32
  | [] => f
  | v :: vs => fileSets (fileSet f x v) (x + 1) vs

/-- Push data into the SRAM read transfer registers of microengine `m` (R45, R731). -/
def State.pushSram (s : State) (m : Fin 6) (x : Nat) (vs : List Word) : State :=
  s.setMe m { s.me m with sramRd := fileSets (s.me m).sramRd x vs }

/-- Push data into the SDRAM read transfer registers of microengine `m`. -/
def State.pushSdram (s : State) (m : Fin 6) (x : Nat) (vs : List Word) : State :=
  s.setMe m { s.me m with sdramRd := fileSets (s.me m).sdramRd x vs }

/-- Pull data from the SRAM write transfer registers of microengine `m`. -/
def State.pullSram (s : State) (m : Fin 6) (x n : Nat) : List Word := fileGets (s.me m).sramWr x n

/-- Pull data from the SDRAM write transfer registers of microengine `m`. -/
def State.pullSdram (s : State) (m : Fin 6) (x n : Nat) : List Word := fileGets (s.me m).sdramWr x n

/-! ### Contexts -/

/-- Execution state of a microengine (R64). -/
def Me.status (m : Me) : MeStatus :=
  if m.inReset then .reset
  else if m.executing || m.ctxEnables != 0 then .running
  else if m.hasRun then .paused else .stopped

/-- Context `k`'s wakeup condition holds (R642). -/
def Me.ready (m : Me) (k : Fin 4) : Bool :=
  match m.wakeup[k] with
  | .voluntary => true
  | .signal e => SigSet.has m.sigEvents[k] e

/-- The candidates in scan order from `nctx` (R642, D18). -/
def scanOrder (n : Fin 4) : List (Fin 4) := [n, n + 1, n + 2, n + 3]

/-- The context the arbiter takes under the enables `en`: the first selection after Stopped tries the number written to
ACTIVE_CTX_STS first (R642). -/
def Me.pick (m : Me) (en : BitVec 4) : Option (Fin 4) :=
  let ok := fun k : Fin 4 => en.getLsbD k.val && m.ready k
  if !m.hasRun && ok m.active then some m.active else (scanOrder m.nctx).find? ok

/-- Start context `k` (R642): its awaited flag is cleared. -/
def Me.start (m : Me) (k : Fin 4) : Me :=
  { m with
    pctx := m.active
    active := k
    nctx := k + 1
    executing := true
    hasRun := true
    sigEvents := match m.wakeup[k] with
      | .voluntary => m.sigEvents
      | .signal e => m.sigEvents.set k (m.sigEvents[k] &&& ~~~(sigMask e)) }

/-- The enables an arbitration sees: inside the window after a write of CTX_ENABLES, old or new (R1165 (c)). -/
def Me.enablesSeen (m : Me) (draw : Bool) : BitVec 4 :=
  if m.enWindow = 0 then m.ctxEnables else if draw then m.oldEnables else m.ctxEnables

/-- Run the context arbiter of a microengine in which no context is executing (R642). -/
def Me.arbitrate (m : Me) (draw : Bool) : Me :=
  match m.pick (m.enablesSeen draw) with
  | some k => m.start k
  | none => m

/-- Leave the running context as a swap or `ctx_arb` says, then arbitrate (R640, R647). -/
def Me.leave (m : Me) (act : DeferAct) (draw : Bool) : Me :=
  match act with
  | .swap w => { m with wakeup := m.wakeup.set m.active w, executing := false }.arbitrate draw
  | .kill =>
    { m with wakeup := m.wakeup.set m.active .voluntary
             ctxEnables := m.ctxEnables &&& ~~~(1#4 <<< m.active.val)
             oldEnables := m.oldEnables &&& ~~~(1#4 <<< m.active.val)
             executing := false }.arbitrate draw
  | _ => m

/-! ### How an instruction retires -/

/-- What an executed instruction leaves in the latches: its ALU result and A operand, none when it has none, the
codes it writes, the local CSR it read or wrote, whether it is a find or clear of the find-bit-set logic. -/
structure Retire where
  alu    : Option Word := none
  a      : Option Word := none
  cc     : Option Flags := none
  latch  : Option Word := none
  shadow : Option (LocalCsr × Word) := none
  find   : Bool := false

/-- The latches after an instruction (R55 to R58, R648): the previous codes take the codes it started with; an
instruction with no ALU result or no A operand leaves an unspecified latch (U2, U6). -/
def Me.latch (m : Me) (r : Retire) (n : Nat) : Me :=
  { m with
    prevCc := m.cc
    cc := r.cc.getD m.cc
    aluOut := r.alu.getD (Config.freeWord .aluOut n)
    aLatch := (r.a.getD (Config.freeWord .aLatch n)).setWidth 5
    csrLatch := r.latch
    csrShadow := r.shadow
    findAge := if r.find then 0 else min 3 (m.findAge + 1)
    enWindow := m.enWindow - 1
    ppAge := m.ppAge.map (· + 1) }

/-- Set the running context's program counter. -/
def Me.setPc (m : Me) (pc : BitVec 12) : Me := { m with pcs := m.pcs.set m.active pc }

/-- The running context's program counter. -/
def Me.pc (m : Me) : BitVec 12 := m.pcs[m.active]

/-- Go on to the next instruction: by 1 (R53), or to what the last deferred instruction leads to (R483, R641). -/
def Me.advance (m : Me) (draw : Bool) : Me :=
  match m.defer with
  | none => m.setPc (m.pc + 1)
  | some ⟨n + 2, act⟩ => { m.setPc (m.pc + 1) with defer := some ⟨n + 1, act⟩ }
  | some ⟨_, .jump t⟩ => { m.setPc t with defer := none }
  | some ⟨_, act⟩ => { m.setPc (m.pc + 1) with defer := none }.leave act draw

/-- Put the current engine back after an instruction and count one draw. -/
def State.putEngine (s : State) (m : Me) : State := { s.setMe s.cur m with free := s.free + 1 }

/-- The draw an arbitration inside the CTX_ENABLES window makes (R1165 (c)). -/
def State.enableDraw (s : State) : Bool := Config.freeBit .enables s.free

/-- An instruction that is no branch and no swap is done: `m` holds its register results, `r` its latches. -/
def State.retire (s : State) (m : Me) (r : Retire) : State :=
  s.putEngine ((m.latch r s.free).advance s.enableDraw)

/-- A branch is done (R482, R483): the decision has been taken on the state before the deferred instructions. A
branch-class instruction in a deferred position is refused (D15). -/
def State.retireBranch (s : State) (m : Me) (r : Retire) (taken : Bool) (target : BitVec 12) (n : Fin 4) : Res State :=
  if m.defer.isSome then refuse .branchInDeferSlot
  else
    let m := m.latch r s.free
    if n = 0 then .ok (s.putEngine (if taken then m.setPc target else m.setPc (m.pc + 1)))
    else .ok (s.putEngine { m.setPc (m.pc + 1) with
      defer := some ⟨n.val, if taken then .jump target else .fall⟩ })

/-- A context-change instruction is done (R640, R641): the swap follows at once, or after one deferred instruction. -/
def State.retireSwap (s : State) (m : Me) (r : Retire) (act : DeferAct) (defer1 : Bool) : Res State :=
  if m.defer.isSome then refuse .branchInDeferSlot
  else
    let m := (m.latch r s.free).setPc (m.pc + 1)
    if defer1 then .ok (s.putEngine { m with defer := some ⟨1, act⟩ })
    else .ok (s.putEngine (m.leave act s.enableDraw))

/-! ### Issuing a command -/

/-- The command FIFO has room (R61). -/
def Me.hasRoom (m : Me) : Bool := m.cmdFifo.length < 2

/-- Mark signal `e` of thread (`m`, `c`) as requested (R78). -/
def State.markPending (s : State) (m : Fin 6) (c : Fin 4) (e : SigEvent) : State :=
  s.setMe m { s.me m with pending := (s.me m).pending.set c ((s.me m).pending[c] ||| sigMask e) }

/-- The signal a reference asks for is not already pending for its thread (R78, U12). -/
def State.signalFree (s : State) (c : Cmd) : Bool :=
  match c.sig with
  | none => true
  | some e => !(SigSet.has (s.me c.sigMe).pending[c.sigCtx] e)

/-- Put a command into the running microengine's FIFO and retire the reference (R530, R580). With the FIFO full the
microengine stalls: nothing changes and the instruction is tried again (R591). With `ctx_swap` the context then
changes as by `ctx_arb` on the unit's event `ev` (R644). -/
def State.issue (s : State) (cmd : Cmd) (ev : SigEvent) (tok : RefTok) : Res State :=
  if s.engine.defer.isSome && tok.ctxSwap then refuse .branchInDeferSlot
  else if !s.engine.hasRoom then .ok s
  else if !s.signalFree cmd then refuse .signalPending
  else
    let s1 := match cmd.sig with
      | some e => s.markPending cmd.sigMe cmd.sigCtx e
      | none => s
    let m := { s1.engine with cmdFifo := s1.engine.cmdFifo ++ [cmd] }
    if tok.ctxSwap then s1.retireSwap m {} (.swap (.signal ev)) tok.defer1
    else .ok (s1.retire m {})

/-! ### StrongARM exceptions -/

/-- The exceptions of R1040. -/
inductive ArmException where
  | reset | undefined | swi | prefetchAbort | dataAbort | irq | fiq
deriving DecidableEq, Repr

/-- The vector offsets (Table 3-4, R1050). -/
def ArmException.vector : ArmException → Word
  | .reset => 0x00 | .undefined => 0x04 | .swi => 0x08 | .prefetchAbort => 0x0C
  | .dataAbort => 0x10 | .irq => 0x18 | .fiq => 0x1C

/-- The mode entered: supervisor and abort by R1053 and R1055; the others ARM V4's (PRESUMED). -/
def ArmException.mode : ArmException → ArmMode
  | .reset | .swi => .svc
  | .undefined => .und
  | .prefetchAbort | .dataAbort => .abt
  | .irq => .irq
  | .fiq => .fiq

/-- The offset `k(e)` of R1041 from the instruction's address: 8 for a data abort, 4 for a prefetch abort (R1055,
R1056), 4 for the others (PRESUMED ARM V4). -/
def ArmException.offset : ArmException → Word
  | .dataAbort => 8
  | _ => 4

/-- Mode numbers M[4:0]: 0b10011 supervisor and 0b10111 abort by R80, the others ARM V4's (PRESUMED). -/
def modeNumber : ArmMode → BitVec 5
  | .usr => 0x10 | .fiq => 0x11 | .irq => 0x12 | .svc => 0x13 | .abt => 0x17 | .und => 0x1B | .sys => 0x1F

/-- The mode of CPSR; an unlisted number counts as User mode. -/
def modeOf (v : BitVec 5) : ArmMode :=
  if v = 0x11 then .fiq else if v = 0x12 then .irq else if v = 0x13 then .svc else if v = 0x17 then .abt
  else if v = 0x1B then .und else if v = 0x1F then .sys else .usr

/-- The current mode. -/
def Arm.mode (c : Arm) : ArmMode := modeOf (c.cpsr.setWidth 5)

/-- Any mode but User is privileged (R260). -/
def Arm.privileged (c : Arm) : Bool := c.mode != .usr

/-- CPSR bits I (IRQ disable) and F (FIQ disable), at ARM V4's positions 7 and 6 (PRESUMED). -/
def Arm.irqMasked (c : Arm) : Bool := c.cpsr.getLsbD 7
def Arm.fiqMasked (c : Arm) : Bool := c.cpsr.getLsbD 6

/-- Write R14 of a mode. -/
def Arm.setLink (c : Arm) (m : ArmMode) (v : Word) : Arm :=
  match m with
  | .fiq => { c with fiq := c.fiq.set 6 v }
  | .svc => { c with svc := c.svc.set 1 v }
  | .abt => { c with abt := c.abt.set 1 v }
  | .irq => { c with irq := c.irq.set 1 v }
  | .und => { c with und := c.und.set 1 v }
  | _ => { c with usr := c.usr.set 14 v }

/-- The SPSR of a mode; User and System have none and read CPSR (PRESUMED). -/
def Arm.spsr (c : Arm) (m : ArmMode) : Word :=
  match m with
  | .fiq => c.spsrFiq | .svc => c.spsrSvc | .abt => c.spsrAbt | .irq => c.spsrIrq | .und => c.spsrUnd
  | _ => c.cpsr

/-- Write the SPSR of a mode. -/
def Arm.setSpsr (c : Arm) (m : ArmMode) (v : Word) : Arm :=
  match m with
  | .fiq => { c with spsrFiq := v } | .svc => { c with spsrSvc := v } | .abt => { c with spsrAbt := v }
  | .irq => { c with spsrIrq := v } | .und => { c with spsrUnd := v }
  | _ => c

/-- The vector base (R1051). -/
def Arm.vectorBase (c : Arm) : Word := if c.vectorHigh then 0xFFFF0000 else 0

/-- CPSR on entry: the mode bits of the exception, I set, F set for Reset and FIQ (R1041). -/
def entryCpsr (e : ArmException) (cpsr : Word) : Word :=
  let v := (cpsr &&& ~~~0x1F) ||| ((modeNumber e.mode).setWidth 32) ||| 0x80
  if e = .reset || e = .fiq then v ||| 0x40 else v

/-- Take an exception whose interrupted or faulting instruction stands at `at_` (R1041, R1053 to R1058): R14 and the
SPSR of the mode entered save the pc and CPSR, CPSR takes the mode and the interrupt disables, the pc goes to the
vector. -/
def Arm.takeException (c : Arm) (e : ArmException) (at_ : Word) : Arm :=
  { (c.setLink e.mode (at_ + e.offset)).setSpsr e.mode c.cpsr with
    cpsr := entryCpsr e c.cpsr
    pc := c.vectorBase + e.vector }

/-- Return from an exception (R1057): the pc, and CPSR from the SPSR of the current mode. -/
def Arm.returnFrom (c : Arm) (target : Word) : Arm := { c with pc := target, cpsr := c.spsr c.mode }

end Sys2Proof.Machine
end

