-- ==== Sys2Proof/Machine/Operands.lean ====
section
/-! DEFINITION. Operand forms of the microengine: source operands (R454), the shifter (R451, R455), address sums
(R532), the indirect reference word (R582 to R585). -/

namespace Sys2Proof.Machine

/-! ### Source operands -/

/-- An autopush writes SRAM read transfer register `n` of microengine `m` (R790): one that is enabled, or one requested
while it was and still to be pushed (R792). -/
def State.autopushTarget (s : State) (m : Fin 6) (n : Nat) : Bool :=
  let hits := fun (live : Bool) (t : BitVec 5) (ctl : Word) =>
    live && threadMe (threadOf t) == m && decide (8 * (threadCtx (threadOf t)).val ≤ n)
      && decide (n < 8 * (threadCtx (threadOf t)).val + (Config.autopushCount (ctl.extractLsb' 6 2)).val + 1)
  hits (s.fbi.rxApEnable || s.fbi.rxPush) s.fbi.rxApThread s.fbi.rcvRdyCtl
    || hits (s.fbi.txApEnable || s.fbi.txPush) s.fbi.txApThread s.fbi.xmitRdyCtl

/-- A read of an autopush target under the push protect protocol (R792, U14). -/
def State.protectedRead (s : State) (n : Nat) : Bool :=
  s.autopushTarget s.cur n &&
    (s.fbi.pushProtect || match s.engine.ppAge with
      | some k => decide (s.fbi.apWindow.toNat < k)
      | none => false)

/-- The value of an immediate operand: the local CSR data latched by an immediately preceding `local_csr_rd`
replaces it (R560). -/
def Me.immediate (m : Me) (v : Word) : Word := m.csrLatch.getD v

/-- Read a source operand; none for `--`. -/
def State.source (s : State) (x : Src) : Res (Option Word) :=
  match x with
  | .gpr g => .ok (some (s.engine.gpr s.engine.active g))
  | .sram x =>
    if s.protectedRead (xferIndex s.engine.active x).val then stopFault .pushProtect
    else .ok (some s.engine.sramRd[xferIndex s.engine.active x])
  | .sdram x => .ok (some s.engine.sdramRd[xferIndex s.engine.active x])
  | .imm v => .ok (some (s.engine.immediate v))
  | .none => .ok none

/-- Read a source operand that the form requires; well-formedness rules out `--`, which reads as 0. -/
def State.sourceVal (s : State) (x : Src) : Res Word := do
  let v ← s.source x
  pure (v.getD 0)

/-- The address a reference carries: the sum of its two operands (R532). -/
def State.address (s : State) (a b : Src) : Res Word := do
  let x ← s.sourceVal a
  let y ← s.sourceVal b
  pure (x + y)

/-! ### The shifter -/

/-- The 64-bit barrel shifter: shift `hi:lo` right and take the low longword (R451). -/
def barrel (hi lo : Word) (n : Nat) : Word := ((hi ++ lo : BitVec 64) >>> n).setWidth 32

/-- The shifted B operand (R451, R455). `v` is the A-operand latch, `free` the unspecified result of `<<indirect`
with a latch of 0 (U2). -/
def shiftB (shf : Shf) (b : Word) (v : BitVec 5) (free : Word) : Word :=
  match shf with
  | .none => b
  | .left n => barrel b 0 (32 - n.toNat)
  | .right n => barrel 0 b n.toNat
  | .rotRight n => barrel b b n.toNat
  | .rotLeft n => barrel b b (32 - n.toNat)
  | .rightIndirect => barrel 0 b v.toNat
  | .leftIndirect => if v = 0 then free else barrel b 0 v.toNat

/-- The double shift (R459): A above B in the shifter. -/
def shiftAB (shf : Shf) (a b : Word) (v : BitVec 5) (free : Word) : Word :=
  match shf with
  | .left n => barrel a b (32 - n.toNat)
  | .right n => barrel a b n.toNat
  | .rightIndirect => barrel a b v.toNat
  | .leftIndirect => if v = 0 then free else barrel a b v.toNat
  | .none | .rotLeft _ | .rotRight _ => b

/-- The shifted value of an operand in the current state. -/
def State.shifted (s : State) (shf : Shf) (b : Word) : Word :=
  shiftB shf b s.engine.aLatch (Config.freeWord .shiftIndirect s.free)

/-! ### Indirect references -/

/-- The fields Table 4-17 lets an instruction kind override (R585; the sram byte mask by R906; the lock commands as a
read or write, by the counts of R547). -/
def allowOverrides (k : IndirectKind) (o : Overrides) : Overrides :=
  match k with
  | .fastWr => { me := o.me, ctx := o.ctx, imm := o.imm }
  | .scratchRw => { me := o.me, ctx := o.ctx, count := o.count, xfer := o.xfer }
  | .scratchBit => { me := o.me, ctx := o.ctx, test := o.test, set := o.set, xfer := o.xfer }
  | .sdramRw => { me := o.me, ctx := o.ctx, count := o.count, xfer := o.xfer, mask := o.mask }
  | .sdramTFifo => { me := o.me, ctx := o.ctx, count := o.count, align := o.align, fifo := o.fifo }
  | .sdramRFifo => { me := o.me, ctx := o.ctx, count := o.count, fifo := o.fifo }
  | .sramRw => { me := o.me, ctx := o.ctx, count := o.count, xfer := o.xfer, mask := o.mask }
  | .sramLock => { me := o.me, ctx := o.ctx, count := o.count, xfer := o.xfer }
  | .sramPushPop => { me := o.me, ctx := o.ctx, list := o.list, xfer := o.xfer }
  | .sramBit => { me := o.me, ctx := o.ctx, test := o.test, set := o.set, xfer := o.xfer }
  | .rFifoRd => { me := o.me, ctx := o.ctx, count := o.count, xfer := o.xfer }
  | .tFifoWr => { me := o.me, ctx := o.ctx, count := o.count, xfer := o.xfer }

/-- The count override the examples fix for `t_fifo_wr` and `sdram[t_fifo_wr]`: bit 20 enables it, bits 19:16 are the
count minus one (R583, R584, R863). -/
def countOverride (w : Word) : Option (Fin 16) :=
  if w.getLsbD 20 then some ⟨(w.extractLsb' 16 4).toNat, by have := (w.extractLsb' 16 4).isLt; omega⟩ else none

/-- The TFIFO quadword address of an indirect word of `sdram[t_fifo_wr]`: the field starts at bit 4 (R583, R863); its
width, eight bits for the 160 quadwords, and that it needs no override bit are the model's choice (log entry 4). -/
def tfifoOverride (w : Word) : Byte := w.extractLsb' 4 8

/-- The overrides the ALU output latch holds for an instruction kind; none without `indirect_ref` (R582). -/
def Me.overrides (m : Me) (k : IndirectKind) (indirect : Bool) : Overrides :=
  if indirect then
    let o := allowOverrides k (Config.decodeIndirect k m.aluOut)
    match k with
    | .tFifoWr => { o with count := countOverride m.aluOut }
    | .sdramTFifo => { o with count := countOverride m.aluOut, fifo := some (tfifoOverride m.aluOut) }
    | _ => o
  else {}

/-- The count of a command: the override's field value plus one, else the instruction's (R583). -/
def countOr (o : Overrides) (n : Nat) : Nat :=
  match o.count with
  | some c => c.val + 1
  | none => n

/-- The first transfer register of a command. -/
def xferOr (o : Overrides) (x : Fin 32) : Nat := (o.xfer.getD x).val

/-- The bit operation of a command with its test and set overrides (R920). -/
def bitOpOr (o : Overrides) (op : BitOp) : BitOp :=
  let test := o.test.getD (op == .testAndSet || op == .testAndClear)
  let set := o.set.getD (op == .setBits || op == .testAndSet)
  match test, set with
  | true, true => .testAndSet
  | true, false => .testAndClear
  | false, true => .setBits
  | false, false => .clearBits

/-- A burst of `n` registers from `x` stays in the file (D7). -/
def spanOk (x n : Nat) : Bool := decide (x + n ≤ 32)

/-- The command of a reference (R580): issuer, thread to signal, microengine of the transfer registers. Only the
scratchpad's row of Table 4-17 overrides the thread alone (R585). -/
def State.command (s : State) (op : CmdOp) (q : UnitQueue) (o : Overrides) (moveXfer : Bool) (ev : SigEvent)
    (tok : RefTok) (chain : Bool) : Cmd where
  op := op
  queue := q
  me := s.cur
  ctx := s.engine.active
  xfMe := if moveXfer then o.me.getD s.cur else s.cur
  sigMe := o.me.getD s.cur
  sigCtx := o.ctx.getD s.engine.active
  sig := if tok.sigDone || tok.ctxSwap then some ev else none
  chain := chain
  link := none

end Sys2Proof.Machine
end

