-- ==== Sys2Proof/Machine/Flags.lean ====
section
/-! DEFINITION. The ALU of the microengine: the operations of Table 4-9 (R452) and every condition code rule (R453,
R54). -/

namespace Sys2Proof.Machine

/-- The exact sum that the 32-bit adder forms, with its carry at bit 32. -/
def adder (x y : Word) (cin : Bool) : BitVec 33 := x.setWidth 33 + y.setWidth 33 + (bit cin).setWidth 33

/-- The result of an ALU operation (R452): `c` the Carryout code, `p` the previous Sign code. -/
def aluResult (op : AluOp) (a s : Word) (c p : Bool) : Word :=
  match op with
  | .b => s
  | .notB => ~~~s
  | .add => (adder a s false).setWidth 32
  | .addCarry => (adder a s c).setWidth 32
  | .add4 => ((a + s).setWidth 4).setWidth 32
  | .add8 => ((a + s).setWidth 8).setWidth 32
  | .add16 => ((a + s).setWidth 16).setWidth 32
  | .sub => (adder a (~~~s) true).setWidth 32
  | .bMinusA => (adder s (~~~a) true).setWidth 32
  | .and => a &&& s
  | .notAnd => ~~~a &&& s
  | .andNot => a &&& ~~~s
  | .or => a ||| s
  | .xor => a ^^^ s
  | .addIfSign => if p then (adder a s false).setWidth 32 else s

/-- The Carryout an operation defines; none where the manual does not state it (R453, D14, U1). -/
def aluCarry (op : AluOp) (a s : Word) (c p : Bool) : Option Bool :=
  match op with
  | .add => some ((adder a s false).getLsbD 32)
  | .addCarry => some ((adder a s c).getLsbD 32)
  | .sub => some ((adder a (~~~s) true).getLsbD 32)
  | .bMinusA => some ((adder s (~~~a) true).getLsbD 32)
  | .addIfSign => if p then some ((adder a s false).getLsbD 32) else none
  | _ => none

/-- The codes after `alu` and `alu_shf` (R453): an unstated Carryout is the free bit `f`. -/
def aluFlags (op : AluOp) (a s : Word) (c p f : Bool) : Flags :=
  let r := aluResult op a s c p
  { zero := r == 0, sign := r.getLsbD 31, cout := (aluCarry op a s c p).getD f }

/-- Zero and Sign of a result, Carryout kept: `dbl_shf` and `load_bset_result` (R459, R623). -/
def resultFlags (old : Flags) (r : Word) : Flags := { zero := r == 0, sign := r.getLsbD 31, cout := old.cout }

/-- Zero and Sign unspecified, Carryout kept: the register-testing branches and the byte field loads (U3). -/
def unspecifiedFlags (old : Flags) (n : Nat) : Flags :=
  { zero := Config.freeBit .zero n, sign := Config.freeBit .sign n, cout := old.cout }

/-- The condition a class 2 branch tests (R489 to R496). -/
inductive Cond where
  | eq0 | ne0 | gt0 | ge0 | lt0 | le0 | cout | notCout
deriving DecidableEq, Repr

/-- The condition on the current codes. -/
def Cond.holds (k : Cond) (f : Flags) : Bool :=
  match k with
  | .eq0 => f.zero
  | .ne0 => !f.zero
  | .gt0 => !f.sign && !f.zero
  | .ge0 => !f.sign
  | .lt0 => f.sign
  | .le0 => f.sign || f.zero
  | .cout => f.cout
  | .notCout => !f.cout

end Sys2Proof.Machine
end

