-- ==== Sys2Proof/Machine/LocalCsr.lean ====
section
/-! DEFINITION. The control store and the twenty local CSRs of a microengine (11_state_csrs.md R140 to R153), as its
threads and the StrongARM core reach them. A register's word holds what was written to bits with no named meaning;
the named fields stand over it at their CSR_LAYOUT positions. -/

namespace Sys2Proof.Machine

/-! ### Control store -/

/-- The entry at a control store index; none where nothing has been written. -/
def ustoreGet (k : Nat) : List (Nat × UEntry) → Option UEntry
  | [] => none
  | e :: rest => if e.1 = k then some e.2 else ustoreGet k rest

/-- Write a control store word, keeping indices rising. -/
def ustorePut (k : Nat) (v : UEntry) : List (Nat × UEntry) → List (Nat × UEntry)
  | [] => [(k, v)]
  | e :: rest =>
    if k < e.1 then (k, v) :: e :: rest else if k = e.1 then (k, v) :: rest else e :: ustorePut k v rest

/-- The control store form of a word (R401). -/
def ustoreEntry (w : Word) : UEntry :=
  match decodeMe w with
  | some i => .instr i
  | none => .raw w

/-- The word of a control store entry (R142). -/
def ustoreWord : UEntry → Word
  | .instr i => Config.meEncode i
  | .raw w => w

/-! ### Values -/

/-- Where a local CSR keeps its unnamed bits. -/
def csrIndex : LocalCsr → Fin 20
  | .ustoreAddress => 0 | .ustoreData => 1 | .aluOutput => 2 | .activeCtxSts => 3 | .enableSramJournaling => 4
  | .ctxArbCntl => 5 | .ctxEnables => 6 | .ccEnable => 7
  | .ctxSts n => ⟨8 + n.val, by omega⟩
  | .ctxSigEvents n => ⟨12 + n.val, by omega⟩
  | .ctxWakeupEvents n => ⟨16 + n.val, by omega⟩

/-- The nine signal events (R75). -/
def allSignals : List SigEvent :=
  [.fbi, .pci, .sram, .sdram, .seqNum1, .seqNum2, .interThread, .startReceive, .autoPush]

/-- Put the six condition codes into a CC_ENABLE word (R148). -/
def putCodes (c p : Flags) (v : Word) : Word :=
  putBit .ccZero c.zero (putBit .ccSign c.sign (putBit .ccCarry c.cout
    (putBit .ccPrevZero p.zero (putBit .ccPrevSign p.sign (putBit .ccPrevCarry p.cout v)))))

/-- Context `n` is in the Ready state (R63): enabled, not executing, its wakeup condition true. -/
def Me.readyState (m : Me) (n : Fin 4) : Bool :=
  m.ctxEnables.getLsbD n.val && !(m.executing && m.active == n) && m.ready n

/-- The event and voluntary bits of a wakeup selector. R152 gives no encoding of `voluntary`: that it has a bit of its
own, at an open place, is the model's choice (DEDUCED, log entry 29). -/
def putWakeup (w : Wakeup) (v : Word) : Word :=
  let v := allSignals.foldl (fun acc e => putBit (.wakeEvent e) (w == .signal e) acc) v
  putBit .wakeVoluntary (w == .voluntary) v

/-- Put a program counter field of `n` bits into a word (R52). -/
def putPc (f : CsrField) (n : Nat) (pc : BitVec 12) (v : Word) : Word := putField f (pc.setWidth n) v

/-- A program counter field of `n` bits of a word. -/
def getPc (f : CsrField) (n : Nat) (v : Word) : BitVec 12 := (getField f n v).setWidth 12

/-- The value of a local CSR (R141 to R152), its program counter fields `n` bits wide. CTX_ENABLES has contexts 3 to 0
at bits 11:8 (R147). The PC field of ACTIVE_CTX_STS is the active context's counter also while none executes, and CTX_PC of
the executing context is its counter of the moment: R52 and R144 give each for the other case only (DESIGN CHOICE, log
entry 29). -/
def Me.csrValue (m : Me) (n : Nat) (k : LocalCsr) : Word :=
  let raw := m.csrRaw[csrIndex k]
  match k with
  | .ustoreAddress => putField .uaddr m.uaddr (putBit .cse m.cse (putBit .ecs m.ecs raw))
  | .ustoreData => raw
  | .aluOutput => m.aluOut
  | .activeCtxSts =>
    putField .activeCtx (BitVec.ofNat 2 m.active.val) (putBit .activeAb m.executing (putPc .activePc n m.pc raw))
  | .enableSramJournaling => putBit .journalEnable m.journaling raw
  | .ctxArbCntl =>
    putField .arbNext (BitVec.ofNat 2 m.nctx.val) (putField .arbPrev (BitVec.ofNat 2 m.pctx.val) raw)
  | .ctxEnables => (raw &&& ~~~(0xF00 : Word)) ||| ((m.ctxEnables.setWidth 32) <<< 8)
  | .ccEnable => putCodes m.cc m.prevCc raw
  | .ctxSts c => putBit .ctxReady (m.readyState c) (putPc .ctxPc n (m.pcs[c]) raw)
  | .ctxSigEvents c =>
    allSignals.foldl (fun acc e => putBit (.sigEvent e) (SigSet.has m.sigEvents[c] e) acc) raw
  | .ctxWakeupEvents c => putWakeup m.wakeup[c] raw

/-- A two-bit context number. -/
def ctxOf (v : BitVec 2) : Fin 4 := ⟨v.toNat, v.isLt⟩

/-- The signal set of a CTX_n_SIG_EVENTS word. -/
def sigSetOf (v : Word) : SigSet :=
  allSignals.foldl (fun acc e => if getBit (.sigEvent e) v then acc ||| sigMask e else acc) 0

/-- The wakeup selector of a CTX_n_WAKEUP_EVENTS word (R152): one event, or none for `voluntary`; more than one event is
refused (U33). R152 gives no encoding of `voluntary`: that it has a bit of its own, and that a word with no event bit is
voluntary whether or not that bit is set, are the model's choice (DEDUCED, log entry 29). A word with one event bit and
that bit selects what the spec does not state: any selector, at draw `free` (DESIGN CHOICE, log entry 29). -/
def wakeupOf (v : Word) (free : Nat) : Res Wakeup :=
  match allSignals.filter (fun e => getBit (.wakeEvent e) v), getBit .wakeVoluntary v with
  | [], _ => .ok .voluntary
  | [e], false => .ok (.signal e)
  | [_], true => .ok (Config.freeWakeup free)
  | _, _ => refuse .registerAccess

/-- Write a local CSR's named fields (R144 to R152): the number of a context that is executing is not written, nor a
program counter, which only the StrongARM core sets (R1100). -/
def Me.csrFields (m : Me) (k : LocalCsr) (v : Word) (free : Nat) : Res Me :=
  match k with
  | .ustoreAddress => .ok { m with uaddr := getField .uaddr 11 v, cse := getBit .cse v, ecs := getBit .ecs v }
  | .ustoreData | .aluOutput => refuse .registerAccess
  | .activeCtxSts => .ok (if m.executing then m else { m with active := ctxOf (getField .activeCtx 2 v) })
  | .enableSramJournaling => .ok { m with journaling := getBit .journalEnable v }
  | .ctxArbCntl => .ok { m with nctx := ctxOf (getField .arbNext 2 v), pctx := ctxOf (getField .arbPrev 2 v) }
  | .ctxEnables => .ok { m with oldEnables := m.ctxEnables, ctxEnables := v.extractLsb' 8 4 }
  | .ccEnable => .ok { m with
      cc := ⟨getBit .ccZero v, getBit .ccSign v, getBit .ccCarry v⟩
      prevCc := ⟨getBit .ccPrevZero v, getBit .ccPrevSign v, getBit .ccPrevCarry v⟩ }
  | .ctxSts _ => .ok m
  | .ctxSigEvents n => .ok { m with sigEvents := m.sigEvents.set n (sigSetOf v) }
  | .ctxWakeupEvents n => do
    let w ← wakeupOf v free
    pure { m with wakeup := m.wakeup.set n w }

/-- Write a local CSR: its named fields, and the bits with no named meaning. -/
def Me.writeCsr (m : Me) (k : LocalCsr) (v : Word) (free : Nat) : Res Me := do
  let m ← m.csrFields k v free
  pure { m with csrRaw := m.csrRaw.set (csrIndex k) v }

/-! ### Access by the StrongARM core -/

/-- The precondition of the control store registers: the engine is not Running (R141, U33). -/
def Me.storeAccess (m : Me) : Bool := m.status != .running

/-- The general register an ECS loop shows: `alu[--, 0, B, reg]` at UADDR (R143, U38). -/
def debugOperand : UEntry → Option Src
  | .instr (.alu .none (.imm 0) .b r) => some r
  | _ => none

/-- The value of a source operand of engine `m` in its active context. -/
def Me.peek (m : Me) (r : Src) : Word :=
  match r with
  | .gpr g => m.gpr m.active g
  | .sram x => m.sramRd[xferIndex m.active x]
  | .sdram x => m.sdramRd[xferIndex m.active x]
  | .imm v => v
  | .none => 0

/-- The engine loops on the instruction at UADDR: ECS is set while it is Stopped or Paused, not in Reset (R141, R1126). -/
def Me.debugLoops (m : Me) : Bool := m.ecs && (m.status == .stopped || m.status == .paused)

/-- ALU_OUTPUT as the StrongARM core reads it (R143, R1126): while the engine loops, the output of the instruction at
UADDR; else the latch. -/
def Me.aluOutput (m : Me) : Res Word :=
  if m.debugLoops then
    match ustoreGet m.uaddr.toNat m.ustore with
    | none => stopFault (.unwrittenStore m.uaddr.toNat)
    | some e => match debugOperand e with
      | some r => .ok (m.peek r)
      | none => refuse .debugLoop
  else .ok m.aluOut

/-- A StrongARM read of a local CSR of engine `m` (R150). USTORE_DATA at a UADDR whose word nothing has written, or
that is at or beyond USTORE_WORDS, reads as a free word: R404 gives no result there (the model's choice, log entry 30). -/
def State.armCsrRead (s : State) (m : Fin 6) (k : LocalCsr) : Res (Word × State) := do
  let e := s.me m
  match k with
  | .aluOutput => do
    let v ← e.aluOutput
    pure (v, s)
  | .ustoreData => do
    require (e.storeAccess && e.cse) .registerAccess
    match ustoreGet e.uaddr.toNat e.ustore with
    | some x => pure (ustoreWord x, s)
    | none => pure (Config.freeWord .csrWord s.free, { s with free := s.free + 1 })
  | _ => pure (e.csrValue s.board.pcBits k, s)

/-- A StrongARM write of a local CSR of engine `m` (R141 to R152): CTX_ENABLES stays 0 while the engine is held in reset
(R125, R1143); CTX_n_STS sets a program counter while the engine is not running (R149, R1100). A wakeup word's open
selector takes one draw (log entry 29). -/
def State.armCsrWrite (s : State) (m : Fin 6) (k : LocalCsr) (v : Word) : Res State := do
  let e := s.me m
  match k with
  | .aluOutput => refuse .registerAccess
  | .ustoreAddress => do
    require e.storeAccess .registerAccess
    let e ← e.writeCsr k v s.free
    pure (s.setMe m e)
  | .ustoreData => do
    require (e.storeAccess && e.cse && decide (e.uaddr.toNat < s.board.ustoreWords)) .registerAccess
    pure (s.setMe m { e with ustore := ustorePut e.uaddr.toNat (ustoreEntry v) e.ustore })
  | .ctxEnables =>
    if e.inReset then .ok s
    else do
      let e ← e.writeCsr k v s.free
      pure (s.setMe m { e with enWindow := 0 })
  | .ctxSts n => do
    let w ← e.writeCsr k v s.free
    pure (s.setMe m (if e.storeAccess then { w with pcs := w.pcs.set n (getPc .ctxPc s.board.pcBits v) } else w))
  | _ => do
    let e ← e.writeCsr k v s.free
    pure { s.setMe m e with free := s.free + 1 }

end Sys2Proof.Machine
end

