-- ==== Sys2Proof/Machine/FbiCsr.lean ====
section
/-! DEFINITION. The FBI control and status registers (11_state_csrs.md R190 to R230; 50_fbi_unit.md R765 to R781,
R804 to R810): what a `csr` access, a `fast_wr` and a StrongARM access do. -/

namespace Sys2Proof.Machine

/-! ### Small pieces -/

/-- Replace the FBI Unit. -/
def State.withFbi (s : State) (f : Fbi) : State := { s with fbi := f }

/-- One draw of a free longword. -/
def State.draw (s : State) (k : Free) : Word × State := (Config.freeWord k s.free, { s with free := s.free + 1 })

/-- `n` draws of free longwords. -/
def State.drawWords (s : State) (k : Free) (n : Nat) : List Word × State :=
  ((List.range n).map fun i => Config.freeWord k (s.free + i), { s with free := s.free + n })

/-- Fast Port mode, RCV_RDY_CTL[14:13] (R812). -/
def Fbi.fastMode (f : Fbi) : BitVec 2 := f.rcvRdyCtl.extractLsb' 13 2

/-- Status mode is selected when bit 6 of RDYBUS_TEMPLATE_CTL is 0 (R776). -/
def Fbi.statusMode (f : Fbi) : Bool := !f.rdybusCtl.getLsbD 6

/-- The global scheduler enable, RCV_RDY_CTL bit 5 (R807). -/
def Fbi.schedAlways (f : Fbi) : Bool := f.rcvRdyCtl.getLsbD 5

/-- The Receive Scheduler thread (R790). -/
def Fbi.scheduler (f : Fbi) : Fin 24 := threadOf f.rxApThread

/-- Signal the threads of the RCV_CNTL head entry, when there is one (R807). -/
def State.signalHead (s : State) : State :=
  match s.fbi.rcvCntl with
  | [] => s
  | e :: _ =>
    let s := s.signalThread e.thread .startReceive
    if e.sched then s.signalThread s.fbi.scheduler .startReceive else s

/-- One of the three Fast Port modes is selected (R808, R811). -/
def Fbi.fastEnabled (f : Fbi) : Bool := f.fastMode != 3

/-- Increment an enqueue number and, with Fast Port mode enabled, signal all threads (R75, R810). -/
def State.incrEnq (s : State) (p : Fin 2) : State :=
  let t := s.withFbi { s.fbi with enqSeq := s.fbi.enqSeq.set p (s.fbi.enqSeq[p] + 1) }
  if s.fbi.fastEnabled then t.signalAll (if p = 0 then .seqNum1 else .seqNum2) else t

/-! ### IREG's layout (R226): thread bits and breakpoint bits do not overlap -/

/-- The lowest of the 24 thread bits. -/
def iregThreadLo : Nat := (Config.fieldLo .irThreads).toNat % 9

/-- The lowest of the three breakpoint bits: CSR_LAYOUT's place where it is clear of the thread bits. -/
def iregBpLo : Nat :=
  let p := (Config.fieldLo .irBp).toNat
  if p + 3 ≤ iregThreadLo ∨ (iregThreadLo + 24 ≤ p ∧ p ≤ 29) then p
  else if iregThreadLo ≤ 5 then iregThreadLo + 24 else 0

/-- Put a field of `w` bits at bit `lo` of a register word. -/
def putBitsAt (lo : Nat) {w : Nat} (x : BitVec w) (v : Word) : Word :=
  (v &&& ~~~(((BitVec.allOnes w).setWidth 32) <<< lo)) ||| ((x.setWidth 32) <<< lo)

/-- The five bits of a word beside thread bits from `t` on and breakpoint bits from `b` on: IREG's enables and select. -/
def controlBits (t b : Nat) : List Nat :=
  (List.range 32).filter fun i => !(decide (t ≤ i) && decide (i < t + 24)) && !(decide (b ≤ i) && decide (i < b + 3))

/-- The control bits of an IREG word. -/
def controlsOf (t b : Nat) (v : Word) : BitVec 5 :=
  (List.range 5).foldl (fun c j => if v.getLsbD ((controlBits t b).getD j 32) then c ||| (1#5 <<< j) else c) 0

/-- An IREG word from its three parts. -/
def iregWord (t b : Nat) (threads : BitVec 24) (bp : BitVec 3) (ctl : BitVec 5) : Word :=
  (List.range 5).foldl (fun w j => if ctl.getLsbD j then w ||| ((1 : Word) <<< (controlBits t b).getD j 32) else w)
    (putBitsAt t threads (putBitsAt b bp 0))

/-- The control bits of the CINT enable, the breakpoint enable and the FIQ select: three different ones of the five, by
CSR_LAYOUT (log entry 32). -/
def iregPlace (k : Fin 3) : Fin 5 :=
  let p := Config.iregPlaces
  if p[0] ≠ p[1] ∧ p[0] ≠ p[2] ∧ p[1] ≠ p[2] then p[k] else ⟨k.val, by omega⟩

/-- The control bits that enable thread interrupts: the two others. -/
def iregThreadPlaces : List (Fin 5) :=
  (List.finRange 5).filter fun j => j != iregPlace 0 && j != iregPlace 1 && j != iregPlace 2

/-- CINT, the breakpoints, one thread may interrupt the core; the interrupt is the FIQ (R1085). -/
def Fbi.iregCintEn (f : Fbi) : Bool := f.iregCtl.getLsbD (iregPlace 0).val
def Fbi.iregBpEn (f : Fbi) : Bool := f.iregCtl.getLsbD (iregPlace 1).val
def Fbi.iregFiq (f : Fbi) : Bool := f.iregCtl.getLsbD (iregPlace 2).val
def Fbi.iregThreadEn (f : Fbi) (t : Fin 24) : Bool :=
  f.iregCtl.getLsbD ((iregThreadPlaces.getD (Config.iregGroup t).val 0).val)

/-- The IREG word (R226, R1085). -/
def Fbi.iregValue (f : Fbi) : Word := iregWord iregThreadLo iregBpLo f.iregThreads f.iregBp f.iregCtl

/-- The RCV_RDY_CNT word (R212); the captured Receive Request Count is bits 15:8, whatever the open layout (R717). -/
def State.rcvRdyCntValue (s : State) : Word :=
  let f := s.fbi
  putBitsAt 8 f.reqCapture (putField .rrCount f.rdyCount (putField .rrFastReady s.env.fastRx
    (putBit .rrFcma f.fcma (putBit .rrMaster s.board.tkIn 0))))

/-- The longword of four program bytes, the lowest instruction in bits 7:0. Which register and lane holds which instruction,
RDYBUS_PROG_LAYOUT, is open (D20): the model fixes the spec's default with no board parameter for it (DESIGN CHOICE, log
entry 12). -/
def progWord (p : Vector Byte 12) (k : Fin 3) : Word :=
  p[4 * k.val + 3]'(by omega) ++ p[4 * k.val + 2]'(by omega) ++ p[4 * k.val + 1]'(by omega) ++ p[4 * k.val]'(by omega)

/-- Replace four program bytes, in the layout of `progWord` (DESIGN CHOICE, log entry 12). -/
def progPut (p : Vector Byte 12) (k : Fin 3) (v : Word) : Vector Byte 12 :=
  (((p.set (4 * k.val) (v.extractLsb' 0 8) (by omega)).set (4 * k.val + 1) (v.extractLsb' 8 8) (by omega)).set
    (4 * k.val + 2) (v.extractLsb' 16 8) (by omega)).set (4 * k.val + 3) (v.extractLsb' 24 8) (by omega)

/-- The RDYBUS_TEMPLATE_CTL word (R204). -/
def Fbi.templateValue (f : Fbi) : Word :=
  putBit .rbEnable f.seqEnable (putBit .rbMany f.manyMac (putBit .rbUni f.uniDir (putBit .rbSlave f.seqSlave
    (putBit .rbShared f.sharedBus (putBit .rbBigEndian f.bigEndian f.rdybusCtl)))))

/-- The RCV_RDY_CTL word (R205). -/
def Fbi.rcvRdyCtlValue (f : Fbi) : Word :=
  putBit .apEnable f.rxApEnable (putBit .apSignal f.rxApSignal (putField .apThread f.rxApThread
    (putField .apWindow f.apWindow f.rcvRdyCtl)))

/-- The XMIT_RDY_CTL word (R206): it keeps a copy of the current valid flags (R818); in Dual Valid Bit mode of the first ones,
which the threads set, R206 and R818 not saying which (DESIGN CHOICE, log entry 79). -/
def Fbi.xmitRdyCtlValue (f : Fbi) : Word :=
  putBit .apEnable f.txApEnable (putBit .apSignal f.txApSignal (putField .apThread f.txApThread
    (putBit .dualValid f.dualValid (putField .txValidFlags f.txValid f.xmitRdyCtl))))

/-- The REC_FASTPORT_CTL word (R210). -/
def Fbi.fastportValue (f : Fbi) : Word :=
  putField .fpHeader1 f.fpHeader[0] (putField .fpBody1 f.fpBody[0]
    (putField .fpHeader2 f.fpHeader[1] (putField .fpBody2 f.fpBody[1] 0)))

/-! ### Reads -/

/-- Pop `n` entries of GET_CMD; an entry that is not there reads as zero, which is invalid data (R780), and the read does not
move the remove pointer past it, on which R780 is silent (DESIGN CHOICE, log entry 31). -/
def popWords : List Word → Nat → List Word × List Word
  | ws, 0 => ([], ws)
  | [], n + 1 => (0 :: (popWords [] n).1, [])
  | w :: ws, n + 1 => (w :: (popWords ws n).1, (popWords ws n).2)

/-- Read RCV_CNTL (R807): the head, which is retired by its last read; the next head is then signalled. -/
def State.readRcvCntl (s : State) : Res (Word × State) :=
  match s.fbi.rcvCntl with
  | [] => refuse .fifoMisuse
  | e :: rest =>
    if e.reads ≤ 1 then .ok (e.word, (s.withFbi { s.fbi with rcvCntl := rest }).signalHead)
    else .ok (e.word, s.withFbi { s.fbi with rcvCntl := { e with reads := e.reads - 1 } :: rest })

/-- Read an FBI register (R765): one longword, `cnt` for GET_CMD, two for CYCLE_CNT. A register that only takes
writes returns an unspecified value. The four bits of SOP_SEQ1, SOP_SEQ2, ENQUEUE_SEQ1, ENQUEUE_SEQ2 and XMIT_PTR stand at
bits 3:0 with zeros above: CSR_LAYOUT (R290) prints no place for them (DESIGN CHOICE, log entry 31). -/
def State.fbiRead (s : State) (reg : FbiCsr) (cnt : Nat) : Res (List Word × State) :=
  let f := s.fbi
  match reg with
  | .rcvCntl => do
    let (w, s) ← s.readRcvCntl
    pure ([w], s)
  | .sopSeq1 => .ok ([f.sopSeq[0].setWidth 32], s)
  | .sopSeq2 => .ok ([f.sopSeq[1].setWidth 32], s)
  | .enqueueSeq1 => .ok ([f.enqSeq[0].setWidth 32], s)
  | .enqueueSeq2 => .ok ([f.enqSeq[1].setWidth 32], s)
  | .xmitPtr => .ok ([f.xmitPtr.setWidth 32], s)
  | .rdybusTemplateCtl => .ok ([f.templateValue], s)
  | .rcvRdyCtl => .ok ([f.rcvRdyCtlValue], s)
  | .xmitRdyCtl => .ok ([f.xmitRdyCtlValue], s)
  | .rdybusProg1 => .ok ([progWord f.prog 0], s)
  | .rdybusProg2 => .ok ([progWord f.prog 1], s)
  | .rdybusProg3 => .ok ([progWord f.prog 2], s)
  | .rdybusSynchCount => .ok ([f.synchCount], s)
  | .fpReadyWait => .ok ([f.fpReadyWait], s)
  | .recFastportCtl => .ok ([f.fastportValue], s)
  | .flowctlMask => .ok ([f.flowMask], s)
  | .rcvRdyCnt => .ok ([s.rcvRdyCntValue], s)
  | .rcvRdyHi => .ok ([f.rcvRdyHi], s)
  | .rcvRdyLo => .ok ([f.rcvRdyLo], s)
  | .xmitRdyHi => .ok ([f.xmitRdyHi], s)
  | .xmitRdyLo => .ok ([f.xmitRdyLo], s)
  | .getCmd => .ok ((popWords f.getCmd cnt).1, s.withFbi { f with getCmd := (popWords f.getCmd cnt).2 })
  | .hashMult64Hi => .ok ([f.mult64Hi], s)
  | .hashMult64Lo => .ok ([f.mult64Lo], s)
  | .hashMult48Hi => .ok ([f.mult48Hi], s)
  | .hashMult48Lo => .ok ([f.mult48Lo], s)
  | .ireg => .ok ([f.iregValue], s)
  | .threadDoneReg0 => .ok ([f.threadDone.setWidth 32], s)
  | .threadDoneReg1 => .ok ([(f.threadDone.extractLsb' 32 16).setWidth 32], s)
  | .cycleCnt => .ok ([quadLow f.cycleCnt, quadHigh f.cycleCnt], s)
  | .selfDestruct => .ok ([f.selfDestruct], s.withFbi { f with selfDestruct := 0 })
  | .rcvReq | .incrEnqNum1 | .incrEnqNum2 | .xmitValidate | .sendCmd | .interThdSig | .threadDone
  | .threadDoneIncr1 | .threadDoneIncr2 => .ok ([(s.draw .csrWord).1], (s.draw .csrWord).2)

/-! ### Writes -/

/-- The MAC and port of a request (R805). The widths of RM and RP are not in the source (Figure 6-24 is lost, R200): the
model takes three bits each, so that MACPORT/THD is six bits (DESIGN CHOICE, log entry 33). -/
def requestPort (w : Word) : BitVec 6 := getField .rqMac 3 w ++ getField .rqPort 3 w

/-- Write RCV_REQ (R804): refused when full (U15), and for two consecutive slow port requests to one port (U16). -/
def State.writeRcvReq (s : State) (w : Word) : Res State := do
  require (decide (s.fbi.rcvReq.length < 2)) .fifoMisuse
  let fast := getBit .rqFast w
  require (fast || s.fbi.lastSlow != some (requestPort w)) .slowPortRepeat
  pure (s.withFbi { s.fbi with
    rcvReq := s.fbi.rcvReq ++ [w]
    lastSlow := if fast then none else some (requestPort w) })

/-- Signal a thread by number; above 23 is refused (R770). -/
def State.interThread (s : State) (v : Nat) : Res State :=
  if h : v < 24 then .ok (s.signalThread ⟨v, h⟩ .interThread) else refuse .fbiValue

/-- OR a message into THREAD_DONE at the position of thread `t` (R769). -/
def Fbi.doneMessage (f : Fbi) (t : Nat) (d : Word) : Fbi :=
  { f with threadDone := f.threadDone ||| ((d.setWidth 48) <<< (2 * t)) }

/-- Set a bit of SELF_DESTRUCT (R768); a number above 31 is refused. -/
def State.setDestruct (s : State) (v : Nat) : Res State :=
  if v < 32 then .ok (s.withFbi { s.fbi with selfDestruct := s.fbi.selfDestruct ||| ((1 : Word) <<< v) })
  else refuse .fbiValue

/-- Mark a TFIFO element valid: `tx_valid[d & 15] <- 1` (R818). -/
def Fbi.validate (f : Fbi) (v : Nat) : Fbi := { f with txValid := f.txValid ||| ((1#16) <<< (v % 16)) }

/-- The interrupt a thread raises through IREG (R1085). -/
def Fbi.raiseIreg (f : Fbi) (t : Nat) (d : Word) : Fbi :=
  { f with iregThreads := f.iregThreads ||| (((d.extractLsb' 0 7).setWidth 24) <<< t)
           iregBp := f.iregBp ||| d.extractLsb' 7 3 }

/-- A write of IREG by a `csr` or the StrongARM core (R1085): interrupt and breakpoint bits clear where a 1 is written,
the five control bits, the enables and the select among them, take the written bits. -/
def Fbi.writeIreg (f : Fbi) (v : Word) : Fbi :=
  { f with iregThreads := f.iregThreads &&& ~~~(v.extractLsb' iregThreadLo 24)
           iregBp := f.iregBp &&& ~~~(v.extractLsb' iregBpLo 3)
           iregCtl := controlsOf iregThreadLo iregBpLo v }

/-- The first byte of a program that is none of the 91 opcodes. -/
def badOpcode (p : Vector Byte 12) : Option Byte := p.toList.find? (fun b => (decodeSeq b).isNone)

/-- Write RDYBUS_TEMPLATE_CTL (R204, R700). A 1 selects big endian, 3+ MAC mode, the 32-bit bus and slave: the spec gives
these bits no polarity (DESIGN CHOICE, log entry 5). Enabling the sequencer of a master starts it at instr_0; a program with an
undefined byte is refused (U10). The start is at instr_0 also where the enable had been cleared in mid-pass or in the wait
after one: R700 does not say where a sequencer stopped there goes on (DESIGN CHOICE, log entry 78). -/
def State.writeTemplate (s : State) (v : Word) : Res State :=
  let f := s.fbi
  let f2 := { f with
    rdybusCtl := v, seqEnable := getBit .rbEnable v, seqSlave := getBit .rbSlave v, manyMac := getBit .rbMany v
    uniDir := getBit .rbUni v, sharedBus := getBit .rbShared v, bigEndian := getBit .rbBigEndian v }
  if f2.seqEnable && !f.seqEnable then
    match f2.seqSlave, badOpcode f.prog with
    | false, some b => refuse (.undefinedOpcode b)
    | _, _ => .ok (s.withFbi { f2 with
        seqPos := 0, seqWait := false, seqTime := 0, seqExpired := false, captured := false, apHold := false })
  else .ok (s.withFbi { f2 with apHold := f.apHold && f2.seqEnable })

/-- Write RCV_RDY_CTL (R205). The spec gives the Autopush Prevent Window (R792) no width: the model takes four bits (DESIGN
CHOICE, log entry 79). -/
def Fbi.writeRcvRdyCtl (f : Fbi) (v : Word) : Fbi :=
  { f with rcvRdyCtl := v, rxApEnable := getBit .apEnable v, rxApSignal := getBit .apSignal v
           rxApThread := getField .apThread 5 v, apWindow := getField .apWindow 4 v }

/-- Write XMIT_RDY_CTL (R206). Which register selects Dual Valid Bit mode is not in the source (R818): the model has a bit
of this one do so (DESIGN CHOICE, log entry 79). -/
def Fbi.writeXmitRdyCtl (f : Fbi) (v : Word) : Fbi :=
  { f with xmitRdyCtl := v, txApEnable := getBit .apEnable v, txApSignal := getBit .apSignal v
           txApThread := getField .apThread 5 v, dualValid := getBit .dualValid v }

/-- Write SEND_CMD (R780): an overfill is refused. -/
def State.writeSend (s : State) (ws : List Word) : Res State := do
  require (decide (s.fbi.sendCmd.length + ws.length ≤ 8)) .ringOverflow
  pure (s.withFbi { s.fbi with sendCmd := s.fbi.sendCmd ++ ws })

/-- A write of an FBI register that needs no writing thread; none for the `fast_wr` functions. Registers that only the
hardware writes keep their value. -/
def State.fbiPlain (s : State) (reg : FbiCsr) (ws : List Word) : Option (Res State) :=
  let f := s.fbi
  let w := ws.headD 0
  match reg with
  | .rcvReq => some (s.writeRcvReq w)
  | .rdybusTemplateCtl => some (s.writeTemplate w)
  | .rcvRdyCtl => some (.ok (s.withFbi (f.writeRcvRdyCtl w)))
  | .xmitRdyCtl => some (.ok (s.withFbi (f.writeXmitRdyCtl w)))
  | .rdybusProg1 => some (.ok (s.withFbi { f with prog := progPut f.prog 0 w }))
  | .rdybusProg2 => some (.ok (s.withFbi { f with prog := progPut f.prog 1 w }))
  | .rdybusProg3 => some (.ok (s.withFbi { f with prog := progPut f.prog 2 w }))
  | .rdybusSynchCount => some (.ok (s.withFbi { f with synchCount := w }))
  | .fpReadyWait => some (.ok (s.withFbi { f with fpReadyWait := w }))
  | .flowctlMask => some (.ok (s.withFbi { f with flowMask := w, fcma := true }))
  | .sendCmd => some (s.writeSend ws)
  | .hashMult64Hi => some (.ok (s.withFbi { f with mult64Hi := w }))
  | .hashMult64Lo => some (.ok (s.withFbi { f with mult64Lo := w }))
  | .hashMult48Hi => some (.ok (s.withFbi { f with mult48Hi := w }))
  | .hashMult48Lo => some (.ok (s.withFbi { f with mult48Lo := w }))
  | .ireg => some (.ok (s.withFbi (f.writeIreg w)))
  | .interThdSig => some (s.interThread w.toNat)
  | .threadDoneReg0 => some (.ok (s.withFbi { f with threadDone := f.threadDone &&& ~~~(w.setWidth 48) }))
  | .threadDoneReg1 =>
    some (.ok (s.withFbi { f with threadDone := f.threadDone &&& ~~~((w.setWidth 48) <<< 32) }))
  | .rcvCntl | .sopSeq1 | .sopSeq2 | .enqueueSeq1 | .enqueueSeq2 | .xmitPtr | .recFastportCtl | .rcvRdyCnt
  | .rcvRdyHi | .rcvRdyLo | .xmitRdyHi | .xmitRdyLo | .getCmd | .cycleCnt => some (.ok s)
  | .incrEnqNum1 | .incrEnqNum2 | .xmitValidate | .threadDone | .threadDoneIncr1 | .threadDoneIncr2
  | .selfDestruct => none

/-- The meaning of a `fast_wr` target for the value `d` written by thread `t` (R766). -/
def State.fastWrite (s : State) (reg : FastReg) (t : Nat) (d : Word) : Res State :=
  match reg with
  | .interThdSig => s.interThread d.toNat
  | .threadDone => .ok (s.withFbi (s.fbi.doneMessage t d))
  | .threadDoneIncr1 => .ok ((s.withFbi (s.fbi.doneMessage t d)).incrEnq 0)
  | .threadDoneIncr2 => .ok ((s.withFbi (s.fbi.doneMessage t d)).incrEnq 1)
  | .xmitValidate => .ok (s.withFbi (s.fbi.validate d.toNat))
  | .incrEnqNum1 => .ok (s.incrEnq 0)
  | .incrEnqNum2 => .ok (s.incrEnq 1)
  | .selfDestruct => s.setDestruct d.toNat
  | .ireg => .ok (s.withFbi (s.fbi.raiseIreg t d))

/-- The `fast_wr` function of a register, if it has one (Table 6-4). -/
def fastRegOf : FbiCsr → Option FastReg
  | .incrEnqNum1 => some .incrEnqNum1
  | .incrEnqNum2 => some .incrEnqNum2
  | .xmitValidate => some .xmitValidate
  | .threadDone => some .threadDone
  | .threadDoneIncr1 => some .threadDoneIncr1
  | .threadDoneIncr2 => some .threadDoneIncr2
  | .selfDestruct => some .selfDestruct
  | _ => none

/-- A `csr` write by thread `t` (R765): a `fast_wr` function register takes the longword as its data. -/
def State.fbiWrite (s : State) (reg : FbiCsr) (ws : List Word) (t : Nat) : Res State :=
  match s.fbiPlain reg ws, fastRegOf reg with
  | some r, _ => r
  | none, some k => s.fastWrite k t (ws.headD 0)
  | none, none => .ok s

/-! ### Access by the StrongARM core -/

/-- The register the StrongARM core cannot reach (R190, R229, R302). -/
def armExcluded : FbiCsr → Bool
  | .cycleCnt => true
  | _ => false

/-- The registers of the Ready Bus communications, to which the StrongARM core has no access (R780). -/
def readyBusComm : FbiCsr → Bool
  | .getCmd | .sendCmd => true
  | _ => false

/-- A StrongARM read of an FBI register (R733): one longword. R190 lets the core read GET_CMD and SEND_CMD and R780 denies
it the communications: the read takes no entry and delivers a free word (DESIGN CHOICE, log entry 31). -/
def State.armFbiRead (s : State) (reg : FbiCsr) : Res (Word × State) := do
  require (!armExcluded reg) .registerAccess
  if readyBusComm reg then pure (s.draw .csrWord)
  else
    let (ws, s) ← s.fbiRead reg 1
    pure (ws.headD 0, s)

/-- A StrongARM write of an FBI register: it has no access to the `fast_wr` function (R730, R766) nor to the Ready Bus
communications (R780), so a store to a register that only `fast_wr` writes, to SEND_CMD or to GET_CMD changes nothing
(DESIGN CHOICE, log entry 31). -/
def State.armFbiWrite (s : State) (reg : FbiCsr) (v : Word) : Res State := do
  require (!armExcluded reg) .registerAccess
  if readyBusComm reg then pure s else (s.fbiPlain reg [v]).getD (.ok s)

end Sys2Proof.Machine
end

