-- ==== Sys2Proof/Machine/FbiUnit.lean ====
section
/-! DEFINITION. The FBI Unit's engines (50_fbi_unit.md): the Pull and Push Engines, the Hash Unit, the autopush, the
Receive and Transmit State Machines. One definition is one step of one engine. -/

namespace Sys2Proof.Machine

/-! ### Hash (R649, R650) -/

/-- The carry-less product of `a` and `m`, from the low `n` bits of `a`. -/
def clmul (a m : BitVec 128) : Nat → BitVec 128
  | 0 => 0
  | i + 1 => clmul a m i ^^^ (if a.getLsbD i then m <<< i else 0)

/-- Reduce a polynomial by the generator `g` of degree `n`, from its coefficient `n + c - 1` down to `n`. -/
def polyReduce (g : BitVec 128) (n : Nat) : Nat → BitVec 128 → BitVec 128
  | 0, p => p
  | c + 1, p => polyReduce g n c (if p.getLsbD (n + c) then p ^^^ (g <<< c) else p)

/-- The 48-bit hash: x^48 + x^36 + x^25 + x^10 + 1. -/
def hash48 (a m : BitVec 48) : BitVec 48 :=
  (polyReduce 0x1001002000401 48 47 (clmul (a.setWidth 128) (m.setWidth 128) 48)).setWidth 48

/-- The 64-bit hash: x^64 + x^54 + x^35 + x^17 + 1. -/
def hash64 (a m : Quad) : Quad :=
  (polyReduce 0x10040000800020001 64 63 (clmul (a.setWidth 128) (m.setWidth 128) 64)).setWidth 64

/-- The two registers of a hash operand as a 64-bit value (D19). -/
def hashOperand (highFirst : Bool) (r0 r1 : Word) : Quad := if highFirst then r0 ++ r1 else r1 ++ r0

/-- A hash result as two registers, in the same arrangement (D19). -/
def hashPair (highFirst : Bool) (v : Quad) : List Word :=
  if highFirst then [quadHigh v, quadLow v] else [quadLow v, quadHigh v]

/-- The hash of an operand; bits 63:48 of a 48-bit result are `free` (U7). -/
def State.hashValue (s : State) (is64 : Bool) (a : Quad) (free : Word) : Quad :=
  if is64 then hash64 a (s.fbi.mult64Hi ++ s.fbi.mult64Lo)
  else (free.setWidth 16) ++ hash48 (a.setWidth 48) ((s.fbi.mult48Hi.setWidth 16) ++ s.fbi.mult48Lo)

/-- One hash service of the Pull Engine (R651): operand `k` of the command is read and its index computed. R651 names a
two-stage buffer and no stall when it is full: the model sets no limit to the indices that wait for the Push Engine (DESIGN
CHOICE, log entry 85). -/
def State.hashStep (s : State) (c : Cmd) (is64 : Bool) (total x k : Nat) : State :=
  let rs := s.pullSram c.xfMe (x + 2 * k) 2
  let a := hashOperand s.board.hashHighFirst (rs.headD 0) (rs.getD 1 0)
  let v := s.hashValue is64 a (Config.freeWord .hashHigh s.free)
  { s.withFbi { s.fbi with
      hashJob := if k + 1 < total then some ⟨c, k + 1⟩ else none
      hashOut := s.fbi.hashOut ++ [⟨c, k, v⟩] } with free := s.free + 1 }

/-! ### Scratchpad (R750 to R755) -/

/-- A burst of `n` longwords from `a` lies in the scratchpad (U11). The address counts longwords: of the two units that
`SCRATCH_ADDR_UNIT` leaves open the model fixes the spec's default (D24; DESIGN CHOICE, log entry 12). -/
def scratchOk (a : Word) (n : Nat) : Bool := decide (a.toNat + n ≤ 1024)

/-- The scratchpad location of a read-modify-write and its present value. -/
def State.scratchOld (s : State) (a : Word) : Res Word := do
  require (scratchOk a 1) .addressRange
  written (s.fbi.scratch.readWord a.toNat)

/-- Write one scratchpad longword. -/
def State.scratchPut (s : State) (a : Word) (v : Word) : State :=
  s.withFbi { s.fbi with scratch := s.fbi.scratch.writeWord a.toNat v }

/-- The value a bit operation leaves (R753, R754, R920). -/
def bitResult (op : BitOp) (old m : Word) : Word :=
  match op with
  | .setBits | .testAndSet => old ||| m
  | .clearBits | .testAndClear => old &&& ~~~m

/-- The operation returns the value before modification. -/
def bitTests : BitOp → Bool
  | .testAndSet | .testAndClear => true
  | _ => false

/-! ### FIFO transfers (R801, R817) -/

/-- The two longwords of a FIFO quadword in register order (D27). -/
def fifoPair (lowFirst : Bool) (q : Quad) : List Word :=
  if lowFirst then [quadLow q, quadHigh q] else [quadHigh q, quadLow q]

/-- Quadwords from register contents, two registers each (D27). -/
def fifoQuads (lowFirst : Bool) : List Word → List Quad
  | r0 :: r1 :: rest => (if lowFirst then quadOfWords r0 r1 else quadOfWords r1 r0) :: fifoQuads lowFirst rest
  | _ => []

/-- A burst of `n` quadwords from `a` lies in the 160 quadwords of a FIFO (R800, R815). -/
def fifoOk (a n : Nat) : Bool := decide (a + n ≤ 160)

/-! ### Pull Engine (R732) -/

/-- The head of the Pull Queue waits until the value of a test that the queue served before it has been pushed, so that the
commands of one queue complete in order (R587, R736; DEDUCED, log entry 85); a SEND_CMD write also while fewer than four
entries are free (R780). -/
def State.pullBlocked (s : State) (c : Cmd) : Bool :=
  !s.fbi.tasRet.isEmpty || match c.op with
  | .csrWrite .sendCmd _ _ => decide (8 < s.fbi.sendCmd.length + 4)
  | _ => false

/-- Serve one Pull Queue command; `s` is the state with the command removed from the queue (R752 to R755, R765,
R817). -/
def State.pullServe (s : State) (c : Cmd) : Res State :=
  match c.op with
  | .csrWrite reg x cnt => do
    let s ← s.fbiWrite reg (s.pullSram c.xfMe x cnt) (threadNo c.sigMe c.sigCtx)
    pure (s.completed c)
  | .scratchWrite a x cnt => do
    require (scratchOk a cnt) .addressRange
    pure ((s.withFbi { s.fbi with
      scratch := s.fbi.scratch.writeWords a.toNat (s.pullSram c.xfMe x cnt) }).completed c)
  | .scratchBit a x op => do
    let old ← s.scratchOld a
    let m := (s.pullSram c.xfMe x 1).headD 0
    let s := s.scratchPut a (bitResult op old m)
    if bitTests op then pure (s.withFbi { s.fbi with tasRet := s.fbi.tasRet ++ [(c, x, old)] })
    else pure (s.completed c)
  | .scratchIncr a => do
    let old ← s.scratchOld a
    pure ((s.scratchPut a (old + 1)).completed c)
  | .tFifoWr a x cnt => do
    require (fifoOk a.toNat cnt) .addressRange
    let qs := fifoQuads s.board.fifoLowFirst (s.pullSram c.xfMe x (2 * cnt))
    pure ((s.withFbi { s.fbi with tfifo := s.fbi.tfifo.writeQuads a.toNat qs }).completed c)
  | _ => .ok s

/-- One step of the Pull Engine: a hash in progress, else a new hash, else the Pull Queue. -/
def State.fbiPullStep (s : State) : Res State :=
  match s.fbi.hashJob, s.fbi.hashQ, s.fbi.pullQ with
  | some j, _, _ =>
    match j.cmd.op with
    | .hash is64 total x => .ok (s.hashStep j.cmd is64 total x j.next)
    | _ => .ok s
  | none, c :: rest, _ =>
    match c.op with
    | .hash is64 total x => .ok ((s.withFbi { s.fbi with hashQ := rest }).hashStep c is64 total x 0)
    | _ => .ok s
  | none, [], c :: rest =>
    if s.pullBlocked c then .ok s else (s.withFbi { s.fbi with pullQ := rest }).pullServe c
  | none, [], [] => .ok s

/-! ### Push Engine (R732, R790 to R793) -/

/-- The registers an RxAutopush and a TxAutopush write, in order (R790). -/
def State.rxPushWords (s : State) : List Word := [s.rcvRdyCntValue, s.fbi.rcvRdyLo, s.fbi.rcvRdyHi]
def State.txPushWords (s : State) : List Word := [s.fbi.xmitPtr.setWidth 32, s.fbi.xmitRdyLo, s.fbi.xmitRdyHi]

/-- Write the first `n` words into a thread's context-relative read transfer registers 0, 1, 2 and signal it. -/
def State.autopushTo (s : State) (t : Fin 24) (ctl : Word) (ws : List Word) (sig : Bool) : State :=
  let n := (Config.autopushCount (ctl.extractLsb' 6 2)).val + 1
  let s := s.pushSram (threadMe t) (8 * (threadCtx t).val) (ws.take n)
  if sig then s.signalThread t .autoPush else s

/-- The Push Engine has something to do for the autopushes: a push, or a window to close. -/
def Fbi.autopushWork (f : Fbi) : Bool := f.rxPush || f.txPush || (f.pushProtect && !f.apHold)

/-- One step of the autopushes: assert PUSH_PROTECT, or write the registers and release it, or close a window that no
autopush uses any more; receive goes before transmit. Back-to-back autopushes share one window: it stays open for the
one that is pending or next in the program (R793). -/
def State.autopushStep (s : State) : State :=
  let f := s.fbi
  if f.rxPush then
    if !f.pushProtect then s.withFbi { f with pushProtect := true }
    else (s.autopushTo f.scheduler f.rcvRdyCtl s.rxPushWords f.rxApSignal).withFbi
      { f with rxPush := false, pushProtect := f.apHold || (f.txPush && f.apJoined) }
  else if f.txPush then
    if !f.pushProtect then s.withFbi { f with pushProtect := true }
    else (s.autopushTo (threadOf f.txApThread) f.xmitRdyCtl s.txPushWords f.txApSignal).withFbi
      { f with txPush := false, pushProtect := f.apHold }
  else s.withFbi { f with pushProtect := false }

/-- Push one hash index; after the last, the completion signal (R651). -/
def State.pushHash (s : State) (h : HashOut) : State :=
  match h.cmd.op with
  | .hash _ total x =>
    let s := s.pushSram h.cmd.xfMe (x + 2 * h.k) (hashPair s.board.hashHighFirst h.value)
    if h.k + 1 = total then s.completed h.cmd else s
  | _ => s

/-- Serve one Push Queue command; `s` is the state with the command removed from the queue (R751, R765, R801). -/
def State.pushServe (s : State) (c : Cmd) : Res State :=
  match c.op with
  | .csrRead reg x cnt => do
    let (ws, s) ← s.fbiRead reg cnt
    pure ((s.pushSram c.xfMe x ws).completed c)
  | .scratchRead a x cnt => do
    require (scratchOk a cnt) .addressRange
    let ws ← written (s.fbi.scratch.readWords a.toNat cnt)
    pure ((s.pushSram c.xfMe x ws).completed c)
  | .rFifoRd a x cnt => do
    require (fifoOk a.toNat cnt) .addressRange
    let qs ← written (s.fbi.rfifo.readQuads a.toNat cnt)
    pure ((s.pushSram c.xfMe x (qs.flatMap (fifoPair s.board.fifoLowFirst))).completed c)
  | _ => .ok s

/-- One step of the Push Engine: test returns, autopush, hash returns, the Push Queue. -/
def State.fbiPushStep (s : State) : Res State :=
  match s.fbi.tasRet with
  | (c, x, old) :: rest =>
    .ok (((s.withFbi { s.fbi with tasRet := rest }).pushSram c.xfMe x [old]).completed c)
  | [] =>
    if s.fbi.autopushWork then .ok s.autopushStep
    else
      match s.fbi.hashOut, s.fbi.pushQ with
      | h :: rest, _ => .ok ((s.withFbi { s.fbi with hashOut := rest }).pushHash h)
      | [], c :: rest => (s.withFbi { s.fbi with pushQ := rest }).pushServe c
      | [], [] => .ok s

/-! ### Receive State Machine (R804 to R814) -/

/-- The receive machine has work: a request or a status to fetch, and room in RCV_CNTL (R806, R778). -/
def Fbi.rxWork (f : Fbi) : Bool := (!f.rcvReq.isEmpty || !f.statusDue.isEmpty) && decide (f.rcvCntl.length < 4)

/-- The element at XMIT_PTR is valid (R819). -/
def Fbi.txWork (f : Fbi) : Bool :=
  f.txValid.getLsbD f.xmitPtr.toNat && (!f.dualValid || f.txValid2.getLsbD f.xmitPtr.toNat)

/-- The bus is free for the receive machine (R820): its turn, or the transmit machine has no work; in 32-bit mode the
two buses are independent. -/
def Fbi.rxMayRun (f : Fbi) : Bool := f.uniDir || f.rxTurn || !f.txWork

/-- The bus is free for the transmit machine. -/
def Fbi.txMayRun (f : Fbi) : Bool := f.uniDir || !f.rxTurn || !f.rxWork

/-- The fast port of a request, REC_REQ[17] (R805). R805 and R811 do not say which value is which port: the model takes 0
for Fast Port 1, whose ready pin FAST_RX1 is bit 0 of the environment's, and 1 for Fast Port 2; SN reports the same bit
(DESIGN CHOICE, log entry 80). -/
def fastPort (rq : Word) : Fin 2 := if rq.getLsbD 17 then 1 else 0

/-- Bytes whose active-low byte enable is asserted in a receive data cycle: FBE#[7:0] of a quadword in 64-bit mode,
FBE#[3:0] of a longword in 32-bit mode (R809, Tables 6-24 and 6-26). A pattern in no row of the table for the selected
endian, to which R809 gives no count, counts its asserted enables, whatever the Endian bit (DESIGN CHOICE, log entry 80). -/
def enabledBytes (uni : Bool) (fbe : Byte) : Nat :=
  ((List.range (if uni then 4 else 8)).filter (fun i => !fbe.getLsbD i)).length

/-- The valid bytes of the last quadword received, its last cycle ended by EOP: in 32-bit mode a cycle is four bytes, so
a second cycle follows four of the first (R806). -/
def lastQuadBytes (uni : Bool) (rx : RxData) : Nat :=
  (if uni && !rx.half then 4 else 0) + enabledBytes uni rx.fbe

/-- Most quadwords of a request: eight, nine with FA, sixteen with two elements (R806). R805 says that NFE cannot be set
with FA and not what a request does that sets both: FA wins, eight quadwords in the first element and a ninth in its
Extended Data field, and that ninth is reported as a second element filled (DESIGN CHOICE, log entry 80). -/
def requestQuads (rq : Word) : Nat :=
  if getBit .rqExtended rq then 9 else if getBit .rqTwo rq then 16 else 8

/-- Where quadword `i` of a request goes (R806, R800). -/
def receiveSlot (rq : Word) (i : Nat) : Nat :=
  let e1 := (getField .rqElem1 4 rq).toNat
  let e2 := (getField .rqElem2 4 rq).toNat
  if i < 8 then 8 * e1 + i else if getBit .rqExtended rq then 128 + 2 * e1 else 8 * e2 + (i - 8)

/-- Store received quadwords from number `i` on. -/
def storeReceived (m : Mem) (rq : Word) (i : Nat) : List Quad → Mem
  | [] => m
  | q :: qs => storeReceived (m.writeQuad (receiveSlot rq i) q) rq (i + 1) qs

/-- Status is 64 bits in 32-bit mode: RCV_REQ[26] (R778). -/
def longStatus (f : Fbi) (rq : Word) : Bool := f.uniDir && rq.getLsbD 26

/-- The Status quadword, and the Extended Data quadword of 32-bit mode with 64-bit status (Figures 6-27 and 6-28); their
reserved halves are `free1` and `free2` (U39). In 32-bit mode with one longword of status the spec does not say what bits 63:32 of
the Status quadword hold: the model stores the high half of the word the host gives (DESIGN CHOICE, log entry 33). -/
def statusQuads (long : Bool) (st : Quad) (free1 free2 : Word) : Quad × Option Quad :=
  if long then (quadOfWords (quadHigh st) free1, some (quadOfWords (quadLow st) free2)) else (st, none)

/-- Store the status of a request in its first element (R802). FA together with 64-bit status is only called not
supported in 32-bit mode: the model receives the nine quadwords and lets status longword 1 take the place of the ninth
in the Extended Data field (DESIGN CHOICE, log entry 33). -/
def storeStatus (m : Mem) (rq : Word) (p : Quad × Option Quad) : Mem :=
  let e1 := (getField .rqElem1 4 rq).toNat
  let m := m.writeQuad (129 + 2 * e1) p.1
  match p.2 with
  | some x => m.writeQuad (128 + 2 * e1) x
  | none => m

/-- The sequence numbers of a fast port after a request (R810). -/
def Fbi.sequence (f : Fbi) (p : Fin 2) (sop : Bool) : Fbi :=
  if sop then { f with sopSeq := f.sopSeq.set p (f.sopSeq[p] + 1), mpktSeq := f.mpktSeq.set p (f.sopSeq[p] + 1) }
  else { f with mpktSeq := f.mpktSeq.set p (f.mpktSeq[p] + 1) }

/-- The thread a completed fast port request signals, and the thread assignment it leaves (R812). With the code 3, which
selects none of the three modes R811 asks for, a fast request is served as in explicit mode: sampled, sequenced, its own
thread signalled (DESIGN CHOICE, log entry 80). -/
def Fbi.assign (f : Fbi) (p : Fin 2) (tid : BitVec 5) (sop : Bool) : BitVec 5 × Fbi :=
  let mode := f.fastMode
  if mode = 2 then
    if sop then (tid, { f with fpHeader := f.fpHeader.set p tid }) else (f.fpHeader[p], f)
  else if mode = 1 then
    if sop then (tid, { f with fpHeader := f.fpHeader.set p tid, fpBodyValid := f.fpBodyValid.set p false })
    else if f.fpBodyValid[p] then (f.fpBody[p], f)
    else (tid, { f with fpBody := f.fpBody.set p tid, fpBodyValid := f.fpBodyValid.set p true })
  else (tid, f)

/-- The MACPORT/THD field (R808): the port, but in single thread mode without SOP the unused thread. Tables 6-28 and 6-29
choose by the mode and do not name FS (R814): the model applies the modes to fast port requests only, so that a slow one
reports its port and signals its own thread in every mode (DESIGN CHOICE, log entry 80). -/
def macPortField (f : Fbi) (rq : Word) (fast sop : Bool) : BitVec 6 :=
  if fast && f.fastMode == 2 && !sop then (getField .rqThread 5 rq).setWidth 6 else requestPort rq

/-- Append a receive control entry, count the request and signal a new head (R806 step 8, R807, R717). -/
def State.pushRcvCntl (s : State) (e : RcvEntry) : State :=
  let first := s.fbi.rcvCntl.isEmpty
  let s := s.withFbi { s.fbi with
    rcvCntl := s.fbi.rcvCntl ++ [e], reqCount := s.fbi.reqCount + 1, rxTurn := false }
  if first then s.signalHead else s

/-- A request leaves RCV_REQ and the bus turn passes; a status that was due before it is fetched next (R778, R820). -/
def Fbi.requestDone (f : Fbi) : Fbi :=
  { f with rcvReq := f.rcvReq.drop 1, rxTurn := false, statusTurn := !f.statusDue.isEmpty }

/-- The entry of a request: signalling the scheduler is per request or global; only the former asks for two reads
(R807). When the global enable is looked at the spec does not say: the model asks it as the entry is made (DESIGN CHOICE, log
entry 33). -/
def State.rcvEntry (s : State) (rq : Word) (w : Word) (tid : BitVec 5) : RcvEntry :=
  ⟨w, if getBit .rqSignalSched rq then 2 else 1, threadOf tid, getBit .rqSignalSched rq || s.fbi.schedAlways⟩

/-- The fields a request leaves in RCV_CNTL in every case: the two elements. -/
def rcvElements (rq : Word) (v : Word) : Word :=
  putField .rcFirst (getField .rqElem1 4 rq) (putField .rcSecond (getField .rqElem2 4 rq) v)

/-- Table 6-27: a cancelled request (R811). Undefined fields are those of `free`. -/
def cancelWord (rq free : Word) : Word :=
  putField .rcMsg (3#2) (putField .rcMacPort (requestPort rq) (rcvElements rq (putBit .rcFail false
    (putBit .rcSop false (free &&& ~~~((1 : Word) <<< 18))))))

/-- Put the RERR bit, bit 18 (R808). -/
def putRerr (b : Bool) (v : Word) : Word := putBitsAt 18 (bit b) v

/-- Tables 6-28 and 6-29 and R808: the receive control word of a request that was not cancelled. Fields the manual
calls undefined or tells to ignore are those of `free`, and so is SOP SEQ of a slow port request, where R808 and R810 number
fast ports only (DESIGN CHOICE, log entry 80). R808 gives EF neither a width nor an encoding: the model takes one
bit, 1 for two elements filled (DESIGN CHOICE, log entry 80). -/
def controlWord (f : Fbi) (rq free : Word) (fast : Bool) (seq : Option (BitVec 4)) (rx : RxData) (n bytes : Nat)
    (rerr : Option Bool) : Word :=
  let v := putField .rcMsg (getField .rqMsg 2 rq) (putField .rcMacPort (macPortField f rq fast rx.sop)
    (rcvElements rq (putBit .rcFail rx.rxfail (putBit .rcEop rx.eop (putBit .rcSop rx.sop
      (putBit .rcFastPort (rq.getLsbD 17) free))))))
  let v := match seq with
    | some q => putField .rcSeq q v
    | none => v
  let v := if rx.rxfail then v else putBit .rcFilled (decide (8 < n) && getBit .rqTwo rq) v
  let v := if rx.eop && !rx.rxfail then putField .rcValid (BitVec.ofNat 7 (bytes - 1)) v else v
  match rerr with
  | some b => putRerr b v
  | none => v

/-- Valid bytes in the last element of a request of `n` quadwords (R808, R809): with EOP the byte enables count the
last quadword, else each counts eight. -/
def validBytes (uni : Bool) (rq : Word) (rx : RxData) (n : Nat) : Nat :=
  let total := if rx.eop then 8 * (n - 1) + lastQuadBytes uni rx else 8 * n
  if getBit .rqTwo rq && !getBit .rqExtended rq && decide (8 < n) then total - 64 else total

/-- The status of a request arrives (R778): it is stored, RERR becomes the inverted bit 8, and the entry is done. -/
def State.statusArrives (s : State) (rq : Word) (e : RcvEntry) (status : Quad) : State :=
  let (free1, s) := s.draw .rfifoReserved
  let (free2, s) := s.draw .rfifoReserved
  let st := statusQuads (longStatus s.fbi rq) status free1 free2
  (s.withFbi { s.fbi with rfifo := storeStatus s.fbi.rfifo rq st }).pushRcvCntl
    { e with word := putRerr (!st.1.getLsbD 8) e.word }

/-- A request that is not cancelled (R806): with EOP on its last data cycle its status waits until a later request has
finished (R778). With status enabled and neither EOP nor RXFAIL no status is fetched, and RERR is free: R808 does not give
it (DESIGN CHOICE, log entry 80). -/
def State.receiveData (s : State) (rq : Word) (rx : RxData) (free : Word) : State :=
  let f := s.fbi
  let fast := getBit .rqFast rq
  let p := fastPort rq
  let qs := rx.quads.take (requestQuads rq)
  let rx := { rx with eop := rx.eop && decide (rx.quads.length ≤ requestQuads rq) }
  let f1 := { f with rfifo := storeReceived f.rfifo rq 0 qs }
  let f2 := if fast then f1.sequence p rx.sop else f1
  let seq := if fast then some (if rx.sop then f2.sopSeq[p] else f2.mpktSeq[p]) else none
  let (tid, f3) := if fast then f2.assign p (getField .rqThread 5 rq) rx.sop else (getField .rqThread 5 rq, f2)
  let rerr := if rx.rxfail then some false else none
  let w := controlWord f rq free fast seq rx qs.length (validBytes f.uniDir rq rx qs.length) rerr
  let e := s.rcvEntry rq w tid
  let t := s.withFbi f3.requestDone
  if !(f.statusMode && rx.eop && !rx.rxfail) then t.pushRcvCntl e
  else if qs.length = requestQuads rq && !(f.uniDir && rx.half) then
    t.withFbi { t.fbi with statusDue := t.fbi.statusDue ++ [⟨rq, e⟩] }
  else t.statusArrives rq e rx.status

/-- Process the oldest request; a fast port that is not ready cancels it (R811). -/
def State.receiveRequest (s : State) (rq : Word) (rx : RxData) : State :=
  let (free, s) := s.draw .rcvCntl
  if getBit .rqFast rq && !getBit .rqIgnoreFast rq && !s.env.fastRx.getLsbD (fastPort rq).val then
    (s.withFbi s.fbi.requestDone).pushRcvCntl (s.rcvEntry rq (cancelWord rq free) (getField .rqThread 5 rq))
  else s.receiveData rq rx free

/-- One step of the Receive State Machine; the MAC supplies `rx` (R806). A status that is due is fetched once a later
request has finished, or when no request is waiting (R778). -/
def State.receiveStep (s : State) (rx : RxData) : State :=
  if !s.fbi.rxWork || !s.fbi.rxMayRun then s
  else match s.fbi.statusDue, s.fbi.statusTurn, s.fbi.rcvReq with
    | d :: rest, true, _ | d :: rest, false, [] =>
      (s.withFbi { s.fbi with statusDue := rest, statusTurn := false }).statusArrives d.rq d.entry rx.status
    | _, _, rq :: _ => s.receiveRequest rq rx
    | [], _, [] => s

/-! ### Transmit State Machine (R815 to R819) -/

/-- The 8-bit byte enables of 1 to 8 valid bytes, active low (Table 6-24). -/
def byteEnables8 (big : Bool) (n : Nat) : Byte :=
  let v : List Byte := if big then [0xF7, 0xF3, 0xF1, 0xF0, 0x70, 0x30, 0x10, 0x00]
    else [0xFE, 0xFC, 0xF8, 0xF0, 0xE0, 0xC0, 0x80, 0x00]
  v.getD (n - 1) 0

/-- The 4-bit byte enables of 1 to 4 valid bytes (Table 6-26). -/
def byteEnables4 (big : Bool) (n : Nat) : Byte :=
  let v : List Byte := if big then [0x7, 0x3, 0x1, 0x0] else [0xE, 0xC, 0x8, 0x0]
  v.getD (n - 1) 0

/-- The byte enables of the last data cycle: in 32-bit mode the transmit bus has FBE#[7:4] (R809), and bits 3:0, the
receive bus's, are left 0. -/
def Fbi.lastEnables (f : Fbi) (n : Nat) : Byte :=
  if f.uniDir then byteEnables4 f.bigEndian ((n - 1) % 4 + 1) <<< 4 else byteEnables8 f.bigEndian n

/-- The element is done: both valid flags clear, the pointer moves, the bus turn passes (R819, R820). -/
def Fbi.elementDone (f : Fbi) : Fbi :=
  { f with txValid := f.txValid &&& ~~~((1#16) <<< f.xmitPtr.toNat)
           txValid2 := f.txValid2 &&& ~~~((1#16) <<< f.xmitPtr.toNat)
           xmitPtr := f.xmitPtr + 1, rxTurn := true }

/-- What an element of control quadword `c` sends (R816). -/
def Fbi.element (f : Fbi) (e : Nat) (c : Quad) : Option (List Quad) := do
  let pre ← if c.getLsbD 16 then (f.tfifo.readQuad (129 + 2 * e)).map (fun q => [q]) else some []
  let data ← f.tfifo.readQuads (8 * e) ((c.extractLsb' 13 3).toNat + 1)
  pure (pre ++ data)

/-- One step of the Transmit State Machine. -/
def State.transmitStep (s : State) : Res State :=
  let f := s.fbi
  if !f.txWork || !f.txMayRun then .ok s
  else do
    let e := f.xmitPtr.toNat
    let c ← written (f.tfifo.readQuad (128 + 2 * e))
    if c.getLsbD 7 then pure (s.withFbi f.elementDone)
    else do
      let data ← written (f.element e c)
      let last := (c.extractLsb' 10 3).toNat + 1
      let bytes := 8 * (data.length - 1) + last
      pure { s.withFbi f.elementDone with
        outputs := s.outputs ++ [.ixTransmit (c.extractLsb' 3 3) (c.extractLsb' 0 3) data bytes
          (f.lastEnables last) (c.getLsbD 8) (c.getLsbD 9) (c.getLsbD 17) (c.getLsbD 18)] }

end Sys2Proof.Machine
end

