-- ==== Sys2Proof/Machine/PciPort.lean ====
section
/-! DEFINITION. What the PCI Unit asks of the SDRAM Unit (53_pci_unit.md R951, R956, R973, R990 to R997): the address of
each access it has ready, by which the SDRAM Unit chains consecutive ones (51_sdram_unit.md R844). -/

namespace Sys2Proof.Machine

/-! ### Addresses -/

/-- The SDRAM byte address a PCI memory address names, if it is in the window (R991). -/
def Pci.dramHit (p : Pci) (a : Word) : Option Nat :=
  let m := Config.dramWindowMask p.dramMask
  if a &&& ~~~m = p.dramBar &&& ~~~m then some (a &&& m).toNat else none

/-- PCI address bits [7:2]. -/
def csrOffset (a : Word) : BitVec 6 := a.extractLsb' 2 6

/-! ### Channels -/

/-- The byte count below bit 31: bits 23:0 (R165). -/
def Chan.count (c : Chan) : Nat := (c.byteCount.setWidth 24).toNat

/-- Bytes of channel `n` still stand in the Outbound FIFO (R990). -/
def Pci.chanWrites (p : Pci) (n : Fin 2) : Bool := p.outbound.any fun o => o.chan == some n

/-- The channel has a burst to make. -/
def Chan.bursts (c : Chan) : Bool := c.busy && !c.needDesc && c.count != 0
/-- The channel's next burst is a write to PCI. R951 does not say when `dma_direction` is asked: at every burst, of the byte
count left (DESIGN CHOICE, log entry 40). -/
def Chan.toPci (c : Chan) : Bool := Config.dmaToPci c.control c.byteCount
/-- The channel's next burst is a read from PCI. -/
def Chan.readsPci (c : Chan) : Bool := c.bursts && !c.toPci

/-! ### Accesses -/

/-- The Dword of SDRAM that the latched read begins at (R997, R973); none outside the window and for an empty list. -/
def Pci.latchAsks (p : Pci) (l : ReadLatch) : Option Nat :=
  if !l.i2o then (p.dramHit l.addr).map (· / 4 * 4)
  else if csrOffset l.addr = 0x10 then (if p.inbFreeCount = 0 then none else some p.inbFreeHead.toNat)
  else if p.outbPostCount = 0 then none else some p.outbPostHead.toNat

/-- The address of the access that the head of the Inbound FIFO makes, if it makes one. -/
def Pci.inboundAsks (p : Pci) : Option Nat :=
  match p.inbound with
  | .write x _ :: _ | .dma _ x _ :: _ => some x
  | .i2oPost _ :: _ => some p.inbPostTail.toNat
  | .i2oFree _ :: _ => some p.outbFreeTail.toNat
  | .read :: _ => p.latch.bind p.latchAsks
  | [] => none

/-- The address of the access that channel `n` makes next: its descriptor (R951), or the source of a burst (R956). -/
def Pci.chanAsks (p : Pci) (n : Fin 2) : Option Nat :=
  let c := p.chans[n]
  if c.busy && c.needDesc then some c.descPtr.toNat
  else if c.bursts && c.toPci && p.busMaster && !p.chanWrites n then some c.dramAddr.toNat
  else none

/-- An access at `x` follows one that ended before byte `e`: in the next longword, or in the rest of the same one. -/
def adjacent (e x : Nat) : Bool := x == e || x / 4 == (e + 3) / 4

/-- The PCI Unit has an access ready that follows one that ended before byte `e`. -/
def Pci.asksAt (p : Pci) (e : Nat) : Bool :=
  [p.inboundAsks, p.chanAsks 0, p.chanAsks 1].any fun a => (a.map (adjacent e)).getD false

end Sys2Proof.Machine
end

