-- ==== Sys2Proof/Machine/SdramUnit.lean ====
section
/-! DEFINITION. The SDRAM Unit (51_sdram_unit.md): the service order of R840 to R844, what it does with a microengine
command, the byte aligner, and the access of its two other clients. -/

namespace Sys2Proof.Machine

/-- Replace the SDRAM Unit. -/
def State.withSdram (s : State) (d : Sdram) : State := { s with sdram := d }

/-! ### The array and the prefetch window (R858, D33) -/

/-- The array holds `m` from now on. What it held before stays a value that a read through the D000 0000 window may
deliver, once the core has used that window. -/
def Sdram.store (d : Sdram) (m : Mem) : Sdram := { d with mem := m, past := d.past.map (d.mem :: ·) }

/-- The core's access through the window has just been made. -/
def Sdram.windowUsed (d : Sdram) : Sdram := { d with past := some [] }

/-- The contents that a read through the window sees at draw `n`: the present ones, or those of some point since the
core's last access there. -/
def Sdram.seen (d : Sdram) (n : Nat) : Mem :=
  let ms := d.mem :: d.past.getD []
  ms.getD ((Config.freeWord .prefetch n).toNat % ms.length) d.mem

/-- Byte `i` of a read at `x` through the window, each longword with a draw of its own from `n` on; none where nothing has
been written. A byte that has been written, but not in the contents seen, is any (DESIGN CHOICE, log entry 81). -/
def Sdram.windowByte (d : Sdram) (n x i : Nat) : Option Byte :=
  let k := n + ((x + i) / 4 - x / 4)
  (d.mem.read (x + i)).map fun _ =>
    ((d.seen k).read (x + i)).getD ((Config.freeWord .staleByte k).extractLsb' (8 * ((x + i) % 4)) 8)

/-- The `k` bytes of a read at `x` through the window. -/
def Sdram.windowBytes (d : Sdram) (n x k : Nat) : List (Option Byte) := (List.range k).map (d.windowByte n x)

/-- A read of `k` bytes through the window has been served. -/
def State.windowRead (s : State) (k : Nat) : State := { s.withSdram s.sdram.windowUsed with free := s.free + k }

/-! ### Byte aligner (R850, R851) -/

/-- The bytes of a quadword in big-endian stream order; its own inverse. -/
def bigEndianOrder : List Byte → List Byte
  | [b0, b1, b2, b3, b4, b5, b6, b7] => [b3, b2, b1, b0, b7, b6, b5, b4]
  | bs => bs

/-- The bytes of a quadword in stream order. -/
def streamOrder (big : Bool) (bs : List Byte) : List Byte := if big then bigEndianOrder bs else bs

/-- `n` quadwords from a stream. -/
def unstream (big : Bool) (bs : List Byte) : Nat → List Quad
  | 0 => []
  | n + 1 => quadOf (streamOrder big (bs.take 8)) :: unstream big (bs.drop 8) n

/-- The aligner: `c` output quadwords from stream position `align` of the quadwords read. -/
def alignQuads (big : Bool) (align c : Nat) (qs : List Quad) : List Quad :=
  unstream big ((qs.flatMap fun q => streamOrder big (quadBytes q)).drop align) c

/-! ### Grants -/

/-- The unit serves: out of reset and initialised (R832, R1146). -/
def Sdram.serving (d : Sdram) : Bool := !d.inReset && d.ready

/-- A client of the round robin has a request pending. PCI accesses are steps of their own (log entry 37). -/
def Sdram.pending (d : Sdram) : SdramPort → Bool
  | .amba => !d.posted.isEmpty
  | .pci => false
  | .prio => !d.prioQ.isEmpty

/-- The clients ahead of `u` in the round robin. -/
def ahead (u : SdramPort) (rr : List SdramPort) : List SdramPort := rr.takeWhile (· != u)

/-- The chained bit that the unit sets itself for the PCI Unit (R844): the access ready there follows the last one. -/
def State.pciChained (s : State) : Bool := (s.sdram.pciChain.map s.pci.asksAt).getD false

/-- Client `u` gets the unit now (R840, R841): it serves, and no client ahead of `u` is waiting; under a chain only its
owner gets it (R844). -/
def State.sdramGrants (s : State) (u : SdramPort) : Bool :=
  s.sdram.serving && s.sdram.chains.isEmpty
    && (if s.pciChained then u == .pci else (ahead u s.sdram.rr).all (fun v => !s.sdram.pending v))

/-- A grant moves the client to the end of the round robin (R841) and notes the bank (R842); the commands before it were
not its own, so that a chain of the PCI Unit is over. -/
def Sdram.granted (d : Sdram) (u : SdramPort) (quad : Nat) : Sdram :=
  { d with rr := d.rr.filter (· != u) ++ [u], lastOdd := Config.sdramBankOdd (BitVec.ofNat 32 quad), pciChain := none }

/-- The array has served the PCI Unit's access of the `n` bytes at `x`. Whether the unit receives the next command in time
to chain it is a draw, so that other agents may see a long burst partly done (R844, R996; DESIGN CHOICE, log entry 66). -/
def State.pciServed (s : State) (x n : Nat) : State :=
  let next := if Config.freeBit .pciChain s.free then some (x + n) else none
  { s.withSdram { s.sdram.granted .pci (x / 8) with pciChain := next } with free := s.free + 1 }

/-! ### Microengine commands -/

/-- A burst of `n` quadwords from `a` lies in SDRAM (U18). -/
def State.sdramOk (s : State) (a : Word) (n : Nat) : Bool := decide (8 * (a.toNat + n) ≤ s.board.sdramBytes)

/-- A burst to the TFIFO stays in its data area (R861, U18). -/
def tFifoDataOk (f c : Nat) : Bool := decide (f + c ≤ 128)

/-- A burst from the RFIFO stays in the data area or in the area behind it (R862, R320). -/
def directFifoOk (f c : Nat) : Bool := fifoOk f c && (decide (128 ≤ f) || decide (f + c ≤ 128))

/-- Two registers for each quadword, the low longword first (R848, D6). -/
def quadRegs (qs : List Quad) : List Word := qs.flatMap fun q => [quadLow q, quadHigh q]

/-- Quadwords from register contents (R849, D6). -/
def regQuads : List Word → List Quad
  | lo :: hi :: rest => quadOfWords lo hi :: regQuads rest
  | _ => []

/-- `sdram[t_fifo_wr]` (R861): the aligned quadwords, and the residue a chained reference leaves (R851); `res` is the
residue of the chain's reference before it. -/
def Sdram.alignRead (d : Sdram) (res : Option Residue) (a : Word) (c : Nat) (align : BitVec 4) :
    Res (List Quad × Option Residue) := do
  match res with
  | some r => do
    let qs ← written (d.mem.readQuads a.toNat c)
    let all := r.quad :: qs
    pure (alignQuads d.bigEndian r.align.toNat c all, some ⟨all.getLastD 0, r.align⟩)
  | none =>
    if align = 0 then do
      let qs ← written (d.mem.readQuads a.toNat c)
      pure (qs, none)
    else do
      let qs ← written (d.mem.readQuads a.toNat (c + 1))
      pure (alignQuads d.bigEndian align.toNat c qs, some ⟨qs.getLastD 0, align⟩)

/-- `sdram[t_fifo_wr]` with an alignment of 8 to 15, which the four-bit field holds and R850 gives no meaning, from the
reference or kept by its chain: free quadwords (log entry 21); with 0 to 7, what the aligner makes of memory. -/
def State.alignOut (s : State) (res : Option Residue) (a : Word) (c : Nat) (align : BitVec 4) :
    Res (List Quad × Option Residue × State) :=
  let n := (res.map (·.align)).getD align
  if n.toNat ≤ 7 then do
    let (qs, r) ← s.sdram.alignRead res a c align
    pure (qs, r, s)
  else
    let (ws, s) := s.drawWords .aligner (2 * c)
    .ok (regQuads ws, some ⟨(regQuads ws).getLastD 0, n⟩, s)

/-- Quadwords `sdram[t_fifo_wr]` reads (R851). -/
def alignSpan (res : Option Residue) (c : Nat) (align : BitVec 4) : Nat :=
  if res.isNone && align != 0 then c + 1 else c

/-- The residue that the chain of command `c` has left (R851). -/
def Sdram.residue (d : Sdram) (c : Cmd) : Option Residue :=
  (d.chains.find? fun k => c.link == some k.num).bind (·.residue)

/-- Keep a residue for the chain of command `c`; without a mark or a chain there is nothing to keep it for (R851). -/
def Sdram.keepResidue (d : Sdram) (c : Cmd) (r : Option Residue) : Sdram :=
  { d with chains := d.chains.map fun k =>
      if c.link = some k.num then { k with residue := if c.chain then r else none } else k }

/-- The second valid flag of the element of TFIFO address `f` (R818, R861). -/
def Fbi.secondValid (f : Fbi) (addr : Nat) (sig : Bool) : Fbi :=
  if sig && f.dualValid then { f with txValid2 := f.txValid2 ||| ((1#16) <<< (addr / 8)) } else f

/-- Write quadwords from quadword `a`, one of them with a byte mask if there is one (R843). A mask with more than one
quadword, which R843 rules out and gives no result, leaves free bytes in all of them (log entry 21). -/
def State.sdramPut (s : State) (a : Nat) (qs : List Quad) (mask : Option Byte) : State :=
  match mask, qs with
  | none, qs => s.withSdram (s.sdram.store (s.sdram.mem.writeQuads a qs))
  | some m, [q] => s.withSdram (s.sdram.store (s.sdram.mem.writeMasked (8 * a) m.toNat (quadBytes q)))
  | some _, qs =>
    let (ws, s) := s.drawWords .maskedBurst (2 * qs.length)
    s.withSdram (s.sdram.store (s.sdram.mem.writeQuads a (regQuads ws)))

/-- Serve one command (R848, R849, R843, R861, R862); it has been removed from its queue. -/
def State.sdramServe (s : State) (c : Cmd) : Res State :=
  match c.op with
  | .sdramRead a x cnt => do
    require (s.sdramOk a cnt) .addressRange
    let qs ← written (s.sdram.mem.readQuads a.toNat cnt)
    pure ((s.pushSdram c.xfMe x (quadRegs qs)).completed c)
  | .sdramWrite a x cnt mask => do
    require (s.sdramOk a cnt) .addressRange
    let s := s.sdramPut a.toNat (regQuads (s.pullSdram c.xfMe x (2 * cnt))) mask
    pure (s.completed c)
  | .sdramTFifo a cnt f align => do
    let res := s.sdram.residue c
    require (s.sdramOk a (alignSpan res cnt align) && tFifoDataOk f cnt) .addressRange
    let (qs, r, s) ← s.alignOut res a cnt align
    let s := s.withSdram (s.sdram.keepResidue c r)
    let fbi := { s.fbi with tfifo := s.fbi.tfifo.writeQuads f qs }
    pure ((s.withFbi (fbi.secondValid f c.sig.isSome)).completed c)
  | .sdramRFifo a cnt f => do
    require (s.sdramOk a cnt && directFifoOk f cnt) .addressRange
    let qs ← written (s.fbi.rfifo.readQuads f cnt)
    pure ((s.withSdram (s.sdram.store (s.sdram.mem.writeQuads a.toNat qs))).completed c)
  | _ => .ok s

/-- The beginning quadword address of a command (R842). -/
def sdramStart (c : Cmd) : Nat :=
  match c.op with
  | .sdramRead a .. | .sdramWrite a .. | .sdramTFifo a .. | .sdramRFifo a .. => a.toNat
  | _ => 0

/-- One of the unit's four command queues. -/
def Sdram.queue (d : Sdram) : UnitQueue → List Cmd
  | .sdramOdd => d.oddQ
  | .sdramEven => d.evenQ
  | .sdramPrio => d.prioQ
  | _ => d.orderQ

/-- Replace a command queue. -/
def Sdram.setQueue (d : Sdram) (q : UnitQueue) (cs : List Cmd) : Sdram :=
  match q with
  | .sdramOdd => { d with oddQ := cs }
  | .sdramEven => { d with evenQ := cs }
  | .sdramPrio => { d with prioQ := cs }
  | _ => { d with orderQ := cs }

/-! ### Chains (R844) -/

/-- The chain of command `c`, served from queue `q`, is begun, or goes on in that queue. -/
def Sdram.joinChain (d : Sdram) (c : Cmd) (q : UnitQueue) : Sdram :=
  match c.link with
  | none => d
  | some n =>
    if d.chains.any (·.num == n) then
      { d with chains := d.chains.map fun k => if k.num = n then { k with queue := q } else k }
    else { d with chains := d.chains ++ [⟨n, q, none⟩] }

/-- Queue `q` holds a command of chain `n`. -/
def Sdram.holdsChain (d : Sdram) (n : Nat) (q : UnitQueue) : Bool := (d.queue q).any fun c => c.link == some n

/-- A chain is not complete: it is open at the command bus, or a queue holds a command of it. -/
def Sdram.chainOpen (d : Sdram) (k : SdramChain) : Bool :=
  (d.busChain.isSome && d.chainCount == k.num)
    || [UnitQueue.sdramOrder, .sdramPrio, .sdramOdd, .sdramEven].any (d.holdsChain k.num)

/-- Forget the chains that are complete. -/
def Sdram.endChains (d : Sdram) : Sdram := { d with chains := d.chains.filter d.chainOpen }

/-- The queue that holds the next command of a chain: the one its last command came from before the others. -/
def Sdram.chainQueue (d : Sdram) (k : SdramChain) : Option UnitQueue :=
  [k.queue, .sdramOrder, .sdramPrio, .sdramOdd, .sdramEven].find? (d.holdsChain k.num)

/-- Serve the head of queue `q`. The aligner's residue is kept with the chain: a command outside it neither uses nor
drops it (R851). -/
def State.sdramFrom (s : State) (q : UnitQueue) : Res State :=
  match s.sdram.queue q with
  | [] => .ok s
  | c :: rest => do
    let d := s.sdram
    let t ← (s.withSdram { (d.setQueue q rest).joinChain c q with
      lastOdd := Config.sdramBankOdd (BitVec.ofNat 32 (sdramStart c)), pciChain := none
      rr := if q = .sdramPrio then d.rr.filter (· != .prio) ++ [.prio] else d.rr }).sdramServe c
    pure (t.withSdram t.sdram.endChains)

/-- The Order, Odd and Even queues in their present priority (R842). -/
def Sdram.bankOrder (d : Sdram) : List UnitQueue :=
  if d.lastOdd then [.sdramEven, .sdramOrder, .sdramOdd] else [.sdramOdd, .sdramOrder, .sdramEven]

/-! ### StrongARM and PCI access to the array -/

/-- A byte range lies in SDRAM (U18). -/
def State.sdramBytesOk (s : State) (x n : Nat) : Bool := decide (x + n ≤ s.board.sdramBytes)

/-- Write the oldest posted StrongARM transaction (R856); one through the D000 0000 window is an access there (R858). -/
def State.sdramPosted (s : State) : Res State :=
  match s.sdram.posted with
  | [] => .ok s
  | p :: rest => do
    require (s.sdramBytesOk p.addr p.bytes.length) .addressRange
    let d := { s.sdram.granted .amba (p.addr / 8) with posted := rest }.store (s.sdram.mem.writeBytes p.addr p.bytes)
    pure (s.withSdram (if p.window then d.windowUsed else d))

/-- One step of the unit: the chain begun first, else the round robin of StrongARM and the High Priority queue, else the
Order, Odd and Even queues (R840). A chain whose next command has not come keeps every other request waiting (R844). -/
def State.sdramStep (s : State) : Res State :=
  let d := s.sdram
  if !d.serving || s.pciChained then .ok s
  else match d.chains with
    | k :: _ =>
      match d.chainQueue k with
      | some q => s.sdramFrom q
      | none => .ok s
    | [] =>
      match d.rr.find? (fun u => d.pending u) with
      | some .amba => s.sdramPosted
      | some _ => s.sdramFrom .sdramPrio
      | none =>
        match d.bankOrder.find? (fun q => !(d.queue q).isEmpty) with
        | some q => s.sdramFrom q
        | none => .ok s

/-- The initialisation that a write of SDRAM_CSR with INIT started is done (R832). -/
def State.sdramInitDone (s : State) : State :=
  if s.sdram.initPending && !s.sdram.inReset then
    s.withSdram { s.sdram with initPending := false, ready := true }
  else s

/-! ### SDRAM CSRs (R275 to R278), StrongARM only -/

/-- Read an SDRAM CSR. -/
def Sdram.csrRead (d : Sdram) : SdramCsr → Word
  | .csr => putBit .sdBigEndian d.bigEndian d.csr
  | .memctl0 => d.memctl0
  | .memctl1 => d.memctl1
  | .meminit => d.meminit

/-- Write an SDRAM CSR; SDRAM_CSR with INIT set starts the initialisation, during which accesses are held off. A 1 in the
Endian bit selects big endian: R276 and R850 give no polarity. INIT stays in the stored word as written, also when the
initialisation is done: R276 does not say what it reads as (DESIGN CHOICE, log entry 5, both). -/
def Sdram.csrWrite (d : Sdram) (r : SdramCsr) (v : Word) : Sdram :=
  match r with
  | .csr =>
    let d := { d with csr := v, bigEndian := getBit .sdBigEndian v }
    if getBit .sdInit v then { d with initPending := true, ready := false } else d
  | .memctl0 => { d with memctl0 := v }
  | .memctl1 => { d with memctl1 := v }
  | .meminit => { d with meminit := v }

end Sys2Proof.Machine
end

