-- ==== Sys2Proof/Machine/SramUnit.lean ====
section
/-! DEFINITION. The SRAM Unit (52_sram_unit.md): its four address spaces, push-pop registers, lock CAM, bit
operations, journal, CSRs and service order, for the microengines and for the StrongARM core. -/

namespace Sys2Proof.Machine

/-- Replace the SRAM Unit. -/
def State.withSram (s : State) (r : Sram) : State := { s with sram := r }

/-! ### SSRAM longwords -/

/-- A burst of `n` longwords from `a` lies in the SSRAM (R882, U20). -/
def State.ssramOk (s : State) (a n : Nat) : Bool := decide (4 * (a + n) ≤ s.board.sramBytes)

/-- Read one SSRAM longword. -/
def State.ssramRead (s : State) (a : Nat) : Res Word := do
  require (s.ssramOk a 1) .addressRange
  written (s.sram.mem.readWord a)

/-- Write one SSRAM longword. -/
def State.ssramWrite (s : State) (a : Nat) (v : Word) : Res State := do
  require (s.ssramOk a 1) .addressRange
  pure (s.withSram { s.sram with mem := s.sram.mem.writeWord a v })

/-! ### CSRs (R281 to R284) and journal (R925 to R927) -/

/-- Advance the journal pointer, wrapping after SRAM_AUTO_END (R926). -/
def Sram.autoNext (r : Sram) : Sram :=
  { r with autoPtr := if r.autoPtr = r.autoEnd then r.autoBase else r.autoPtr + 1 }

/-- Read an SRAM CSR; a read of SRAM_AUTO_PTR advances it (R927). -/
def State.sramCsrRead (s : State) (k : SramCsr) : Word × State :=
  let r := s.sram
  match k with
  | .csr => (putBit .srLockFail r.failStatus (putBit .srLockDone r.doneStatus r.csr), s)
  | .slowConfig => (r.slowConfig, s)
  | .bootConfig => (r.bootConfig, s)
  | .slowportConfig => (r.slowportConfig, s)
  | .testMod => (r.testMod, s)
  | .autoBase => (r.autoBase, s)
  | .autoEnd => (r.autoEnd, s)
  | .autoPtr => (r.autoPtr, s.withSram r.autoNext)

/-- A status bit after the write of a word (R914): cleared by a 1 or by a 0 at its place, as CSR_LAYOUT has it. -/
def statusAfter (f : CsrField) (old : Bool) (v : Word) : Bool :=
  if Config.w1c f then old && !getBit f v else old && getBit f v

/-- The journal entry of an agent (R926): a microengine's id and thread stand over bits 31:27. -/
def journalEntry (who : Option (Fin 6 × Fin 4)) (d : Word) : Word :=
  match who with
  | some (m, c) => ((BitVec.ofNat 32 m.val) <<< 29) ||| ((BitVec.ofNat 32 c.val) <<< 27) ||| (d &&& 0x07FFFFFF)
  | none => d

/-- A microengine writes the journal only with its enable set (U23). -/
def State.mayJournal (s : State) (who : Option (Fin 6 × Fin 4)) : Bool :=
  match who with
  | some (m, _) => (s.me m).journaling
  | none => true

/-- Write an SRAM CSR; `who` is the microengine thread, or none for the StrongARM core. After a write of
SRAM_AUTO_END the pointer is 0 or the base (U19); a journal area whose first or last longword is outside the SSRAM is
refused (R925, U20). -/
def State.sramCsrWrite (s : State) (who : Option (Fin 6 × Fin 4)) (k : SramCsr) (v : Word) : Res State :=
  let r := s.sram
  match k with
  | .csr => .ok (s.withSram { r with
      csr := v
      failStatus := statusAfter .srLockFail r.failStatus v
      doneStatus := statusAfter .srLockDone r.doneStatus v })
  | .slowConfig => .ok (s.withSram { r with slowConfig := v })
  | .bootConfig => .ok (s.withSram { r with bootConfig := v })
  | .slowportConfig => .ok (s.withSram { r with slowportConfig := v })
  | .testMod => .ok (s.withSram { r with testMod := v })
  | .autoBase => do
    require (s.ssramOk v.toNat 1) .addressRange
    pure (s.withSram { r with autoBase := v, autoPtr := v })
  | .autoEnd => do
    require (s.ssramOk v.toNat 1) .addressRange
    let p := if Config.freeBit .autoEnd s.free then r.autoBase else 0
    pure { s.withSram { r with autoEnd := v, autoPtr := p } with free := s.free + 1 }
  | .autoPtr =>
    if s.mayJournal who then do
      let s ← s.ssramWrite r.autoPtr.toNat (journalEntry who v)
      pure (s.withSram s.sram.autoNext)
    else .ok s

/-! ### The microengine map (R882): longword address `w` -/

/-- A write of BootROM bytes (R883): the device takes it when the board has one that does. -/
def State.bootPut (s : State) (x : Nat) (bs : List Byte) : State :=
  let r := if s.board.bootWritable then { s.sram with boot := s.sram.boot.writeBytes x bs } else s.sram
  { s.withSram r with outputs := s.outputs ++ [.bootRom x bs] }

/-- A write of BootROM bytes on a 16-bit bus: of each longword, only bytes of the lower 16 bits reach the device (R883).
That a byte or halfword store to an upper half is lost is the model's choice (log entry 62). -/
def State.bootHalves (s : State) (x : Nat) : List Byte → State
  | b0 :: b1 :: _ :: _ :: rest => (s.bootPut x [b0, b1]).bootHalves (x + 4) rest
  | bs => if (bs.take (2 - x % 4)).isEmpty then s else s.bootPut x (bs.take (2 - x % 4))

/-- A write of BootROM bytes on the bus the board straps (R883). -/
def State.bootWrite (s : State) (x : Nat) (bs : List Byte) : State :=
  if s.board.boot16 then s.bootHalves x bs else s.bootPut x bs

/-- What a microengine reads of a BootROM longword: on a 16-bit bus only the lower 16 bits are valid (R883). -/
def State.bootLong (s : State) (v : Word) : Word × State :=
  if s.board.boot16 then
    (((s.draw .bootHigh).1.setWidth 16) ++ v.setWidth 16, (s.draw .bootHigh).2)
  else (v, s)

/-- The `n` bytes the slow port devices deliver from byte `x` of their space on (R884): what the host offers there, any
byte where it offers none. -/
def State.slowRead (s : State) (x n : Nat) : List Byte × State :=
  ((List.range n).map fun i => (s.env.slow.read (x + i)).getD ((Config.freeWord .slowPort (s.free + i)).setWidth 8),
    { s with free := s.free + n })

/-- Read longword `w` of the microengine map. -/
def State.sramLongRead (s : State) (w : Nat) : Res (Word × State) :=
  if w < 0x200000 then do
    let v ← s.ssramRead w
    pure (v, s)
  else if w < 0x400000 then do
    require (decide (4 * (w - 0x200000) + 4 ≤ s.board.bootromBytes)) .addressRange
    let v ← written (s.sram.boot.readWord (w - 0x200000))
    pure (s.bootLong v)
  else if 0x600000 ≤ w ∧ w < 0x600080 then
    match Config.sramCsrAt (BitVec.ofNat 7 (w - 0x600000)) with
    | some k => .ok (s.sramCsrRead k)
    | none => refuse .addressRange
  else if 0x700000 ≤ w ∧ w < 0x780000 then
    let (bs, s) := s.slowRead (4 * (w - 0x700000)) 4
    .ok (wordOf bs, s)
  else refuse .addressRange

/-- Write longword `w` of the microengine map. -/
def State.sramLongWrite (s : State) (who : Option (Fin 6 × Fin 4)) (w : Nat) (v : Word) : Res State :=
  if w < 0x200000 then s.ssramWrite w v
  else if w < 0x400000 then do
    require (decide (4 * (w - 0x200000) + 4 ≤ s.board.bootromBytes)) .addressRange
    pure (s.bootWrite (4 * (w - 0x200000)) (wordBytes v))
  else if 0x600000 ≤ w ∧ w < 0x600080 then
    match Config.sramCsrAt (BitVec.ofNat 7 (w - 0x600000)) with
    | some k => s.sramCsrWrite who k v
    | none => refuse .addressRange
  else if 0x700000 ≤ w ∧ w < 0x780000 then
    .ok { s with outputs := s.outputs ++ [.slowPort (4 * (w - 0x700000)) (wordBytes v)] }
  else refuse .addressRange

/-- Read `n` longwords from `w` (R901). -/
def State.sramReads (s : State) (w : Nat) : Nat → Res (List Word × State)
  | 0 => .ok ([], s)
  | n + 1 => do
    let (v, s) ← s.sramLongRead w
    let (vs, s) ← s.sramReads (w + 1) n
    pure (v :: vs, s)

/-- Write longwords from `w` upward (R901). -/
def State.sramWrites (s : State) (who : Option (Fin 6 × Fin 4)) (w : Nat) : List Word → Res State
  | [] => .ok s
  | v :: vs => do
    let s ← s.sramLongWrite who w v
    s.sramWrites who (w + 1) vs

/-- The row of Table 8-5 that a served command leaves: a change of side begins its count anew (R902). -/
def Sram.turn (r : Sram) (side : SramSide) : Sram := if r.side = side then r else { r with side := side, served := 0 }

/-! ### Lock CAM (R910 to R914) -/

/-- The lock on `a` can be granted: not held, and an entry is free (R911). -/
def Sram.canLock (r : Sram) (a : Word) : Bool := !r.cam.contains a && decide (r.cam.length < 8)

/-- A read lock fails at once behind waiting ones when the RLK bit is set (R911). -/
def Sram.lockFails (r : Sram) (a : Word) : Bool :=
  !r.canLock a || (getBit .srRlk r.csr && !r.lockFail.isEmpty)

/-- Take the lock. -/
def Sram.lock (r : Sram) (a : Word) : Sram := { r with cam := r.cam ++ [a] }

/-- Release the lock; the retry of the Read_lock Fail queue follows (R912, R913, U22). The Write/Order queue's count goes
on over it (R902, Note 1). -/
def Sram.unlock (r : Sram) (a : Word) : Sram :=
  { r with cam := r.cam.filter (· != a), retry := true }

/-- Queue a failed read lock; a 24th is a fault (R912, U21). -/
def State.lockWait (s : State) (w : LockWaiter) : Res State :=
  if s.sram.lockFail.length < 23 then .ok (s.withSram { s.sram with lockFail := s.sram.lockFail ++ [w] })
  else stopFault .lockQueueOverflow

/-- A read lock that succeeds: the CAM entry, the data, the signal (R911). -/
def State.lockRead (s : State) (c : Cmd) (a : Word) (x cnt : Nat) : Res State := do
  require (s.ssramOk a.toNat cnt) .addressRange
  let vs ← written (s.sram.mem.readWords a.toNat cnt)
  pure (((s.withSram (s.sram.lock a)).pushSram c.xfMe x vs).completed c)

/-- The address of a waiting read lock. -/
def waiterAddr : LockWaiter → Word
  | .me c => match c.op with
    | .sramReadLock a _ _ => a
    | _ => 0
  | .strongArm a => a

/-- After an unlock the head of the Read_lock Fail queue is the next command served, StrongARM's included, while its
lock can be granted (R902, R912). -/
def Sram.retryDue (r : Sram) : Bool :=
  r.retry && match r.lockFail with
    | w :: _ => r.canLock (waiterAddr w)
    | [] => false

/-- Serve the head of the Read_lock Fail queue as a successful read lock (R912, R914), which puts the Read queue's turn
first (Table 8-5). -/
def State.retryHead (s : State) (w : LockWaiter) (rest : List LockWaiter) : Res State :=
  let s := s.withSram { s.sram.turn .read with lockFail := rest }
  match w with
  | .me c => match c.op with
    | .sramReadLock a x cnt => s.lockRead c a x cnt
    | _ => .ok s
  | .strongArm a => .ok (s.withSram { s.sram.lock a with doneStatus := true })

/-! ### Bit operations and push-pop (R892, R893, R920) -/

/-- A read-modify-write of bits of an SSRAM longword: the value before and the new state. -/
def State.sramBits (s : State) (a : Nat) (op : BitOp) (m : Word) : Res (Word × State) := do
  let old ← s.ssramRead a
  let s ← s.ssramWrite a (bitResult op old m)
  pure (old, s)

/-- Pop list `k` (R892). The pointers are longword addresses: PUSHPOP_PTR_UNIT (D34) is open, and the model fixes the spec's
default with no board parameter for it (DESIGN CHOICE, log entry 12). -/
def State.pop (s : State) (k : Fin 8) : Res (Word × State) := do
  let m := s.sram.pushPop[k]
  let n ← s.ssramRead m.toNat
  pure (m, s.withSram { s.sram with pushPop := s.sram.pushPop.set k n })

/-- Push pointer `m` onto list `k` (R893); `m` is a longword address, as in `State.pop` (DESIGN CHOICE, log entry 12). -/
def State.push (s : State) (k : Fin 8) (m : Word) : Res State := do
  let s1 ← s.ssramWrite m.toNat s.sram.pushPop[k]
  pure (s1.withSram { s1.sram with pushPop := s1.sram.pushPop.set k m })

/-! ### Microengine commands -/

/-- Write longwords from `w` upward, one of them with a byte mask if there is one (R906): in the SSRAM only the bytes it
names; elsewhere the longword is read, merged and written, by the model's choice. A mask with more than one longword,
which R906 rules out and gives no result, writes free longwords (log entry 21). -/
def State.sramPut (s : State) (who : Option (Fin 6 × Fin 4)) (w : Nat) (vs : List Word) (mask : Option Byte) :
    Res State :=
  match mask, vs with
  | none, vs => s.sramWrites who w vs
  | some m, [v] =>
    if w < 0x200000 then do
      require (s.ssramOk w 1) .addressRange
      pure (s.withSram { s.sram with mem := s.sram.mem.writeMasked (4 * w) m.toNat (wordBytes v) })
    else do
      let (old, s) ← s.sramLongRead w
      s.sramLongWrite who w (merge old v (byteMask (m.setWidth 4)))
  | some _, vs =>
    let (ws, s) := s.drawWords .maskedBurst vs.length
    s.sramWrites who w ws

/-- Serve one command; it has been removed from its queue. -/
def State.sramServe (s : State) (c : Cmd) : Res State :=
  match c.op with
  | .sramRead a x cnt => do
    let (vs, s) ← s.sramReads a.toNat cnt
    pure ((s.pushSram c.xfMe x vs).completed c)
  | .sramWrite a x cnt mask => do
    let s ← s.sramPut (some (c.me, c.ctx)) a.toNat (s.pullSram c.xfMe x cnt) mask
    pure (s.completed c)
  | .sramBit a x op => do
    let (old, s) ← s.sramBits a.toNat op ((s.pullSram c.xfMe x 1).headD 0)
    let s := if bitTests op then s.pushSram c.xfMe x [old] else s
    pure (s.completed c)
  | .sramReadLock a x cnt => do
    require (s.ssramOk a.toNat cnt) .addressRange
    if s.sram.lockFails a then s.lockWait (.me c) else s.lockRead c a x cnt
  | .sramWriteUnlock a x cnt => do
    require (s.ssramOk a.toNat cnt) .addressRange
    let mem := s.sram.mem.writeWords a.toNat (s.pullSram c.xfMe x cnt)
    pure ((s.withSram ({ s.sram with mem := mem }.unlock a)).completed c)
  | .sramUnlock a => do
    require (s.ssramOk a.toNat 1) .addressRange
    pure ((s.withSram (s.sram.unlock a)).completed c)
  | .sramPush a k => do
    let s ← s.push k a
    pure (s.completed c)
  | .sramPop x k => do
    let (m, s) ← s.pop k
    pure ((s.pushSram c.xfMe x [m]).completed c)
  | _ => .ok s

/-! ### The StrongARM map (R882, R890): byte addresses -/

/-- What a StrongARM address of Devices 0 and 1 names; byte offsets inside each window. -/
inductive SramWindow where
  | boot (x : Nat) | rw (x : Nat) | readLock (x : Nat) | writeUnlock (x : Nat) | unlock (x : Nat)
  | bits (op : BitOp) (x : Nat) | push (k : Fin 8) (x : Nat) | pop (k : Fin 8) | csr (k : SramCsr) | slow (x : Nat)
  | none
deriving DecidableEq, Repr

/-- The window of a StrongARM physical address. The places of the CSRs are CSR_LAYOUT's; that one map serves both agents,
a CSR at byte `4i` here standing at longword `60 0000 + i` of the microengines, and that it spans 80h bytes, is the model's
choice (log entry 76). Every longword of a list's pop window is the pop: R890 prints one address for each list (DESIGN
CHOICE, log entry 46). -/
def sramWindow (a : Nat) : SramWindow :=
  let w := a / 0x800000
  let x := a % 0x800000
  if w = 0x00 then .boot x
  else if w = 0x20 then .rw x
  else if w = 0x24 then .readLock x
  else if w = 0x28 then .writeUnlock x
  else if w = 0x2C then .unlock x
  else if w = 0x30 then .bits .clearBits x
  else if w = 0x31 then .bits .setBits x
  else if w = 0x32 then .bits .testAndClear x
  else if w = 0x33 then .bits .testAndSet x
  else if h : 0x40 ≤ w ∧ w < 0x48 then .push ⟨w - 0x40, by omega⟩ x
  else if h : 0x48 ≤ w ∧ w < 0x50 then .pop ⟨w - 0x48, by omega⟩
  else if w = 0x70 then
    if x < 0x80 then
      match Config.sramCsrAt (BitVec.ofNat 7 (x / 4)) with
      | some k => .csr k
      | Option.none => .none
    else if 0x400000 ≤ x ∧ x < 0x600000 then .slow (x - 0x400000)
    else .none
  else .none

/-- The window takes whole longwords only (R350, D45): every one but the memory, the BootROM and the SlowPort. -/
def SramWindow.wordOnly : SramWindow → Bool
  | .boot _ | .rw _ | .slow _ => false
  | _ => true

/-- The core's load of a window is a Read, a Read-Lock or a Pop of Table 8-5; a CSR access is in no column (R902). -/
def SramWindow.reads : SramWindow → Bool
  | .boot _ | .rw _ | .slow _ | .readLock _ | .pop _ => true
  | _ => false

/-- The core has read a window. -/
def State.sramHasRead (s : State) (w : SramWindow) : State :=
  if w.reads then s.withSram (s.sram.turn .read) else s

/-- A StrongARM store of bytes at `a` takes effect (R904, R906, R893, R913, R920, R921). A store at byte offset `x` of a push
window pushes the longword address `x / 4`, the default of PUSHPOP_PTR_UNIT, which D34 leaves open (DESIGN CHOICE, log
entry 12). -/
def State.sramArmWrite (s : State) (a : Nat) (bs : List Byte) : Res State :=
  match sramWindow a with
  | .boot x => do
    require (decide (x + bs.length ≤ s.board.bootromBytes)) .addressRange
    pure (s.bootWrite x bs)
  | .rw x => do
    require (decide (x + bs.length ≤ s.board.sramBytes)) .addressRange
    pure (s.withSram { s.sram with mem := s.sram.mem.writeBytes x bs })
  | .writeUnlock x => do
    require (decide (x + bs.length ≤ s.board.sramBytes)) .addressRange
    let r := { s.sram with mem := s.sram.mem.writeBytes x bs }
    pure (s.withSram (r.unlock (BitVec.ofNat 32 (x / 4))))
  | .unlock x => do
    require (s.ssramOk (x / 4) 1) .addressRange
    pure (s.withSram (s.sram.unlock (BitVec.ofNat 32 (x / 4))))
  | .bits op x => do
    let (old, s) ← s.sramBits (x / 4) op (wordOf bs)
    pure (if bitTests op then s.withSram { s.sram with testMod := old } else s)
  | .push k x => s.push k (BitVec.ofNat 32 (x / 4))
  | .csr k => s.sramCsrWrite none k (wordOf bs)
  | .slow x => .ok { s with outputs := s.outputs ++ [.slowPort x bs] }
  | .pop _ | .readLock _ | .none => refuse .addressRange

/-- A StrongARM read of `n` bytes at `a` (R883, R884, R892, R914, R927). A failed read lock still returns the data. A load
from a window that the spec gives to stores only (push, bit, unlock, write unlock) is refused: the model's choice (DESIGN
CHOICE, log entry 46). -/
def State.sramArmRead (s : State) (a n : Nat) : Res (List Byte × State) :=
  match sramWindow a with
  | .boot x => do
    require (decide (x + n ≤ s.board.bootromBytes)) .addressRange
    let bs ← written (s.sram.boot.readBytes x n)
    pure (bs, s)
  | .rw x => do
    require (decide (x + n ≤ s.board.sramBytes)) .addressRange
    let bs ← written (s.sram.mem.readBytes x n)
    pure (bs, s)
  | .readLock x => do
    let k : Word := BitVec.ofNat 32 (x / 4)
    let v ← s.ssramRead (x / 4)
    if s.sram.lockFails k then do
      let s ← s.lockWait (.strongArm k)
      pure (wordBytes v, s.withSram { s.sram with failStatus := true })
    else pure (wordBytes v, s.withSram (s.sram.lock k))
  | .pop k => do
    let (m, s) ← s.pop k
    pure (wordBytes m, s)
  | .csr k => .ok (wordBytes (s.sramCsrRead k).1, (s.sramCsrRead k).2)
  | .slow x => .ok (s.slowRead x n)
  | .writeUnlock _ | .unlock _ | .bits .. | .push .. | .none => refuse .addressRange

/-! ### Service order (R902) -/

/-- A read-type command (R900). -/
def Cmd.sramReads (c : Cmd) : Bool :=
  match c.op with
  | .sramRead .. | .sramReadLock .. | .sramPop .. => true
  | _ => false

/-- The queue whose turn it is after one more Write/Order command (Note 1): four of any kind, then until a read, at most
eight. -/
def Sram.afterOrder (r : Sram) (c : Cmd) : Sram :=
  let n := if r.side = .order then r.served + 1 else 1
  if 8 ≤ n ∨ (4 < n ∧ c.sramReads = true) then { r with side := .read, served := 0 }
  else { r with side := .order, served := n }

/-- The queue whose turn it is after one more Read queue command (Note 2): eight. -/
def Sram.afterRead (r : Sram) : Sram :=
  let n := if r.side = .read then r.served + 1 else 1
  if 8 ≤ n then { r with side := .order, served := 0 } else { r with side := .read, served := n }

/-- After a High Priority command the row of Table 8-5 follows the command's kind. -/
def Sram.afterPrio (r : Sram) (c : Cmd) : Sram := r.turn (if c.sramReads then .read else .order)

/-- Serve the Write/Order queue or the Read queue, the one whose turn it is first. -/
def State.sramQueues (s : State) : Res State :=
  let r := s.sram
  match r.side, r.orderQ, r.readQ with
  | .order, c :: rest, _ => (s.withSram ({ r with orderQ := rest }.afterOrder c)).sramServe c
  | .order, [], c :: rest => (s.withSram { r with readQ := rest }.afterRead).sramServe c
  | .read, _, c :: rest => (s.withSram { r with readQ := rest }.afterRead).sramServe c
  | .read, c :: rest, [] => (s.withSram ({ r with orderQ := rest }.afterOrder c)).sramServe c
  | _, [], [] => .ok s

/-- Serve StrongARM's posted write, else the High Priority queue, else the other two. -/
def State.sramServeNext (s : State) : Res State :=
  let r := s.sram
  match r.posted, r.prioQ with
  | p :: rest, _ => (s.withSram { r.turn .order with posted := rest }).sramArmWrite p.addr p.bytes
  | [], c :: rest => (s.withSram ({ r with prioQ := rest }.afterPrio c)).sramServe c
  | [], [] => s.sramQueues

/-- One step of the unit: after an unlock the Read_lock Fail queue goes first while its head can be locked (R902,
R912). -/
def State.sramStep (s : State) : Res State :=
  match s.sram.retry, s.sram.lockFail with
  | true, w :: rest =>
    if s.sram.canLock (waiterAddr w) then s.retryHead w rest
    else (s.withSram { s.sram with retry := false }).sramServeNext
  | _, _ => (s.withSram { s.sram with retry := false }).sramServeNext

end Sys2Proof.Machine
end

