-- ==== Sys2Proof/Machine/CommandBus.lean ====
section
/-! DEFINITION. The command bus arbiter (42_me_reference.md R590, R591): one step moves the head command of one
microengine's FIFO to its unit. -/

namespace Sys2Proof.Machine

/-- The unit of a queue. -/
inductive BusUnit where
  | fbi | pci | sdram | sram
deriving DecidableEq, Repr

/-- Which unit a command goes to. -/
def busUnit : UnitQueue → BusUnit
  | .fbiHash | .fbiPull | .fbiPush | .fast => .fbi
  | .pci => .pci
  | .sdramOrder | .sdramOdd | .sdramEven | .sdramPrio => .sdram
  | .sramOrder | .sramRead | .sramPrio => .sram

/-- A queue of depth `n` still takes commands: more than six entries are free (R591). -/
def roomIn (n : Nat) (q : List Cmd) : Bool := decide (q.length + 6 < n)

/-- The unit takes commands (R738, R845, R900); the PCI Unit has no back-pressure (R965). -/
def State.busAccepts (s : State) : BusUnit → Bool
  | .fbi => roomIn s.board.fbiDepth s.fbi.hashQ && roomIn s.board.fbiDepth s.fbi.pullQ
      && roomIn s.board.fbiDepth s.fbi.pushQ
  | .pci => true
  | .sdram => roomIn 16 s.sdram.orderQ && roomIn 16 s.sdram.oddQ && roomIn 16 s.sdram.evenQ
      && roomIn 16 s.sdram.prioQ
  | .sram => roomIn 16 s.sram.readQ && roomIn 24 s.sram.orderQ && roomIn 8 s.sram.prioQ

/-- Another microengine's SDRAM chain is open (R590, R844). -/
def State.busChained (s : State) (m : Fin 6) (u : BusUnit) : Bool :=
  u == .sdram && match s.sdram.busChain with
    | some k => k != m
    | none => false

/-- A `pci_dma` reaches the PCI Unit (R965): the pointer is pulled; an overflow is a fault (U28), a request while the
microengines own no channel (U26) or a pointer that is not a multiple of 8 (U25) is refused. The refusals come before the
fault where both apply: the spec gives no order (DESIGN CHOICE, log entry 40). -/
def State.pciRequest (s : State) (c : Cmd) (x : Nat) (orderQueue : Bool) : Res State := do
  let ptr := (s.pullSram c.xfMe x 1).headD 0
  require (s.pci.dmaMode != 0) .dmaOwner
  require (ptr.extractLsb' 0 3 == 0) .descriptorAlign
  if s.pci.dmaReq.length < s.board.dmaDepth then
    pure { s with pci := { s.pci with
      dmaReq := s.pci.dmaReq ++ [⟨ptr, c.sigMe, c.sigCtx, c.sig.isSome, orderQueue⟩] } }
  else stopFault .dmaOverflow

/-- An SDRAM command enters its queue (R590, R844). A marked one opens a chain with the next number, or goes on with its
microengine's; the first one without the mark after a marked one is the chain's last. -/
def Sdram.enqueue (d : Sdram) (c : Cmd) : Sdram :=
  let follows := d.busChain == some c.me
  let num := if follows then d.chainCount else d.chainCount + 1
  let c := { c with link := if follows || c.chain then some num else none }
  { d.setQueue c.queue (d.queue c.queue ++ [c]) with
    busChain := if c.chain then some c.me else none
    chainCount := if c.chain then num else d.chainCount }

/-- Deliver a command to its unit's queue; a `fast_wr` takes effect at once (R734), an SDRAM command opens, goes on with
or ends its microengine's chain at the bus (R590, R844). -/
def State.deliver (s : State) (c : Cmd) : Res State :=
  match c.queue with
  | .fbiHash => .ok (s.withFbi { s.fbi with hashQ := s.fbi.hashQ ++ [c] })
  | .fbiPull => .ok (s.withFbi { s.fbi with pullQ := s.fbi.pullQ ++ [c] })
  | .fbiPush => .ok (s.withFbi { s.fbi with pushQ := s.fbi.pushQ ++ [c] })
  | .fast => match c.op with
    | .fastWr reg imm => s.fastWrite reg (threadNo c.sigMe c.sigCtx) (imm.setWidth 32)
    | _ => .ok s
  | .pci => match c.op with
    | .pciDma x orderQueue => s.pciRequest c x orderQueue
    | _ => .ok s
  | .sdramOrder | .sdramOdd | .sdramEven | .sdramPrio =>
    .ok (s.withSdram (s.sdram.enqueue c))
  | .sramOrder => .ok (s.withSram { s.sram with orderQ := s.sram.orderQ ++ [c] })
  | .sramRead => .ok (s.withSram { s.sram with readQ := s.sram.readQ ++ [c] })
  | .sramPrio => .ok (s.withSram { s.sram with prioQ := s.sram.prioQ ++ [c] })

/-- One grant to microengine `m`: nothing moves while its head command's unit is held by another chain, or while a unit
that one of its commands goes to applies back-pressure (R591). -/
def State.busStep (s : State) (m : Fin 6) : Res State :=
  match (s.me m).cmdFifo with
  | [] => .ok s
  | c :: rest =>
    if s.busChained m (busUnit c.queue) || !(c :: rest).all (fun d => s.busAccepts (busUnit d.queue)) then .ok s
    else (s.setMe m { s.me m with cmdFifo := rest }).deliver c

end Sys2Proof.Machine
end

