-- ==== Sys2Proof/Machine/Reset.lean ====
section
/-! DEFINITION. The resets (70_reset_and_hazards.md R1140 to R1151): the whole chip, one microengine, the SDRAM
controller. -/

namespace Sys2Proof.Machine

/-- The StrongARM core when reset deasserts (R1053): supervisor mode, I and F set, pc 0, everything off and empty; the
saved pc and CPSR are not defined. -/
def armAfterReset (n : Nat) : Arm :=
  { Arm.reset with
    svc := Arm.reset.svc.set 1 (Config.freeWord .armReset n)
    spsrSvc := Config.freeWord .armReset (n + 1) }

/-- The devices of Device 3 after a reset: the real-time clock keeps its registers but for the three interrupt fields
(R1141, R1142, C61). -/
def Sys.afterReset (y : Sys) : Sys :=
  { Sys.reset with
    rtcDiv := y.rtcDiv, rtcDivWord := y.rtcDivWord, rtcTint := y.rtcTint, rtcTval := y.rtcTval, rtcAlm := y.rtcAlm
    rtcCntr := y.rtcCntr, wDiv := y.wDiv, wTint := y.wTint, wTval := y.wTval, wAlm := y.wAlm
    tintCount := y.tintCount, prescaler := y.prescaler }

/-- A chip reset, one effect for all its causes (R1140, R1141): the BootROM device, the board, the levels and events of
the environment are outside the chip and stay. -/
def State.chipReset (s : State) : State :=
  { State.reset with
    sram := { Sram.reset with boot := s.sram.boot }
    arm := armAfterReset s.free
    sys := s.sys.afterReset
    cur := s.cur
    env := s.env
    board := s.board
    inputs := s.inputs
    outputs := s.outputs ++ [.resetOut]
    free := s.free + 2 }

/-- Set or clear the reset bit of one microengine (R1143, R1151): setting it puts the engine into the Reset state at
once; clearing it leaves it Stopped. -/
def State.setMeReset (s : State) (m : Fin 6) (on : Bool) : State :=
  if on then (if (s.me m).inReset then s else s.setMe m Me.reset) else s.setMe m { s.me m with inReset := false }

/-- Set or clear the reset bits of all six microengines. -/
def State.setMeResets (s : State) (w : Word) : State :=
  (List.finRange 6).foldl (fun s m => s.setMeReset m (getBit (.rstMe m) w)) s

/-- Set or clear the SDRAM controller's reset (R1146): in reset, refresh stops and the contents are lost (R1142), what
the prefetch window held with them (DESIGN CHOICE, log entry 81). The order of the arbiter, the last bank, the queues and the
CSRs stay: R1146 names none of them (DESIGN CHOICE, log entry 54). -/
def State.setSdramReset (s : State) (on : Bool) : State :=
  if on then s.withSdram { s.sdram with
    inReset := true, ready := false, initPending := false, past := none
    mem := if s.sdram.inReset then s.sdram.mem else [] }
  else s.withSdram { s.sdram with inReset := false }

/-- A write of IXP1200_RESET (R175, R1021, R1143). -/
def State.writeReset (s : State) (v : Word) : State :=
  if getBit .rstChip v then s.chipReset
  else
    let s := (s.setMeResets v).setSdramReset (getBit .rstSdram v)
    { s with pci := { s.pci with resetWord := v } }

/-- The IXP1200_RESET word. -/
def State.resetValue (s : State) : Word :=
  let v := (List.finRange 6).foldl (fun v m => putBit (.rstMe m) (s.me m).inReset v) s.pci.resetWord
  putBit .rstChip false (putBit .rstSdram s.sdram.inReset v)

/-- PCI_RST# is asserted: a chip reset when PCI_CFN[0] is not asserted (R1140). -/
def State.pciRst (s : State) : State := if s.board.pciCfn0 then s else s.chipReset

end Sys2Proof.Machine
end

