-- ==== Sys2Proof/Machine/PciUnit.lean ====
section
/-! DEFINITION. The PCI Unit's registers, interrupts and timers, and its two DMA channels (53_pci_unit.md R940 to R985;
11_state_csrs.md R160 to R181; 60_exceptions.md R1070 to R1093). -/

namespace Sys2Proof.Machine

/-- Replace the PCI Unit. -/
def State.withPci (s : State) (p : Pci) : State := { s with pci := p }

/-- What an address of Device 1 names. -/
inductive PciWindow where
  | cycle (k : PciSpace) | register (r : PciReg) | reserved
deriving DecidableEq, Repr

/-- The window of a Device 1 address. The memory, I/O, type 0 and reserved rows are the source's, the CSR window and the
configuration registers below it PCI_SA_MAP's default (R315); no IACK window overlays one of them. Each of the two register
windows holds registers of its own kind only (DEDUCED, log entry 5). -/
def pciWindow (pa : Nat) : PciWindow :=
  if 0x60000000 ≤ pa then .cycle .memory
  else if 0x54010000 ≤ pa then .reserved
  else if 0x54000000 ≤ pa then .cycle .io
  else if 0x53000000 ≤ pa ∧ pa < 0x53C00000 then .cycle .config0
  else if 0x52000000 ≤ pa ∧ pa < 0x53000000 then .cycle .config1
  else if 0x42000000 ≤ pa ∧ pa < 0x42000400 then
    match (Config.pciSaCsrAt (BitVec.ofNat 10 (pa / 4 * 4 - 0x42000000))).filter (!·.isConfig) with
    | some r => .register r
    | none => .reserved
  else
    match if pa < 0x42000000 then
        (Config.pciSaConfigAt (BitVec.ofNat 25 (pa / 4 * 4 - 0x40000000))).filter (·.isConfig)
      else none with
    | some r => .register r
    | none => if Config.iackWindow (BitVec.ofNat 32 pa) then .cycle .iackSpecial else .reserved

/-- Put bit `i` into a word. -/
def putAt (i : Nat) (b : Bool) (v : Word) : Word := (v &&& ~~~((1 : Word) <<< i)) ||| (((bit b).setWidth 32) <<< i)

/-! ### Interrupt status (R952, R1070 to R1072, R982) -/

/-- A DMA channel is free (R952): idle. -/
def Pci.free (p : Pci) (n : Fin 2) : Bool := !p.chans[n].busy

/-- `doorbell_pci_int` and `doorbell_sa_int` (R982). -/
def Pci.doorbellPci (p : Pci) : Bool := (p.doorbell &&& p.dbellPciMask) != 0
def Pci.doorbellSa (p : Pci) : Bool := (~~~p.doorbell &&& p.dbellSaMask) != 0

/-- RAW_STATUS: the level of each source; bit 16 is channel 1 free, bit 17 channel 2 (D38). -/
def Pci.rawStatus (p : Pci) : Word :=
  let v := (List.finRange 4).foldl (fun v n => putBit (.rawTimer n) p.timers[n].int v) (0 : Word)
  let v := putBit .rawInbound (p.inbPostCount != 0) (putBit .rawDoorbell p.doorbellSa v)
  let v := putBit .rawMasterAbort p.masterAbort (putBit .rawTargetAbort p.targetAbort v)
  let v := putBit .rawParity p.parityErr (putBit .rawDataParity p.dataParity v)
  let v := putBit .rawSystemError p.systemErr (putBit .rawDiscard p.discardExp v)
  putAt 17 (p.free 1) (putAt 16 (p.free 0) v)

/-- IRQ_STATUS and FIQ_STATUS (R1070). -/
def Pci.irqStatus (p : Pci) : Word := p.rawStatus &&& p.irqEnable
def Pci.fiqStatus (p : Pci) : Word := p.rawStatus &&& p.fiqEnable

/-- pci_irq_l is asserted (R985). -/
def Pci.irqPin (p : Pci) : Bool := (p.outbPostCount != 0 && !p.outbMask) || p.doorbellPci

/-! ### I2O (R970 to R974) -/

/-- I2O_FIFO_ENTRIES of SA_CONTROL[12:10] (R970). -/
def Pci.i2oSize (p : Pci) : Nat := Config.i2oEntries (p.saControl.extractLsb' 10 3)

/-- The next position of an I2O pointer, inside its naturally aligned region (D40). -/
def Pci.i2oNext (p : Pci) (ptr : Word) : Word :=
  let n := 4 * p.i2oSize
  BitVec.ofNat 32 (ptr.toNat - ptr.toNat % n + (ptr.toNat + 4) % n)

/-- A count one higher, refused at its maximum (U29). -/
def Pci.countUp (p : Pci) (k : Nat) : Res Nat := do
  require (decide (k < p.i2oSize)) .i2oCount
  pure (k + 1)

/-- A count one lower, refused at 0 (U29). -/
def countDown (k : Nat) : Res Nat := do
  require (decide (0 < k)) .i2oCount
  pure (k - 1)

/-! ### Register reads -/

/-- The PCI_CMD_STAT longword (R160): header positions of PCI 2.1 (PRESUMED). -/
def Pci.cmdStatValue (p : Pci) : Word :=
  putAt 2 p.busMaster (putAt 4 p.memWriteInv (putAt 6 p.parityResp (putAt 8 p.serrEnable
    (putAt 24 p.dataParity (putAt 28 p.targetAbort (putAt 29 p.masterAbort (putAt 30 p.systemErr
      (putAt 31 p.parityErr p.cmdStat))))))))

/-- The DMA_INF_MODE word: the code last written, or a code of the present mode (R164). -/
def Pci.dmaModeValue (p : Pci) : Word :=
  if Config.dmaModeCode (getField .dmaMode 2 p.dmaModeWord) = p.dmaMode then p.dmaModeWord
  else putField .dmaMode (([0, 1, 2, 3] : List (BitVec 2)).find? (fun c => Config.dmaModeCode c == p.dmaMode)
    |>.getD 0) p.dmaModeWord

/-- The TIMER_n control word (R180). -/
def Timer.controlValue (t : Timer) : Word :=
  putBit .tmEnable t.enable (putBit .tmPeriodic t.periodic (putField .tmPrescale t.prescale t.control))

/-- Read a PCI Unit register. TIMER_n_CLR takes only writes: its read is unspecified. Each of the three I2O counts is the
whole longword: R170 and R290 print neither place nor width (DESIGN CHOICE, log entry 5). -/
def State.pciRegRead (s : State) (r : PciReg) : Word × State :=
  let p := s.pci
  match r with
  | .cmdStat => (p.cmdStatValue, s)
  | .cacheLnSize => (putBitsAt 8 p.latencyTimer p.cacheLnSize, s)
  | .memBar => (p.memBar, s)
  | .ioBar => (p.ioBar, s)
  | .dramBar => (p.dramBar, s)
  | .addrExt => (p.addrExt, s)
  | .dramMask => (p.dramMask, s)
  | .saControl => (putAt 0 p.initDone (putAt 8 p.discardExp (putBit .saWatchdog p.watchdog p.saControl)), s)
  | .reset => (s.resetValue, s)
  | .dmaMode => (p.dmaModeValue, s)
  | .byteCount n => (p.chans[n].byteCount, s)
  | .chanPci n => (p.chans[n].pciAddr, s)
  | .chanDram n => (p.chans[n].dramAddr, s)
  | .chanDesc n => (p.chans[n].descPtr, s)
  | .chanControl n => (putBit .chanError p.chans[n].error p.chans[n].control, s)
  | .inbFreeHead => (p.inbFreeHead, s)
  | .inbPostTail => (p.inbPostTail, s)
  | .outbFreeTail => (p.outbFreeTail, s)
  | .outbPostHead => (p.outbPostHead, s)
  | .inbFreeCount => (BitVec.ofNat 32 p.inbFreeCount, s)
  | .inbPostCount => (BitVec.ofNat 32 p.inbPostCount, s)
  | .outbPostCount => (BitVec.ofNat 32 p.outbPostCount, s)
  | .outbMask => (putBit .outbMask p.outbMask p.outbMaskWord, s)
  | .mailbox n => (p.mailbox[n], s)
  | .doorbell | .doorbellSetup => (p.doorbell, s)
  | .dbellPciMask => (p.dbellPciMask, s)
  | .dbellSaMask => (p.dbellSaMask, s)
  | .irqEnable => (p.irqEnable, s)
  | .fiqEnable => (p.fiqEnable, s)
  | .irqStatus => (p.irqStatus, s)
  | .fiqStatus => (p.fiqStatus, s)
  | .irqRaw | .fiqRaw => (p.rawStatus, s)
  | .timerLoad n => (p.timers[n].load.setWidth 32, s)
  | .timerValue n => (p.timers[n].value.setWidth 32, s)
  | .timerControl n => (p.timers[n].controlValue, s)
  | .timerClear _ => s.draw .csrWord

/-! ### Register writes -/

/-- The microengines own channel `n` (R952). -/
def Pci.meOwns (p : Pci) (n : Fin 2) : Bool := p.dmaMode == 1 || (p.dmaMode == 2 && n == 1)

/-- Replace a channel. -/
def State.setChan (s : State) (n : Fin 2) (c : Chan) : State :=
  s.withPci { s.pci with chans := s.pci.chans.set n c }

/-- Replace a timer. -/
def State.setTimer (s : State) (n : Fin 4) (t : Timer) : State :=
  s.withPci { s.pci with timers := s.pci.timers.set n t }

/-- Write a channel register; the StrongARM core may not while the microengines own the channel (U26). R955 does not say what
a write to a busy channel does: the register takes the word and the transfer goes on with it (DESIGN CHOICE, log entry
40). -/
def State.chanWrite (s : State) (arm : Bool) (n : Fin 2) (c : Chan) : Res State := do
  require (!(arm && s.pci.meOwns n)) .dmaOwner
  pure (s.setChan n c)

/-- A write of CHAN_n_CONTROL (R953, R954): the StrongARM core starts an idle channel with bit 0; bit 4 says that the
first descriptor is already in the registers. A busy channel stores the word and does not start anew, whatever bits 0 and 4
are: R955 is silent on it. The channel error bit takes the written bit: the spec leaves it for software to clear and does not
say how (R169) (DESIGN CHOICE, log entry 40, both). -/
def Chan.writeControl (c : Chan) (arm : Bool) (v : Word) : Chan :=
  let c := { c with control := v, error := getBit .chanError v }
  if arm && v.getLsbD 0 && !c.busy then { c with busy := true, needDesc := !v.getLsbD 4, owner := .strongArm } else c

/-- A write of PCI_CMD_STAT: command bits take the value, status bits clear where a 1 is written (R1072). -/
def Pci.writeCmdStat (p : Pci) (v mask : Word) : Pci :=
  let w := merge p.cmdStatValue v mask
  let one := v &&& mask
  { p with
    cmdStat := w, busMaster := w.getLsbD 2, memWriteInv := w.getLsbD 4, parityResp := w.getLsbD 6
    serrEnable := w.getLsbD 8
    dataParity := p.dataParity && !one.getLsbD 24, targetAbort := p.targetAbort && !one.getLsbD 28
    masterAbort := p.masterAbort && !one.getLsbD 29, systemErr := p.systemErr && !one.getLsbD 30
    parityErr := p.parityErr && !one.getLsbD 31 }

/-- A write of SA_CONTROL (R163): bit 8 clears with a 1 (D43), WE once set stays (R1093). -/
def Pci.writeSaControl (p : Pci) (v mask : Word) : Pci :=
  let w := merge (putAt 0 p.initDone (putBit .saWatchdog p.watchdog p.saControl)) v mask
  { p with
    saControl := w, initDone := w.getLsbD 0, discardExp := p.discardExp && !(v &&& mask).getLsbD 8
    watchdog := p.watchdog || getBit .saWatchdog w }

/-- A write of DMA_INF_MODE (R952): a change while a channel is busy or requests are queued is refused (U26). -/
def State.writeDmaMode (s : State) (w : Word) : Res State := do
  let k := Config.dmaModeCode (getField .dmaMode 2 w)
  require (k == s.pci.dmaMode || (s.pci.free 0 && s.pci.free 1 && s.pci.dmaReq.isEmpty)) .dmaOwner
  pure (s.withPci { s.pci with dmaMode := k, dmaModeWord := w })

/-- A timer after a write of its control register (R1090). -/
def Timer.writeControl (t : Timer) (v : Word) : Timer :=
  { t with control := v, enable := getBit .tmEnable v, periodic := getBit .tmPeriodic v
           prescale := getField .tmPrescale 2 v }

/-- Write the bytes of `mask` of a PCI Unit register from the StrongARM core (`arm`) or a PCI master. The status
registers and the timer values take no writes. DOORBELL_SETUP takes the word from either side, as R983 says, where R172
speaks of exchanged set and clear roles: the model's choice (log entry 74). The 24 bits of a timer's load and value stand
at 23:0, and bits 31:24 are dropped and read as 0: R180 gives no layout (DESIGN CHOICE, log entry 43). -/
def State.pciRegWrite (s : State) (arm : Bool) (r : PciReg) (v mask : Word) : Res State :=
  let p := s.pci
  let w := merge (s.pciRegRead r).1 v mask
  match r with
  | .cmdStat => .ok (s.withPci (p.writeCmdStat v mask))
  | .cacheLnSize => .ok (s.withPci { p with cacheLnSize := w, latencyTimer := w.extractLsb' 8 8 })
  | .memBar => .ok (s.withPci { p with memBar := w })
  | .ioBar => .ok (s.withPci { p with ioBar := w })
  | .dramBar => .ok (s.withPci { p with dramBar := w })
  | .addrExt => .ok (s.withPci { p with addrExt := w })
  | .dramMask => .ok (s.withPci { p with dramMask := w })
  | .saControl => .ok (s.withPci (p.writeSaControl v mask))
  | .reset => .ok (s.writeReset w)
  | .dmaMode => s.writeDmaMode w
  | .byteCount n => s.chanWrite arm n { p.chans[n] with byteCount := w }
  | .chanPci n => s.chanWrite arm n { p.chans[n] with pciAddr := w }
  | .chanDram n => s.chanWrite arm n { p.chans[n] with dramAddr := w }
  | .chanDesc n => s.chanWrite arm n { p.chans[n] with descPtr := w }
  | .chanControl n => s.chanWrite arm n (p.chans[n].writeControl arm w)
  | .inbFreeHead => .ok (s.withPci { p with inbFreeHead := w })
  | .inbPostTail => .ok (s.withPci { p with inbPostTail := w })
  | .outbFreeTail => .ok (s.withPci { p with outbFreeTail := w })
  | .outbPostHead => .ok (s.withPci { p with outbPostHead := w })
  | .inbFreeCount => do
    let k ← p.countUp p.inbFreeCount
    pure (s.withPci { p with inbFreeCount := k })
  | .inbPostCount => do
    let k ← countDown p.inbPostCount
    pure (s.withPci { p with inbPostCount := k })
  | .outbPostCount => do
    let k ← p.countUp p.outbPostCount
    pure (s.withPci { p with outbPostCount := k })
  | .outbMask => .ok (s.withPci { p with outbMask := getBit .outbMask w, outbMaskWord := w })
  | .mailbox n => .ok (s.withPci { p with mailbox := p.mailbox.set n w })
  | .doorbell => .ok (s.withPci { p with
      doorbell := if arm then p.doorbell ||| (v &&& mask) else p.doorbell &&& ~~~(v &&& mask) })
  | .doorbellSetup => .ok (s.withPci { p with doorbell := w })
  | .dbellPciMask => .ok (s.withPci { p with dbellPciMask := w })
  | .dbellSaMask => .ok (s.withPci { p with dbellSaMask := w })
  | .irqEnable => .ok (s.withPci { p with irqEnable := w })
  | .fiqEnable => .ok (s.withPci { p with fiqEnable := w })
  | .irqStatus | .fiqStatus | .irqRaw | .fiqRaw | .timerValue _ => .ok s
  | .timerLoad n => .ok (s.setTimer n { p.timers[n] with load := w.setWidth 24, value := w.setWidth 24 })
  | .timerControl n => .ok (s.setTimer n (p.timers[n].writeControl w))
  | .timerClear n => .ok (s.setTimer n { p.timers[n] with int := false })

/-! ### Timers (R1090, R1093) -/

/-- One tick of a timer, and whether it counted to zero (D52). -/
def Timer.tick (t : Timer) : Timer × Bool :=
  if !t.enable then (t, false)
  else if t.value = 0 then ({ t with value := if t.periodic then t.load else 0xFFFFFF }, false)
  else if t.value = 1 then ({ t with value := 0, int := true }, true)
  else ({ t with value := t.value - 1 }, false)

/-- A tick of timer `n`; timer 4 counting to zero with WE set resets the chip (R1093). -/
def State.timerTick (s : State) (n : Fin 4) : State :=
  let (t, zero) := s.pci.timers[n].tick
  let s := s.setTimer n t
  if zero && n == 3 && s.pci.watchdog then s.chipReset else s

/-! ### SDRAM through the PCI port (R841, R846) -/

/-- Read `n` bytes at `x` as the PCI client; the array serves it now. -/
def State.pciSdramRead (s : State) (x n : Nat) : Res (List Byte × State) := do
  require (s.sdramBytesOk x n) .addressRange
  let bs ← written (s.sdram.mem.readBytes x n)
  pure (bs, s.pciServed x n)

/-- Write the `n` bytes at `x` as the PCI client; `mem` is what the array then holds. -/
def State.pciSdramPut (s : State) (x n : Nat) (mem : Mem) : Res State := do
  require (s.sdramBytesOk x n) .addressRange
  pure ((s.withSdram (s.sdram.store mem)).pciServed x n)

/-- Write bytes at `x` as the PCI client. -/
def State.pciSdramWrite (s : State) (x : Nat) (bs : List Byte) : Res State :=
  s.pciSdramPut x bs.length (s.sdram.mem.writeBytes x bs)

/-! ### DMA channels (R950 to R967) -/

/-- A channel after moving `k` bytes (R955). -/
def Chan.moved (c : Chan) (k : Nat) : Chan :=
  { c with byteCount := (c.byteCount &&& 0xFF000000) ||| BitVec.ofNat 32 (c.count - k)
           pciAddr := c.pciAddr + BitVec.ofNat 32 k, dramAddr := c.dramAddr + BitVec.ofNat 32 k }

/-- A channel stopped by an error: idle, the error bit set, no done bit (R959), the enable bit as it was (DESIGN CHOICE, log
entry 40). -/
def Chan.failed (c : Chan) : Chan := { c with busy := false, error := true }

/-- Load the next descriptor (R951); a pointer that is not a multiple of 8 is refused (U25). The order of the four Dwords,
DMA_DESC_LAYOUT, is open (D36): the model fixes the spec's default with no board parameter for it (DESIGN CHOICE, log entry
12). -/
def State.dmaFetch (s : State) (n : Fin 2) : Res State := do
  let c := s.pci.chans[n]
  require (c.descPtr.extractLsb' 0 3 == 0) .descriptorAlign
  let (bs, s) ← s.pciSdramRead c.descPtr.toNat 16
  pure (s.setChan n { c with
    byteCount := wordOf (bs.take 4), pciAddr := wordOf ((bs.drop 4).take 4)
    dramAddr := wordOf ((bs.drop 8).take 4), descPtr := wordOf (bs.drop 12), needDesc := false })

/-- Bytes of channel `n` still stand in the Inbound FIFO (R990). -/
def Pci.chanArrives (p : Pci) (n : Fin 2) : Bool :=
  p.inbound.any fun i => match i with
    | .dma k _ _ => k == n
    | _ => false

/-- A descriptor is finished once its bytes have left the FIFOs (R955, R967): transfer done; the next descriptor, or
chain done, idle and the signal. The enable bit, CHAN_n_CONTROL[0], stays as written: whether it clears itself the spec
leaves open (DESIGN CHOICE, log entry 40). -/
def State.dmaFinish (s : State) (n : Fin 2) : State :=
  let c := s.pci.chans[n]
  if s.pci.chanWrites n || s.pci.chanArrives n then s
  else if !c.byteCount.getLsbD 31 then s.setChan n { c with control := c.control ||| 4, needDesc := true }
  else
    let s := s.setChan n { c with control := c.control ||| 0x84, busy := false }
    match c.owner with
    | .thread m k true => s.signal m k .pci
    | _ => s

/-- A number from bits, lowest first. -/
def natOfBits : List Bool → Nat
  | [] => 0
  | b :: bs => (if b then 1 else 0) + 2 * natOfBits bs

/-- Bytes with byte enables as Dwords, lane 0 first; `n` Dwords. -/
def laneDwords : Nat → List (Byte × Bool) → List (Word × BitVec 4)
  | 0, _ => []
  | n + 1, bs =>
    let d := bs.take 4
    (wordOf (d.map (·.1)), (BitVec.ofNat 4 (natOfBits (d.map (·.2))))) :: laneDwords n (bs.drop 4)

/-- The Dwords of a write of `bs` at byte lane `o` (R958). -/
def laneWrite (o : Nat) (bs : List Byte) : List (Word × BitVec 4) :=
  laneDwords ((o + bs.length + 3) / 4) (List.replicate o (0, false) ++ bs.map (fun b => (b, true)))

/-- The Dwords of a read of `n` Dwords, all bytes enabled. -/
def laneRead (n : Nat) : List (Word × BitVec 4) := List.replicate n (0, 15)

/-- The bytes of one burst (R956): up to the read length, fewer to reach a Dword boundary of PCI, so that byte enables are
partial only in the first and the last Dword of the transfer. R957 does not say which field of the control register bounds
a read from PCI: the read length field of R956 does here too (DESIGN CHOICE, log entry 40). -/
def Chan.burst (c : Chan) : Nat :=
  min c.count (4 * max 1 (Config.dmaReadLength (c.control.extractLsb' 16 3)) - c.pciAddr.toNat % 4)

/-- The burst may be a Memory Write and Invalidate (R1006): enabled, whole cache lines, no unoccupied byte. -/
def Pci.invalidates (p : Pci) (a : Word) (ds : List (Word × BitVec 4)) : Bool :=
  let line := (p.cacheLnSize.setWidth 8).toNat
  p.memWriteInv && (line == 4 || line == 8 || line == 16) && a.toNat % (4 * line) == 0 && ds.length % line == 0
    && ds.all (fun d => d.2 == 15)

/-- Record an output. -/
def State.emit (s : State) (o : Output) : State := { s with outputs := s.outputs ++ [o] }

/-- Set the received master abort bit, the received target abort bit (R1016). -/
def State.setMasterAbort (s : State) : State := s.withPci { s.pci with masterAbort := true }
def State.setTargetAbort (s : State) : State := s.withPci { s.pci with targetAbort := true }

/-- Whether the master takes note of the write data parity errors a target reported, `ps` one flag a data phase, and the
state (R1016). -/
def State.writeParity (s : State) (ps : List Bool) : Bool × State :=
  if ps.any id && s.pci.parityResp then (true, s.withPci { s.pci with dataParity := true }) else (false, s)

/-- Read data parity errors, one flag a data phase (R1016). -/
def State.readParity (s : State) (ps : List Bool) : State :=
  if !ps.any id then s
  else
    let s := s.withPci { s.pci with parityErr := true }
    if s.pci.parityResp then (s.withPci { s.pci with dataParity := true }).emit (.perr ps) else s

/-! ### The bus arbiter (R945, R946) -/

/-- A load of the address is a cycle on the PCI bus (R315). -/
def onPciBus (pa : Nat) : Bool :=
  decide (0x40000000 ≤ pa) && decide (pa < 0x80000000) && match pciWindow pa with
    | .cycle _ => true
    | .register _ | .reserved => false

/-- The oldest read buffer fill reads from the PCI bus and nothing stands before its data in the Inbound FIFO. -/
def State.fillsFromPci (s : State) : Bool :=
  s.pci.inbound.isEmpty && match s.arm.rbQueue with
    | k :: _ => (s.arm.rb[k].map fun e =>
        (List.range 8).any fun i => e.valid.getLsbD i && onPciBus (e.pa.toNat + 4 * i)).getD false
    | [] => false

/-- The chip requests the bus (R1005, R1011): a write waits in the Outbound FIFO, the core or a read buffer fill waits to
read, or a DMA channel has a burst to read. -/
def State.chipRequests (s : State) : Bool :=
  s.pci.busMaster && (!s.pci.outbound.isEmpty || s.pci.coreReq || s.fillsFromPci
    || s.pci.chans[0].readsPci || s.pci.chans[1].readsPci)

/-- The arbiter gives external master `k` (1 or 2) no grant until it drops its request (R946). -/
def Pci.muted (p : Pci) (k : Fin 3) : Bool := k != 0 && p.arbMuted.getLsbD (k.val - 1)

/-- Master `k` requests the bus: 0 the chip, 1 and 2 the external masters. -/
def State.wantsBus (s : State) (k : Fin 3) : Bool :=
  if k = 0 then s.chipRequests else s.env.pciReq.getLsbD (k.val - 1) && !s.pci.muted k

/-- The next master of the round robin, after the one that had the bus last. -/
def nextMaster (last : Fin 3) (want : Fin 3 → Bool) : Option (Fin 3) := [last + 1, last + 2, last].find? want

/-- Master `k`, which begins a transaction, has the grant: with PCI_CFN[1] = 0 the arbiter is another chip's. -/
def State.busGrants (s : State) (k : Fin 3) : Bool :=
  !s.board.pciCfn1 || nextMaster s.pci.arbLast (fun j => (j == k && !s.pci.muted k) || s.wantsBus j) == some k

/-- Master `k` has had the bus. -/
def State.hadBus (s : State) (k : Fin 3) : State := s.withPci { s.pci with arbLast := k }

/-- The master the arbiter grants has not asserted frame_l in 16 idle cycles: an external one loses the grant (R946). -/
def State.pciNoFrame (s : State) : State :=
  match nextMaster s.pci.arbLast s.wantsBus with
  | some 1 => s.withPci { s.pci with arbMuted := s.pci.arbMuted ||| 1 }
  | some 2 => s.withPci { s.pci with arbMuted := s.pci.arbMuted ||| 2 }
  | _ => s

/-- The request lines of the external masters; a dropped request ends the arbiter's refusal (R946). -/
def State.pciRequests (s : State) (v : BitVec 2) : State :=
  { s.withPci { s.pci with arbMuted := s.pci.arbMuted &&& v } with env := { s.env with pciReq := v } }

/-! ### Bursts -/

/-- One burst from SDRAM goes into the Outbound FIFO (R956, R990). -/
def State.dmaOut (s : State) (n : Fin 2) : Res State := do
  let c := s.pci.chans[n]
  let (bs, s) ← s.pciSdramRead c.dramAddr.toNat c.burst
  pure (s.withPci { s.pci with outbound := s.pci.outbound ++
    [⟨.memWrite, c.pciAddr &&& ~~~3, laneWrite (c.pciAddr.toNat % 4) bs, some n⟩] })

/-- The bytes of a burst that arrived: lane `o` on, at most `k`. -/
def arrived (o k : Nat) (ws : List Word) : List Byte := ((ws.flatMap wordBytes).drop o).take k

/-- The memory read command of a code of CHAN_n_CONTROL bits [6:5] (R957). -/
def dmaReadCmd (c : Chan) : PciCmd :=
  match Config.dmaReadCode (c.control.extractLsb' 5 2) with
  | 0 => .memRead
  | 1 => .memReadLine
  | _ => .memReadMultiple

/-- The Dwords a burst of channel `n` read from PCI go into the Inbound FIFO; a parity error stops the channel (R957,
R959). -/
def State.dmaArrive (s : State) (n : Fin 2) (ws : List Word) (ps : List Bool) : State :=
  let c := s.pci.chans[n]
  let bs := arrived (c.pciAddr.toNat % 4) c.burst ws
  let s := s.readParity ps
  let s := s.withPci { s.pci with inbound := s.pci.inbound ++ [.dma n c.dramAddr.toNat bs] }
  s.setChan n (if ps.any id then (c.moved bs.length).failed else c.moved bs.length)

/-- One burst from PCI (R957). Retried, the channel repeats it. -/
def State.dmaIn (s : State) (n : Fin 2) (ans : PciAns) : State :=
  let c := s.pci.chans[n]
  let s1 := s.emit (.pciMaster (dmaReadCmd c) (c.pciAddr &&& ~~~3)
    (laneRead ((c.pciAddr.toNat % 4 + c.burst + 3) / 4)))
  match ans with
  | .retry => s
  | .done ws ps => s1.dmaArrive n ws ps
  | .disconnectAfter j ws ps => s1.dmaArrive n (ws.take j) (ps.take j)
  | .masterAbort => s1.setMasterAbort.setChan n c.failed
  | .targetAbort => s1.setTargetAbort.setChan n c.failed

/-- One step of DMA channel `n` (R955): a descriptor and the source bytes in SDRAM wait for the PCI port's grant, a burst
for the one before it to leave the Outbound FIFO, a read from PCI for all that stands in that FIFO and for the bus. A
burst with the bus master bit clear is refused (U31). -/
def State.dmaStep (s : State) (n : Fin 2) (ans : PciAns) : Res State :=
  let c := s.pci.chans[n]
  if !c.busy then .ok s
  else if !c.needDesc && c.count == 0 then .ok (s.dmaFinish n)
  else if c.needDesc then (if s.sdramGrants .pci then s.dmaFetch n else .ok s)
  else do
    require s.pci.busMaster .busMaster
    if c.toPci then (if !s.pci.chanWrites n && s.sdramGrants .pci then s.dmaOut n else .ok s)
    else if s.pci.outbound.isEmpty && s.busGrants 0 then pure ((s.hadBus 0).dmaIn n ans)
    else pure s

/-- Channel `n`, idle and the microengines', takes the head request (R966); one with `order_queue` goes to channel 2.
The done bits stay as they are (R955); the control fields the hardware sets are open. -/
def State.dmaAlloc (s : State) (n : Fin 2) : State :=
  match s.pci.dmaReq with
  | [] => s
  | r :: rest =>
    if s.pci.meOwns n && s.pci.free n && (!r.orderQueue || n == 1) then
      (s.withPci { s.pci with dmaReq := rest }).setChan n { s.pci.chans[n] with
        descPtr := r.ptr, control := (s.pci.chans[n].control &&& 0x84) ||| (Config.dmaAutoControl &&& ~~~0x94) ||| 1
        busy := true, needDesc := true, owner := .thread r.me r.ctx r.sig }
    else s

end Sys2Proof.Machine
end

