-- ==== Sys2Proof/Machine/PciBus.lean ====
section
/-! DEFINITION. The PCI bus (53_pci_unit.md R942, R990 to R1025): transactions of which the chip is the target, the
Inbound FIFO and the delayed read, and the StrongARM core's transactions as master. -/

namespace Sys2Proof.Machine

/-! ### Target: what an address hits (R991) -/

/-- A memory read command; the three are aliases of each other for a match (R997). -/
def memReads : PciCmd → Bool
  | .memRead | .memReadLine | .memReadMultiple => true
  | _ => false

/-- A memory write command (R995). -/
def memWrites : PciCmd → Bool
  | .memWrite | .memWriteInvalidate => true
  | _ => false

/-- The address is in the 64-longword CSR window of a base register. -/
def inCsrWindow (a bar : Word) : Bool := a >>> 8 == bar >>> 8

/-- Registers only the StrongARM core reaches (R180). -/
def armOnly : PciReg → Bool
  | .timerLoad _ | .timerValue _ | .timerControl _ | .timerClear _ => true
  | _ => false

/-- A PCI read of the register a map names; a nonexistent one reads 0 (R1000, R1001). -/
def State.pciSideRead (s : State) (r : Option PciReg) : Word × State :=
  match r with
  | some r => if armOnly r then (0, s) else s.pciRegRead r
  | none => (0, s)

/-- A PCI write of one Dword to the register a map names; to a nonexistent one it is discarded. -/
def State.pciSideWrite (s : State) (r : Option PciReg) (d : Word × BitVec 4) : Res State :=
  match r with
  | some r => if armOnly r then .ok s else s.pciRegWrite false r d.1 (byteMask d.2)
  | none => .ok s

/-- Parity of the data phases of a write (R1015): an error changes nothing of the write. -/
def State.targetParity (s : State) (ps : List Bool) : State :=
  if !ps.any id then s
  else
    let s := s.withPci { s.pci with parityErr := true }
    if s.pci.parityResp then s.emit (.perr ps) else s

/-- Answer a write of which `k` Dwords were taken, with the parity of their phases. -/
def State.answerWrite (s : State) (t : PciTxn) (k : Nat) : State :=
  (s.emit (if k < t.data.length then .pciDisconnect k [] else .pciAccept [])).targetParity (t.dataParity.take k)

/-- Answer a read with the data there is. -/
def State.answerRead (s : State) (t : PciTxn) (ws : List Word) : State :=
  s.emit (if ws.length < t.dwords then .pciDisconnect ws.length ws else .pciAccept (ws.take t.dwords))

/-! ### Target transactions (R995 to R1001) -/

/-- A write to a configuration register or a CSR: one Dword (R1000, R1001). -/
def State.targetRegWrite (s : State) (t : PciTxn) (r : Option PciReg) : Res State :=
  match t.data with
  | [] => .ok (s.answerWrite t 0)
  | d :: _ => do
    let s ← s.pciSideWrite r d
    pure (s.answerWrite t 1)

/-- A read of a configuration register or a CSR: one Dword. -/
def State.targetRegRead (s : State) (t : PciTxn) (r : Option PciReg) : State :=
  let (v, s) := s.pciSideRead r
  s.answerRead t [v]

/-- The Dwords from byte `x` up to the first that is outside SDRAM or has not been written. -/
def availableDwords (m : Mem) (top x : Nat) : Nat → List Word
  | 0 => []
  | n + 1 =>
    if top < x + 4 then []
    else match m.readBytes x 4 with
      | some bs => wordOf bs :: availableDwords m top (x + 4) n
      | none => []

/-- The further blocks of 16 Dwords of a streaming prefetch (R999), as far as SDRAM holds them. -/
def State.streamDwords (s : State) (l : ReadLatch) (done blocks : Nat) : List Word :=
  match s.pci.dramHit l.addr with
  | some x => availableDwords s.sdram.mem s.board.sdramBytes (x / 4 * 4 + 4 * done) (16 * blocks)
  | none => []

/-- The SDRAM Unit has served the further Dwords of a streaming prefetch as the PCI client (R841, R842). -/
def State.streamed (s : State) (l : ReadLatch) (done : Nat) (more : List Word) : State :=
  match s.pci.dramHit l.addr, more with
  | some x, _ :: _ => s.pciServed (x / 4 * 4 + 4 * done) (4 * more.length)
  | _, _ => s

/-- A delayed read (R997): latched on its first occurrence, answered on a repeat once the data is there. -/
def State.delayedRead (s : State) (t : PciTxn) (i2o : Bool) : Res State :=
  match s.pci.latch with
  | none => .ok ((s.withPci { s.pci with
      latch := some ⟨t.addr, t.cmd, i2o, none, false⟩, inbound := s.pci.inbound ++ [.read] }).emit .pciRetry)
  | some l =>
    if l.addr != t.addr then .ok (s.emit .pciRetry)
    else match l.data with
      | none => .ok (s.emit .pciRetry)
      | some ws =>
        let s1 := s.withPci { s.pci with latch := none }
        if l.cmd == .memReadMultiple && !l.i2o && !l.noStream && s.sdramGrants .pci then
          let (f, s1) := s1.draw .pciAccept
          let more := s1.streamDwords l ws.length (min f.toNat ((t.dwords - ws.length + 15) / 16))
          .ok ((s1.streamed l ws.length more).answerRead t (ws ++ more))
        else .ok (s1.answerRead t ws)

/-- A PCI write to SDRAM enters the Inbound FIFO: the delayed read under way does not stream any more (R999). -/
def Pci.queueWrite (p : Pci) (e : Inbound) : Pci :=
  { p with inbound := p.inbound ++ [e], latch := p.latch.map fun l => { l with noStream := true } }

/-- A write to SDRAM (R996). How many Dwords the Inbound FIFO takes is a draw: none is a retry, fewer than offered a
disconnect (D37); with nonlinear addressing at most one. -/
def State.targetDramWrite (s : State) (t : PciTxn) (x : Nat) : State :=
  let (f, s) := s.draw .pciAccept
  let most := if t.addr.extractLsb' 0 2 = 0 then t.data.length else min 1 t.data.length
  let k := min f.toNat most
  if k = 0 then s.emit .pciRetry
  else
    (s.withPci (s.pci.queueWrite (.write (x / 4 * 4) (t.data.take k)))).answerWrite t k

/-- An I2O list write at offset 40h or 44h (R973): one Dword into the Inbound FIFO, on its way to SDRAM. -/
def State.targetI2oWrite (s : State) (t : PciTxn) (post : Bool) : State :=
  match t.data with
  | [] => s.answerWrite t 0
  | d :: _ =>
    (s.withPci (s.pci.queueWrite (if post then .i2oPost d.1 else .i2oFree d.1))).answerWrite t 1

/-- A memory command that hits the CSR window through PCI_MEM_BAR. -/
def State.targetCsr (s : State) (t : PciTxn) : Res State :=
  let o := csrOffset t.addr
  if memWrites t.cmd then
    if o = 0x10 then .ok (s.targetI2oWrite t true)
    else if o = 0x11 then .ok (s.targetI2oWrite t false)
    else s.targetRegWrite t (Config.pciCsrAt o)
  else if o = 0x10 ∨ o = 0x11 then s.delayedRead t true
  else .ok (s.targetRegRead t (Config.pciCsrAt o))

/-- An I/O command that hits the CSR window: the I2O ports discard writes and read 0 (R973). -/
def State.targetIo (s : State) (t : PciTxn) : Res State :=
  let o := csrOffset t.addr
  let r := if o = 0x10 ∨ o = 0x11 then none else Config.pciCsrAt o
  if t.cmd = .ioWrite then s.targetRegWrite t r else .ok (s.targetRegRead t r)

/-- An address parity error (R1015). -/
def State.addressParity (s : State) (t : PciTxn) : State :=
  if !t.addrParity then s
  else
    let s := s.withPci { s.pci with parityErr := true }
    if s.pci.parityResp && s.pci.serrEnable && !s.board.pciCfn0 then
      (s.withPci { s.pci with systemErr := true }).emit .serr
    else s

/-- A transaction of an external master on the bus: no claim before SA_CONTROL bit 0 (R943), for an unsupported command
(R995) and where no base address register matches. Where the CSR and the SDRAM window overlap the CSR window has the
address: R991 gives no precedence (DESIGN CHOICE, log entry 42). -/
def State.pciClaim (s : State) (t : PciTxn) : Res State :=
  if !s.pci.initDone then .ok (s.emit .pciNoClaim)
  else
    let s := s.addressParity t
    match t.cmd with
    | .cfgRead | .cfgWrite =>
      if t.idsel && t.addr.extractLsb' 0 2 == 0 then
        let r := Config.pciConfigAt (csrOffset t.addr)
        if t.cmd = .cfgWrite then s.targetRegWrite t r else .ok (s.targetRegRead t r)
      else .ok (s.emit .pciNoClaim)
    | .ioRead | .ioWrite =>
      if inCsrWindow t.addr s.pci.ioBar then s.targetIo t else .ok (s.emit .pciNoClaim)
    | .memRead | .memReadLine | .memReadMultiple | .memWrite | .memWriteInvalidate =>
      if inCsrWindow t.addr s.pci.memBar then s.targetCsr t
      else match s.pci.dramHit t.addr with
        | some x => if memWrites t.cmd then .ok (s.targetDramWrite t x) else s.delayedRead t false
        | none => .ok (s.emit .pciNoClaim)
    | .iack | .special | .dualAddress => .ok (s.emit .pciNoClaim)

/-- A transaction of an external master (R942); while the arbiter grants the bus to another it does not come (R946). -/
def State.pciTarget (s : State) (t : PciTxn) : Res State :=
  if s.busGrants t.master.succ then (s.hadBus t.master.succ).pciClaim t else .ok s

/-! ### Inbound FIFO (R990, R996, R997, R973) -/

/-- Write Dwords with their byte enables from byte `x` upward. -/
def writeDwords (m : Mem) (x : Nat) : List (Word × BitVec 4) → Mem
  | [] => m
  | d :: ds => writeDwords (m.writeMasked x d.2.toNat (wordBytes d.1)) (x + 4) ds

/-- Dwords a delayed read fetches (D42, R999). -/
def targetReadDwords : PciCmd → Nat
  | .memReadLine => 8
  | .memReadMultiple => 32
  | _ => 1

/-- The delayed read reaches SDRAM (R997): the Dwords from the latched address, the first of which must have been
written. -/
def State.latchRead (s : State) (l : ReadLatch) : Res State :=
  match s.pci.dramHit l.addr with
  | none => .ok (s.withPci { s.pci with latch := none })
  | some x => do
    let x := x / 4 * 4
    let (bs, _) ← s.pciSdramRead x 4
    let more := availableDwords s.sdram.mem s.board.sdramBytes (x + 4) (targetReadDwords l.cmd - 1)
    pure ((s.pciServed x (4 + 4 * more.length)).withPci { s.pci with
      latch := some { l with data := some (wordOf bs :: more) } })

/-- An I2O list read (R973): FFFF FFFF when the list is empty. -/
def State.i2oRead (s : State) (l : ReadLatch) : Res State :=
  let p := s.pci
  let ready := fun (s : State) (v : Word) => s.withPci { s.pci with latch := some { l with data := some [v] } }
  if csrOffset l.addr = 0x10 then
    if p.inbFreeCount = 0 then .ok (ready s 0xFFFFFFFF)
    else do
      let (bs, s) ← s.pciSdramRead p.inbFreeHead.toNat 4
      let s := s.withPci { s.pci with inbFreeHead := p.i2oNext p.inbFreeHead, inbFreeCount := p.inbFreeCount - 1 }
      pure (ready s (wordOf bs))
  else if p.outbPostCount = 0 then .ok (ready s 0xFFFFFFFF)
  else do
    let (bs, s) ← s.pciSdramRead p.outbPostHead.toNat 4
    let s := s.withPci { s.pci with outbPostHead := p.i2oNext p.outbPostHead, outbPostCount := p.outbPostCount - 1 }
    pure (ready s (wordOf bs))

/-- The head of the Inbound FIFO reaches SDRAM: a write in pieces of at most eight Dwords (R996), the bytes of a DMA
burst (R957), an I2O list write (R973), the delayed read. It waits for the PCI port's grant. -/
def State.pciInbound (s : State) : Res State :=
  if !s.sdramGrants .pci then .ok s
  else
    let p := s.pci
    match p.inbound with
    | [] => .ok s
    | .write x ds :: rest => do
      let now := ds.take 8
      let s ← s.pciSdramPut x (4 * now.length) (writeDwords s.sdram.mem x now)
      let left := if 8 < ds.length then .write (x + 32) (ds.drop 8) :: rest else rest
      pure (s.withPci { p with inbound := left })
    | .dma _ x bs :: rest => do
      let s ← s.pciSdramWrite x bs
      pure (s.withPci { p with inbound := rest })
    | .i2oPost v :: rest => do
      let k ← p.countUp p.inbPostCount
      let s ← s.pciSdramWrite p.inbPostTail.toNat (wordBytes v)
      pure (s.withPci { p with inbound := rest, inbPostTail := p.i2oNext p.inbPostTail, inbPostCount := k })
    | .i2oFree v :: rest => do
      let s ← s.pciSdramWrite p.outbFreeTail.toNat (wordBytes v)
      pure (s.withPci { p with inbound := rest, outbFreeTail := p.i2oNext p.outbFreeTail })
    | .read :: rest =>
      let s := s.withPci { p with inbound := rest }
      match p.latch with
      | some l => if l.i2o then s.i2oRead l else s.latchRead l
      | none => .ok s

/-- The discard timer expires while read data waits (R998). -/
def State.discardTimer (s : State) : State :=
  match s.pci.latch with
  | some l => if l.data.isSome then s.withPci { s.pci with latch := none, discardExp := true } else s
  | none => s

/-! ### Master transactions of the StrongARM core (R1005 to R1010) -/

/-- Post a StrongARM store to a PCI window (R1006); with the bus master bit clear it is refused (U31). -/
def State.pciPost (s : State) (o : Outbound) : Res State := do
  require s.pci.busMaster .busMaster
  pure (s.withPci { s.pci with outbound := s.pci.outbound ++ [o] })

/-- The bytes of Dwords that their byte enables select. -/
def enabledCount (ds : List (Word × BitVec 4)) : Nat :=
  (ds.map fun d => ((List.range 4).filter fun i => d.2.getLsbD i).length).sum

/-- Tell the DMA channel an entry belongs to, if any, what became of it. -/
def State.tellChan (s : State) (o : Outbound) (f : Chan → Chan) : State :=
  match o.chan with
  | some n => s.setChan n (f s.pci.chans[n])
  | none => s

/-- The command of an entry: a DMA write may be a Memory Write and Invalidate (R1006). -/
def State.outboundCmd (s : State) (o : Outbound) : PciCmd :=
  if o.chan.isSome && s.pci.invalidates o.addr o.data then .memWriteInvalidate else o.cmd

/-- The first `k` Dwords of the head entry were delivered: what is left goes on with the first undelivered Dword (R1006);
a write data parity error stops a DMA channel, and with it what is left (R1016). -/
def State.delivered (s : State) (o : Outbound) (rest : List Outbound) (k : Nat) (ps : List Bool) : State :=
  let (err, s) := s.writeParity (ps.take k)
  let left := if o.data.length ≤ k || (err && o.chan.isSome) then rest
    else { o with addr := o.addr + BitVec.ofNat 32 (4 * k), data := o.data.drop k } :: rest
  (s.withPci { s.pci with outbound := left }).tellChan o fun c =>
    let c := c.moved (enabledCount (o.data.take k))
    if err then c.failed else c

/-- The head of the Outbound FIFO goes out on the bus once the chip has the grant. Retried or with the bus master bit
clear it stays; aborted it is discarded, and a DMA channel stops (R1006, R1008, R1016); a special cycle has no errors
(R1010). A retried attempt leaves no trace of a master transaction (DESIGN CHOICE, log entry 59). -/
def State.pciOutbound (s : State) (ans : PciAns) : State :=
  match s.pci.outbound with
  | [] => s
  | o :: rest =>
    if !s.pci.busMaster || !s.busGrants 0 then s
    else
      let s0 := s.hadBus 0
      let s1 := s0.emit (.pciMaster (s.outboundCmd o) o.addr o.data)
      let gone := s1.withPci { s1.pci with outbound := rest }
      if o.cmd == .special then (if ans == .retry then s0 else gone)
      else match ans with
        | .done _ ps => s1.delivered o rest o.data.length ps
        | .retry => s0
        | .disconnectAfter k _ ps => if k = 0 then s0 else s1.delivered o rest k ps
        | .masterAbort => gone.setMasterAbort.tellChan o Chan.failed
        | .targetAbort => gone.setTargetAbort.tellChan o Chan.failed

/-- Why an access of the core waits: for a unit or a buffer, for its turn on the PCI bus, or to repeat a read that a PCI
target retried. -/
inductive Wait where
  | unit | turn | retried
deriving DecidableEq, Repr

/-- The PCI host's answers for one step of the core, one for each of its loads in order, and whether the chip already has
the bus in this step: the loads of one step are one turn of the round robin (log entry 59). -/
structure PciTurn where
  ans : List PciAns
  held : Bool
deriving DecidableEq, Repr

/-- No answer of the PCI host: an access that must wait for one waits. -/
def PciTurn.none : PciTurn := ⟨[], false⟩

/-- The arbiter's view of an access of the core that waits (R946, R1011): the request stands until it is served. -/
def State.noteWait (s : State) : Wait → State
  | .unit => s
  | .turn => s.withPci { s.pci with coreReq := true }
  | .retried => s.withPci { s.pci with coreReq := true, arbLast := 0 }

/-- A StrongARM load of one Dword from a PCI window (R1007 to R1010): none while the core must wait, for its turn, for
the answer, for the stores ahead of its address in the Outbound FIFO or for what stands ahead of its data in the Inbound
FIFO (R990). The load blocks the core until an answer brings the Dword or an abort: a retry, or a disconnect or an end
without data, has it repeat the command and leaves no trace of a master transaction (DESIGN CHOICE, log entry 59). An
aborted load returns FFFF FFFF. -/
def State.pciLoad (s : State) (cmd : PciCmd) (addr : Word) (en : BitVec 4) (turn : PciTurn) :
    Res (Except Wait (Word × State)) := do
  require s.pci.busMaster .busMaster
  if !s.pci.outbound.isEmpty || !s.pci.inbound.isEmpty then pure (.error .unit)
  else if !turn.held && !s.busGrants 0 then pure (.error .turn)
  else
    let s1 := (s.hadBus 0).emit (.pciMaster cmd addr [(0, en)])
    match turn.ans with
    | .done (w :: _) ps :: _ | .disconnectAfter (_ + 1) (w :: _) ps :: _ => pure (.ok (w, s1.readParity (ps.take 1)))
    | .masterAbort :: _ => pure (.ok (0xFFFFFFFF, s1.setMasterAbort))
    | .targetAbort :: _ => pure (.ok (0xFFFFFFFF, s1.setTargetAbort))
    | .retry :: _ | .done [] _ :: _ | .disconnectAfter .. :: _ => pure (.error .retried)
    | [] => pure (.error .turn)

end Sys2Proof.Machine
end

