-- ==== Sys2Proof/Machine/System.lean ====
section
/-! DEFINITION. The system registers of Device 3: UART, real-time clock, GPIO, PLL, the first-level interrupt pair and
the interrupt lines of the StrongARM core (11_state_csrs.md R240 to R252; 60_exceptions.md R1070 to R1097). -/

namespace Sys2Proof.Machine

/-- Replace the system devices. -/
def State.withSys (s : State) (y : Sys) : State := { s with sys := y }

/-! ### UART (R1095) -/

/-- The interrupt condition of the UART. -/
def Sys.uartWants (y : Sys) : Bool := (y.uartRxInt && !y.uartRx.isEmpty) || (y.uartTxInt && y.uartTx.isEmpty)

/-- Latch the UART interrupt. -/
def Sys.uartLatch (y : Sys) : Sys := { y with uartInt := y.uartInt || y.uartWants }

/-- UART_SR (R243): framing and parity errors are those of the next byte to be read. -/
def Sys.uartStatus (y : Sys) : Word :=
  let next := y.uartRx.head?
  putBit .usTxFull (decide (8 ≤ y.uartTx.length)) (putBit .usTxEmpty y.uartTx.isEmpty
    (putBit .usTxReady (decide (y.uartTx.length < 8)) (putBit .usRxFull (decide (8 ≤ y.uartRx.length))
      (putBit .usRxReady (!y.uartRx.isEmpty) (putBit .usOverrun (y.uartRx.any (·.overrun))
        (putBit .usFraming ((next.map (·.framing)).getD false)
          (putBit .usParity ((next.map (·.parity)).getD false) 0)))))))

/-- The UART_DR word of a received byte (R244): the byte, errors at bits 8 and 9, overrun at bit 10. -/
def uartWord (b : UartByte) : Word :=
  let (lo, hi) := if Config.uartParityLow then (b.parity, b.framing) else (b.framing, b.parity)
  putAt 8 lo (putAt 9 hi (putAt 10 b.overrun (b.data.setWidth 32)))

/-- Read UART_DR: pop the receive FIFO; an empty FIFO gives an unspecified byte and flags (U34). -/
def State.uartRead (s : State) : Word × State :=
  match s.sys.uartRx with
  | b :: rest => (uartWord b, s.withSys { s.sys with uartRx := rest }.uartLatch)
  | [] => (((s.draw .uartData).1.setWidth 11).setWidth 32, (s.draw .uartData).2)

/-- Write UART_DR: push the transmit FIFO; a byte written when it is full is dropped (U34). -/
def Sys.uartPut (y : Sys) (b : Byte) : Sys :=
  { y with uartTx := if y.uartTx.length < 8 then y.uartTx ++ [b] else y.uartTx }.uartLatch

/-- Write UART_CR (R242): the controls, and the interrupt clear. That a 1 in a clear field clears, and that the field stays
in the stored word and reads back as written, is the model's choice (DESIGN CHOICE, log entry 44). -/
def Sys.writeUartCr (y : Sys) (v : Word) : Sys :=
  { y with
    uartCr := v, uartRxInt := getBit .uaRxInt v, uartTxInt := getBit .uaTxInt v, uartFiq := getBit .uaFiq v
    uartEnable := getBit .uaEnable v, uartInt := y.uartInt && !getBit .uaClear v }.uartLatch

/-- Mark the last byte received before an overrun (R244). -/
def markOverrun : List UartByte → List UartByte
  | [] => []
  | [b] => [{ b with overrun := true }]
  | b :: rest => b :: markOverrun rest

/-- A byte arrives: lost, with the overrun recorded, when the receive FIFO is full. -/
def Sys.uartReceive (y : Sys) (b : Byte) (parity framing : Bool) : Sys :=
  if !y.uartEnable then y
  else
    { y with uartRx := if y.uartRx.length < 8 then y.uartRx ++ [UartByte.mk b parity framing false]
      else markOverrun y.uartRx }.uartLatch

/-- The transmitter sends the next byte, or zeros while a break is asked for. -/
def State.uartTransmit (s : State) : State :=
  let y := s.sys
  if !y.uartEnable then s
  else if getBit .uaBreak y.uartCr then s.emit (.uart 0)
  else match y.uartTx with
    | [] => s
    | b :: rest => (s.withSys { y with uartTx := rest }.uartLatch).emit (.uart b)

/-! ### Real-time clock (R1096) -/

/-- The bits of the interrupt enable, the pending bit and the FIQ choice: 16 to 18 in one of the six orders (R247). -/
def rtcBits (n : Fin 6) : Nat × Nat × Nat :=
  ([(16, 17, 18), (16, 18, 17), (17, 16, 18), (17, 18, 16), (18, 16, 17), (18, 17, 16)].getD n.val (16, 17, 18))

/-- Write RTC_DIV (R247): the divisor in bits 15:0, or with the write enable bit the interrupt fields in bits 18:16; the
bits with no named meaning as written. The pending bit is one of the fields and takes the written bit (log entry 45). -/
def Sys.writeRtcDiv (y : Sys) (v : Word) : Sys :=
  let (e, p, q) := rtcBits Config.rtcFieldOrder
  let y := { y with rtcDivWord := v }
  if getBit .rtWrite v then
    { y with rtcIntEnable := v.getLsbD e, rtcFiq := v.getLsbD q, rtcInt := v.getLsbD p }
  else { y with rtcDiv := v.setWidth 16 }

/-- The RTC_DIV word. -/
def Sys.rtcDivValue (y : Sys) : Word :=
  let (e, p, q) := rtcBits Config.rtcFieldOrder
  putAt e y.rtcIntEnable (putAt p y.rtcInt (putAt q y.rtcFiq (putBitsAt 0 y.rtcDiv y.rtcDivWord)))

/-- Write RTC_TVAL (R249, R1096): with the load bit the holding registers go to the working registers and the alarm value
to the counter. The trim value's 16 bits are the model's choice (log entry 45). -/
def Sys.writeRtcTval (y : Sys) (v : Word) : Sys :=
  let y := { y with rtcTval := v }
  if getBit .rvLoad v then
    { y with wDiv := y.rtcDiv, wTint := y.rtcTint, wTval := (getField .rvTrim 16 v).setWidth 32
             wAlm := y.rtcAlm, prescaler := getBit .rvPrescale v, rtcCntr := y.rtcAlm, tintCount := y.rtcTint }
  else y

/-- One tick of the 1 Hz clock: the counter is compared with the RTC_ALM holding register (R1096). -/
def Sys.rtcTick (y : Sys) : Sys :=
  let n := y.rtcCntr + 1
  { y with
    rtcCntr := n
    tintCount := if y.wTint = 0 then y.tintCount else if y.tintCount = 0 then y.wTint - 1 else y.tintCount - 1
    rtcInt := y.rtcInt || (n == y.rtcAlm && y.rtcIntEnable) }

/-! ### GPIO (R245, R246, R1097) -/

/-- The pins the FBI Unit uses in its IX Bus mode (Table 3-7). -/
def Fbi.modePins (f : Fbi) : BitVec 4 :=
  (if f.uniDir || !f.manyMac then 1 else 0) ||| (if f.uniDir then 0xE else 0)

/-- The pins the FBI Unit owns: those of its mode that GPIO_EN makes outputs (R245, R1097). -/
def State.ownedPins (s : State) : BitVec 4 := s.fbi.modePins &&& s.sys.gpioEn

/-- The pins the core drives. -/
def State.gpioOut (s : State) : BitVec 4 := s.sys.gpioEn &&& ~~~s.ownedPins

/-- The levels of the four pins: driven where the core drives, else the environment's. -/
def State.gpioPins (s : State) : BitVec 4 := (s.sys.gpioDriven &&& s.gpioOut) ||| (s.env.gpio &&& ~~~s.gpioOut)

/-- GPIO_EN bits as an output mask, and back. -/
def gpioMask (v : BitVec 4) : BitVec 4 := if Config.gpioOutputHigh then v else ~~~v

/-- The four pins' bits over a register whose other bits have no named meaning; that they are bits 3:0 is the model's
choice (log entry 45). -/
def lowFour (x : BitVec 4) (raw : Word) : Word := (raw &&& ~~~0xF) ||| x.setWidth 32

/-- Write GPIO_DATA: the output pins the FBI Unit does not own. -/
def State.writeGpio (s : State) (v : Word) : State :=
  s.withSys { s.sys with
    gpioDriven := (s.sys.gpioDriven &&& ~~~s.gpioOut) ||| (v.setWidth 4 &&& s.gpioOut), gpioDataWord := v }

/-! ### Interrupt lines (R1070, R1075, R1085) -/

/-- The FBI Unit requests (R1085): a thread's interrupt bit with that thread's enable, a breakpoint or CINT with its
own; which threads share an enable bit, and the breakpoints' one, are the model's choice (log entry 32). -/
def State.fbiWants (s : State) : Bool :=
  (List.finRange 24).any (fun t => s.fbi.iregThreads.getLsbD t.val && s.fbi.iregThreadEn t)
    || (s.fbi.iregBpEn && s.fbi.iregBp != 0) || (s.fbi.iregCintEn && s.env.cint)

/-- The SRAM Unit requests (R1075). -/
def Sram.wants (r : Sram) : Bool :=
  (r.failStatus && getBit .srLockFailInt r.csr) || (r.doneStatus && getBit .srLockDoneInt r.csr)

/-- The requests of one line, `fiq` or IRQ, one a unit: PCI, FBI, UART, RTC, SRAM. -/
def State.lineRequests (s : State) (fiq : Bool) : List (CsrField × Bool) := [
  (.l1Pci, (if fiq then s.pci.fiqStatus else s.pci.irqStatus) != 0),
  (.l1Fbi, s.fbiWants && s.fbi.iregFiq == fiq),
  (.l1Uart, s.sys.uartInt && s.sys.uartFiq == fiq),
  (.l1Rtc, s.sys.rtcInt && s.sys.rtcFiq == fiq),
  (.l1Sram, s.sram.wants && getBit .srIntFiq s.sram.csr == fiq)]

/-- `irq_line` and `fiq_line` (D51). -/
def State.irqLine (s : State) : Bool := (s.lineRequests false).any (·.2)
def State.fiqLine (s : State) : Bool := (s.lineRequests true).any (·.2)

/-- The first-level register of a line (R241). -/
def State.firstLevel (s : State) (fiq : Bool) : Word :=
  (s.lineRequests fiq).foldl (fun v r => putBit r.1 r.2 v) 0

/-! ### Register access by the StrongARM core -/

/-- Read a system register. -/
def State.sysRead (s : State) (r : SysReg) : Word × State :=
  let y := s.sys
  match r with
  | .pllCfg => (y.pllCfg, s)
  | .irqFirst => (s.firstLevel false, s)
  | .fiqFirst => (s.firstLevel true, s)
  | .uartCr => (y.uartCr, s)
  | .uartSr => (y.uartStatus, s)
  | .uartDr => s.uartRead
  | .gpioEn => (lowFour (gpioMask y.gpioEn) y.gpioEnWord, s)
  | .gpioData => (lowFour s.gpioPins y.gpioDataWord, s)
  | .rtcDiv => (y.rtcDivValue, s)
  | .rtcTint => (y.rtcTint, s)
  | .rtcTval => (y.rtcTval, s)
  | .rtcCntr => (y.rtcCntr, s)
  | .rtcAlm => (y.rtcAlm, s)

/-- Write a system register; the status registers and the counter take no writes. The trim interval count is the whole word
of RTC_TINT: R248 gives neither place nor width (DESIGN CHOICE, log entry 45). -/
def State.sysWrite (s : State) (r : SysReg) (v : Word) : State :=
  let y := s.sys
  match r with
  | .pllCfg => s.withSys { y with pllCfg := v }
  | .irqFirst | .fiqFirst | .uartSr | .rtcCntr => s
  | .uartCr => s.withSys (y.writeUartCr v)
  | .uartDr => s.withSys (y.uartPut (v.setWidth 8))
  | .gpioEn => s.withSys { y with gpioEn := gpioMask (v.setWidth 4), gpioEnWord := v }
  | .gpioData => s.writeGpio v
  | .rtcDiv => s.withSys (y.writeRtcDiv v)
  | .rtcTint => s.withSys { y with rtcTint := v }
  | .rtcTval => s.withSys (y.writeRtcTval v)
  | .rtcAlm => s.withSys { y with rtcAlm := v }

end Sys2Proof.Machine
end

