-- ==== Sys2Proof/Machine/ArmMap.lean ====
section
/-! DEFINITION. The StrongARM core's physical address map (20_memory.md R310 to R318): one access of the core to each
device. Reads are synchronous; writes are posted in the SDRAM and SRAM Units (R856, R904). -/

namespace Sys2Proof.Machine

/-- What an access of the core comes to: done, with the answers of the PCI host still unused; aborted, the address being
reserved or the MMU refusing it; the core waits and goes on from the state given; or the access reset the chip. -/
inductive Access (α : Type) where
  | done (v : α) (s : State) (ans : PciTurn)
  | abort (k : AbortKind) (s : State)
  | wait (w : Wait) (s : State)
  | reset (s : State)

/-- Go on with a done access. -/
def Access.bind {α β : Type} (r : Res (Access α)) (f : α → State → PciTurn → Res (Access β)) : Res (Access β) :=
  match r with
  | .ok (.done v s a) => f v s a
  | .ok (.abort k s) => .ok (.abort k s)
  | .ok (.wait w s) => .ok (.wait w s)
  | .ok (.reset s) => .ok (.reset s)
  | .error e => .error e

/-- The answers left after one load, the bus still the chip's. -/
def nextAns (t : PciTurn) : PciTurn := ⟨t.ans.drop 1, true⟩

/-- A longword access to a device that takes nothing else (R350, U13). -/
def wordSize (pa n : Nat) : Res Unit := require (n == 4 && pa % 4 == 0) .accessSize

/-- `n` bytes at `pa` are one naturally aligned access (D45): a byte, a halfword, or longwords. -/
def natural (pa n : Nat) : Bool :=
  n == 1 || (n == 2 && pa % 2 == 0) || (decide (0 < n) && n % 4 == 0 && pa % 4 == 0)

/-- Natural alignment towards a unit (D45). -/
def naturalSize (pa n : Nat) : Res Unit := require (natural pa n) .accessSize

/-! ### PCI windows (R315) -/

/-- The PCI command of a load or a store in a window (R1006 to R1010). -/
def loadCmd : PciSpace → PciCmd
  | .memory => .memRead | .io => .ioRead | .config0 | .config1 => .cfgRead | .iackSpecial => .iack
def storeCmd : PciSpace → PciCmd
  | .memory => .memWrite | .io => .ioWrite | .config0 | .config1 => .cfgWrite | .iackSpecial => .special

/-- The PCI address of a cycle; that of an IACK read or a special cycle is undefined (U32). -/
def State.pciAddress (s : State) (k : PciSpace) (pa : Nat) : Word × State :=
  match k with
  | .iackSpecial => s.draw .pciAddress
  | _ => (Config.pciMasterAddr k (BitVec.ofNat 32 pa) s.pci.addrExt, s)

/-- The byte enables of `n` bytes at lane `pa mod 4`. -/
def laneEnables (pa n : Nat) : BitVec 4 := BitVec.ofNat 4 ((2 ^ n - 1) * 2 ^ (pa % 4))

/-- The bytes of a Dword at lane `pa mod 4`, `n` of them. -/
def laneBytes (pa n : Nat) (v : Word) : List Byte := ((wordBytes v).drop (pa % 4)).take n

/-- Registers the core may write by bytes (R980). -/
def byteWritable : PciReg → Bool
  | .mailbox _ => true
  | _ => false

/-- Read `n` bytes of Device 1. -/
def State.armPciRead (s : State) (pa n : Nat) (ans : PciTurn) : Res (Access (List Byte)) :=
  match pciWindow pa with
  | .reserved => .ok (.abort .reserved s)
  | .register r => do
    if byteWritable r then naturalSize pa n else wordSize pa n
    let (v, s) := s.pciRegRead r
    pure (.done (laneBytes pa n v) s ans)
  | .cycle k => do
    naturalSize pa n
    let (a, s1) := s.pciAddress k pa
    match ← s1.pciLoad (loadCmd k) a (laneEnables pa n) ans with
    | .ok (v, s) => pure (.done (laneBytes pa n v) s (nextAns ans))
    | .error w => pure (.wait w s)

/-- Write bytes to Device 1. A store that resets the chip ends the instruction. -/
def State.armPciWrite (s : State) (pa : Nat) (bs : List Byte) (ans : PciTurn) : Res (Access Unit) :=
  let v := wordOf (List.replicate (pa % 4) 0 ++ bs)
  let en := laneEnables pa bs.length
  match pciWindow pa with
  | .reserved => .ok (.abort .reserved s)
  | .register r => do
    if byteWritable r then naturalSize pa bs.length else wordSize pa bs.length
    let s ← s.pciRegWrite true r v (byteMask en)
    if r == .reset && getBit .rstChip v then pure (.reset s) else pure (.done () s ans)
  | .cycle k => do
    naturalSize pa bs.length
    let (a, s) := s.pciAddress k pa
    let s ← s.pciPost ⟨storeCmd k, a, [(v, en)], none⟩
    pure (.done () s ans)

/-! ### The ATU (R312, R330) -/

/-- What an address of Device 5 names. -/
inductive AtuWindow where
  | localCsr (m : Fin 6) (r : LocalCsr) | xfer (m : Fin 6) (n : Fin 32) | fbi (r : FbiCsr) | scratch (i : Nat)
  | reserved
deriving DecidableEq, Repr

/-- The window of a Device 5 address. -/
def atuWindow (pa : Nat) : AtuWindow :=
  let x := pa - 0xB0000000
  if h : x < 0x3000 then
    match Config.localCsrAt (BitVec.ofNat 11 (x % 0x800 / 4 * 4)) with
    | some r => .localCsr ⟨x / 0x800, by omega⟩ r
    | none => .reserved
  else if h : 0x4000 ≤ x ∧ x < 0x7000 then
    if h2 : x % 0x800 / 4 < 32 then .xfer ⟨(x - 0x4000) / 0x800, by omega⟩ ⟨x % 0x800 / 4, h2⟩ else .reserved
  else if 0x40000 ≤ x ∧ x < 0x44000 then
    match Config.fbiCsrAt (BitVec.ofNat 14 ((x - 0x40000) / 4 * 4)) with
    | some r => .fbi r
    | none => .reserved
  else if 0x44000 ≤ x ∧ x < 0x45000 then .scratch ((x - 0x44000) / 4)
  else .reserved

/-- Read a longword of Device 5 (R330: the write transfer registers, R733, R756, R150). -/
def State.atuRead (s : State) (w : AtuWindow) : Res (Word × State) :=
  match w with
  | .localCsr m r => s.armCsrRead m r
  | .xfer m n => .ok ((s.me m).sramWr[n], s)
  | .fbi r => s.armFbiRead r
  | .scratch i => do
    let v ← written (s.fbi.scratch.readWord i)
    pure (v, s)
  | .reserved => refuse .addressRange

/-- Write a longword of Device 5 (R330: the read transfer registers). -/
def State.atuWrite (s : State) (w : AtuWindow) (v : Word) : Res State :=
  match w with
  | .localCsr m r => s.armCsrWrite m r v
  | .xfer m n => .ok (s.pushSram m n.val [v])
  | .fbi r => s.armFbiWrite r v
  | .scratch i => .ok (s.scratchPut (BitVec.ofNat 32 i) v)
  | .reserved => refuse .addressRange

/-! ### SDRAM Unit (R314, R857 to R859) -/

/-- Read `n` bytes of SDRAM: synchronous, behind the core's own posted writes, when the unit grants it (R856); `fetch`
says that the read comes through the D000 0000 window, which may deliver older contents (R858, D33). -/
def State.armSdramRead (s : State) (x n : Nat) (fetch : Bool) (ans : PciTurn) : Res (Access (List Byte)) := do
  naturalSize x n
  require (s.sdramBytesOk x n) .addressRange
  if !s.sdram.posted.isEmpty || !s.sdramGrants .amba then pure (.wait .unit s)
  else
    let served := s.withSdram (s.sdram.granted .amba (x / 8))
    if fetch then
      let bs ← written ((s.sdram.windowBytes s.free x n).mapM id)
      pure (.done bs (served.windowRead n) ans)
    else
      let bs ← written (s.sdram.mem.readBytes x n)
      pure (.done bs served ans)

/-- Post a write to SDRAM: the data buffer holds two (R856); `fetch` says that the write comes through the D000 0000
window. -/
def State.armSdramWrite (s : State) (x : Nat) (bs : List Byte) (fetch : Bool) (ans : PciTurn) :
    Res (Access Unit) := do
  naturalSize x bs.length
  require (s.sdramBytesOk x bs.length) .addressRange
  if s.sdram.posted.length < 2 then
    pure (.done () (s.withSdram { s.sdram with posted := s.sdram.posted ++ [⟨x, bs, fetch⟩] }) ans)
  else pure (.wait .unit s)

/-- The SDRAM CSR of an address (R275). -/
def sdramCsrOf (pa : Nat) : Option SdramCsr :=
  if 0xFF000000 ≤ pa ∧ pa < 0xFF000018 then Config.sdramCsrAt (BitVec.ofNat 5 (pa % 32 / 4 * 4)) else none

/-! ### The whole map (R310) -/

/-- The core reads `n` bytes at a physical address. -/
def State.armRead (s : State) (pa n : Nat) (ans : PciTurn) : Res (Access (List Byte)) :=
  if pa < 0x40000000 then do
    if (sramWindow pa).wordOnly then wordSize pa n else naturalSize pa n
    if !s.sram.posted.isEmpty || s.sram.retryDue then pure (.wait .unit s)
    else
      let (bs, s) ← s.sramArmRead pa n
      pure (.done bs (s.sramHasRead (sramWindow pa)) ans)
  else if pa < 0x80000000 then s.armPciRead pa n ans
  else if 0x90000000 ≤ pa ∧ pa < 0xA0000000 then
    match Config.sysRegAt (BitVec.ofNat 28 (pa / 4 * 4)) with
    | none => .ok (.abort .reserved s)
    | some r => do
      wordSize pa n
      pure (.done (wordBytes (s.sysRead r).1) (s.sysRead r).2 ans)
  else if 0xA0000000 ≤ pa ∧ pa < 0xA0004000 then do
    naturalSize pa n
    pure (.done (List.replicate n 0) s ans)
  else if 0xB0000000 ≤ pa ∧ pa < 0xC0000000 then
    match atuWindow pa with
    | .reserved => .ok (.abort .reserved s)
    | w => do
      wordSize pa n
      let (v, s) ← s.atuRead w
      pure (.done (wordBytes v) s ans)
  else if 0xC0000000 ≤ pa ∧ pa < 0xE0000000 then s.armSdramRead (pa % 0x10000000) n (decide (0xD0000000 ≤ pa)) ans
  else
    match sdramCsrOf pa with
    | none => .ok (.abort .reserved s)
    | some r => do
      wordSize pa n
      if s.sdram.inReset then pure (.wait .unit s) else pure (.done (wordBytes (s.sdram.csrRead r)) s ans)

/-- The stores that take effect at once in Device 0: the bit operations (R921). -/
def SramWindow.immediate : SramWindow → Bool
  | .bits .. => true
  | _ => false

/-- The windows that take stores (R882). A store to the pop or the read lock window, for which the spec gives no effect, is
refused: the model's choice (DESIGN CHOICE, log entry 46). -/
def SramWindow.stores : SramWindow → Bool
  | .none | .pop _ | .readLock _ => false
  | _ => true

/-- The core writes bytes at a physical address. -/
def State.armWrite (s : State) (pa : Nat) (bs : List Byte) (ans : PciTurn) : Res (Access Unit) :=
  let n := bs.length
  if pa < 0x40000000 then do
    require (sramWindow pa).stores .addressRange
    if (sramWindow pa).wordOnly then wordSize pa n else naturalSize pa n
    if !s.sram.posted.isEmpty || s.sram.retryDue then pure (.wait .unit s)
    else if (sramWindow pa).immediate then do
      let s ← (s.withSram (s.sram.turn .order)).sramArmWrite pa bs
      pure (.done () s ans)
    else pure (.done () (s.withSram { s.sram with posted := [⟨pa, bs, false⟩] }) ans)
  else if pa < 0x80000000 then s.armPciWrite pa bs ans
  else if 0x90000000 ≤ pa ∧ pa < 0xA0000000 then
    match Config.sysRegAt (BitVec.ofNat 28 (pa / 4 * 4)) with
    | none => .ok (.abort .reserved s)
    | some r => do
      wordSize pa n
      pure (.done () (s.sysWrite r (wordOf bs)) ans)
  else if 0xA0000000 ≤ pa ∧ pa < 0xA0004000 then do
    naturalSize pa n
    pure (.done () s ans)
  else if 0xB0000000 ≤ pa ∧ pa < 0xC0000000 then
    match atuWindow pa with
    | .reserved => .ok (.abort .reserved s)
    | w => do
      wordSize pa n
      let s ← s.atuWrite w (wordOf bs)
      pure (.done () s ans)
  else if 0xC0000000 ≤ pa ∧ pa < 0xE0000000 then
    s.armSdramWrite (pa % 0x10000000) bs (decide (0xD0000000 ≤ pa)) ans
  else
    match sdramCsrOf pa with
    | none => .ok (.abort .reserved s)
    | some r => do
      wordSize pa n
      if s.sdram.inReset then pure (.wait .unit s)
      else pure (.done () (s.withSdram (s.sdram.csrWrite r (wordOf bs))) ans)

/-- A burst of several longwords goes to this address as one transaction; elsewhere longword by longword. -/
def burstTarget (pa : Nat) : Bool :=
  (decide (pa < 0x40000000) && !(sramWindow pa).wordOnly) || (decide (0xC0000000 ≤ pa) && decide (pa < 0xE0000000))

end Sys2Proof.Machine
end

