-- ==== Sys2Proof/Machine/ArmMemory.lean ====
section
/-! DEFINITION. Between the StrongARM core and the map (45_strongarm.md R672 to R683; 20_memory.md R350, R372, R380):
translation buffers, caches, write buffer, read buffer; one load, one store, one fetch. -/

namespace Sys2Proof.Machine

/-- Replace the core. -/
def State.withArm (s : State) (c : Arm) : State := { s with arm := c }

/-! ### Translation (R672, R673) -/

/-- A translated address with its cacheable and bufferable bits. -/
structure Trans where
  pa : Nat
  c : Bool
  b : Bool

/-- The entry maps a virtual address. -/
def entryHits (va : Word) (e : TlbEntry) : Bool := va &&& e.mask == e.va

/-- The entry that maps a virtual address. Where two do, the tables having been changed without a flush, the one in the
lower place serves it: R673 is silent on it (DESIGN CHOICE, log entry 60). -/
def Tlb.find (t : Tlb) (va : Word) : Option TlbEntry := t.slots.toList.findSome? (Option.filter (entryHits va))

/-- Put an entry at the round robin pointer, which moves to the next of the 32 places (R673). That it does so also while
a place is empty, and stays over a flush, is the model's choice (log entry 60). -/
def Tlb.insert (t : Tlb) (e : TlbEntry) : Tlb := { slots := t.slots.set t.ptr (some e), ptr := t.ptr + 1 }

/-- Remove the entries that map an address; the others keep their places. -/
def Tlb.drop (t : Tlb) (va : Word) : Tlb := { t with slots := t.slots.map (Option.filter fun e => !entryHits va e) }

/-- Remove every entry. -/
def Tlb.flush (t : Tlb) : Tlb := { t with slots := Tlb.empty.slots }

/-- The address an entry gives. -/
def entryTrans (e : TlbEntry) (va : Word) : Trans := ⟨((e.pa &&& e.mask) ||| (va &&& ~~~e.mask)).toNat, e.c, e.b⟩

/-- What the walk or fill in progress has read so far (R1007). -/
def State.keepRead (s : State) (bs : List Byte) : State := s.withArm { s.arm with readSoFar := bs }

/-- An entry retrieved for an address maps it (R672). -/
def entryFor (va : Word) (e : TlbEntry) : TlbEntry := { e with va := va &&& e.mask }

/-- The table walk (R381, R672): level 1 and level 2 descriptors are read through the physical map, uncached. The level 1
descriptor is kept while the walk waits for the other: no read that was answered is made again (R1007). The walk neither
looks at the write buffer nor drains it, on which the spec is silent (DESIGN CHOICE, log entry 84). -/
def State.walk (s : State) (va : Word) (ans : PciTurn) : Res (Access TlbEntry) :=
  let level1 := if s.arm.readSoFar.isEmpty then s.armRead (Config.walkAddr s.arm.ttb va).toNat 4 ans
    else .ok (.done s.arm.readSoFar s ans)
  Access.bind level1 fun d1 s ans =>
    match Config.walk1 (wordOf d1) va with
    | .fault => .ok (.abort .translation (s.keepRead []))
    | .entry e => .ok (.done (entryFor va e) (s.keepRead []) ans)
    | .table a2 =>
      match s.armRead a2.toNat 4 ans with
      | .ok (.wait w s) => .ok (.wait w (s.keepRead d1))
      | r => Access.bind r fun d2 s ans =>
        match Config.walk2 (wordOf d1) (wordOf d2) va with
        | some e => .ok (.done (entryFor va e) (s.keepRead []) ans)
        | none => .ok (.abort .translation (s.keepRead []))

/-- The mode bits an access is checked with: the current mode's, or User mode's where the instruction asks for it. -/
def Arm.accessMode (c : Arm) (user : Bool) : BitVec 5 := if user then modeNumber .usr else c.cpsr.setWidth 5

/-- The permission check of an entry in mode `m` (R674). -/
def State.checked (s : State) (e : TlbEntry) (va : Word) (m : BitVec 5) (k : AccessKind) (ans : PciTurn) :
    Res (Access Trans) :=
  if Config.permitted e s.arm.domain s.arm.control m k va then .ok (.done (entryTrans e va) s ans)
  else .ok (.abort .permission s)

/-- The buffer of an access. -/
def Arm.tlb (c : Arm) : AccessKind → Tlb
  | .fetch => c.itlb
  | .load | .store => c.dtlb

/-- Put a retrieved entry into the buffer of the access. -/
def Arm.addTlb (c : Arm) (k : AccessKind) (e : TlbEntry) : Arm :=
  match k with
  | .fetch => { c with itlb := c.itlb.insert e }
  | .load | .store => { c with dtlb := c.dtlb.insert e }

/-- Translate an address in mode `m`; with the MMU off it is its own, cacheable for fetches (R672). -/
def State.translate (s : State) (va : Word) (m : BitVec 5) (mmu : Bool) (k : AccessKind) (ans : PciTurn) :
    Res (Access Trans) :=
  if !mmu then .ok (.done ⟨va.toNat, k == .fetch, false⟩ s ans)
  else match (s.arm.tlb k).find va with
    | some e => s.checked e va m k ans
    | none => Access.bind (s.walk va ans) fun e s ans => (s.withArm (s.arm.addTlb k e)).checked e va m k ans

/-! ### Cache lines (R677 to R680) -/

/-- The line address of a virtual address. -/
def lineOf (va : Word) : Word := va &&& ~~~0x1F

/-- Sets and ways of a cache (R83, R84). -/
def cacheSets : CacheKind → Nat
  | .icache => 16
  | _ => 8
def cacheWays : CacheKind → Nat
  | .mini => 2
  | _ => 32

/-- The line that holds a virtual address. -/
def Cache.find (c : Cache) (va : Word) : Option CacheLine := c.lines.find? fun l => l.va == lineOf va

/-- The set of a virtual address and the way its pointer is at. -/
def Cache.slot (c : Cache) (k : CacheKind) (va : Word) : Nat × Nat :=
  let set := Config.cacheSet k va % cacheSets k
  (set, ((c.ptrs.find? (·.1 == set)).map (·.2)).getD 0)

/-- The line a fill replaces. -/
def Cache.victim (c : Cache) (k : CacheKind) (va : Word) : Option CacheLine :=
  c.lines.find? fun l => l.set == (c.slot k va).1 && l.way == (c.slot k va).2

/-- Place a line at the pointer of its set, which moves to the next way. -/
def Cache.place (c : Cache) (k : CacheKind) (va : Word) (pa : Nat) (data : List (Option Byte)) : Cache :=
  let (set, way) := c.slot k va
  let next := (way + 1) % cacheWays k
  let ptrs := c.ptrs.filter (·.1 != set)
  { lines := c.lines.filter (fun l => !(l.set == set && l.way == way))
      ++ [⟨set, way, lineOf va, BitVec.ofNat 32 (pa / 32 * 32), data, false, false⟩]
    ptrs := if next = 0 then ptrs else (set, next) :: ptrs }

/-- The `n` bytes of line data at an address, if all have been written (R390). -/
def lineBytes (data : List (Option Byte)) (va n : Nat) : Option (List Byte) := ((data.drop (va % 32)).take n).mapM id

/-- The `n` bytes of a line at a virtual address. -/
def CacheLine.bytes (l : CacheLine) (va : Word) (n : Nat) : Option (List Byte) := lineBytes l.data va.toNat n

/-- A line after a store (R679): the bytes, and the dirty bit of their half. -/
def CacheLine.store (l : CacheLine) (va : Word) (bs : List Byte) : CacheLine :=
  let k := va.toNat % 32
  { l with data := l.data.take k ++ bs.map some ++ l.data.drop (k + bs.length)
           dirtyLo := l.dirtyLo || decide (k < 16), dirtyHi := l.dirtyHi || decide (16 ≤ k) }

/-- Replace the line that holds an address. -/
def Cache.replace (c : Cache) (l : CacheLine) : Cache :=
  { c with lines := c.lines.map fun x => if x.va = l.va then l else x }

/-- Remove the line that holds an address. -/
def Cache.drop (c : Cache) (va : Word) : Cache := { c with lines := c.lines.filter fun l => l.va != lineOf va }

/-- The dirty halves of a line, as writes to its physical address. -/
def CacheLine.dirty (l : CacheLine) : List WbEntry :=
  (if l.dirtyLo then [⟨l.pa.toNat, l.data.take 16, false⟩] else [])
    ++ (if l.dirtyHi then [⟨l.pa.toNat + 16, l.data.drop 16, l.dirtyLo⟩] else [])

/-- One byte of memory behind the map, with no effect, outside the D000 0000 window. -/
def State.peekByte (s : State) (pa : Nat) : Option Byte :=
  if pa < 0x40000000 then
    match sramWindow pa with
    | .boot x => s.sram.boot.read x
    | .rw x => s.sram.mem.read x
    | _ => none
  else s.sdram.mem.read (pa % 0x10000000)

/-- The unit has served a burst of the core (R841, R842, R858, R902). -/
def State.burstServed (s : State) (pa n : Nat) : State :=
  if pa < 0x40000000 then s.sramHasRead (sramWindow pa)
  else
    let s := s.withSdram (s.sdram.granted .amba (pa % 0x10000000 / 8))
    if 0xD0000000 ≤ pa then s.windowRead n else s

/-- A burst of `n` bytes of memory; a byte nothing has written stays so in the line, where a read of it is a fault as one
of the memory is (R390). -/
def State.peekBurst (s : State) (pa n : Nat) (ans : PciTurn) : Access (List (Option Byte)) :=
  let bs := if 0xD0000000 ≤ pa then s.sdram.windowBytes s.free (pa % 0x10000000) n
    else (List.range n).map fun i => s.peekByte (pa + i)
  .done bs (s.burstServed pa n) ans

/-- `n` longwords one after the other from `pa` on, behind those in `got`, up to one whose access aborts (R674): the bytes
before it. While one waits, `keep` puts what has been read aside; that one access alone is made again (R1007). -/
def State.readLongs (s : State) (pa : Nat) (ans : PciTurn) (keep : State → List Byte → State) (got : List Byte) :
    Nat → Res (Access (List Byte))
  | 0 => .ok (.done got s ans)
  | n + 1 =>
    match s.armRead pa 4 ans with
    | .ok (.abort _ s) => .ok (.done got s ans)
    | .ok (.wait w s) => .ok (.wait w (keep s got))
    | r => Access.bind r fun bs s ans => s.readLongs (pa + 4) ans keep (got ++ bs) n

/-- A block of `k` longwords: one burst from memory; from the other windows longwords, of which `got` have been read. -/
def State.readBlock (s : State) (pa k : Nat) (ans : PciTurn) (keep : State → List Byte → State) (got : List Byte) :
    Res (Access (List (Option Byte))) :=
  match if burstTarget pa then s.armRead pa (4 * k) ans
    else s.readLongs (pa + got.length) ans keep got (k - got.length / 4) with
  | .error (.fault .unwrittenMemory) =>
    if burstTarget pa then .ok (s.peekBurst pa (4 * k) ans) else stopFault .unwrittenMemory
  | r => Access.bind r fun bs s ans => .ok (.done (bs.map some) s ans)

/-- A line fill for the `n` bytes at `pa` (R674): the line, none when its fill was aborted after the longword asked for,
and those bytes, which must have been written (R390); aborted before it, the access is aborted. -/
def State.lineFill (s : State) (pa n : Nat) (ans : PciTurn) :
    Res (Access (Option (List (Option Byte)) × List Byte)) :=
  Access.bind (s.readBlock (pa / 32 * 32) 8 ans State.keepRead s.arm.readSoFar) fun data s ans =>
    let s := s.keepRead []
    if data.length < pa % 32 + n then .ok (.abort .reserved s)
    else do
      let bs ← written (lineBytes data pa n)
      pure (.done (if data.length < 32 then none else some data, bs) s ans)

/-! ### Write buffer (R681, R682) -/

/-- An entry overlaps the `n` bytes at a physical address (D47). -/
def Arm.wbOverlaps (c : Arm) (pa n : Nat) : Bool :=
  c.wb.any fun p => decide (p.addr < pa + n) && decide (pa < p.addr + p.bytes.length)

/-- The consecutive stores of one store multiple share an entry of at most 16 bytes (R85), whatever 16-byte block or cache line
they lie in: R681 speaks of one line address, and neither rule of a boundary that ends an entry (DESIGN CHOICE, log entry
84). -/
def mergePosted (wb : List WbEntry) (pa : Nat) (bs : List Byte) : Option (List WbEntry) :=
  match wb.getLast? with
  | some p =>
    if p.addr + p.bytes.length = pa ∧ p.bytes.length + bs.length ≤ 16 then
      some (wb.dropLast ++ [{ p with bytes := p.bytes ++ bs.map some }])
    else none
  | none => none

/-- A store multiple goes on at `pa` where the newest entry, full, ends (R904). -/
def continues (wb : List WbEntry) (pa : Nat) : Bool :=
  wb.getLast?.any fun p => p.bytes.length == 16 && p.addr + 16 == pa

/-- Put a store into the write buffer, if there is room. -/
def Arm.pushWb (c : Arm) (pa : Nat) (bs : List Byte) (merging : Bool) : Option Arm :=
  match if merging then mergePosted c.wb pa bs else none with
  | some wb => some { c with wb := wb }
  | none =>
    if c.wb.length < 8 then some { c with wb := c.wb ++ [⟨pa, bs.map some, merging && continues c.wb pa⟩] } else none

/-- How many bytes of an entry the next transaction writes: all of them to memory where they are one natural access, else
a longword, halfword or byte; 0 where the first byte is none that anything has written. Each piece is a natural access, so
that no entry stays behind (R681). -/
def wbPiece (addr : Nat) (bs : List (Option Byte)) : Nat :=
  let whole := fun n => natural addr n && decide (n ≤ bs.length) && (bs.take n).all (·.isSome)
  if whole bs.length && burstTarget addr then bs.length
  else if whole 4 then 4 else if whole 2 then 2 else if whole 1 then 1 else 0

/-- A store that bypassed the write buffer is complete once the units hold no write of the core any more (R372, R681). -/
def State.storesSettled (s : State) : Bool := s.sdram.posted.isEmpty && s.sram.posted.isEmpty

/-- A write to this address would be seen before an earlier one of the core that another unit still holds (R372 (a)). -/
def State.wouldOvertake (s : State) (pa : Nat) : Bool :=
  if pa < 0x40000000 then !s.sdram.posted.isEmpty
  else if 0xC0000000 ≤ pa ∧ pa < 0xE0000000 then !s.sram.posted.isEmpty
  else !s.storesSettled

/-- Two full entries of one line eviction or one store multiple are one burst of eight longwords to memory (R904, Table
8-4). -/
def wbBurst (p : WbEntry) : List WbEntry → Option (List Byte × List WbEntry)
  | [] => none
  | q :: rest =>
    let bs := p.bytes ++ q.bytes
    if q.joined && p.bytes.length == 16 && q.bytes.length == 16 && p.addr + 16 == q.addr && natural p.addr 32
        && burstTarget p.addr && bs.all (·.isSome) then some (bs.filterMap id, rest)
    else none

/-- The next transaction of the write buffer, none where the oldest entry has no byte left to write, and the entries that stay:
two entries as one burst, else one entry or a piece of it, the bytes of a line that nothing has written left out. -/
def wbNext : List WbEntry → Option (Nat × List Byte) × List WbEntry
  | [] => (none, [])
  | p :: rest =>
    match wbBurst p rest with
    | some (bs, rest) => (some (p.addr, bs), rest)
    | none =>
      let bs := p.bytes.dropWhile (·.isNone)
      let addr := p.addr + (p.bytes.length - bs.length)
      let n := wbPiece addr bs
      if n = 0 then (none, rest)
      else (some (addr, (bs.take n).filterMap id),
        if (bs.drop n).all (·.isNone) then rest else ⟨addr + n, bs.drop n, p.joined⟩ :: rest)

/-- The oldest transaction of the write buffer is written, in program order with the stores the units hold (R372 (a)). A write
to a reserved address is dropped (R681). -/
def State.drainWb (s : State) : Res State :=
  let (out, left) := wbNext s.arm.wb
  match out with
  | none => .ok (s.withArm { s.arm with wb := left })
  | some (addr, bs) =>
    if s.wouldOvertake addr then .ok s
    else
      match (s.withArm { s.arm with wb := left }).armWrite addr bs .none with
      | .ok (.done _ s1 _) => .ok s1
      | .ok (.abort _ s1) => .ok s1
      | .ok (.reset s1) => .ok s1
      | .ok (.wait _ _) => .ok s
      | .error e => .error e

/-! ### Read buffer (R683) -/

/-- What a load finds in the read buffer. -/
inductive RbHit where
  | miss | wait | abort
  | hit (bs : Option (List Byte))

/-- Look a load up: a word is in the entry of its line that has it valid. -/
def Arm.rbFind (c : Arm) (va : Word) (n : Nat) : RbHit :=
  match c.rb.toList.find? (fun e => match e with
    | some e => !e.dropped && e.va == lineOf va && e.valid.getLsbD (va.toNat % 32 / 4)
    | none => false) with
  | some (some e) =>
    if e.filling then .wait else if e.abort then .abort else .hit (lineBytes e.data va.toNat n)
  | _ => .miss

/-- The first valid word of an entry and the number of its words. -/
def ReadBuf.span (e : ReadBuf) : Nat × Nat :=
  let ws := (List.range 8).filter fun i => e.valid.getLsbD i
  (ws.headD 0, ws.length)

/-- Entry `k` of the read buffer, and the fills still to come. -/
def State.rbPut (s : State) (k : Fin 4) (e : Option ReadBuf) (fills : List (Fin 4)) : State :=
  s.withArm { s.arm with rb := s.arm.rb.set k e, rbQueue := fills }

/-- An entry whose fill is over (C65): the longwords read go to its valid words, fewer than these mark it; one that has
been dropped is free. -/
def ReadBuf.filled (e : ReadBuf) (bs : List (Option Byte)) : Option ReadBuf :=
  let (i, n) := e.span
  if e.dropped then none
  else some { e with
    filling := false, abort := decide (bs.length < 4 * n)
    data := List.replicate (4 * i) none ++ bs ++ List.replicate (32 - 4 * i - bs.length) none }

/-- The oldest fill completes, or its access aborts and the entry is marked (C65); while it waits the entry keeps what has
been read (R1007). -/
def State.readBufferFill (s : State) (ans : List PciAns) : Res State :=
  match s.arm.rbQueue with
  | [] => .ok s
  | k :: rest =>
    match s.arm.rb[k] with
    | none => .ok (s.rbPut k none rest)
    | some e =>
      let (i, n) := e.span
      let keep := fun (s : State) (bs : List Byte) => s.rbPut k (some { e with data := bs.map some }) (k :: rest)
      match s.readBlock (e.pa.toNat + 4 * i) n ⟨ans, false⟩ keep (e.data.filterMap id) with
      | .ok (.done bs s1 _) => .ok (s1.rbPut k (e.filled bs) rest)
      | .ok (.abort _ s1) => .ok (s1.rbPut k (e.filled []) rest)
      | .ok (.reset s1) => .ok s1
      | .ok (.wait .retried s1) => .ok (s1.hadBus 0)
      | .ok (.wait _ s1) => .ok s1
      | .error e => .error e

/-! ### One load, one store, one fetch -/

/-- Bytes of an access size. -/
def sizeBytes : Size → Nat
  | .byte => 1 | .half => 2 | .word => 4

/-- The data cache that holds an address; a line is in at most one. -/
def Arm.dataLine (c : Arm) (va : Word) : Option (CacheKind × CacheLine) :=
  match c.dcache.find va, c.mini.find va with
  | some l, _ => some (.dcache, l)
  | none, some l => some (.mini, l)
  | none, none => none

/-- Replace a data cache. -/
def Arm.setData (c : Arm) (k : CacheKind) (x : Cache) : Arm :=
  match k with
  | .mini => { c with mini := x }
  | _ => { c with dcache := x }

/-- One of the data caches. -/
def Arm.dataCache (c : Arm) (k : CacheKind) : Cache :=
  match k with
  | .mini => c.mini
  | _ => c.dcache

/-- A load miss that allocates (Table 3-2): the dirty halves of the line it replaces go to the write buffer, which is
used for copybacks even when disabled (R682). What becomes of that line when the fill is aborted the spec does not say: it
stays, its dirty bits and the round robin pointer as they were (DEDUCED, log entry 71). -/
def State.allocate (s : State) (k : CacheKind) (va : Word) (pa n : Nat) (ans : PciTurn) : Res (Access (List Byte)) :=
  let out := ((s.arm.dataCache k).victim k va).map (·.dirty) |>.getD []
  let base := pa / 32 * 32
  if 8 < s.arm.wb.length + out.length || s.arm.wbOverlaps base 32 then .ok (.wait .unit s)
  else
    Access.bind (s.lineFill pa n ans) fun (line, bs) s ans =>
      match line with
      | some data =>
        let c := s.arm.setData k ((s.arm.dataCache k).place k va pa data)
        .ok (.done bs (s.withArm { c with wb := c.wb ++ out }) ans)
      | none => .ok (.done bs s ans)

/-- The address of the word or halfword an unaligned address lies in. -/
def alignedTo (n : Nat) (va : Word) : Word := va &&& ~~~(BitVec.ofNat 32 (n - 1))

/-- What a load delivers of the aligned bytes at an unaligned address, alignment faults being off (R350): a word is
rotated, an odd halfword is free (PRESUMED ARM V4, log entry 64). -/
def State.unaligned (s : State) (va : Word) (bs : List Byte) (ans : PciTurn) : Access (List Byte) :=
  let k := va.toNat % bs.length
  if k = 0 then .done bs s ans
  else if bs.length = 4 then .done (bs.drop k ++ bs.take k) s ans
  else .done ((wordBytes (s.draw .unaligned).1).take bs.length) (s.draw .unaligned).2 ans

/-- A data load (R679, R683): translated and checked first, also where a cache or the read buffer holds the address, so that
a hit may walk the tables and abort (DESIGN CHOICE, log entry 83); then read buffer, data caches, then memory behind the write buffer's overlapping entries. Only
an access of a unit must be aligned (D45). Where several data aborts apply the spec names no order: the alignment fault
is taken before the breakpoint, and that before a fault of the translation (DEDUCED, log entry 49). -/
def State.armLoad (s : State) (va : Word) (size : Size) (user : Bool) (ans : PciTurn) : Res (Access (List Byte)) :=
  let n := sizeBytes size
  let va0 := alignedTo n va
  if s.arm.alignOn && va0 != va then .ok (.abort .alignment s)
  else if s.arm.dbLoad && va == s.arm.dbar then .ok (.abort .breakpoint s)
  else
    Access.bind (s.translate va (s.arm.accessMode user) s.arm.mmuOn .load ans) fun t s ans =>
      match s.arm.rbFind va0 n, s.arm.dataLine va0 with
      | .wait, _ => .ok (.wait .unit s)
      | .abort, _ => .ok (.abort .readBuffer s)
      | .hit bs, _ => do
        let bs ← written bs
        pure (s.unaligned va bs ans)
      | .miss, some (_, l) => do
        let bs ← written (l.bytes va0 n)
        pure (s.unaligned va bs ans)
      | .miss, none =>
        if s.arm.dcOn && t.c then
          Access.bind (s.allocate (if t.b then .dcache else .mini) va0 (t.pa / n * n) n ans) fun bs s ans =>
            .ok (s.unaligned va bs ans)
        else if s.arm.wbOverlaps t.pa n then .ok (.wait .unit s)
        else s.armRead t.pa n ans

/-- A data breakpoint on a store (R1061). -/
def Arm.storeBreak (c : Arm) (va v : Word) : Bool :=
  c.dbStore && va == c.dbar && (!c.dbData || (v &&& c.dbmr) == (c.dbvr &&& c.dbmr))

/-- Where a store went. -/
inductive StoreTo where
  | cache | buffer | unit
deriving DecidableEq, Repr

/-- A data store (R681): the cache that holds it, else the write buffer, else memory once the buffer is empty; `merging`
says that the instruction's last store went into the buffer. The low address bits of an unaligned store are ignored
(PRESUMED ARM V4, log entry 64), but an access of a unit must be aligned (D45). Of several data aborts one is taken in
the order of `State.armLoad` (DEDUCED, log entry 49). -/
def State.armStore (s : State) (va : Word) (size : Size) (v : Word) (user merging : Bool) (ans : PciTurn) :
    Res (Access StoreTo) :=
  let n := sizeBytes size
  let bs := (wordBytes v).take n
  let va0 := alignedTo n va
  if s.arm.alignOn && va0 != va then .ok (.abort .alignment s)
  else if s.arm.storeBreak va (wordOf bs) then .ok (.abort .breakpoint s)
  else
    Access.bind (s.translate va (s.arm.accessMode user) s.arm.mmuOn .store ans) fun t s ans =>
      match s.arm.dataLine va0 with
      | some (k, l) =>
        .ok (.done .cache (s.withArm (s.arm.setData k ((s.arm.dataCache k).replace (l.store va0 bs)))) ans)
      | none =>
        if s.arm.wbOn && t.b then
          match s.arm.pushWb (t.pa / n * n) bs merging with
          | some c => .ok (.done .buffer (s.withArm c) ans)
          | none => .ok (.wait .unit s)
        else if !s.arm.wb.isEmpty || s.wouldOvertake t.pa then .ok (.wait .unit s)
        else Access.bind (s.armWrite t.pa bs ans) fun _ s ans => .ok (.done .unit s ans)

/-- A fetch begins, or the one in progress goes on: inside the window after an MMU change it uses the old setting, inside
the window after a flush a line of the old contents may serve it (R675, D48). -/
def State.beginFetch (s : State) (va : Word) : Fetching × State :=
  match s.arm.fetching with
  | some f => (f, s)
  | none =>
    let stale := if 0 < s.arm.staleLeft then s.arm.staleLines.find? (fun l => l.va == lineOf va) else none
    let c := { s.arm with flatLeft := s.arm.flatLeft - 1, staleLeft := s.arm.staleLeft - 1 }
    (⟨if 0 < s.arm.flatLeft then s.arm.flatMmu else s.arm.mmuOn,
      if Config.freeBit .staleFetch s.free then stale else none⟩, { s.withArm c with free := s.free + 1 })

/-- The word of a fetch that has begun (R677, R382). The address is translated and checked first, also where the Icache holds
it, so that a hit may walk the tables and abort (DESIGN CHOICE, log entry 83). -/
def State.fetchWord (s : State) (f : Fetching) (va : Word) (ans : PciTurn) : Res (Access Word) :=
  Access.bind (s.translate va (s.arm.accessMode false) f.mmu .fetch ans) fun t s ans =>
    match f.line <|> s.arm.icache.find va with
    | some l => do
      let bs ← written (l.bytes va 4)
      pure (.done (wordOf bs) s ans)
    | none =>
      if s.arm.icOn && (t.c || !f.mmu) then
        Access.bind (s.lineFill t.pa 4 ans) fun (line, bs) s ans =>
          match line with
          | some data =>
            .ok (.done (wordOf bs) (s.withArm { s.arm with icache := s.arm.icache.place .icache va t.pa data }) ans)
          | none => .ok (.done (wordOf bs) s ans)
      else Access.bind (s.armRead t.pa 4 ans) fun bs s ans => .ok (.done (wordOf bs) s ans)

/-- An instruction fetch: one that waits goes on later as it began, one that is over leaves nothing behind. -/
def State.armFetch (s : State) (va : Word) (ans : PciTurn) : Res (Access Word) :=
  let (f, s) := s.beginFetch va
  let left := fun (s : State) (x : Option Fetching) => s.withArm { s.arm with fetching := x }
  match s.fetchWord f va ans with
  | .ok (.done w s ans) => .ok (.done w (left s none) ans)
  | .ok (.abort k s) => .ok (.abort k (left s none))
  | .ok (.wait w s) => .ok (.wait w (left s (some f)))
  | r => r

end Sys2Proof.Machine
end

