-- ==== Sys2Proof/Machine/ArmCp15.lean ====
section
/-! DEFINITION. Coprocessor 15 of the StrongARM core (11_state_csrs.md R260 to R268; 45_strongarm.md R671, R675 to
R683). -/

namespace Sys2Proof.Machine

/-- The register number of an operation (R260): 1, 7, 9 and 14 are the manual's; 0, 2, 3, 5, 6, 8 and 15 are those
R260 gives from general knowledge (PRESUMED, log entry 63). -/
def cp15Number : Cp15 → BitVec 4
  | .idRegister => 0
  | .control => 1
  | .translationBase => 2
  | .domainAccess => 3
  | .faultStatus => 5
  | .faultAddress => 6
  | .flushICache | .flushDCacheAll | .flushDCacheEntry | .cleanDCacheEntry | .drainWriteBuffer => 7
  | .flushITlb | .flushDTlb | .flushDTlbEntry => 8
  | .rbAllocate .. | .rbFlush _ | .rbFlushAll => 9
  | .ibcr | .dbar | .dbvr | .dbmr | .dbcr => 14
  | .clockIdle => 15

/-- The operation an MCR (`write`) or MRC names: the control register and the one other encoding the manual prints, else
what CRm and opcode 2 select inside the register number. -/
def cp15Op (crn crm : BitVec 4) (op2 : BitVec 3) (write : Bool) : Option Cp15 :=
  if crn = 1 then some .control
  else if crn = 7 ∧ crm = 6 ∧ op2 = 0 ∧ write = true then some .flushDCacheAll
  else (Config.cp15At crn crm op2 write).filter fun op => cp15Number op == crn

/-! ### CONTROL_CP15 (R261, R675, R676) -/

/-- The control word: the bits with no named meaning as written, the named ones at their positions. -/
def Arm.controlValue (c : Arm) : Word :=
  putAt 0 c.mmuOn (putAt 2 c.dcOn (putAt 3 c.wbOn (putAt 12 c.icOn
    (putBit .cpAlign c.alignOn (putBit .cpVector c.vectorHigh c.control)))))

/-- The four valid combinations of MMU, Dcache and write buffer (Table 3-1). -/
def validEnables (m d w : Bool) : Bool := if m then !d || w else !d && !w

/-- Write the control register: an invalid combination (U35) or the big endian bit (U37) is refused; a change of the
MMU enable leaves three fetches with the old setting (R675). A second change inside that window begins a window of its own,
with the setting of the first change, and ends the first: R675 is silent on it (DESIGN CHOICE, log entry 50). -/
def Arm.writeControl (c : Arm) (v : Word) : Res Arm := do
  require (validEnables (v.getLsbD 0) (v.getLsbD 2) (v.getLsbD 3) && !getBit .cpEndian v) .controlValue
  let change := v.getLsbD 0 != c.mmuOn
  pure { c with
    control := v, mmuOn := v.getLsbD 0, dcOn := v.getLsbD 2, wbOn := v.getLsbD 3, icOn := v.getLsbD 12
    alignOn := getBit .cpAlign v, vectorHigh := getBit .cpVector v
    flatLeft := if change then 3 else c.flatLeft, flatMmu := if change then c.mmuOn else c.flatMmu }

/-! ### Cache, buffer and TB operations (R263 to R265) -/

/-- Invalidate the Icache; the fetches that follow may still see the old lines (D48). The round robin pointers stay where
they are: the spec is silent, and this is the model's choice (log entry 73). A second flush while fetches may still see old
lines keeps the lines present at that moment, forgets the older ones and begins the count anew: R382 is silent on it (DESIGN
CHOICE, log entry 50). -/
def State.flushICache (s : State) : State :=
  s.withArm { s.arm with
    icache := { s.arm.icache with lines := [] }, staleLines := s.arm.icache.lines, staleLeft := s.board.flushShadow }

/-- Invalidate both data caches (R680). The round robin pointers stay where they are, as over a flush of one entry: the
spec is silent, and this is the model's choice (log entry 73). -/
def Arm.flushDCaches (c : Arm) : Arm :=
  { c with dcache := { c.dcache with lines := [] }, mini := { c.mini with lines := [] } }

/-- Copy a data cache entry back (R678): its dirty halves go to the write buffer, for which the core may wait. An entry of
the minicache too: the spec names the main data cache only (DESIGN CHOICE, log entry 73). -/
def Arm.cleanEntry (c : Arm) (va : Word) : Option Arm :=
  match c.dataLine va with
  | none => some c
  | some (k, l) =>
    if 8 < c.wb.length + l.dirty.length then none
    else
      let c1 := c.setData k ((c.dataCache k).replace { l with dirtyLo := false, dirtyHi := false })
      some { c1 with wb := c1.wb ++ l.dirty }

/-- The bitmap of `n` words from word `i` of a line. -/
def wordMap (i n : Nat) : BitVec 8 := BitVec.ofNat 8 ((2 ^ n - 1) * 2 ^ i)

/-- An entry that is flushed or invalidated. Its fill, if one is still to come, is made to the end and delivers nothing:
the bus access has been requested, and a PCI read that was retried is repeated (R683, R1007). That the fill is not cut
short is the model's choice (DESIGN CHOICE, log entry 82). -/
def ReadBuf.drop (e : ReadBuf) : Option ReadBuf := if e.filling then some { e with dropped := true } else none

/-- A read buffer without the entries that hold one of the words allocated (R683). -/
def rbWithout (rb : Vector (Option ReadBuf) 4) (va : Word) (ws : BitVec 8) : Vector (Option ReadBuf) 4 :=
  rb.map (Option.bind · fun e => if e.va == va && (e.valid &&& ws) != 0 then e.drop else some e)

/-- Allocate `n` words at `va` into entry `k` (R683): half lines and full lines are aligned down; the core waits while
the entry is being filled; an access violation marks the entry. An older entry that holds one of the words is
invalidated. Bits 1:0 of the address of a one-word allocate are ignored and raise nothing: R683 speaks of half and full lines
only (DESIGN CHOICE, log entry 82). -/
def State.rbAllocate (s : State) (k : Fin 4) (n : Nat) (va : Word) (ans : PciTurn) : Res (Access Unit) :=
  if (s.arm.rb[k].map (·.filling)).getD false then .ok (.wait .unit s)
  else
    let i := va.toNat % 32 / 4 / n * n
    let ws := wordMap i n
    let put := fun (s : State) (abort : Bool) (pa : Nat) =>
      let e : ReadBuf := ⟨lineOf va, ws, [], abort, !abort, BitVec.ofNat 32 (pa / 32 * 32), false⟩
      s.withArm { s.arm with
        rb := (rbWithout s.arm.rb (lineOf va) ws).set k (some e)
        rbQueue := if abort then s.arm.rbQueue else s.arm.rbQueue ++ [k] }
    match s.translate va (s.arm.accessMode false) s.arm.mmuOn .load ans with
    | .ok (.done t s ans) => .ok (.done () (put s false t.pa) ans)
    | .ok (.abort _ s) => .ok (.done () (put s true 0) ans)
    | .ok (.wait w s) => .ok (.wait w s)
    | .ok (.reset s) => .ok (.reset s)
    | .error e => .error e

/-- Flush a read buffer entry. -/
def Arm.rbFlush (c : Arm) (k : Fin 4) : Arm := { c with rb := c.rb.set k (c.rb[k].bind ReadBuf.drop) }

/-- Flush the read buffer. -/
def Arm.rbFlushAll (c : Arm) : Arm := { c with rb := c.rb.map (Option.bind · ReadBuf.drop) }

/-! ### MCR and MRC -/

/-- The data breakpoint control register (R266). -/
def Arm.writeDbcr (c : Arm) (v : Word) : Arm :=
  { c with dbcr := v, dbLoad := getBit .dbLoad v, dbStore := getBit .dbStore v, dbData := getBit .dbData v }

/-- A write of a coprocessor 15 register in a privileged mode; the ID register takes none (U36). The flush and the copyback
of one data cache entry reach an entry of the minicache too, where R678 names the main data cache only (DESIGN CHOICE, log
entry 73). -/
def State.cp15Write (s : State) (op : Cp15) (v : Word) (ans : PciTurn) : Res (Access Unit) :=
  let c := s.arm
  let ok := fun (c : Arm) => (.ok (.done () (s.withArm c) ans) : Res (Access Unit))
  match op with
  | .control => do
    let c ← c.writeControl v
    pure (.done () (s.withArm c) ans)
  | .translationBase => ok { c with ttb := v }
  | .domainAccess => ok { c with domain := v }
  | .faultStatus => ok { c with fsr := v }
  | .faultAddress => ok { c with far := v }
  | .flushICache => .ok (.done () s.flushICache ans)
  | .flushDCacheAll => ok c.flushDCaches
  | .flushDCacheEntry => ok { c with dcache := c.dcache.drop v, mini := c.mini.drop v }
  | .cleanDCacheEntry =>
    match c.cleanEntry v with
    | some c => ok c
    | none => .ok (.wait .unit s)
  | .drainWriteBuffer => if c.wb.isEmpty && s.storesSettled then ok c else .ok (.wait .unit s)
  | .flushITlb => ok { c with itlb := c.itlb.flush }
  | .flushDTlb => ok { c with dtlb := c.dtlb.flush }
  | .flushDTlbEntry => ok { c with dtlb := c.dtlb.drop v }
  | .rbAllocate k n => s.rbAllocate k (if n = 8 then 8 else if n = 4 then 4 else 1) v ans
  | .rbFlush k => ok (c.rbFlush k)
  | .rbFlushAll => ok c.rbFlushAll
  | .ibcr => ok { c with ibcr := v, ibEnable := getBit .ibEnable v }
  | .dbar => ok { c with dbar := v }
  | .dbvr => ok { c with dbvr := v }
  | .dbmr => ok { c with dbmr := v }
  | .dbcr => ok (c.writeDbcr v)
  | .clockIdle => ok { c with clockIdle := v }
  | .idRegister => refuse .cp15Register

/-- A read of a coprocessor 15 register; the operations have none (U36). -/
def Arm.cp15Read (c : Arm) (op : Cp15) : Res Word :=
  match op with
  | .control => .ok c.controlValue
  | .translationBase => .ok c.ttb
  | .domainAccess => .ok c.domain
  | .faultStatus => .ok c.fsr
  | .faultAddress => .ok c.far
  | .ibcr => .ok c.ibcr
  | .dbar => .ok c.dbar
  | .dbvr => .ok c.dbvr
  | .dbmr => .ok c.dbmr
  | .dbcr => .ok c.dbcr
  | .clockIdle => .ok c.clockIdle
  | .idRegister => .ok (Config.cp15Word .idRegister)
  | .flushICache | .flushDCacheAll | .flushDCacheEntry | .cleanDCacheEntry | .drainWriteBuffer | .flushITlb
  | .flushDTlb | .flushDTlbEntry | .rbAllocate .. | .rbFlush _ | .rbFlushAll => refuse .cp15Register

end Sys2Proof.Machine
end

