-- ==== Sys2Proof/Machine/ArmCore.lean ====
section
/-! DEFINITION. One step of the StrongARM core (45_strongarm.md R670, R686; 60_exceptions.md R1040 to R1061): an
exception at the instruction boundary, or one instruction of ARM_ISA as the acts it is made of. -/

namespace Sys2Proof.Machine

/-! ### Registers of the current mode (R80) -/

/-- r0 to r14 of a mode: FIQ mode banks r8 to r14, the other exception modes r13 and r14 (PRESUMED). -/
def Arm.regOf (c : Arm) (m : ArmMode) (r : Fin 15) : Word :=
  if h : 8 ≤ r.val ∧ m = .fiq then c.fiq[r.val - 8]'(by omega)
  else if h : 13 ≤ r.val then
    match m with
    | .svc => c.svc[r.val - 13]'(by omega)
    | .abt => c.abt[r.val - 13]'(by omega)
    | .irq => c.irq[r.val - 13]'(by omega)
    | .und => c.und[r.val - 13]'(by omega)
    | _ => c.usr[r]
  else c.usr[r]

/-- Write r0 to r14 of a mode. -/
def Arm.setRegOf (c : Arm) (m : ArmMode) (r : Fin 15) (v : Word) : Arm :=
  if h : 8 ≤ r.val ∧ m = .fiq then { c with fiq := c.fiq.set (r.val - 8) v (by omega) }
  else if h : 13 ≤ r.val then
    match m with
    | .svc => { c with svc := c.svc.set (r.val - 13) v (by omega) }
    | .abt => { c with abt := c.abt.set (r.val - 13) v (by omega) }
    | .irq => { c with irq := c.irq.set (r.val - 13) v (by omega) }
    | .und => { c with und := c.und.set (r.val - 13) v (by omega) }
    | _ => { c with usr := c.usr.set r v }
  else { c with usr := c.usr.set r v }

/-- r0 to r14 of the current mode. -/
def Arm.reg (c : Arm) (r : Fin 15) : Word := c.regOf c.mode r

/-- Write r0 to r14 of the current mode. -/
def Arm.setReg (c : Arm) (r : Fin 15) (v : Word) : Arm := c.setRegOf c.mode r v

/-- The register file as ARM_ISA sees it. -/
def Arm.view (c : Arm) : ArmRegs where
  usr := c.usr
  fiq := c.fiq
  svc := c.svc
  abt := c.abt
  irq := c.irq
  und := c.und
  pc := c.pc
  cpsr := c.cpsr
  spsrFiq := c.spsrFiq
  spsrSvc := c.spsrSvc
  spsrAbt := c.spsrAbt
  spsrIrq := c.spsrIrq
  spsrUnd := c.spsrUnd

/-! ### Acts -/

/-- How an instruction stands after one of its acts. -/
inductive Progress where
  /-- the acts still to come are `r`'s -/
  | go (s : State) (r : Resume) (ans : PciTurn)
  /-- it is over, by an exception taken in its place or by a chip reset -/
  | over (s : State) (dataAbort : Bool)
  /-- it waits, and the act goes on from this state -/
  | wait (w : Wait) (s : State)

/-- Write a register of the mode `bank`, none for the current one: r15 is the next instruction's address. -/
def putReg (s : State) (r : Resume) (bank : Option ArmMode) (d : Fin 16) (v : Word) : State × Resume :=
  if h : d.val < 15 then (s.withArm (s.arm.setRegOf (bank.getD s.arm.mode) ⟨d.val, h⟩ v), r)
  else (s, { r with next := v })

/-- The value a load delivers. -/
def loaded (size : Size) (signed : Bool) (bs : List Byte) : Word :=
  let v := wordOf bs
  match size, signed with
  | .byte, true => (v.setWidth 8).signExtend 32
  | .half, true => (v.setWidth 16).signExtend 32
  | _, _ => v

/-- Record a data abort: the fault status and address; a breakpoint sets bit 9 (R1061). The fault status codes are
ARM_ISA's (R674): the model makes the FSR value a function of the kind of abort alone, so that domain and permission
faults share a code, a section's and a page's too, and no domain number is recorded (DEDUCED, log entry 49). -/
def Arm.dataFault (c : Arm) (k : AbortKind) (va : Word) : Arm :=
  match k with
  | .breakpoint => { c with fsr := c.fsr ||| 0x200, far := va }
  | k => { c with fsr := (Config.faultCode k).setWidth 32, far := va }

/-- Restore the base register of an aborted instruction (R1055). -/
def Arm.restoreBase (c : Arm) (r : Resume) : Arm :=
  match r.base with
  | some (b, v) => if h : b.val < 15 then c.setReg ⟨b.val, h⟩ v else c
  | none => c

/-- The instruction is over, done or by an exception: the latitudes of R685 are one instruction shorter, nothing is in
progress, and no FIQ is due after a data abort. -/
def Arm.ended (c : Arm) : Arm :=
  { c with irqLate := c.irqLate - 1, fiqLate := c.fiqLate - 1, fiqDue := false, resume := none, fetching := none, readSoFar := [] }

/-- Take a data abort in place of the instruction (R1055); an enabled FIQ that is pending is due next (R1052). -/
def State.dataAbort (s : State) (r : Resume) (k : AbortKind) (va : Word) : State :=
  let c := ((s.arm.restoreBase r).dataFault k va).ended
  s.withArm { c.takeException .dataAbort c.pc with fiqDue := s.fiqLine && !s.arm.fiqMasked }

/-- Take an exception of the instruction itself (R1054). -/
def State.trap (s : State) (e : ArmException) : State := s.withArm (s.arm.ended.takeException e s.arm.pc)

/-- What an access of an act leads to. -/
def progress {α : Type} (r : Resume) (va : Word) (a : Res (Access α)) (f : α → State → PciTurn → Progress) :
    Res Progress :=
  match a with
  | .ok (.done v s ans) => .ok (f v s ans)
  | .ok (.abort k s) => .ok (.over (s.dataAbort r k va) true)
  | .ok (.wait w s) => .ok (.wait w s)
  | .ok (.reset s) => .ok (.over s false)
  | .error e => .error e

/-- A CPSR write that clears I, that clears F, opens the latitude of R685 for that interrupt: two instructions after
this one. -/
def Arm.writeCpsr (c : Arm) (v : Word) : Arm :=
  { c with cpsr := v, irqLate := if c.irqMasked && !v.getLsbD 7 then 3 else c.irqLate
           fiqLate := if c.fiqMasked && !v.getLsbD 6 then 3 else c.fiqLate }

/-- MRC with r15 as destination writes the condition flags, CPSR bits 31:28 (PRESUMED ARM V4). -/
def Arm.writeFlags (c : Arm) (v : Word) : Arm := { c with cpsr := (c.cpsr &&& 0x0FFFFFFF) ||| (v &&& 0xF0000000) }

/-- A store that bypassed the write buffer stalls the core until it is complete: its next act waits for that (R681). -/
def Resume.afterStore (r : Resume) (s : State) (dest : StoreTo) : Resume :=
  if dest = .unit && !s.storesSettled then { r with merging := false, acts := .settle :: r.acts }
  else { r with merging := dest == .buffer }

/-- One act; `r` holds the acts after it. -/
def State.armAct (s : State) (r : Resume) (a : ArmAct) (ans : PciTurn) : Res Progress :=
  let plain := { r with merging := false }
  match a with
  | .setReg bank d v => .ok (.go (putReg s r bank d v).1 (putReg s r bank d v).2 ans)
  | .setCpsr v => .ok (.go (s.withArm (s.arm.writeCpsr v)) r ans)
  | .setSpsr v => .ok (.go (s.withArm (s.arm.setSpsr s.arm.mode v)) r ans)
  | .restoreCpsr => .ok (.go (s.withArm { s.arm with cpsr := s.arm.spsr s.arm.mode }) r ans)
  | .load bank d va size signed user =>
    progress r va (s.armLoad va size user ans) fun bs s ans =>
      let p := putReg s plain bank d (loaded size signed bs)
      .go p.1 p.2 ans
  | .store va size v user =>
    progress r va (s.armStore va size v user r.merging ans) fun dest s ans => .go s (r.afterStore s dest) ans
  | .settle => if s.storesSettled then .ok (.go s plain ans) else .ok (.wait .unit s)
  | .swap d va size v =>
    progress r va (s.armLoad va size false ans) fun bs s _ =>
      .go s { plain with acts := .store va size v false :: .setReg none d (loaded size false bs) :: r.acts } .none
  | .mcr cp crn crm op2 v =>
    if cp ≠ 15 ∨ s.arm.privileged = false then .ok (.over (s.trap .undefined) false)
    else match cp15Op crn crm op2 true with
      | some op => progress r v (s.cp15Write op v ans) fun _ s ans => .go s plain ans
      | none => refuse .cp15Register
  | .mrc cp crn crm op2 d =>
    if cp ≠ 15 ∨ s.arm.privileged = false then .ok (.over (s.trap .undefined) false)
    else match cp15Op crn crm op2 false with
      | some op => do
        let v ← s.arm.cp15Read op
        if d = 15 then pure (.go (s.withArm (s.arm.writeFlags v)) r ans)
        else pure (.go (putReg s r none d v).1 (putReg s r none d v).2 ans)
      | none => refuse .cp15Register
  | .coprocOther | .undefined => .ok (.over (s.trap .undefined) false)
  | .swi => .ok (.over (s.trap .swi) false)
  | .branch t => .ok (.go s { r with next := t } ans)
  | .exceptionReturn t => .ok (.go (s.withArm (s.arm.returnFrom t)) { r with next := t } ans)

/-- The instruction is done: the next one's address. -/
def State.armDone (s : State) (r : Resume) : State := s.withArm { s.arm.ended with pc := r.next }

/-- Run acts until one waits: what has been done stays, the reads that the act has made included (R1007), and the rest is
resumed at the core's next step. After the read half
of a SWP (D46), and after a store the core waits for, the step ends. -/
def State.armActs (s : State) (r : Resume) (ans : PciTurn) : List ArmAct → Res (State × Bool)
  | [] => .ok (s.armDone r, false)
  | a :: rest => do
    match ← s.armAct { r with acts := rest } a ans with
    | .go s1 r1 ans1 =>
      if r1.acts.length = rest.length then s1.armActs r1 ans1 rest
      else pure (s1.withArm { s1.arm with resume := some r1 }, false)
    | .over s1 d => pure (s1, d)
    | .wait w s1 => pure ((s1.noteWait w).withArm { s1.arm with resume := some { r with acts := a :: rest } }, false)

/-! ### The step -/

/-- The instruction breakpoint matches (R1060). -/
def Arm.fetchBreak (c : Arm) : Bool := c.ibEnable && (c.pc &&& ~~~3) == (c.ibcr &&& ~~~3)

/-- Take a prefetch abort in place of the instruction (R1056). -/
def State.prefetchAbort (s : State) : State := s.withArm (s.arm.ended.takeException .prefetchAbort s.arm.pc)

/-- Fetch and run one instruction; whether it took a data abort. A breakpoint is taken before the fetch, which then does not
count among those of R675 with the old MMU setting; a fetch that the MMU aborts does (DESIGN CHOICE, log entry 50). Bits 1:0
of the pc, which a load of r15 may set, stay in it and in the link addresses made from it; the fetch and the breakpoint drop
them, where R670 is silent (DESIGN CHOICE, log entry 84). -/
def State.armInstr (s : State) (ans : PciTurn) : Res (State × Bool) :=
  if s.arm.fetchBreak then .ok (s.prefetchAbort, false)
  else
    match s.armFetch (s.arm.pc &&& ~~~3) ans with
    | .error e => .error e
    | .ok (.wait w s) => .ok (s.noteWait w, false)
    | .ok (.abort _ s) => .ok (s.prefetchAbort, false)
    | .ok (.reset s) => .ok (s, false)
    | .ok (.done w s ans) =>
      let i := Config.armIsa w s.arm.view
      let base := i.base.bind fun b => if h : b.val < 15 then some (b, s.arm.reg ⟨b.val, h⟩) else none
      s.armActs ⟨i.acts, base, s.arm.pc + 4, false⟩ ans i.acts

/-- The interrupt taken at this boundary, FIQ before IRQ (R1052, R1058); `late` uses the latitude of R685, each
interrupt its own. -/
def State.armInterrupt (s : State) (late : Bool) : Option ArmException :=
  if s.fiqLine && !s.arm.fiqMasked && !(late && decide (0 < s.arm.fiqLate)) then some .fiq
  else if s.irqLine && !s.arm.irqMasked && !(late && decide (0 < s.arm.irqLate)) then some .irq
  else none

/-- What the core does at an instruction boundary (R1052): an interrupt is taken unless the instruction there aborts its data
access (DEDUCED, log entry 48). An FIQ that was pending when a data abort was taken comes before the first instruction of its
handler is tried, and without the latitude of R685. -/
def State.armBoundary (s : State) (late : Bool) (turn : PciTurn) : Res State :=
  match if s.arm.fetching.isSome then none else s.armInterrupt (late && !s.arm.fiqDue) with
  | none => do
    let (s, _) ← s.armInstr turn
    pure s
  | some e =>
    let taken := s.withArm { s.arm.takeException e s.arm.pc with fiqDue := false }
    if s.arm.fiqDue && e == .fiq then .ok taken
    else
      match s.armInstr turn with
      | .ok (s1, true) => .ok s1
      | _ => .ok taken

/-- One step of the core (R686): an instruction in progress goes on, from its fetch to its end; else the core is at an
instruction boundary. A request of the core for the PCI bus stands while it waits. -/
def State.armStep (s : State) (late : Bool) (ans : List PciAns) : Res State :=
  let s := s.withPci { s.pci with coreReq := false }
  let turn : PciTurn := ⟨ans, false⟩
  match s.arm.resume with
  | some r => do
    let (s, _) ← s.armActs r turn r.acts
    pure s
  | none => s.armBoundary late turn

end Sys2Proof.Machine
end

