-- ==== Sys2Proof/Machine/AluShift.lean ====
section
/-! DEFINITION. Arithmetic, rotate and shift instructions (40_me_alu_shift.md). -/

namespace Sys2Proof.Machine

/-- The common end of `alu` and `alu_shf` (R450, R457, R458): the result goes to the destination, the three codes and
the ALU output latch; the A operand, if any, to its latch. -/
def State.aluDone (s : State) (d : Dest) (op : AluOp) (a : Option Word) (y : Word) : State :=
  let m := s.engine
  let x := a.getD 0
  let r := aluResult op x y m.cc.cout m.prevCc.sign
  s.retire (m.writeDest m.active d r)
    { alu := some r, a := a
      cc := some (aluFlags op x y m.cc.cout m.prevCc.sign (Config.freeBit .carry s.free)) }

/-- `alu` (R457). -/
def execAlu (d : Dest) (a : Src) (op : AluOp) (b : Src) (s : State) : Host.Outcome State Fault Refusal :=
  finish do
    let x ← s.source a
    let y ← s.sourceVal b
    pure (s.aluDone d op x y)

/-- `alu_shf` (R458): the shift applies to B before the operation. -/
def execAluShf (d : Dest) (a : Src) (op : AluOp) (b : Src) (shf : Shf) (s : State) :
    Host.Outcome State Fault Refusal :=
  finish do
    let x ← s.source a
    let y ← s.sourceVal b
    pure (s.aluDone d op x (s.shifted shf y))

/-- `dbl_shf` (R459): Zero and Sign from the result, Carryout kept. -/
def execDblShf (d : Dest) (a b : Src) (shf : Shf) (s : State) : Host.Outcome State Fault Refusal :=
  finish do
    let x ← s.sourceVal a
    let y ← s.sourceVal b
    let m := s.engine
    let r := shiftAB shf x y m.aLatch (Config.freeWord .shiftIndirect s.free)
    pure (s.retire (m.writeDest m.active d r) { alu := some r, a := some x, cc := some (resultFlags m.cc r) })

end Sys2Proof.Machine
end

