-- ==== Sys2Proof/Machine/Branch.lean ====
section
/-! DEFINITION. Branch and jump instructions (41_me_branch.md). `guess_branch` has no effect on results (R484). -/

namespace Sys2Proof.Machine

/-- A branch on the running engine with no register effect of its own. -/
def State.branch (s : State) (taken : Bool) (l : Label) (t : BrTok) : Res State :=
  s.retireBranch s.engine {} taken (l.setWidth 12) t.defer

/-- A branch that tests a register writes Zero and Sign with unspecified values (U3). Its operand has been read by then,
so that in a deferred position a forbidden autopush read (U14) faults before the branch is refused (D15): the spec gives the
two no order, and the fault first is the model's choice (DESIGN CHOICE, log entry 75). -/
def State.branchReg (s : State) (taken : Bool) (l : Label) (t : BrTok) : Res State :=
  s.retireBranch s.engine { cc := some (unspecifiedFlags s.engine.cc s.free) } taken (l.setWidth 12) t.defer

/-- A computed control store index in range (R505, R506), else the fault of R53, at the branch itself also where
instructions are deferred: the model's choice (log entry 75). -/
def State.codeTarget (s : State) (v : Word) : Res (BitVec 12) :=
  if v.toNat < s.board.ustoreWords then .ok (v.setWidth 12) else stopFault (.pcOutOfStore v.toNat)

/-- `br` (R488). -/
def execBr (l : Label) (t : BrTok) (s : State) : Host.Outcome State Fault Refusal :=
  finish (s.branch true l t)

/-- `br=0` (R489). -/
def execBrEq0 (l : Label) (t : BrTok) (s : State) : Host.Outcome State Fault Refusal :=
  finish (s.branch (Cond.holds .eq0 s.engine.cc) l t)

/-- `br!=0` (R490). -/
def execBrNe0 (l : Label) (t : BrTok) (s : State) : Host.Outcome State Fault Refusal :=
  finish (s.branch (Cond.holds .ne0 s.engine.cc) l t)

/-- `br>0` (R491). -/
def execBrGt0 (l : Label) (t : BrTok) (s : State) : Host.Outcome State Fault Refusal :=
  finish (s.branch (Cond.holds .gt0 s.engine.cc) l t)

/-- `br>=0` (R492). -/
def execBrGe0 (l : Label) (t : BrTok) (s : State) : Host.Outcome State Fault Refusal :=
  finish (s.branch (Cond.holds .ge0 s.engine.cc) l t)

/-- `br<0` (R493). -/
def execBrLt0 (l : Label) (t : BrTok) (s : State) : Host.Outcome State Fault Refusal :=
  finish (s.branch (Cond.holds .lt0 s.engine.cc) l t)

/-- `br<=0` (R494). -/
def execBrLe0 (l : Label) (t : BrTok) (s : State) : Host.Outcome State Fault Refusal :=
  finish (s.branch (Cond.holds .le0 s.engine.cc) l t)

/-- `br=cout` (R495). -/
def execBrCout (l : Label) (t : BrTok) (s : State) : Host.Outcome State Fault Refusal :=
  finish (s.branch (Cond.holds .cout s.engine.cc) l t)

/-- `br!=cout` (R496). -/
def execBrNotCout (l : Label) (t : BrTok) (s : State) : Host.Outcome State Fault Refusal :=
  finish (s.branch (Cond.holds .notCout s.engine.cc) l t)

/-- `br_bset` (R497); the order of its two stops in a deferred position is `State.branchReg`'s (DESIGN CHOICE, log
entry 75). -/
def execBrBset (r : Src) (pos : BitVec 5) (l : Label) (t : BrTok) (s : State) : Host.Outcome State Fault Refusal :=
  finish do
    let v ← s.sourceVal r
    s.branchReg (v.getLsbD pos.toNat) l t

/-- `br_bclr` (R500). -/
def execBrBclr (r : Src) (pos : BitVec 5) (l : Label) (t : BrTok) (s : State) : Host.Outcome State Fault Refusal :=
  finish do
    let v ← s.sourceVal r
    s.branchReg (!v.getLsbD pos.toNat) l t

/-- Byte `k` of a longword (R501). -/
def byteOf (v : Word) (k : Fin 4) : Byte := v.extractLsb' (8 * k.val) 8

/-- `br=byte` (R501). -/
def execBrEqByte (r : Src) (k : Fin 4) (b : Byte) (l : Label) (t : BrTok) (s : State) :
    Host.Outcome State Fault Refusal :=
  finish do
    let v ← s.sourceVal r
    s.branchReg (byteOf v k == b) l t

/-- `br!=byte` (R502). -/
def execBrNeByte (r : Src) (k : Fin 4) (b : Byte) (l : Label) (t : BrTok) (s : State) :
    Host.Outcome State Fault Refusal :=
  finish do
    let v ← s.sourceVal r
    s.branchReg (byteOf v k != b) l t

/-- `br=ctx` (R503). -/
def execBrEqCtx (c : Fin 4) (l : Label) (t : BrTok) (s : State) : Host.Outcome State Fault Refusal :=
  finish (s.branch (s.engine.active == c) l t)

/-- `br!=ctx` (R504). -/
def execBrNeCtx (c : Fin 4) (l : Label) (t : BrTok) (s : State) : Host.Outcome State Fault Refusal :=
  finish (s.branch (s.engine.active != c) l t)

/-- The present value of an input state (R65). -/
def State.inputState (s : State) : InpState → Bool
  | .recReqAvail => decide (s.fbi.rcvReq.length < 2)
  | .pushProtect => s.fbi.pushProtect

/-- `br_inp_state` (R498). Seeing `push_protect` clear opens the read window of R792. -/
def execBrInpState (i : InpState) (l : Label) (t : BrTok) (s : State) : Host.Outcome State Fault Refusal :=
  let m := if i == .pushProtect && !s.fbi.pushProtect then { s.engine with ppAge := some 0 } else s.engine
  finish (s.retireBranch m {} (s.inputState i) (l.setWidth 12) t.defer)

/-- `br_!signal` (R499): taken when the signal is absent; a present signal is consumed. -/
def execBrNotSignal (e : SigEvent) (l : Label) (t : BrTok) (s : State) : Host.Outcome State Fault Refusal :=
  let m := s.engine
  let old := m.sigEvents[m.active]
  finish (s.retireBranch { m with sigEvents := m.sigEvents.set m.active (old &&& ~~~(sigMask e)) } {}
    (!(SigSet.has old e)) (l.setWidth 12) t.defer)

/-- `jump` (R505): the target is the label plus the register; one beyond the control store is a fault here, before any
deferred instruction. In a deferred position that fault (D8), and before it one of the operand's read (U14), comes before
the refusal of D15: the spec gives no order, all are the model's choice (DESIGN CHOICE, log entry 75). -/
def execJump (r : Src) (l : Label) (t : BrTok) (s : State) : Host.Outcome State Fault Refusal :=
  finish do
    let v ← s.sourceVal r
    let pc ← s.codeTarget (l.setWidth 32 + v)
    s.retireBranch s.engine {} true pc t.defer

/-- `rtn` (R506); a target beyond the control store is a fault here, before any deferred instruction and, in a deferred
position, before the refusal of D15: the model's choice, as for `jump` (DESIGN CHOICE, log entry 75). -/
def execRtn (r : Src) (t : BrTok) (s : State) : Host.Outcome State Fault Refusal :=
  finish do
    let v ← s.sourceVal r
    let pc ← s.codeTarget v
    s.retireBranch s.engine {} true pc t.defer

end Sys2Proof.Machine
end

