-- ==== Sys2Proof/Machine/LocalReg.lean ====
section
/-! DEFINITION. Local register instructions (43_me_local_register.md). -/

namespace Sys2Proof.Machine

/-! ### Immediate loads -/

/-- The constant of `immed` (R601): zero-filled and shifted, or the two's complement word of a negative value. -/
def immedValue (value : Int) : Word := BitVec.ofInt 32 value

/-- The mask of a field of `w` bits at bit `lo`. -/
def fieldMask (lo w : Nat) : Word := ((BitVec.allOnes w).setWidth 32) <<< lo

/-- A field load (R602): the field takes the low bits of `v`; the rest keeps its value or is cleared. -/
def loadField (old v : Word) (lo w : Nat) (keep : Bool) : Word :=
  (if keep then old &&& ~~~(fieldMask lo w) else 0) ||| ((v <<< lo) &&& fieldMask lo w)

/-- `immed` (R601). -/
def execImmed (d : Dest) (value : Int) (n : Nat) (s : State) : Host.Outcome State Fault Refusal :=
  let m := s.engine
  let r := m.immediate (immedValue value) <<< n
  finish (.ok (s.retire (m.writeDest m.active d r) { alu := some r }))

/-- The common part of the field loads (R602): no code changes; the ALU output is not stated. -/
def State.immedField (s : State) (d : Dest) (v : Word) (lo w : Nat) (keep : Bool) : State :=
  let m := s.engine
  s.retire (m.writeDest m.active d (loadField (m.readDest m.active d) (m.immediate v) lo w keep)) {}

/-- `immed_b0` (R603). -/
def execImmedB0 (d : Dest) (v : Byte) (s : State) : Host.Outcome State Fault Refusal :=
  finish (.ok (s.immedField d (v.setWidth 32) 0 8 (Config.immedKeeps .b0)))

/-- `immed_b1` (R604). -/
def execImmedB1 (d : Dest) (v : Byte) (s : State) : Host.Outcome State Fault Refusal :=
  finish (.ok (s.immedField d (v.setWidth 32) 8 8 (Config.immedKeeps .b1)))

/-- `immed_b2` (R605). -/
def execImmedB2 (d : Dest) (v : Byte) (s : State) : Host.Outcome State Fault Refusal :=
  finish (.ok (s.immedField d (v.setWidth 32) 16 8 (Config.immedKeeps .b2)))

/-- `immed_b3` (R606). -/
def execImmedB3 (d : Dest) (v : Byte) (s : State) : Host.Outcome State Fault Refusal :=
  finish (.ok (s.immedField d (v.setWidth 32) 24 8 (Config.immedKeeps .b3)))

/-- `immed_w0` (R607). -/
def execImmedW0 (d : Dest) (v : BitVec 16) (s : State) : Host.Outcome State Fault Refusal :=
  finish (.ok (s.immedField d (v.setWidth 32) 0 16 (Config.immedKeeps .w0)))

/-- `immed_w1` (R608): bits 15:0 are unchanged. -/
def execImmedW1 (d : Dest) (v : BitVec 16) (s : State) : Host.Outcome State Fault Refusal :=
  finish (.ok (s.immedField d (v.setWidth 32) 16 16 true))

/-! ### Byte field loads and addresses -/

/-- The byte lanes a four-digit byte mask selects, bit `k` for byte `k` (R610). -/
def byteLanes (m : BitVec 4) : Word :=
  (if m.getLsbD 0 then 0x000000FF else 0) ||| (if m.getLsbD 1 then 0x0000FF00 else 0)
    ||| (if m.getLsbD 2 then 0x00FF0000 else 0) ||| (if m.getLsbD 3 then 0xFF000000 else 0)

/-- `ld_field` (R610): unselected bytes keep their value; Zero and Sign are unspecified (U3). -/
def execLdField (d : Dest) (mask : BitVec 4) (src : Src) (shf : Shf) (s : State) :
    Host.Outcome State Fault Refusal :=
  finish do
    let v ← s.sourceVal src
    let m := s.engine
    let r := (m.readDest m.active d &&& ~~~(byteLanes mask)) ||| (s.shifted shf v &&& byteLanes mask)
    pure (s.retire (m.writeDest m.active d r) { cc := some (unspecifiedFlags m.cc s.free) })

/-- `ld_field_w_clr` (R611): unselected bytes are cleared; Zero and Sign are unspecified (U3). -/
def execLdFieldWClr (d : Dest) (mask : BitVec 4) (src : Src) (shf : Shf) (s : State) :
    Host.Outcome State Fault Refusal :=
  finish do
    let v ← s.sourceVal src
    let m := s.engine
    let r := s.shifted shf v &&& byteLanes mask
    pure (s.retire (m.writeDest m.active d r) { cc := some (unspecifiedFlags m.cc s.free) })

/-- `load_addr` (R613). -/
def execLoadAddr (d : Dest) (l : Label) (s : State) : Host.Outcome State Fault Refusal :=
  let m := s.engine
  let r : Word := l.setWidth 32
  finish (.ok (s.retire (m.writeDest m.active d r) { alu := some r }))

/-! ### Find bit set -/

/-- The least set bit of a 16-bit field, searched from bit `i` upward for `n` bits (R620 step 4). -/
def lowestBit (f : BitVec 16) (i : Nat) : Nat → Option Nat
  | 0 => none
  | n + 1 => if f.getLsbD i then some i else lowestBit f (i + 1) n

/-- The value of a locked result register: LK, INST#, BIT POS (R60, R620). -/
def bsetResult (n : BitVec 4) (p : Nat) : Word := 0x100 ||| ((n.setWidth 32) <<< 4) ||| BitVec.ofNat 32 p

/-- The LK bit of a result register (R60). -/
def locked (r : Word) : Bool := r.getLsbD 8

/-- The step of R620 on the field `f`. -/
def Me.findStep (m : Me) (f : BitVec 16) (clr : Bool) : Me :=
  let m := if clr then { m with result1 := 0, result2 := 0, fbsCnt := 0 } else m
  let n := m.fbsCnt
  let m := { m with fbsCnt := n + 1 }
  match lowestBit f 0 16 with
  | none => m
  | some p =>
    if !locked m.result1 then { m with result1 := bsetResult n p }
    else if !locked m.result2 then { m with result2 := bsetResult n p }
    else m

/-- `find_bset` (R621). -/
def execFindBset (src : Src) (shf : Shf) (clr : Bool) (s : State) : Host.Outcome State Fault Refusal :=
  finish do
    let v ← s.sourceVal src
    pure (s.retire (s.engine.findStep ((s.shifted shf v).setWidth 16) clr) { find := true })

/-- `find_bset_with_mask` (R622): a 1 in the mask keeps the bit; the mask is not shifted (D12). -/
def execFindBsetWithMask (mask src : Src) (shf : Shf) (clr : Bool) (s : State) :
    Host.Outcome State Fault Refusal :=
  finish do
    let k ← s.sourceVal mask
    let v ← s.sourceVal src
    pure (s.retire (s.engine.findStep ((s.shifted shf v).setWidth 16 &&& k.setWidth 16) clr) { find := true })

/-- The value a `load_bset_result` reads: the register, or an unspecified result when fewer than three instructions
have gone by since a find (R625, U5). -/
def State.bsetRead (s : State) (r : Word) : Word :=
  if s.engine.findAge < 3 then Config.freeWord .bsetResult s.free &&& 0x1FF else r

/-- The common part of R623 and R624. -/
def State.loadBset (s : State) (d : Dest) (r : Word) : State :=
  let m := s.engine
  s.retire (m.writeDest m.active d r) { alu := some r, cc := some (resultFlags m.cc r) }

/-- `load_bset_result1` (R623). -/
def execLoadBsetResult1 (d : Dest) (s : State) : Host.Outcome State Fault Refusal :=
  finish (.ok (s.loadBset d (s.bsetRead s.engine.result1)))

/-- `load_bset_result2` (R624). -/
def execLoadBsetResult2 (d : Dest) (s : State) : Host.Outcome State Fault Refusal :=
  finish (.ok (s.loadBset d (s.bsetRead s.engine.result2)))

end Sys2Proof.Machine
end

