-- ==== Sys2Proof/Machine/Misc.lean ====
section
/-! DEFINITION. Context arbitration, `nop` and the hash instructions (44_me_misc.md). -/

namespace Sys2Proof.Machine

/-- What the context waits for after `ctx_arb` (R640). -/
def ctxEventAct : CtxEvent → DeferAct
  | .signal e => .swap (.signal e)
  | .voluntary => .swap .voluntary
  | .kill => .kill

/-- `ctx_arb` (R640, R646, R647). -/
def execCtxArb (ev : CtxEvent) (defer1 : Bool) (s : State) : Host.Outcome State Fault Refusal :=
  finish (s.retireSwap s.engine {} (ctxEventAct ev) defer1)

/-- `nop` (R648). -/
def execNop (s : State) : Host.Outcome State Fault Refusal := finish (.ok (s.retire s.engine {}))

/-- A hash reference of `total` hashes from register `x` (R651): the registers `x` to `x + 2 * total - 1` must be in
the file (R650). -/
def State.hashRef (s : State) (is64 : Bool) (total : Nat) (x : Xfer) (tok : RefTok) : Res State := do
  let r := (xferIndex s.engine.active x).val
  require (spanOk r (2 * total)) .burstPastRegister31
  s.issue (s.command (.hash is64 total r) .fbiHash {} true .fbi tok false) .fbi tok

/-- `hash1_48` (R652). -/
def execHash1x48 (x : Xfer) (tok : RefTok) (s : State) : Host.Outcome State Fault Refusal :=
  finish (s.hashRef false 1 x tok)

/-- `hash2_48` (R653). -/
def execHash2x48 (x : Xfer) (tok : RefTok) (s : State) : Host.Outcome State Fault Refusal :=
  finish (s.hashRef false 2 x tok)

/-- `hash3_48` (R654). -/
def execHash3x48 (x : Xfer) (tok : RefTok) (s : State) : Host.Outcome State Fault Refusal :=
  finish (s.hashRef false 3 x tok)

/-- `hash1_64` (R655). -/
def execHash1x64 (x : Xfer) (tok : RefTok) (s : State) : Host.Outcome State Fault Refusal :=
  finish (s.hashRef true 1 x tok)

/-- `hash2_64` (R656). -/
def execHash2x64 (x : Xfer) (tok : RefTok) (s : State) : Host.Outcome State Fault Refusal :=
  finish (s.hashRef true 2 x tok)

/-- `hash3_64` (R657). -/
def execHash3x64 (x : Xfer) (tok : RefTok) (s : State) : Host.Outcome State Fault Refusal :=
  finish (s.hashRef true 3 x tok)

end Sys2Proof.Machine
end

