-- ==== Sys2Proof/Machine/ReadyBus.lean ====
section
/-! DEFINITION. Ready Bus sequencer instructions (46_ready_bus_sequencer.md). The sequencer holds no registers of its
own; its effects are on the FBI registers, on pending autopushes and on the pins of the Ready Bus. -/

namespace Sys2Proof.Machine

/-- Byte `m` of the 56-bit flag pair HI:LO (D21). -/
def putReady (hi lo : Word) (m : Fin 7) (b : Byte) : Word × Word :=
  let v : BitVec 64 := hi ++ lo
  let w := (v &&& ~~~((0xFF : BitVec 64) <<< (8 * m.val))) ||| ((b.setWidth 64) <<< (8 * m.val))
  (quadHigh w, quadLow w)

/-- Collect the flags of MACs `m` to `m + n - 1` into the pair (R706). -/
def collect (flags : Vector Byte 7) (m : Nat) : Nat → Word × Word → Word × Word
  | 0, p => p
  | n + 1, p => collect flags (m + 1) n (if h : m < 7 then putReady p.1 p.2 ⟨m, h⟩ flags[m] else p)

/-- The Receive Request Count capture of the first `rxrdy` or `txrdy` of a loop (R717). -/
def Fbi.capture (f : Fbi) : Fbi := if f.captured then f else { f with reqCapture := f.reqCount, captured := true }

/-- Start an instruction: `instr_0` begins a pass, with its time, its rate timer (R700) and the capture's loop (R717);
only an autopush holds the push protect window for what follows it (R793). -/
def Fbi.seqBegin (f : Fbi) : Fbi :=
  let f := { f with captured := f.captured && f.seqPos != 0, apHold := false }
  if f.seqPos = 0 then { f with seqWait := false, seqTime := 0, seqExpired := false } else f

/-- Go on to the next program position after an instruction of `n` IX Bus cycles (R704); `instr_11` ends the pass
(R700). -/
def Fbi.seqNext (f : Fbi) (n : Nat) : Fbi :=
  let f := { f with seqTime := f.seqTime + n }
  if f.seqPos = 11 then { f with seqPos := 0, seqWait := true } else { f with seqPos := f.seqPos + 1 }

/-- Run a sequencer instruction of `n` IX Bus cycles whose effect is on the FBI Unit alone. -/
def State.seqRun (s : State) (n : Nat) (g : Fbi → Fbi) : State := s.withFbi ((g s.fbi.seqBegin).seqNext n)

/-- `NOP` repeated `n` times: three cycles each and no other effect (R704, R705). -/
def State.seqNop (s : State) (n : Nat) : State := s.seqRun (3 * n) id

/-- `rxrdy` of MACs `a` to `b` (R706), three cycles each. -/
def State.rxrdy (s : State) (a b : Nat) : State :=
  s.seqRun (3 * (b + 1 - a)) fun f =>
    let p := collect s.env.macRx a (b + 1 - a) (f.rcvRdyHi, f.rcvRdyLo)
    { f.capture with rcvRdyHi := p.1, rcvRdyLo := p.2 }

/-- `txrdy` of MACs `a` to `b` (R707), three cycles each. -/
def State.txrdy (s : State) (a b : Nat) : State :=
  s.seqRun (3 * (b + 1 - a)) fun f =>
    let p := collect s.env.macTx a (b + 1 - a) (f.xmitRdyHi, f.xmitRdyLo)
    { f.capture with xmitRdyHi := p.1, xmitRdyLo := p.2 }

/-- `n` words of a list, and what is left of it; missing words are `none`. -/
def takeWords : Nat → List Word → List (Option Word) × List Word
  | 0, ws => ([], ws)
  | n + 1, [] => (none :: (takeWords n []).1, [])
  | n + 1, w :: ws => (some w :: (takeWords n ws).1, (takeWords n ws).2)

/-- `get1` of `n` longwords (R711): a slave with no data drives zeros. An overfill of GET_CMD is refused. -/
def State.get1 (s : State) (n : Nat) : Res State := do
  require (decide (s.fbi.getCmd.length + n ≤ 8)) .ringOverflow
  let (ws, rest) := takeWords n s.env.slave
  pure { s.seqRun (8 * n + 1) (fun f => { f with getCmd := f.getCmd ++ ws.map (·.getD 0) }) with
    env := { s.env with slave := rest } }

/-- `get2` of `n` longwords (R712): an external FIFO with no data supplies unspecified longwords. -/
def State.get2 (s : State) (n : Nat) : Res State := do
  require (decide (s.fbi.getCmd.length + n ≤ 8)) .ringOverflow
  let (ws, rest) := takeWords n s.env.chained
  let vs := ws.mapIdx fun i w => w.getD (Config.freeWord .readyBusData (s.free + i))
  pure { s.seqRun (8 * n + 1) (fun f => { f with getCmd := f.getCmd ++ vs }) with
    env := { s.env with chained := rest }, free := s.free + n }

/-- `send` of `n` longwords (R713): zeros where the array is empty. -/
def State.send (s : State) (n : Nat) : State :=
  let (ws, rest) := takeWords n s.fbi.sendCmd
  { s.seqRun (8 * n + 1) (fun f => { f with sendCmd := rest }) with
    outputs := s.outputs ++ ws.map fun w => .readyBusSend (w.getD 0) }

/-- `flwctl` (R710): six cycles with valid data, one without. The MAC number of FLOWCTL_MASK has no stated width: three
bits, for seven devices (DESIGN CHOICE, log entry 79). -/
def State.flwctl (s : State) : State :=
  if s.fbi.fcma then
    { s.seqRun 6 (fun f => { f with fcma := false }) with
      outputs := s.outputs ++ [.flowControl (getField .fcMac 3 s.fbi.flowMask) (getField .fcMask 8 s.fbi.flowMask)] }
  else s.seqRun 1 id

/-- The program position after this one holds an autopush that is enabled, so that the two are back to back (R793);
`instr_11` and `instr_0` are not adjacent in the program, whether or not the rate timer is waited for between them (DESIGN
CHOICE, log entry 34). -/
def Fbi.autopushNext (f : Fbi) : Bool :=
  f.seqPos != 11 && ((f.prog[f.seqPos + 1] == 0x0C && f.rxApEnable) || (f.prog[f.seqPos + 1] == 0x9C && f.txApEnable))

/-- What an enabled autopush leaves for the Push Engine besides its request: whether it follows another back to back,
and whether one follows it. -/
def Fbi.autopushMarks (f old : Fbi) : Fbi := { f with apJoined := old.apHold, apHold := f.autopushNext }

/-- `RxAutopush` (R708): the Receive Ready Count always counts; an enabled push is requested of the Push Engine, which
signals the thread when it completes. R708 does not say what a second one does while the push of the first is pending:
the request is one flag, so that the two give one push and one signal (DESIGN CHOICE, log entry 34). -/
def State.rxAutopush (s : State) : State :=
  s.seqRun 3 fun f =>
    let f := { f with rdyCount := f.rdyCount + 1 }
    if f.rxApEnable then { f.autopushMarks s.fbi with rxPush := true } else f

/-- `TxAutopush` (R709); its request too is one flag (DESIGN CHOICE, log entry 34). -/
def State.txAutopush (s : State) : State :=
  s.seqRun 3 fun f => if f.txApEnable then { f.autopushMarks s.fbi with txPush := true } else f

/-! ### The 91 instructions -/

/-- `NOP1` (R705). -/
def execNop1 (s : State) : Host.Outcome State Fault Refusal := finish (.ok (s.seqNop 1))

/-- `NOP2` (R705). -/
def execNop2 (s : State) : Host.Outcome State Fault Refusal := finish (.ok (s.seqNop 2))

/-- `NOP3` (R705). -/
def execNop3 (s : State) : Host.Outcome State Fault Refusal := finish (.ok (s.seqNop 3))

/-- `NOP4` (R705). -/
def execNop4 (s : State) : Host.Outcome State Fault Refusal := finish (.ok (s.seqNop 4))

/-- `NOP5` (R705). -/
def execNop5 (s : State) : Host.Outcome State Fault Refusal := finish (.ok (s.seqNop 5))

/-- `NOP6` (R705). -/
def execNop6 (s : State) : Host.Outcome State Fault Refusal := finish (.ok (s.seqNop 6))

/-- `NOP7` (R705). -/
def execNop7 (s : State) : Host.Outcome State Fault Refusal := finish (.ok (s.seqNop 7))

/-- `NOP8` (R705). -/
def execNop8 (s : State) : Host.Outcome State Fault Refusal := finish (.ok (s.seqNop 8))

/-- `rxrdy_mac0` (R706). -/
def execRxrdy0 (s : State) : Host.Outcome State Fault Refusal := finish (.ok (s.rxrdy 0 0))

/-- `rxrdy_mac0_to_1` (R706). -/
def execRxrdy0to1 (s : State) : Host.Outcome State Fault Refusal := finish (.ok (s.rxrdy 0 1))

/-- `rxrdy_mac0_to_2` (R706). -/
def execRxrdy0to2 (s : State) : Host.Outcome State Fault Refusal := finish (.ok (s.rxrdy 0 2))

/-- `rxrdy_mac0_to_3` (R706). -/
def execRxrdy0to3 (s : State) : Host.Outcome State Fault Refusal := finish (.ok (s.rxrdy 0 3))

/-- `rxrdy_mac0_to_4` (R706). -/
def execRxrdy0to4 (s : State) : Host.Outcome State Fault Refusal := finish (.ok (s.rxrdy 0 4))

/-- `rxrdy_mac0_to_5` (R706). -/
def execRxrdy0to5 (s : State) : Host.Outcome State Fault Refusal := finish (.ok (s.rxrdy 0 5))

/-- `rxrdy_mac0_to_6` (R706). -/
def execRxrdy0to6 (s : State) : Host.Outcome State Fault Refusal := finish (.ok (s.rxrdy 0 6))

/-- `rxrdy_mac1` (R706). -/
def execRxrdy1 (s : State) : Host.Outcome State Fault Refusal := finish (.ok (s.rxrdy 1 1))

/-- `rxrdy_mac1_to_2` (R706). -/
def execRxrdy1to2 (s : State) : Host.Outcome State Fault Refusal := finish (.ok (s.rxrdy 1 2))

/-- `rxrdy_mac1_to_3` (R706). -/
def execRxrdy1to3 (s : State) : Host.Outcome State Fault Refusal := finish (.ok (s.rxrdy 1 3))

/-- `rxrdy_mac1_to_4` (R706). -/
def execRxrdy1to4 (s : State) : Host.Outcome State Fault Refusal := finish (.ok (s.rxrdy 1 4))

/-- `rxrdy_mac1_to_5` (R706). -/
def execRxrdy1to5 (s : State) : Host.Outcome State Fault Refusal := finish (.ok (s.rxrdy 1 5))

/-- `rxrdy_mac1_to_6` (R706). -/
def execRxrdy1to6 (s : State) : Host.Outcome State Fault Refusal := finish (.ok (s.rxrdy 1 6))

/-- `rxrdy_mac2` (R706). -/
def execRxrdy2 (s : State) : Host.Outcome State Fault Refusal := finish (.ok (s.rxrdy 2 2))

/-- `rxrdy_mac2_to_3` (R706). -/
def execRxrdy2to3 (s : State) : Host.Outcome State Fault Refusal := finish (.ok (s.rxrdy 2 3))

/-- `rxrdy_mac2_to_4` (R706). -/
def execRxrdy2to4 (s : State) : Host.Outcome State Fault Refusal := finish (.ok (s.rxrdy 2 4))

/-- `rxrdy_mac2_to_5` (R706). -/
def execRxrdy2to5 (s : State) : Host.Outcome State Fault Refusal := finish (.ok (s.rxrdy 2 5))

/-- `rxrdy_mac2_to_6` (R706). -/
def execRxrdy2to6 (s : State) : Host.Outcome State Fault Refusal := finish (.ok (s.rxrdy 2 6))

/-- `rxrdy_mac3` (R706). -/
def execRxrdy3 (s : State) : Host.Outcome State Fault Refusal := finish (.ok (s.rxrdy 3 3))

/-- `rxrdy_mac3_to_4` (R706). -/
def execRxrdy3to4 (s : State) : Host.Outcome State Fault Refusal := finish (.ok (s.rxrdy 3 4))

/-- `rxrdy_mac3_to_5` (R706). -/
def execRxrdy3to5 (s : State) : Host.Outcome State Fault Refusal := finish (.ok (s.rxrdy 3 5))

/-- `rxrdy_mac3_to_6` (R706). -/
def execRxrdy3to6 (s : State) : Host.Outcome State Fault Refusal := finish (.ok (s.rxrdy 3 6))

/-- `rxrdy_mac4` (R706). -/
def execRxrdy4 (s : State) : Host.Outcome State Fault Refusal := finish (.ok (s.rxrdy 4 4))

/-- `rxrdy_mac4_to_5` (R706). -/
def execRxrdy4to5 (s : State) : Host.Outcome State Fault Refusal := finish (.ok (s.rxrdy 4 5))

/-- `rxrdy_mac4_to_6` (R706). -/
def execRxrdy4to6 (s : State) : Host.Outcome State Fault Refusal := finish (.ok (s.rxrdy 4 6))

/-- `rxrdy_mac5` (R706). -/
def execRxrdy5 (s : State) : Host.Outcome State Fault Refusal := finish (.ok (s.rxrdy 5 5))

/-- `rxrdy_mac5_to_6` (R706). -/
def execRxrdy5to6 (s : State) : Host.Outcome State Fault Refusal := finish (.ok (s.rxrdy 5 6))

/-- `rxrdy_mac6` (R706). -/
def execRxrdy6 (s : State) : Host.Outcome State Fault Refusal := finish (.ok (s.rxrdy 6 6))

/-- `txrdy_mac0` (R707). -/
def execTxrdy0 (s : State) : Host.Outcome State Fault Refusal := finish (.ok (s.txrdy 0 0))

/-- `txrdy_mac0_to_1` (R707). -/
def execTxrdy0to1 (s : State) : Host.Outcome State Fault Refusal := finish (.ok (s.txrdy 0 1))

/-- `txrdy_mac0_to_2` (R707). -/
def execTxrdy0to2 (s : State) : Host.Outcome State Fault Refusal := finish (.ok (s.txrdy 0 2))

/-- `txrdy_mac0_to_3` (R707). -/
def execTxrdy0to3 (s : State) : Host.Outcome State Fault Refusal := finish (.ok (s.txrdy 0 3))

/-- `txrdy_mac0_to_4` (R707). -/
def execTxrdy0to4 (s : State) : Host.Outcome State Fault Refusal := finish (.ok (s.txrdy 0 4))

/-- `txrdy_mac0_to_5` (R707). -/
def execTxrdy0to5 (s : State) : Host.Outcome State Fault Refusal := finish (.ok (s.txrdy 0 5))

/-- `txrdy_mac0_to_6` (R707). -/
def execTxrdy0to6 (s : State) : Host.Outcome State Fault Refusal := finish (.ok (s.txrdy 0 6))

/-- `txrdy_mac1` (R707). -/
def execTxrdy1 (s : State) : Host.Outcome State Fault Refusal := finish (.ok (s.txrdy 1 1))

/-- `txrdy_mac1_to_2` (R707). -/
def execTxrdy1to2 (s : State) : Host.Outcome State Fault Refusal := finish (.ok (s.txrdy 1 2))

/-- `txrdy_mac1_to_3` (R707). -/
def execTxrdy1to3 (s : State) : Host.Outcome State Fault Refusal := finish (.ok (s.txrdy 1 3))

/-- `txrdy_mac1_to_4` (R707). -/
def execTxrdy1to4 (s : State) : Host.Outcome State Fault Refusal := finish (.ok (s.txrdy 1 4))

/-- `txrdy_mac1_to_5` (R707). -/
def execTxrdy1to5 (s : State) : Host.Outcome State Fault Refusal := finish (.ok (s.txrdy 1 5))

/-- `txrdy_mac1_to_6` (R707). -/
def execTxrdy1to6 (s : State) : Host.Outcome State Fault Refusal := finish (.ok (s.txrdy 1 6))

/-- `txrdy_mac2` (R707). -/
def execTxrdy2 (s : State) : Host.Outcome State Fault Refusal := finish (.ok (s.txrdy 2 2))

/-- `txrdy_mac2_to_3` (R707). -/
def execTxrdy2to3 (s : State) : Host.Outcome State Fault Refusal := finish (.ok (s.txrdy 2 3))

/-- `txrdy_mac2_to_4` (R707). -/
def execTxrdy2to4 (s : State) : Host.Outcome State Fault Refusal := finish (.ok (s.txrdy 2 4))

/-- `txrdy_mac2_to_5` (R707). -/
def execTxrdy2to5 (s : State) : Host.Outcome State Fault Refusal := finish (.ok (s.txrdy 2 5))

/-- `txrdy_mac2_to_6` (R707). -/
def execTxrdy2to6 (s : State) : Host.Outcome State Fault Refusal := finish (.ok (s.txrdy 2 6))

/-- `txrdy_mac3` (R707). -/
def execTxrdy3 (s : State) : Host.Outcome State Fault Refusal := finish (.ok (s.txrdy 3 3))

/-- `txrdy_mac3_to_4` (R707). -/
def execTxrdy3to4 (s : State) : Host.Outcome State Fault Refusal := finish (.ok (s.txrdy 3 4))

/-- `txrdy_mac3_to_5` (R707). -/
def execTxrdy3to5 (s : State) : Host.Outcome State Fault Refusal := finish (.ok (s.txrdy 3 5))

/-- `txrdy_mac3_to_6` (R707). -/
def execTxrdy3to6 (s : State) : Host.Outcome State Fault Refusal := finish (.ok (s.txrdy 3 6))

/-- `txrdy_mac4` (R707). -/
def execTxrdy4 (s : State) : Host.Outcome State Fault Refusal := finish (.ok (s.txrdy 4 4))

/-- `txrdy_mac4_to_5` (R707). -/
def execTxrdy4to5 (s : State) : Host.Outcome State Fault Refusal := finish (.ok (s.txrdy 4 5))

/-- `txrdy_mac4_to_6` (R707). -/
def execTxrdy4to6 (s : State) : Host.Outcome State Fault Refusal := finish (.ok (s.txrdy 4 6))

/-- `txrdy_mac5` (R707). -/
def execTxrdy5 (s : State) : Host.Outcome State Fault Refusal := finish (.ok (s.txrdy 5 5))

/-- `txrdy_mac5_to_6` (R707). -/
def execTxrdy5to6 (s : State) : Host.Outcome State Fault Refusal := finish (.ok (s.txrdy 5 6))

/-- `txrdy_mac6` (R707). -/
def execTxrdy6 (s : State) : Host.Outcome State Fault Refusal := finish (.ok (s.txrdy 6 6))

/-- `RxAutopush` (R708). -/
def execRxAutopush (s : State) : Host.Outcome State Fault Refusal := finish (.ok s.rxAutopush)

/-- `TxAutopush` (R709). -/
def execTxAutopush (s : State) : Host.Outcome State Fault Refusal := finish (.ok s.txAutopush)

/-- `flwctl` (R710). -/
def execFlwctl (s : State) : Host.Outcome State Fault Refusal := finish (.ok s.flwctl)

/-- `get1_1lw` (R711). -/
def execGet1x1 (s : State) : Host.Outcome State Fault Refusal := finish (s.get1 1)

/-- `get1_2lw` (R711). -/
def execGet1x2 (s : State) : Host.Outcome State Fault Refusal := finish (s.get1 2)

/-- `get1_3lw` (R711). -/
def execGet1x3 (s : State) : Host.Outcome State Fault Refusal := finish (s.get1 3)

/-- `get1_4lw` (R711). -/
def execGet1x4 (s : State) : Host.Outcome State Fault Refusal := finish (s.get1 4)

/-- `get1_5lw` (R711). -/
def execGet1x5 (s : State) : Host.Outcome State Fault Refusal := finish (s.get1 5)

/-- `get1_6lw` (R711). -/
def execGet1x6 (s : State) : Host.Outcome State Fault Refusal := finish (s.get1 6)

/-- `get1_7lw` (R711). -/
def execGet1x7 (s : State) : Host.Outcome State Fault Refusal := finish (s.get1 7)

/-- `get1_8lw` (R711). -/
def execGet1x8 (s : State) : Host.Outcome State Fault Refusal := finish (s.get1 8)

/-- `get2_1lw` (R712). -/
def execGet2x1 (s : State) : Host.Outcome State Fault Refusal := finish (s.get2 1)

/-- `get2_2lw` (R712). -/
def execGet2x2 (s : State) : Host.Outcome State Fault Refusal := finish (s.get2 2)

/-- `get2_3lw` (R712). -/
def execGet2x3 (s : State) : Host.Outcome State Fault Refusal := finish (s.get2 3)

/-- `get2_4lw` (R712). -/
def execGet2x4 (s : State) : Host.Outcome State Fault Refusal := finish (s.get2 4)

/-- `get2_5lw` (R712). -/
def execGet2x5 (s : State) : Host.Outcome State Fault Refusal := finish (s.get2 5)

/-- `get2_6lw` (R712). -/
def execGet2x6 (s : State) : Host.Outcome State Fault Refusal := finish (s.get2 6)

/-- `get2_7lw` (R712). -/
def execGet2x7 (s : State) : Host.Outcome State Fault Refusal := finish (s.get2 7)

/-- `get2_8lw` (R712). -/
def execGet2x8 (s : State) : Host.Outcome State Fault Refusal := finish (s.get2 8)

/-- `send_1lw` (R713). -/
def execSendx1 (s : State) : Host.Outcome State Fault Refusal := finish (.ok (s.send 1))

/-- `send_2lw` (R713). -/
def execSendx2 (s : State) : Host.Outcome State Fault Refusal := finish (.ok (s.send 2))

/-- `send_3lw` (R713). -/
def execSendx3 (s : State) : Host.Outcome State Fault Refusal := finish (.ok (s.send 3))

/-- `send_4lw` (R713). -/
def execSendx4 (s : State) : Host.Outcome State Fault Refusal := finish (.ok (s.send 4))

/-- `send_5lw` (R713). -/
def execSendx5 (s : State) : Host.Outcome State Fault Refusal := finish (.ok (s.send 5))

/-- `send_6lw` (R713). -/
def execSendx6 (s : State) : Host.Outcome State Fault Refusal := finish (.ok (s.send 6))

/-- `send_7lw` (R713). -/
def execSendx7 (s : State) : Host.Outcome State Fault Refusal := finish (.ok (s.send 7))

/-- `send_8lw` (R713). -/
def execSendx8 (s : State) : Host.Outcome State Fault Refusal := finish (.ok (s.send 8))

end Sys2Proof.Machine
end

