-- ==== Sys2Proof/Machine/Reference.lean ====
section
/-! DEFINITION. Reference instructions (42_me_reference.md): each builds one command and puts it into the command
FIFO (R530, R580); and the access to the local CSRs. -/

namespace Sys2Proof.Machine

/-- The absolute number of a transfer register name in the running context. -/
def State.xfer (s : State) (x : Xfer) : Fin 32 := xferIndex s.engine.active x

/-- `csr` (R540): a read goes to the Push queue, a write to the Pull queue (R765); a CYCLE_CNT read fills two
registers (R767). -/
def execCsr (rw : RW) (x : Xfer) (reg : FbiCsr) (cnt : Nat) (tok : RefTok) (s : State) :
    Host.Outcome State Fault Refusal :=
  finish do
    let r := (s.xfer x).val
    require (spanOk r (if rw = .read && reg = .cycleCnt then 2 else cnt)) .burstPastRegister31
    match rw with
    | .read => s.issue (s.command (.csrRead reg r cnt) .fbiPush {} true .fbi tok false) .fbi tok
    | .write => s.issue (s.command (.csrWrite reg r cnt) .fbiPull {} true .fbi tok false) .fbi tok

/-- `fast_wr` (R541): no completion signal, no context swap. -/
def execFastWr (imm : BitVec 10) (reg : FastReg) (indirect : Bool) (s : State) :
    Host.Outcome State Fault Refusal :=
  let o := s.engine.overrides .fastWr indirect
  let tok : RefTok := ⟨false, false, false, indirect⟩
  finish (s.issue (s.command (.fastWr reg (o.imm.getD imm)) .fast o true .fbi tok false) .fbi tok)

/-- `local_csr_rd` (R560): the value is latched for the very next instruction; immediately after a write of the same
CSR it is the old value (R1165 (a)). -/
def execLocalCsrRd (reg : LocalCsr) (s : State) : Host.Outcome State Fault Refusal :=
  let m := s.engine
  let v := match m.csrShadow with
    | some (k, old) => if k = reg then old else m.csrValue s.board.pcBits reg
    | none => m.csrValue s.board.pcBits reg
  finish (.ok (s.retire m { latch := some v }))

/-- `local_csr_wr` (R561): the write follows the copy of the condition codes (R55); a write of CTX_ENABLES opens the
window of R1165 (c), in force from the fifth instruction after it. A program counter moves by its own thread's control
flow alone, so a write of CTX_n_STS leaves it (R1100). -/
def execLocalCsrWr (reg : LocalCsr) (src : Gpr) (s : State) : Host.Outcome State Fault Refusal :=
  finish do
    let m := s.engine
    let w ← (m.latch { shadow := some (reg, m.csrValue s.board.pcBits reg) } s.free).writeCsr reg (m.gpr m.active src)
      s.free
    let w := if reg = .ctxEnables then { w with enWindow := 5 } else w
    pure (s.putEngine (w.advance s.enableDraw))

/-- `r_fifo_rd` (R542): each quadword fills two SRAM read transfer registers. -/
def execRFifoRd (x : Xfer) (op1 op2 : Src) (cnt : Nat) (tok : RefTok) (s : State) :
    Host.Outcome State Fault Refusal :=
  finish do
    let a ← s.address op1 op2
    let o := s.engine.overrides .rFifoRd tok.indirect
    let r := xferOr o (s.xfer x)
    let n := countOr o cnt
    require (spanOk r (2 * n)) .burstPastRegister31
    s.issue (s.command (.rFifoRd a r n) .fbiPush o true .fbi tok false) .fbi tok

/-- `t_fifo_wr` (R543). -/
def execTFifoWr (x : Xfer) (op1 op2 : Src) (cnt : Nat) (tok : RefTok) (s : State) :
    Host.Outcome State Fault Refusal :=
  finish do
    let a ← s.address op1 op2
    let o := s.engine.overrides .tFifoWr tok.indirect
    let r := xferOr o (s.xfer x)
    let n := countOr o cnt
    require (spanOk r (2 * n)) .burstPastRegister31
    s.issue (s.command (.tFifoWr a r n) .fbiPull o true .fbi tok false) .fbi tok

/-- `pci_dma` (R545): the register holds the descriptor pointer. -/
def execPciDma (x : Xfer) (orderQueue : Bool) (tok : RefTok) (s : State) : Host.Outcome State Fault Refusal :=
  finish (s.issue (s.command (.pciDma (s.xfer x).val orderQueue) .pci {} true .pci tok false) .pci tok)

/-- The scratchpad operation and queue of a command (R544): a read goes to the Push queue, the others to the Pull
queue. Table 4-17 gives a scratch command no other microengine's transfer registers (R585). -/
def State.scratchOp (s : State) (cmd : ScratchCmd) (a : Word) (indirect : Bool) :
    Res (CmdOp × UnitQueue × Overrides) :=
  match cmd with
  | .read x cnt => do
    let o := s.engine.overrides .scratchRw indirect
    require (spanOk (xferOr o (s.xfer x)) (countOr o cnt)) .burstPastRegister31
    pure (.scratchRead a (xferOr o (s.xfer x)) (countOr o cnt), .fbiPush, o)
  | .write x cnt => do
    let o := s.engine.overrides .scratchRw indirect
    require (spanOk (xferOr o (s.xfer x)) (countOr o cnt)) .burstPastRegister31
    pure (.scratchWrite a (xferOr o (s.xfer x)) (countOr o cnt), .fbiPull, o)
  | .bitWr x op => do
    let o := s.engine.overrides .scratchBit indirect
    pure (.scratchBit a (xferOr o (s.xfer x)) (bitOpOr o op), .fbiPull, o)
  | .incr => pure (.scratchIncr a, .fbiPull, {})

/-- `scratch` (R544). -/
def execScratch (cmd : ScratchCmd) (op1 op2 : Src) (tok : RefTok) (s : State) :
    Host.Outcome State Fault Refusal :=
  finish do
    let a ← s.address op1 op2
    let (op, q, o) ← s.scratchOp cmd a tok.indirect
    s.issue (s.command op q o false .fbi tok false) .fbi tok

/-- The quadword address in the FIFO of an `sdram` FIFO form; a word that does not override it leaves it open. -/
def State.fifoOr (s : State) (o : Overrides) : Nat :=
  match o.fifo with
  | some f => f.toNat
  | none => ((Config.freeWord .fifoAddress s.free).setWidth 8).toNat

/-- The SDRAM operation of a command (R546); two transfer registers per quadword (R49). `sdram[t_fifo_wr]` whose word does
not override the byte alignment moves its quadwords unaligned, with alignment 0: the spec gives no default (DESIGN CHOICE,
log entry 4). -/
def State.sdramOp (s : State) (cmd : SdramCmd) (a : Word) (indirect : Bool) : Res (CmdOp × Overrides) :=
  match cmd with
  | .read x cnt => do
    let o := s.engine.overrides .sdramRw indirect
    require (spanOk (xferOr o (s.xfer x)) (2 * countOr o cnt)) .burstPastRegister31
    pure (.sdramRead a (xferOr o (s.xfer x)) (countOr o cnt), o)
  | .write x cnt => do
    let o := s.engine.overrides .sdramRw indirect
    require (spanOk (xferOr o (s.xfer x)) (2 * countOr o cnt)) .burstPastRegister31
    pure (.sdramWrite a (xferOr o (s.xfer x)) (countOr o cnt) o.mask, o)
  | .tFifoWr cnt =>
    let o := s.engine.overrides .sdramTFifo indirect
    .ok (.sdramTFifo a (countOr o cnt) (s.fifoOr o) (o.align.getD 0), o)
  | .rFifoRd cnt =>
    let o := s.engine.overrides .sdramRFifo indirect
    .ok (.sdramRFifo a (countOr o cnt) (s.fifoOr o), o)

/-- The SDRAM Unit queue (R845, R846); the two FIFO forms go to the Order queue whatever the selector (R861, R862). -/
def sdramQueueOf (q : SdramQueue) (cmd : SdramCmd) (a : Word) : UnitQueue :=
  match cmd, q with
  | .tFifoWr _, _ | .rFifoRd _, _ => .sdramOrder
  | _, .order => .sdramOrder
  | _, .priority => .sdramPrio
  | _, .optimizeMem => if Config.sdramBankOdd a then .sdramOdd else .sdramEven

/-- `sdram` (R546). -/
def execSdram (cmd : SdramCmd) (a1 a2 : Src) (q : SdramQueue) (chain : Bool) (tok : RefTok) (s : State) :
    Host.Outcome State Fault Refusal :=
  finish do
    let a ← s.address a1 a2
    let (op, o) ← s.sdramOp cmd a tok.indirect
    s.issue (s.command op (sdramQueueOf q cmd a) o true .sdram tok chain) .sdram tok

/-- The SRAM operation of a command (R547); the low four bits of a mask override are the longword's (R906). -/
def State.sramOp (s : State) (cmd : SramCmd) (a : Word) (indirect : Bool) : Res (CmdOp × Overrides) :=
  match cmd with
  | .read x cnt => do
    let o := s.engine.overrides .sramRw indirect
    require (spanOk (xferOr o (s.xfer x)) (countOr o cnt)) .burstPastRegister31
    pure (.sramRead a (xferOr o (s.xfer x)) (countOr o cnt), o)
  | .write x cnt => do
    let o := s.engine.overrides .sramRw indirect
    require (spanOk (xferOr o (s.xfer x)) (countOr o cnt)) .burstPastRegister31
    pure (.sramWrite a (xferOr o (s.xfer x)) (countOr o cnt) (o.mask.map (· &&& 0x0F)), o)
  | .bitWr x op =>
    let o := s.engine.overrides .sramBit indirect
    .ok (.sramBit a (xferOr o (s.xfer x)) (bitOpOr o op), o)
  | .readLock x cnt => do
    let o := s.engine.overrides .sramLock indirect
    require (spanOk (xferOr o (s.xfer x)) (countOr o cnt)) .burstPastRegister31
    pure (.sramReadLock a (xferOr o (s.xfer x)) (countOr o cnt), o)
  | .writeUnlock x cnt => do
    let o := s.engine.overrides .sramLock indirect
    require (spanOk (xferOr o (s.xfer x)) (countOr o cnt)) .burstPastRegister31
    pure (.sramWriteUnlock a (xferOr o (s.xfer x)) (countOr o cnt), o)
  | .unlock => .ok (.sramUnlock a, s.engine.overrides .sramLock indirect)
  | .push list =>
    let o := s.engine.overrides .sramPushPop indirect
    .ok (.sramPush a (o.list.getD list), o)
  | .pop x list =>
    let o := s.engine.overrides .sramPushPop indirect
    .ok (.sramPop (xferOr o (s.xfer x)) (o.list.getD list), o)

/-- The SRAM Unit queue (R900): a bit write goes to the Write/Order queue whatever its selector (R920), and
`optimize_mem` sorts only reads, read locks and pops into the Read queue. -/
def sramQueueOf (q : SramQueue) (cmd : SramCmd) : UnitQueue :=
  match q, cmd with
  | _, .bitWr .. => .sramOrder
  | .priority, _ => .sramPrio
  | .ordered, _ => .sramOrder
  | .optimizeMem, .read .. | .optimizeMem, .readLock .. | .optimizeMem, .pop .. => .sramRead
  | .optimizeMem, _ => .sramOrder

/-- `sram` (R547). -/
def execSram (cmd : SramCmd) (a1 a2 : Src) (q : SramQueue) (tok : RefTok) (s : State) :
    Host.Outcome State Fault Refusal :=
  finish do
    let a ← s.address a1 a2
    let (op, o) ← s.sramOp cmd a tok.indirect
    s.issue (s.command op (sramQueueOf q cmd) o true .sram tok false) .sram tok

end Sys2Proof.Machine
end

