-- ==== Sys2Proof/Machine/Dispatch.lean ====
section
/-! DEFINITION. The dispatch: one arm per instruction of the opcode table, each one direct call of its meaning. -/

namespace Sys2Proof.Machine

def exec (i : Instr) (s : State) : Host.Outcome State Fault Refusal :=
  match i with
  | .alu dest a op b => Sys2Proof.Machine.execAlu dest a op b s
  | .aluShf dest a op b shf => Sys2Proof.Machine.execAluShf dest a op b shf s
  | .dblShf dest a b shf => Sys2Proof.Machine.execDblShf dest a b shf s
  | .br label tok => Sys2Proof.Machine.execBr label tok s
  | .brEq0 label tok => Sys2Proof.Machine.execBrEq0 label tok s
  | .brNe0 label tok => Sys2Proof.Machine.execBrNe0 label tok s
  | .brGt0 label tok => Sys2Proof.Machine.execBrGt0 label tok s
  | .brGe0 label tok => Sys2Proof.Machine.execBrGe0 label tok s
  | .brLt0 label tok => Sys2Proof.Machine.execBrLt0 label tok s
  | .brLe0 label tok => Sys2Proof.Machine.execBrLe0 label tok s
  | .brCout label tok => Sys2Proof.Machine.execBrCout label tok s
  | .brNotCout label tok => Sys2Proof.Machine.execBrNotCout label tok s
  | .brBset reg pos label tok => Sys2Proof.Machine.execBrBset reg pos label tok s
  | .brBclr reg pos label tok => Sys2Proof.Machine.execBrBclr reg pos label tok s
  | .brEqByte reg byteSpec value label tok => Sys2Proof.Machine.execBrEqByte reg byteSpec value label tok s
  | .brNeByte reg byteSpec value label tok => Sys2Proof.Machine.execBrNeByte reg byteSpec value label tok s
  | .brEqCtx ctx label tok => Sys2Proof.Machine.execBrEqCtx ctx label tok s
  | .brNeCtx ctx label tok => Sys2Proof.Machine.execBrNeCtx ctx label tok s
  | .brInpState st label tok => Sys2Proof.Machine.execBrInpState st label tok s
  | .brNotSignal e label tok => Sys2Proof.Machine.execBrNotSignal e label tok s
  | .jump reg label tok => Sys2Proof.Machine.execJump reg label tok s
  | .rtn reg tok => Sys2Proof.Machine.execRtn reg tok s
  | .csr rw x reg cnt tok => Sys2Proof.Machine.execCsr rw x reg cnt tok s
  | .fastWr imm reg indirect => Sys2Proof.Machine.execFastWr imm reg indirect s
  | .localCsrRd reg => Sys2Proof.Machine.execLocalCsrRd reg s
  | .localCsrWr reg src => Sys2Proof.Machine.execLocalCsrWr reg src s
  | .rFifoRd x op1 op2 cnt tok => Sys2Proof.Machine.execRFifoRd x op1 op2 cnt tok s
  | .pciDma x orderQueue tok => Sys2Proof.Machine.execPciDma x orderQueue tok s
  | .scratch cmd op1 op2 tok => Sys2Proof.Machine.execScratch cmd op1 op2 tok s
  | .sdram cmd a1 a2 queue chain tok => Sys2Proof.Machine.execSdram cmd a1 a2 queue chain tok s
  | .sram cmd a1 a2 queue tok => Sys2Proof.Machine.execSram cmd a1 a2 queue tok s
  | .tFifoWr x op1 op2 cnt tok => Sys2Proof.Machine.execTFifoWr x op1 op2 cnt tok s
  | .findBset src shf clr => Sys2Proof.Machine.execFindBset src shf clr s
  | .findBsetWithMask mask src shf clr => Sys2Proof.Machine.execFindBsetWithMask mask src shf clr s
  | .immed dest value shift => Sys2Proof.Machine.execImmed dest value shift s
  | .immedB0 dest value => Sys2Proof.Machine.execImmedB0 dest value s
  | .immedB1 dest value => Sys2Proof.Machine.execImmedB1 dest value s
  | .immedB2 dest value => Sys2Proof.Machine.execImmedB2 dest value s
  | .immedB3 dest value => Sys2Proof.Machine.execImmedB3 dest value s
  | .immedW0 dest value => Sys2Proof.Machine.execImmedW0 dest value s
  | .immedW1 dest value => Sys2Proof.Machine.execImmedW1 dest value s
  | .ldField dest mask src shf => Sys2Proof.Machine.execLdField dest mask src shf s
  | .ldFieldWClr dest mask src shf => Sys2Proof.Machine.execLdFieldWClr dest mask src shf s
  | .loadAddr dest label => Sys2Proof.Machine.execLoadAddr dest label s
  | .loadBsetResult1 dest => Sys2Proof.Machine.execLoadBsetResult1 dest s
  | .loadBsetResult2 dest => Sys2Proof.Machine.execLoadBsetResult2 dest s
  | .ctxArb ev defer1 => Sys2Proof.Machine.execCtxArb ev defer1 s
  | .nop => Sys2Proof.Machine.execNop s
  | .hash1x48 x tok => Sys2Proof.Machine.execHash1x48 x tok s
  | .hash2x48 x tok => Sys2Proof.Machine.execHash2x48 x tok s
  | .hash3x48 x tok => Sys2Proof.Machine.execHash3x48 x tok s
  | .hash1x64 x tok => Sys2Proof.Machine.execHash1x64 x tok s
  | .hash2x64 x tok => Sys2Proof.Machine.execHash2x64 x tok s
  | .hash3x64 x tok => Sys2Proof.Machine.execHash3x64 x tok s
  | .nop1 => Sys2Proof.Machine.execNop1 s
  | .nop2 => Sys2Proof.Machine.execNop2 s
  | .nop3 => Sys2Proof.Machine.execNop3 s
  | .nop4 => Sys2Proof.Machine.execNop4 s
  | .nop5 => Sys2Proof.Machine.execNop5 s
  | .nop6 => Sys2Proof.Machine.execNop6 s
  | .nop7 => Sys2Proof.Machine.execNop7 s
  | .nop8 => Sys2Proof.Machine.execNop8 s
  | .rxrdy0 => Sys2Proof.Machine.execRxrdy0 s
  | .rxrdy0to1 => Sys2Proof.Machine.execRxrdy0to1 s
  | .rxrdy0to2 => Sys2Proof.Machine.execRxrdy0to2 s
  | .rxrdy0to3 => Sys2Proof.Machine.execRxrdy0to3 s
  | .rxrdy0to4 => Sys2Proof.Machine.execRxrdy0to4 s
  | .rxrdy0to5 => Sys2Proof.Machine.execRxrdy0to5 s
  | .rxrdy0to6 => Sys2Proof.Machine.execRxrdy0to6 s
  | .rxrdy1 => Sys2Proof.Machine.execRxrdy1 s
  | .rxrdy1to2 => Sys2Proof.Machine.execRxrdy1to2 s
  | .rxrdy1to3 => Sys2Proof.Machine.execRxrdy1to3 s
  | .rxrdy1to4 => Sys2Proof.Machine.execRxrdy1to4 s
  | .rxrdy1to5 => Sys2Proof.Machine.execRxrdy1to5 s
  | .rxrdy1to6 => Sys2Proof.Machine.execRxrdy1to6 s
  | .rxrdy2 => Sys2Proof.Machine.execRxrdy2 s
  | .rxrdy2to3 => Sys2Proof.Machine.execRxrdy2to3 s
  | .rxrdy2to4 => Sys2Proof.Machine.execRxrdy2to4 s
  | .rxrdy2to5 => Sys2Proof.Machine.execRxrdy2to5 s
  | .rxrdy2to6 => Sys2Proof.Machine.execRxrdy2to6 s
  | .rxrdy3 => Sys2Proof.Machine.execRxrdy3 s
  | .rxrdy3to4 => Sys2Proof.Machine.execRxrdy3to4 s
  | .rxrdy3to5 => Sys2Proof.Machine.execRxrdy3to5 s
  | .rxrdy3to6 => Sys2Proof.Machine.execRxrdy3to6 s
  | .rxrdy4 => Sys2Proof.Machine.execRxrdy4 s
  | .rxrdy4to5 => Sys2Proof.Machine.execRxrdy4to5 s
  | .rxrdy4to6 => Sys2Proof.Machine.execRxrdy4to6 s
  | .rxrdy5 => Sys2Proof.Machine.execRxrdy5 s
  | .rxrdy5to6 => Sys2Proof.Machine.execRxrdy5to6 s
  | .rxrdy6 => Sys2Proof.Machine.execRxrdy6 s
  | .txrdy0 => Sys2Proof.Machine.execTxrdy0 s
  | .txrdy0to1 => Sys2Proof.Machine.execTxrdy0to1 s
  | .txrdy0to2 => Sys2Proof.Machine.execTxrdy0to2 s
  | .txrdy0to3 => Sys2Proof.Machine.execTxrdy0to3 s
  | .txrdy0to4 => Sys2Proof.Machine.execTxrdy0to4 s
  | .txrdy0to5 => Sys2Proof.Machine.execTxrdy0to5 s
  | .txrdy0to6 => Sys2Proof.Machine.execTxrdy0to6 s
  | .txrdy1 => Sys2Proof.Machine.execTxrdy1 s
  | .txrdy1to2 => Sys2Proof.Machine.execTxrdy1to2 s
  | .txrdy1to3 => Sys2Proof.Machine.execTxrdy1to3 s
  | .txrdy1to4 => Sys2Proof.Machine.execTxrdy1to4 s
  | .txrdy1to5 => Sys2Proof.Machine.execTxrdy1to5 s
  | .txrdy1to6 => Sys2Proof.Machine.execTxrdy1to6 s
  | .txrdy2 => Sys2Proof.Machine.execTxrdy2 s
  | .txrdy2to3 => Sys2Proof.Machine.execTxrdy2to3 s
  | .txrdy2to4 => Sys2Proof.Machine.execTxrdy2to4 s
  | .txrdy2to5 => Sys2Proof.Machine.execTxrdy2to5 s
  | .txrdy2to6 => Sys2Proof.Machine.execTxrdy2to6 s
  | .txrdy3 => Sys2Proof.Machine.execTxrdy3 s
  | .txrdy3to4 => Sys2Proof.Machine.execTxrdy3to4 s
  | .txrdy3to5 => Sys2Proof.Machine.execTxrdy3to5 s
  | .txrdy3to6 => Sys2Proof.Machine.execTxrdy3to6 s
  | .txrdy4 => Sys2Proof.Machine.execTxrdy4 s
  | .txrdy4to5 => Sys2Proof.Machine.execTxrdy4to5 s
  | .txrdy4to6 => Sys2Proof.Machine.execTxrdy4to6 s
  | .txrdy5 => Sys2Proof.Machine.execTxrdy5 s
  | .txrdy5to6 => Sys2Proof.Machine.execTxrdy5to6 s
  | .txrdy6 => Sys2Proof.Machine.execTxrdy6 s
  | .rxAutopush => Sys2Proof.Machine.execRxAutopush s
  | .txAutopush => Sys2Proof.Machine.execTxAutopush s
  | .flwctl => Sys2Proof.Machine.execFlwctl s
  | .get1x1 => Sys2Proof.Machine.execGet1x1 s
  | .get1x2 => Sys2Proof.Machine.execGet1x2 s
  | .get1x3 => Sys2Proof.Machine.execGet1x3 s
  | .get1x4 => Sys2Proof.Machine.execGet1x4 s
  | .get1x5 => Sys2Proof.Machine.execGet1x5 s
  | .get1x6 => Sys2Proof.Machine.execGet1x6 s
  | .get1x7 => Sys2Proof.Machine.execGet1x7 s
  | .get1x8 => Sys2Proof.Machine.execGet1x8 s
  | .get2x1 => Sys2Proof.Machine.execGet2x1 s
  | .get2x2 => Sys2Proof.Machine.execGet2x2 s
  | .get2x3 => Sys2Proof.Machine.execGet2x3 s
  | .get2x4 => Sys2Proof.Machine.execGet2x4 s
  | .get2x5 => Sys2Proof.Machine.execGet2x5 s
  | .get2x6 => Sys2Proof.Machine.execGet2x6 s
  | .get2x7 => Sys2Proof.Machine.execGet2x7 s
  | .get2x8 => Sys2Proof.Machine.execGet2x8 s
  | .sendx1 => Sys2Proof.Machine.execSendx1 s
  | .sendx2 => Sys2Proof.Machine.execSendx2 s
  | .sendx3 => Sys2Proof.Machine.execSendx3 s
  | .sendx4 => Sys2Proof.Machine.execSendx4 s
  | .sendx5 => Sys2Proof.Machine.execSendx5 s
  | .sendx6 => Sys2Proof.Machine.execSendx6 s
  | .sendx7 => Sys2Proof.Machine.execSendx7 s
  | .sendx8 => Sys2Proof.Machine.execSendx8 s

end Sys2Proof.Machine
end

