-- ==== Sys2Proof/Machine/Events.lean ====
section
/-! DEFINITION. One step of one agent, or one act of the environment (00_scope.md R10; 92_eei_decisions.md D22, D30,
D54): the fetch of a microengine and of the Ready Bus sequencer, and what each event does. -/

namespace Sys2Proof.Machine

/-! ### Microengines (R53, R401, R642) -/

/-- The instruction at the running context's program counter: beyond the control store (D8), unwritten (D10) and illegal
words (U24) are faults. A store that decoded words fill holds well-formed microengine instructions only; a label beyond
this chip's control store has no encoding (R402, R481), and it and any other term is the word it encodes to, which is
illegal (DESIGN CHOICE, log entry 3). -/
def State.fetchMe (s : State) (m : Fin 6) : Res Instr :=
  let pc := (s.me m).pc.toNat
  if s.board.ustoreWords ≤ pc then stopFault (.pcOutOfStore pc)
  else match ustoreGet pc (s.me m).ustore with
    | none => stopFault (.unwrittenStore pc)
    | some (.raw w) => stopFault (.illegalWord w)
    | some (.instr i) =>
      if i.wfIn s.board.ustoreWords && !i.isSeq then .ok i else stopFault (.illegalWord (Config.meEncode i))

/-- One step of microengine `m`: nothing in reset; the arbiter when no context is executing; else one instruction. -/
def State.meStep (s : State) (m : Fin 6) : Host.Outcome State Fault Refusal :=
  if (s.me m).inReset then .next s
  else if !(s.me m).executing then
    .next { s.setMe m ((s.me m).arbitrate s.enableDraw) with free := s.free + 1 }
  else match s.fetchMe m with
    | .ok i => exec i { s with cur := m }
    | .error e => finish (.error e)

/-! ### Ready Bus sequencer (R700, R702) -/

/-- The pass is over and its successor waits for the rate timer: it has not expired since the pass began, and the
instructions of the pass have taken less than RDYBUS_SYNCH_COUNT_DEFAULT's cycles, below which the count has no effect
(R700, R704). The layout of that register is lost (N30): its whole longword is the count (DESIGN CHOICE, log entry 78). -/
def Fbi.seqWaits (f : Fbi) : Bool := f.seqWait && !f.seqExpired && decide (f.seqTime < f.synchCount.toNat)

/-- The sequencer executes instructions: enabled, master, not waiting for the rate timer. The enable is asked before every
instruction, so that clearing it stops the sequencer at once, in mid-pass too: R1190 stops it when its enable is cleared,
R700's loop tests the enable between passes only (DESIGN CHOICE, log entry 78). Where the level of TK_IN at reset and the
slave bit of RDYBUS_TEMPLATE_CTL disagree R702 does not say which decides: the register bit alone does, and TK_IN shows in
RCV_RDY_CNT only (DESIGN CHOICE, log entry 36). -/
def Fbi.seqRuns (f : Fbi) : Bool := f.seqEnable && !f.seqSlave && !f.seqWaits

/-- The opcode at the sequencer's position. -/
def Fbi.seqByte (f : Fbi) : Byte := f.prog[f.seqPos]

/-- One step of the sequencer; a byte that is no opcode is refused (U10). -/
def State.readyBusStep (s : State) : Host.Outcome State Fault Refusal :=
  if s.fbi.seqRuns then
    match decodeSeq s.fbi.seqByte with
    | some i => exec i s
    | none => .refused (.undefinedOpcode s.fbi.seqByte)
  else .next s

/-! ### The environment's levels and ticks (D30) -/

/-- Replace the environment's levels. -/
def State.withEnv (s : State) (e : Env) : State := { s with env := e }

/-- The slow port devices offer bytes from byte `x` of their 2 Mbyte space on (R884); outside it there is no device. -/
def State.slowOffer (s : State) (x : Nat) (bs : List Byte) : State :=
  if x + bs.length ≤ 0x200000 then s.withEnv { s.env with slow := s.env.slow.writeBytes x bs } else s

/-- CYCLE_CNT counts (R767). -/
def State.cycleTick (s : State) : State := s.withFbi { s.fbi with cycleCnt := s.fbi.cycleCnt + 1 }

/-- The sequence rate timer expires, in the pass it was started with or in the wait after it (R700). -/
def State.seqTimer (s : State) : State := s.withFbi { s.fbi with seqExpired := true }

/-- Record pci_irq_l and the GPIO pins the core drives where they differ from what they were in `old` (R985, R1191). -/
def State.noteLevels (s old : State) : State :=
  let s1 := if s.pci.irqPin == old.pci.irqPin then s else s.emit (.pciIrq s.pci.irqPin)
  if s.gpioOut == old.gpioOut && s.sys.gpioDriven &&& s.gpioOut == old.sys.gpioDriven &&& old.gpioOut then s1
  else s1.emit (.gpio s.gpioOut (s.sys.gpioDriven &&& s.gpioOut))

/-- What an event other than an instruction's execution does. -/
def State.act (s : State) (e : Event) : Host.Outcome State Fault Refusal :=
  match e with
  | .me _ | .readyBus => .next s
  | .bus m => finish (s.busStep m)
  | .sdramUnit => finish s.sdramStep
  | .sramUnit => finish s.sramStep
  | .fbiPull => finish s.fbiPullStep
  | .fbiPush => finish s.fbiPushStep
  | .seqTimer => .next s.seqTimer
  | .receive rx => .next (s.receiveStep rx)
  | .transmit => finish s.transmitStep
  | .dma n ans => finish (s.dmaStep n ans)
  | .dmaAlloc n => .next (s.dmaAlloc n)
  | .pciTarget t => finish (s.pciTarget t)
  | .pciRequests v => .next (s.pciRequests v)
  | .pciNoFrame => .next s.pciNoFrame
  | .pciInbound => finish s.pciInbound
  | .discardTimer => .next s.discardTimer
  | .pciOutbound ans => .next (s.pciOutbound ans)
  | .strongArm late ans => finish (s.armStep late ans)
  | .writeBuffer => finish s.drainWb
  | .readBufferFill ans => finish (s.readBufferFill ans)
  | .timerTick n => .next (s.timerTick n)
  | .rtcTick => .next (s.withSys s.sys.rtcTick)
  | .cycleTick => .next s.cycleTick
  | .uartRx b parity framing => .next (s.withSys (s.sys.uartReceive b parity framing))
  | .uartTx => .next s.uartTransmit
  | .gpioIn v => .next (s.withEnv { s.env with gpio := v })
  | .cint level => .next (s.withEnv { s.env with cint := level })
  | .macRx m b => .next (s.withEnv { s.env with macRx := s.env.macRx.set m b })
  | .macTx m b => .next (s.withEnv { s.env with macTx := s.env.macTx.set m b })
  | .slaveData w => .next (s.withEnv { s.env with slave := s.env.slave ++ [w] })
  | .chainData w => .next (s.withEnv { s.env with chained := s.env.chained ++ [w] })
  | .fastRx v => .next (s.withEnv { s.env with fastRx := v })
  | .slowData x bs => .next (s.slowOffer x bs)
  | .sdramInitDone => .next s.sdramInitDone
  | .resetIn => .next s.chipReset
  | .pciRst => .next s.pciRst

/-- What one event does. A microengine's and the sequencer's instructions change no level of a pin. -/
def State.run (s : State) (e : Event) : Host.Outcome State Fault Refusal :=
  match e with
  | .me m => s.meStep m
  | .readyBus => s.readyBusStep
  | e =>
    match s.act e with
    | .next t => .next (t.noteLevels s)
    | r => r

/-- The event of this step and the state without it: the first listed input, or a free choice when none is listed. -/
def State.nextEvent (s : State) : Event × State :=
  match s.inputs with
  | e :: rest => (e, { s with inputs := rest })
  | [] => (Config.freeEvent s.free, { s with free := s.free + 1 })

/-! ### Placing an instruction -/

/-- Microengine `m` out of reset, running context 0 at word 0 of a control store that holds `w` there. -/
def meHolding (w : Word) : Me :=
  { Me.reset with
    inReset := false, ctxEnables := 1, oldEnables := 1, executing := true, hasRun := true
    ustore := [(0, ustoreEntry w)] }

/-- The sequencer about to execute byte `b`. -/
def Fbi.holding (f : Fbi) (b : Byte) : Fbi :=
  { f with seqEnable := true, seqSlave := false, seqWait := false, seqPos := 0, prog := f.prog.set 0 b }

/-- An 8-bit instruction is the Ready Bus sequencer's next, any other microengine 0's next. -/
def State.placeWord (s : State) (nbits w : Nat) : State :=
  if nbits = 8 then { s with fbi := s.fbi.holding (BitVec.ofNat 8 w), inputs := [.readyBus] }
  else { s.setMe 0 (meHolding (BitVec.ofNat 32 (w % 2 ^ nbits))) with inputs := [.me 0] }

end Sys2Proof.Machine
end

