-- ==== Sys2Proof/Machine/Step.lean ====
section
/-! DEFINITION. One step of the machine, and where the fetch finds its next instruction. -/

namespace Sys2Proof.Machine

/-- One step: the next event is run. -/
def step (s : State) : Host.Outcome State Fault Refusal := s.nextEvent.2.run s.nextEvent.1

/-- The instruction of bits `w` stored where the next step fetches it. -/
def State.withFetchWord (s : State) (nbits w : Nat) : State := s.placeWord nbits w

end Sys2Proof.Machine
end

