-- ==== Sys2Proof/Safety.lean ====
section
/-! DEFINITION. What statements say of a state: the invariants every step keeps, what a step leaves unchanged, and the
tables of the manual written with plain numbers, beside which the machine's own definitions are held. -/

namespace Sys2Proof.Machine

/-! ### Invariants -/

/-- Every memory is in its canonical form; so are the bytes of the slow port devices and the older contents of SDRAM that
the prefetch window may deliver (R858). -/
def State.memoryOk (s : State) : Prop :=
  s.fbi.scratch.wf ∧ s.fbi.rfifo.wf ∧ s.fbi.tfifo.wf ∧ s.sdram.mem.wf ∧ s.sram.mem.wf ∧ s.sram.boot.wf ∧ s.env.slow.wf
    ∧ ∀ m ∈ s.sdram.past.getD [], m.wf

/-- The FIFOs, queues and arrays hold no more than the manual gives them: command FIFO 2 (R61), RCV_REQ 2 (R200), RCV_CNTL
4 (R201), GET_CMD and SEND_CMD 8 (R214), SDRAM command queues 16 each (R845), SRAM Read, Write/Order and High Priority
queues 16, 24 and 8 (R900), lock CAM 8 (R910), Read_lock Fail queue 23 (R912), AMBA data buffers (R856, R904), core write
buffer 8 (R85), DMA request FIFO DMA_REQ_FIFO_DEPTH, by default 8 (R965), UART FIFOs 8 (R1095). -/
def State.fifosOk (s : State) : Prop :=
  (∀ m, (s.me m).cmdFifo.length ≤ 2) ∧ s.fbi.rcvReq.length ≤ 2 ∧ s.fbi.rcvCntl.length ≤ 4
    ∧ s.fbi.getCmd.length ≤ 8 ∧ s.fbi.sendCmd.length ≤ 8 ∧ s.sram.cam.length ≤ 8 ∧ s.sram.lockFail.length ≤ 23
    ∧ s.sdram.posted.length ≤ 2 ∧ s.sram.posted.length ≤ 1 ∧ s.arm.wb.length ≤ 8
    ∧ s.sys.uartTx.length ≤ 8 ∧ s.sys.uartRx.length ≤ 8
    ∧ s.sdram.orderQ.length ≤ 16 ∧ s.sdram.oddQ.length ≤ 16 ∧ s.sdram.evenQ.length ≤ 16 ∧ s.sdram.prioQ.length ≤ 16
    ∧ s.sram.readQ.length ≤ 16 ∧ s.sram.orderQ.length ≤ 24 ∧ s.sram.prioQ.length ≤ 8
    ∧ s.pci.dmaReq.length ≤ s.board.dmaDepth

/-! ### Runs (R1180, R1190) -/

/-- The PCI host's answer takes the transaction further: it brings data, or ends it. -/
def ansProgresses : PciAns → Bool
  | .retry => false
  | .done ws _ => !ws.isEmpty
  | .disconnectAfter k ws _ => decide (0 < k) && !ws.isEmpty
  | .masterAbort | .targetAbort => true

/-- The event is a step of DMA channel `n` that can make progress. -/
def dmaServes (n : Fin 2) : Event → Bool
  | .dma k ans => k == n && ansProgresses ans
  | _ => false

/-- The event takes an entry out of the Outbound FIFO, or completes a read buffer fill of up to eight longwords. -/
def outboundServes : Event → Bool
  | .pciOutbound ans => ansProgresses ans
  | _ => false
def fillServes : Event → Bool
  | .readBufferFill ans => decide (8 ≤ ans.length) && ans.all ansProgresses
  | _ => false

/-- The steps by which the units empty their queues, one for each queue of commands, posted writes or requests, and by
which what such a step waits for comes: the end of the SDRAM initialisation (R832), the progress of both DMA channels and
of the Outbound FIFO, and the arbiter's end of a grant that its master does not use (R946). -/
def serviceEvents : List (Event → Bool) :=
  ([.sdramUnit, .sdramInitDone, .sramUnit, .fbiPull, .fbiPush, .writeBuffer, .pciInbound, .pciNoFrame, .dmaAlloc 0,
    .dmaAlloc 1, .bus 0, .bus 1, .bus 2, .bus 3, .bus 4, .bus 5] : List Event).map (fun e => fun x => x == e)
  ++ [dmaServes 0, dmaServes 1, outboundServes, fillServes]

/-- The state after `n` events of a schedule, none when a step has stopped. -/
def State.after (s : State) (es : Nat → Event) : Nat → Option State
  | 0 => some s
  | n + 1 => (s.after es n).bind fun t =>
    match t.run (es n) with
    | .next u => some u
    | _ => none

/-- A schedule under which every queued command is served (R1180 (2)): each service step comes again and again. The
order of the steps is free besides (D22, D54), so a statement about what is eventually served has this premise. -/
def Fair (es : Nat → Event) : Prop := ∀ p ∈ serviceEvents, ∀ n, ∃ k, n ≤ k ∧ p (es k) = true

/-- Every command queue and the write buffer are empty. -/
def State.queuesEmpty (s : State) : Bool :=
  s.mes.toList.all (·.cmdFifo.isEmpty) && s.fbi.hashQ.isEmpty && s.fbi.pullQ.isEmpty && s.fbi.pushQ.isEmpty
    && s.fbi.hashJob.isNone && s.fbi.hashOut.isEmpty && s.fbi.tasRet.isEmpty
    && s.sdram.orderQ.isEmpty && s.sdram.oddQ.isEmpty && s.sdram.evenQ.isEmpty && s.sdram.prioQ.isEmpty
    && s.sram.orderQ.isEmpty && s.sram.readQ.isEmpty && s.sram.prioQ.isEmpty && s.sram.lockFail.isEmpty
    && s.sdram.posted.isEmpty && s.sram.posted.isEmpty && s.arm.wb.isEmpty && s.pci.dmaReq.isEmpty

/-- The core is about to execute a branch to itself at the address the host names. -/
def State.branchesToSelf (s : State) (at_ : Word) : Bool :=
  s.arm.pc == at_ && s.arm.resume.isNone && s.arm.fetching.isNone && match s.armFetch (at_ &&& ~~~3) .none with
    | .ok (.done w _ _) => (Config.armIsa w s.arm.view).acts == [.branch at_]
    | _ => false

/-- A run is finished (R1190, D55): every microengine is Paused, Stopped or in Reset, every queue is empty, no DMA channel
is busy, and the core branches to itself at the address the host names. Its result is the state, the outputs in it. -/
def State.finished (s : State) (at_ : Word) : Bool :=
  s.mes.toList.all (·.status != .running) && s.queuesEmpty && s.pci.free 0 && s.pci.free 1 && s.branchesToSelf at_

/-! ### What stays -/

/-- Every byte of every memory reads as before. -/
def sameMemory (s t : State) : Prop :=
  ∀ a, t.fbi.scratch.read a = s.fbi.scratch.read a ∧ t.fbi.rfifo.read a = s.fbi.rfifo.read a
    ∧ t.fbi.tfifo.read a = s.fbi.tfifo.read a ∧ t.sdram.mem.read a = s.sdram.mem.read a
    ∧ t.sram.mem.read a = s.sram.mem.read a ∧ t.sram.boot.read a = s.sram.boot.read a

/-- No unit, no device and no output changed: only microengines and the draw counter may have. -/
def unitsKept (s t : State) : Prop := t = { s with mes := t.mes, free := t.free } ∧ sameMemory s t

/-- Only the engine the instruction ran on changed. -/
def othersKept (s t : State) : Prop := unitsKept s t ∧ ∀ k, k ≠ s.cur → t.me k = s.me k

/-- A register of a microengine, by its absolute number (R41, R45). -/
inductive RegCell where
  | gpr (bank : Bank) (i : Fin 64)
  | sramRd (i : Fin 32)
  | sramWr (i : Fin 32)
  | sdramRd (i : Fin 32)
  | sdramWr (i : Fin 32)
deriving DecidableEq, Repr

/-- What a register holds. -/
def Me.cell (m : Me) : RegCell → Word
  | .gpr .a i => m.gprA[i]
  | .gpr .b i => m.gprB[i]
  | .sramRd i => m.sramRd[i]
  | .sramWr i => m.sramWr[i]
  | .sdramRd i => m.sdramRd[i]
  | .sdramWr i => m.sdramWr[i]

/-- The register a destination names in context `c` (R42, R48, D5): relative GPR `r` is `16c + r` of its bank, relative
transfer register `r` is `8c + r`. -/
def destCell (c : Fin 4) : Dest → Option RegCell
  | .gpr (.rel k r) => some (.gpr k ⟨16 * c.val + r.val, by omega⟩)
  | .gpr (.abs k r) => some (.gpr k r)
  | .sram (.rel r) => some (.sramWr ⟨8 * c.val + r.val, by omega⟩)
  | .sram (.abs r) => some (.sramWr r)
  | .sdram (.rel r) => some (.sdramWr ⟨8 * c.val + r.val, by omega⟩)
  | .sdram (.abs r) => some (.sdramWr r)
  | .none => none

/-- The register a source names in context `c`; none for an immediate and for `--`. -/
def srcCell (c : Fin 4) : Src → Option RegCell
  | .gpr (.rel k r) => some (.gpr k ⟨16 * c.val + r.val, by omega⟩)
  | .gpr (.abs k r) => some (.gpr k r)
  | .sram (.rel r) => some (.sramRd ⟨8 * c.val + r.val, by omega⟩)
  | .sram (.abs r) => some (.sramRd r)
  | .sdram (.rel r) => some (.sdramRd ⟨8 * c.val + r.val, by omega⟩)
  | .sdram (.abs r) => some (.sdramRd r)
  | .imm _ => none
  | .none => none

/-- Every register of the engine is as before, but the destination, which holds `v`; `--` writes nothing. -/
def destWritten (m m' : Me) (d : Dest) (v : Word) : Prop :=
  ∀ k, m'.cell k = if destCell m.active d = some k then v else m.cell k

/-- No register of the engine changed. -/
def regsKept (m m' : Me) : Prop := ∀ k, m'.cell k = m.cell k

/-- The find-bit-set registers and their counter stay; one more instruction has gone by. -/
def findKept (m m' : Me) : Prop :=
  m'.result1 = m.result1 ∧ m'.result2 = m.result2 ∧ m'.fbsCnt = m.fbsCnt ∧ m'.findAge = min 3 (m.findAge + 1)

/-- Contexts, signals and arbiter stay. -/
def contextsKept (m m' : Me) : Prop :=
  m'.active = m.active ∧ m'.nctx = m.nctx ∧ m'.pctx = m.pctx ∧ m'.executing = m.executing ∧ m'.hasRun = m.hasRun
    ∧ m'.sigEvents = m.sigEvents ∧ m'.wakeup = m.wakeup ∧ m'.ctxEnables = m.ctxEnables ∧ m'.oldEnables = m.oldEnables

/-- Control store, reset bit, journal enable and the local CSRs' own fields stay. -/
def controlKept (m m' : Me) : Prop :=
  m'.inReset = m.inReset ∧ m'.ustore = m.ustore ∧ m'.journaling = m.journaling ∧ m'.uaddr = m.uaddr
    ∧ m'.cse = m.cse ∧ m'.ecs = m.ecs ∧ m'.csrRaw = m.csrRaw

/-- The latches every executed instruction leaves (R55, R58): the previous codes are the codes before it, no CSR data is
latched for the next instruction. -/
def latchesLeft (m m' : Me) : Prop := m'.prevCc = m.cc ∧ m'.csrLatch = none ∧ m'.csrShadow = none

/-- The frame of an instruction that is no branch, swap, reference or local CSR access: the engine alone changes, its
control state, commands and pending signals stay; outside a deferred position the program counter moves on by one and
no context changes. -/
def ordinary (s t : State) : Prop :=
  othersKept s t ∧ controlKept s.engine t.engine ∧ latchesLeft s.engine t.engine
    ∧ t.engine.cmdFifo = s.engine.cmdFifo ∧ t.engine.pending = s.engine.pending
    ∧ (s.engine.defer = none → t.engine.defer = none ∧ contextsKept s.engine t.engine
        ∧ t.engine.pcs = s.engine.pcs.set s.engine.active (s.engine.pc + 1))

/-- How a branch leaves the program counter (R481 to R483): at the target or the next word at once, or, with `n` deferred
instructions, at the next word with the decision kept for after them. -/
def branched (m m' : Me) (taken : Bool) (target : BitVec 12) (n : Fin 4) : Prop :=
  (n = 0 → m'.pcs = m.pcs.set m.active (if taken then target else m.pc + 1) ∧ m'.defer = none)
    ∧ (n ≠ 0 → m'.pcs = m.pcs.set m.active (m.pc + 1)
        ∧ m'.defer = some ⟨n.val, if taken then .jump target else .fall⟩)

/-- The frame of a branch: registers, commands, control state and find results stay. -/
def branchFrame (s t : State) : Prop :=
  othersKept s t ∧ controlKept s.engine t.engine ∧ latchesLeft s.engine t.engine ∧ regsKept s.engine t.engine
    ∧ findKept s.engine t.engine ∧ t.engine.cmdFifo = s.engine.cmdFifo ∧ t.engine.pending = s.engine.pending

/-! ### Context swap (R642, R647, D18) -/

/-- Context `k` can run after the running context left, waiting for `w`: enabled, and what it waits for is there. -/
def canRun (m : Me) (en : BitVec 4) (w : Wakeup) (k : Fin 4) : Bool :=
  en.getLsbD k.val && match (if k = m.active then w else m.wakeup[k]) with
    | .voluntary => true
    | .signal e => m.sigEvents[k].getLsbD (sigBit e)

/-- The context the round robin takes, from NCTX on. -/
def nextContext (m : Me) (en : BitVec 4) (w : Wakeup) : Option (Fin 4) :=
  [m.nctx, m.nctx + 1, m.nctx + 2, m.nctx + 3].find? (canRun m en w)

/-- The signals left once context `k` runs: the one it waited for is consumed. -/
def consumed (m : Me) (w : Wakeup) (k : Fin 4) : Vector SigSet 4 :=
  match (if k = m.active then w else m.wakeup[k]) with
  | .voluntary => m.sigEvents
  | .signal e => m.sigEvents.set k (m.sigEvents[k] &&& ~~~(1#9 <<< sigBit e))

/-- The running context left to wait for `w`, with the enables `en`: the next ready context runs, or none does. -/
def swapped (m m' : Me) (en : BitVec 4) (w : Wakeup) : Prop :=
  m'.pcs = m.pcs.set m.active (m.pc + 1) ∧ m'.wakeup = m.wakeup.set m.active w ∧ m'.defer = none
    ∧ m'.ctxEnables = en
    ∧ match nextContext m en w with
      | some k => m'.executing = true ∧ m'.active = k ∧ m'.nctx = k + 1 ∧ m'.pctx = m.active
          ∧ m'.sigEvents = consumed m w k
      | none => m'.executing = false ∧ m'.active = m.active ∧ m'.nctx = m.nctx ∧ m'.sigEvents = m.sigEvents

/-! ### Tables of the manual with plain numbers -/

/-- Table 4-9 (R452), on numbers below 2^32. -/
def specAlu (op : AluOp) (a s : Nat) (c p : Bool) : Nat :=
  match op with
  | .b => s
  | .notB => 2 ^ 32 - 1 - s
  | .add => (a + s) % 2 ^ 32
  | .addCarry => (a + s + c.toNat) % 2 ^ 32
  | .add4 => (a + s) % 16
  | .add8 => (a + s) % 256
  | .add16 => (a + s) % 65536
  | .sub => (a + 2 ^ 32 - s) % 2 ^ 32
  | .bMinusA => (s + 2 ^ 32 - a) % 2 ^ 32
  | .and => a &&& s
  | .notAnd => (2 ^ 32 - 1 - a) &&& s
  | .andNot => a &&& (2 ^ 32 - 1 - s)
  | .or => a ||| s
  | .xor => a ^^^ s
  | .addIfSign => if p then (a + s) % 2 ^ 32 else s

/-- The Carryout an operation defines (R453, D14); none where it is unspecified (U1). -/
def specCarry (op : AluOp) (a s : Nat) (c p : Bool) : Option Bool :=
  match op with
  | .add => some (decide (2 ^ 32 ≤ a + s))
  | .addCarry => some (decide (2 ^ 32 ≤ a + s + c.toNat))
  | .sub => some (decide (s ≤ a))
  | .bMinusA => some (decide (a ≤ s))
  | .addIfSign => if p then some (decide (2 ^ 32 ≤ a + s)) else none
  | _ => none

/-- The shifts of R451 and R455 as plain shifts and rotates; `v` is the A-operand latch; none where unspecified (U2). -/
def specShift (shf : Shf) (b : Word) (v : BitVec 5) : Option Word :=
  match shf with
  | .none => some b
  | .left n => some (b <<< n.toNat)
  | .right n => some (b >>> n.toNat)
  | .rotLeft n => some (b.rotateLeft n.toNat)
  | .rotRight n => some (b.rotateRight n.toNat)
  | .rightIndirect => some (b >>> v.toNat)
  | .leftIndirect => if v = 0 then none else some (b <<< (32 - v.toNat))

/-- The double shift of R459 on the 64-bit number with `a` above `b`. -/
def specDouble (shf : Shf) (a b : Nat) (v : BitVec 5) : Option Nat :=
  match shf with
  | .left n => some ((a * 2 ^ 32 + b) * 2 ^ n.toNat / 2 ^ 32 % 2 ^ 32)
  | .right n => some ((a * 2 ^ 32 + b) / 2 ^ n.toNat % 2 ^ 32)
  | .rightIndirect => some ((a * 2 ^ 32 + b) / 2 ^ v.toNat % 2 ^ 32)
  | .leftIndirect => if v = 0 then none else some ((a * 2 ^ 32 + b) * 2 ^ (32 - v.toNat) / 2 ^ 32 % 2 ^ 32)
  | _ => none

/-- What a source operand holds (R454, R560): its register; an immediate, which CSR data latched by an immediately
preceding `local_csr_rd` replaces; nothing for `--`. A read of an autopush target that the push protect protocol forbids
(R792) holds nothing to read. -/
def operandIs (s : State) (x : Src) (v : Option Word) : Prop :=
  (∀ i, srcCell s.engine.active x = some (.sramRd i) → s.protectedRead i.val = false) ∧
  v = match x with
    | .none => none
    | .imm w => some (s.engine.csrLatch.getD w)
    | x => (srcCell s.engine.active x).map s.engine.cell

/-- The branches on condition codes (R488 to R496) with what each tests. -/
def codeBranches : List ((Label → BrTok → Instr) × (Flags → Bool)) := [
  (Instr.br, fun _ => true), (Instr.brEq0, fun f => f.zero), (Instr.brNe0, fun f => !f.zero),
  (Instr.brGt0, fun f => !f.sign && !f.zero), (Instr.brGe0, fun f => !f.sign), (Instr.brLt0, fun f => f.sign),
  (Instr.brLe0, fun f => f.sign || f.zero), (Instr.brCout, fun f => f.cout), (Instr.brNotCout, fun f => !f.cout)]

/-- The byte and word field loads (R603 to R608): instruction, low bit of the field, its width, its value, and whether
the rest is known to stay. -/
def fieldLoads (d : Dest) (v8 : Byte) (v16 : BitVec 16) : List (Instr × Nat × Nat × Nat × Bool) := [
  (.immedB0 d v8, 0, 8, v8.toNat, false), (.immedB1 d v8, 8, 8, v8.toNat, false),
  (.immedB2 d v8, 16, 8, v8.toNat, false), (.immedB3 d v8, 24, 8, v8.toNat, false),
  (.immedW0 d v16, 0, 16, v16.toNat, false), (.immedW1 d v16, 16, 16, v16.toNat, true)]

/-! ### References (R530, R580, R588, R591) -/

/-- What issuing command `cmd` leaves: it stands last in the engine's command FIFO, the signal it asks for is marked
pending for its thread (R78), registers, units and memories are untouched, and the engine goes on, or swaps out to wait
for `ev` (R644), at once or after one deferred instruction. -/
def issued (s t : State) (cmd : Cmd) (ev : SigEvent) (tok : RefTok) : Prop :=
  t.engine.cmdFifo = s.engine.cmdFifo ++ [cmd]
    ∧ unitsKept s t ∧ regsKept s.engine t.engine ∧ findKept s.engine t.engine ∧ controlKept s.engine t.engine
    ∧ latchesLeft s.engine t.engine ∧ t.engine.cc = s.engine.cc
    ∧ (∀ (k : Fin 6) (c : Fin 4), (t.me k).pending[c] =
        if cmd.sig = some ev ∧ k = cmd.sigMe ∧ c = cmd.sigCtx then (s.me k).pending[c] ||| (1#9 <<< sigBit ev)
        else (s.me k).pending[c])
    ∧ (∀ k, k ≠ s.cur → t.me k = { s.me k with pending := (t.me k).pending })
    ∧ (s.engine.defer = none → tok.ctxSwap = false → t.engine.defer = none ∧ contextsKept s.engine t.engine
        ∧ t.engine.pcs = s.engine.pcs.set s.engine.active (s.engine.pc + 1))
    ∧ (s.engine.defer = none → tok.ctxSwap = true → tok.defer1 = true →
        t.engine.defer = some ⟨1, .swap (.signal ev)⟩ ∧ contextsKept s.engine t.engine
          ∧ t.engine.pcs = s.engine.pcs.set s.engine.active (s.engine.pc + 1))
    ∧ (s.engine.defer = none → tok.ctxSwap = true → tok.defer1 = false → s.engine.hasRun = true →
        s.engine.enWindow ≤ 1 → swapped s.engine t.engine s.engine.ctxEnables (.signal ev))

/-- The engine can issue command `cmd`: the FIFO has room, the signal is not pending, and a context swap does not stand
in a deferred position. -/
def canIssue (s : State) (cmd : Cmd) (tok : RefTok) : Prop :=
  s.engine.cmdFifo.length < 2 ∧ (tok.ctxSwap = true → s.engine.defer = none)
    ∧ ∀ e, cmd.sig = some e → (s.me cmd.sigMe).pending[cmd.sigCtx].getLsbD (sigBit e) = false

/-- A command with no override: everything is the issuing thread's own (R580). -/
def ownCmd (s : State) (op : CmdOp) (q : UnitQueue) (ev : SigEvent) (tok : RefTok) (chain : Bool) : Cmd :=
  { op := op, queue := q, me := s.cur, ctx := s.engine.active, xfMe := s.cur, sigMe := s.cur
    sigCtx := s.engine.active, sig := if tok.sigDone || tok.ctxSwap then some ev else none, chain := chain, link := none }

/-- One form of a reference with a completion signal: the instruction, the event of its unit, the overrides it takes from
the indirect word, and the burst of `regs` transfer registers from `first`, 0 registers where it has no burst (R49). -/
structure RefForm where
  instr : Instr
  event : SigEvent
  overrides : Overrides
  first : Nat
  regs : Nat

/-- The thread that a form's completion signal goes to waits for an earlier one of that event (R78). -/
def signalDue (s : State) (f : RefForm) : Prop :=
  (s.me (f.overrides.me.getD s.cur)).pending[f.overrides.ctx.getD s.engine.active].getLsbD (sigBit f.event) = true

/-- Every form of every reference but `fast_wr`, which asks for no signal (R540 to R547, R652 to R657). -/
def refForms (s : State) (x : Xfer) (a b : Src) (cnt : Nat) (tok : RefTok) (reg : FbiCsr) (op : BitOp) (list : Fin 8)
    (sq : SramQueue) (dq : SdramQueue) (chain order : Bool) : List RefForm :=
  let r := (s.xfer x).val
  let o := fun k => s.engine.overrides k tok.indirect
  let burst := fun (i : Instr) (e : SigEvent) (k : IndirectKind) (per : Nat) =>
    RefForm.mk i e (o k) (xferOr (o k) (s.xfer x)) (per * countOr (o k) cnt)
  let plain := fun (i : Instr) (e : SigEvent) (k : IndirectKind) => RefForm.mk i e (o k) 0 0
  let own := fun (i : Instr) (e : SigEvent) (n : Nat) => RefForm.mk i e {} r n
  [own (.hash1x48 x tok) .fbi 2, own (.hash2x48 x tok) .fbi 4, own (.hash3x48 x tok) .fbi 6,
    own (.hash1x64 x tok) .fbi 2, own (.hash2x64 x tok) .fbi 4, own (.hash3x64 x tok) .fbi 6,
    own (.csr .read x reg cnt tok) .fbi (if reg = .cycleCnt then 2 else cnt), own (.csr .write x reg cnt tok) .fbi cnt,
    own (.pciDma x order tok) .pci 0, own (.scratch .incr a b tok) .fbi 0,
    burst (.rFifoRd x a b cnt tok) .fbi .rFifoRd 2, burst (.tFifoWr x a b cnt tok) .fbi .tFifoWr 2,
    burst (.scratch (.read x cnt) a b tok) .fbi .scratchRw 1, burst (.scratch (.write x cnt) a b tok) .fbi .scratchRw 1,
    plain (.scratch (.bitWr x op) a b tok) .fbi .scratchBit,
    burst (.sdram (.read x cnt) a b dq chain tok) .sdram .sdramRw 2,
    burst (.sdram (.write x cnt) a b dq chain tok) .sdram .sdramRw 2,
    plain (.sdram (.tFifoWr cnt) a b dq chain tok) .sdram .sdramTFifo,
    plain (.sdram (.rFifoRd cnt) a b dq chain tok) .sdram .sdramRFifo,
    burst (.sram (.read x cnt) a b sq tok) .sram .sramRw 1, burst (.sram (.write x cnt) a b sq tok) .sram .sramRw 1,
    burst (.sram (.readLock x cnt) a b sq tok) .sram .sramLock 1,
    burst (.sram (.writeUnlock x cnt) a b sq tok) .sram .sramLock 1,
    plain (.sram .unlock a b sq tok) .sram .sramLock, plain (.sram (.bitWr x op) a b sq tok) .sram .sramBit,
    plain (.sram (.push list) a b sq tok) .sram .sramPushPop,
    plain (.sram (.pop x list) .none .none sq tok) .sram .sramPushPop]

/-- Every form that reads an A or a B operand which may be a transfer register, with `y` as that operand and `z` as the
other (R454, R497 to R506, R610 to R622). -/
def readForms (y z : Src) (d : Dest) (op : AluOp) (shf : Shf) (pos : BitVec 5) (k : Fin 4) (v : Byte) (lanes : BitVec 4)
    (l : Label) (t : BrTok) (clr : Bool) : List Instr := [
  .alu d y op z, .alu d z op y, .aluShf d y op z shf, .aluShf d z op y shf, .dblShf d y z shf, .dblShf d z y shf,
  .brBset y pos l t, .brBclr y pos l t, .brEqByte y k v l t, .brNeByte y k v l t, .jump y l t, .rtn y t,
  .ldField d lanes y shf, .ldFieldWClr d lanes y shf, .findBset y shf clr, .findBsetWithMask y z shf clr,
  .findBsetWithMask z y shf clr]

/-! ### Ready Bus sequencer (R700) -/

/-- How an instruction of `n` IX Bus cycles leaves the sequencer: at the next position, or, after position 11, at 0 with
the pass over; the pass, which instruction 0 begins with its time and its rate timer, has lasted `n` cycles more (R700,
R704). -/
def seqMoved (n : Nat) (f f' : Fbi) : Prop :=
  (if f.seqPos = 11 then f'.seqPos = 0 ∧ f'.seqWait = true
    else f'.seqPos = f.seqPos + 1 ∧ f'.seqWait = (decide (f.seqPos ≠ 0) && f.seqWait)) ∧
  f'.seqTime = (if f.seqPos = 0 then 0 else f.seqTime) + n ∧
  f'.seqExpired = (decide (f.seqPos ≠ 0) && f.seqExpired)

/-- The first `rxrdy` or `txrdy` of a loop captures the Receive Request Count (R717). -/
def captureDone (f f' : Fbi) : Prop :=
  f'.captured = true ∧ f'.reqCapture = if f.seqPos ≠ 0 ∧ f.captured = true then f.reqCapture else f.reqCount

/-- What a sequencer instruction changes besides its own effect: position, the pass's end, time and rate timer, the
capture's loop flag, the autopush hold, which only an autopush sets (R793). -/
def seqTouched (f f' : Fbi) : Fbi :=
  { f with
    seqPos := f'.seqPos, seqWait := f'.seqWait, seqTime := f'.seqTime, seqExpired := f'.seqExpired
    captured := f'.captured, apHold := f'.apHold }

/-- Instruction 0 opens a new loop for the capture (R717). -/
def loopOpened (f f' : Fbi) : Prop := f'.captured = (decide (f.seqPos ≠ 0) && f.captured)

/-- The `rxrdy` instructions (R706) with their MACs. -/
def rxrdyRows : List (Instr × Nat × Nat) := [
  (.rxrdy0, 0, 0), (.rxrdy0to1, 0, 1), (.rxrdy0to2, 0, 2), (.rxrdy0to3, 0, 3), (.rxrdy0to4, 0, 4), (.rxrdy0to5, 0, 5),
  (.rxrdy0to6, 0, 6), (.rxrdy1, 1, 1), (.rxrdy1to2, 1, 2), (.rxrdy1to3, 1, 3), (.rxrdy1to4, 1, 4), (.rxrdy1to5, 1, 5),
  (.rxrdy1to6, 1, 6), (.rxrdy2, 2, 2), (.rxrdy2to3, 2, 3), (.rxrdy2to4, 2, 4), (.rxrdy2to5, 2, 5), (.rxrdy2to6, 2, 6),
  (.rxrdy3, 3, 3), (.rxrdy3to4, 3, 4), (.rxrdy3to5, 3, 5), (.rxrdy3to6, 3, 6), (.rxrdy4, 4, 4), (.rxrdy4to5, 4, 5),
  (.rxrdy4to6, 4, 6), (.rxrdy5, 5, 5), (.rxrdy5to6, 5, 6), (.rxrdy6, 6, 6)]

/-- The `txrdy` instructions (R707) with their MACs. -/
def txrdyRows : List (Instr × Nat × Nat) := [
  (.txrdy0, 0, 0), (.txrdy0to1, 0, 1), (.txrdy0to2, 0, 2), (.txrdy0to3, 0, 3), (.txrdy0to4, 0, 4), (.txrdy0to5, 0, 5),
  (.txrdy0to6, 0, 6), (.txrdy1, 1, 1), (.txrdy1to2, 1, 2), (.txrdy1to3, 1, 3), (.txrdy1to4, 1, 4), (.txrdy1to5, 1, 5),
  (.txrdy1to6, 1, 6), (.txrdy2, 2, 2), (.txrdy2to3, 2, 3), (.txrdy2to4, 2, 4), (.txrdy2to5, 2, 5), (.txrdy2to6, 2, 6),
  (.txrdy3, 3, 3), (.txrdy3to4, 3, 4), (.txrdy3to5, 3, 5), (.txrdy3to6, 3, 6), (.txrdy4, 4, 4), (.txrdy4to5, 4, 5),
  (.txrdy4to6, 4, 6), (.txrdy5, 5, 5), (.txrdy5to6, 5, 6), (.txrdy6, 6, 6)]

/-- The `NOP` instructions (R705) with their counts. -/
def nopRows : List (Instr × Nat) :=
  [(.nop1, 1), (.nop2, 2), (.nop3, 3), (.nop4, 4), (.nop5, 5), (.nop6, 6), (.nop7, 7), (.nop8, 8)]

/-- The `get1`, `get2` and `send` instructions (R711 to R713) with their longword counts. -/
def get1Rows : List (Instr × Nat) :=
  [(.get1x1, 1), (.get1x2, 2), (.get1x3, 3), (.get1x4, 4), (.get1x5, 5), (.get1x6, 6), (.get1x7, 7), (.get1x8, 8)]
def get2Rows : List (Instr × Nat) :=
  [(.get2x1, 1), (.get2x2, 2), (.get2x3, 3), (.get2x4, 4), (.get2x5, 5), (.get2x6, 6), (.get2x7, 7), (.get2x8, 8)]
def sendRows : List (Instr × Nat) :=
  [(.sendx1, 1), (.sendx2, 2), (.sendx3, 3), (.sendx4, 4), (.sendx5, 5), (.sendx6, 6), (.sendx7, 7), (.sendx8, 8)]

/-- Byte `k` of a longword. -/
def laneOf (v : Word) (k : Nat) : Byte := v.extractLsb' (8 * k) 8

/-- Coefficient `k` of the product of two polynomials over GF(2), written as numbers (R649). -/
def productBit (a b k : Nat) : Bool :=
  (List.range (k + 1)).foldl (fun acc i => acc ^^ (a.testBit i && b.testBit (k - i))) false

/-- `r` is the remainder of the product of `a` and `m` divided by the generator `g` of degree `n`, over GF(2) (R649). -/
def isHash (n g a m r : Nat) : Prop :=
  r < 2 ^ n ∧ ∃ q, ∀ k, productBit a m k = (productBit q g k ^^ r.testBit k)

/-- The two generators of R649 with their degrees. -/
def hashDegree (is64 : Bool) : Nat := if is64 then 64 else 48
def hashGenerator (is64 : Bool) : Nat :=
  if is64 then 2 ^ 64 + 2 ^ 54 + 2 ^ 35 + 2 ^ 17 + 1 else 2 ^ 48 + 2 ^ 36 + 2 ^ 25 + 2 ^ 10 + 1

/-- The multiplier of R225 and R649. -/
def hashMultiplier (f : Fbi) (is64 : Bool) : Nat :=
  if is64 then f.mult64Hi.toNat * 2 ^ 32 + f.mult64Lo.toNat else f.mult48Hi.toNat % 2 ^ 16 * 2 ^ 32 + f.mult48Lo.toNat

/-- Registers `x` to `x + n - 1` of file `new` hold the values of `v`, the others what `old` has. -/
def fileHolds (old new : Vector Word 32) (x n : Nat) (v : Nat → Option Word) : Prop :=
  (∀ r : Fin 32, x ≤ r.val → r.val < x + n → v (r.val - x) = some new[r])
    ∧ ∀ r : Fin 32, r.val < x ∨ x + n ≤ r.val → new[r] = old[r]

/-- What a command that delivers data leaves of the microengines (R586, R588): read transfer registers change in the one it
delivers to alone, events and their requests as its completion has them, and nothing else in any microengine. -/
def sramDelivered (s t : State) (c : Cmd) : Prop :=
  ∀ k, t.me k = { s.me k with
      sramRd := (t.me k).sramRd, sigEvents := ((s.completed c).me k).sigEvents
      pending := ((s.completed c).me k).pending } ∧
    (k ≠ c.xfMe → (t.me k).sramRd = (s.me k).sramRd)

/-- The same of a command that delivers to the SDRAM read transfer registers. -/
def sdramDelivered (s t : State) (c : Cmd) : Prop :=
  ∀ k, t.me k = { s.me k with
      sdramRd := (t.me k).sdramRd, sigEvents := ((s.completed c).me k).sigEvents
      pending := ((s.completed c).me k).pending } ∧
    (k ≠ c.xfMe → (t.me k).sdramRd = (s.me k).sdramRd)

/-- Longword `i` of the quadwords of `m` from quadword `a`, in the register order of FIFO_LW_ORDER (D27). -/
def fifoLong (lowFirst : Bool) (m : Mem) (a i : Nat) : Option Word :=
  (m.readQuad (a + i / 2)).map fun q => if (i % 2 == 0) == lowFirst then quadLow q else quadHigh q

/-- The FBI registers that read as they were written. -/
def storedCsrs : List FbiCsr :=
  [.rdybusSynchCount, .fpReadyWait, .flowctlMask, .hashMult64Hi, .hashMult64Lo, .hashMult48Hi, .hashMult48Lo,
    .rdybusProg1, .rdybusProg2, .rdybusProg3]

/-- The ready flags of MAC `k` in a HI:LO pair: bits 8k+7 to 8k (D21). -/
def readyByte (hi lo : Word) (k : Fin 7) : Byte := (hi ++ lo : BitVec 64).extractLsb' (8 * k.val) 8

/-! ### Completing -/

/-- The outcome is a next state. -/
def completes (o : Host.Outcome State Fault Refusal) : Prop := ∃ t, o = .next t

end Sys2Proof.Machine
end

