-- ==== Sys2Proof/Certificates/Slice0/Obligations.lean ====
section
/-! DEFINITION. The statements for the provers: encoding, one instruction family after the other, the units, the
StrongARM core, PCI, reset, and what every step keeps. -/

open Sys2Proof Sys2Proof.Machine

/-! ### Encoding and stepping -/

/-- Ready Bus sequencer instructions and their opcode bytes determine each other (R430, R703): decoding an encoded
instruction gives it back, and a byte that decodes is the encoding of what it decodes to. -/
def Obligations.SequencerDecodeEncode : Prop :=
  (∀ i b, encodeSeq i = some b → encode i = [b] ∧ decode [b] = .ok i) ∧
  (∀ b i, decode [b] = .ok i → encode i = [b])

/-- A word of each sequencer family, from the opcode tables of 46_ready_bus_sequencer.md, decodes to its instruction,
and exactly 91 of the 256 bytes decode (R420, R430). -/
def Obligations.SequencerWordsDecode : Prop :=
  decode [0b00111111] = .ok .nop2 ∧ decode [0b10011011] = .ok .rxrdy0to3 ∧ decode [0b01000110] = .ok .txrdy5 ∧
  decode [0b00001100] = .ok .rxAutopush ∧ decode [0b10011100] = .ok .txAutopush ∧ decode [0b00000000] = .ok .flwctl ∧
  decode [0b01011110] = .ok .get1x3 ∧ decode [0b11101110] = .ok .get2x8 ∧ decode [0b00101101] = .ok .sendx2 ∧
  ((List.range 256).filter fun n => (decodeSeq (BitVec.ofNat 8 n)).isSome).length = 91

/-- The control store reads back what was written (R401, D1): every word, decoded when it is written to USTORE_DATA and
encoded again when it is read, is the same entry when it is written again; a word that decodes is a well-formed
microengine instruction that its own encoding decodes to, and a word that does not is kept as it is. That a table word breaking the
law counts as illegal is log entry 3. -/
def Obligations.ControlStoreReadsBack : Prop :=
  ∀ w : Word, ustoreEntry (ustoreWord (ustoreEntry w)) = ustoreEntry w ∧
    match ustoreEntry w with
    | .instr i => i.wf = true ∧ i.isSeq = false ∧ decodeMe w = some i ∧ decode (encode i) = .ok i
    | .raw v => v = w ∧ decodeMe w = none

/-- When microengine `m`'s step is next and the word at its running context's program counter holds the well-formed
microengine instruction `i`, the step is `i` on that engine (R53, R10). A fetch at or beyond the control store (D8),
of a word nothing has written (D10) or of a word that is no instruction (U24, R581) is a fault of its own name. An
instruction that this engine's control store has no encoding for, by its form or by a label beyond the store (R481), and
a sequencer instruction, are fetched as the word they encode to: the model's choice (DESIGN CHOICE, log entry 3). So are
the event order and the placing of the program (log entries 1 and 13). -/
def Obligations.StepRunsMicroengineInstruction : Prop :=
  ∀ (s : State) (m : Fin 6) (rest : List Event),
    s.inputs = .me m :: rest → (s.me m).inReset = false → (s.me m).executing = true →
    (s.board.ustoreWords ≤ (s.me m).pc.toNat → step s = .fault (.pcOutOfStore (s.me m).pc.toNat)) ∧
    ((s.me m).pc.toNat < s.board.ustoreWords →
      (∀ i, ustoreGet (s.me m).pc.toNat (s.me m).ustore = some (.instr i) →
        (i.wfIn s.board.ustoreWords = true → i.isSeq = false → step s = exec i { s with inputs := rest, cur := m }) ∧
        (i.wfIn s.board.ustoreWords = false ∨ i.isSeq = true →
          step s = .fault (.illegalWord (Config.meEncode i)))) ∧
      (ustoreGet (s.me m).pc.toNat (s.me m).ustore = none → step s = .fault (.unwrittenStore (s.me m).pc.toNat)) ∧
      (∀ w, ustoreGet (s.me m).pc.toNat (s.me m).ustore = some (.raw w) → step s = .fault (.illegalWord w)))

/-- The sequencer's step, enabled and master (R700). It does nothing while a pass is over, its instructions have taken
fewer IX Bus cycles (R704) than the sequence rate count, and the rate timer has not expired since the pass began. Else it is
the instruction its program byte decodes to, so that the count has no effect where it is at most the time of the pass; a
byte that is none of the 91 opcodes is refused (U10). The event order, and when the timer expires, are the model's (log
entries 1 and 78). -/
def Obligations.StepRunsSequencerInstruction : Prop :=
  ∀ (s : State) (rest : List Event), s.inputs = .readyBus :: rest →
    s.fbi.seqEnable = true → s.fbi.seqSlave = false →
    if s.fbi.seqWait = true ∧ s.fbi.seqTime < s.fbi.synchCount.toNat ∧ s.fbi.seqExpired = false
    then step s = .next { s with inputs := rest }
    else
      (∀ i, decode [s.fbi.prog[s.fbi.seqPos]] = .ok i → step s = exec i { s with inputs := rest }) ∧
      (decodeSeq s.fbi.prog[s.fbi.seqPos] = none →
        step s = .refused (.undefinedOpcode s.fbi.prog[s.fbi.seqPos]))

/-- A microengine with no running context runs its arbiter (R642, D18): the first context from NCTX on that is enabled
and has what it waits for becomes active, its awaited signal is consumed; with none ready nothing but the draw counter
moves. An engine in reset does nothing (R125). The premises exclude the first selection and the window of a
CTX_ENABLES write, which log entries 16 and 17 model. -/
def Obligations.ArbiterTakesNextReadyContext : Prop :=
  ∀ (s : State) (m : Fin 6) (rest : List Event), s.inputs = .me m :: rest →
    ((s.me m).inReset = true → step s = .next { s with inputs := rest }) ∧
    ((s.me m).inReset = false → (s.me m).executing = false → (s.me m).hasRun = true → (s.me m).enWindow = 0 →
      ∃ t, step s = .next t ∧ t = { s with inputs := rest, mes := t.mes, free := s.free + 1 } ∧
        (∀ k, k ≠ m → t.me k = s.me k) ∧
        match nextContext (s.me m) (s.me m).ctxEnables (s.me m).wakeup[(s.me m).active] with
        | none => t.me m = s.me m
        | some k => t.me m = { s.me m with
            pctx := (s.me m).active, active := k, nctx := k + 1, executing := true
            sigEvents := consumed (s.me m) (s.me m).wakeup[(s.me m).active] k })

/-! ### Arithmetic, rotate and shift -/

/-- `alu` (R450, R452, R453, R457): the destination takes the result of Table 4-9, Zero and Sign follow from it,
Carryout where the manual defines it; the result and the A operand go to their latches; every other register, every
memory and every unit stays. -/
def Obligations.AluResult : Prop :=
  ∀ (s : State) (d : Dest) (a : Src) (op : AluOp) (b : Src) (x : Option Word) (y : Word),
    operandIs s a x → operandIs s b (some y) →
    ∃ t r, exec (.alu d a op b) s = .next t ∧
      r.toNat = specAlu op (x.getD 0).toNat y.toNat s.engine.cc.cout s.engine.prevCc.sign ∧
      destWritten s.engine t.engine d r ∧
      t.engine.cc.zero = decide (r = 0) ∧ t.engine.cc.sign = decide (r.toInt < 0) ∧
      (∀ c, specCarry op (x.getD 0).toNat y.toNat s.engine.cc.cout s.engine.prevCc.sign = some c →
        t.engine.cc.cout = c) ∧
      t.engine.aluOut = r ∧ (∀ v, x = some v → t.engine.aLatch = v.setWidth 5) ∧
      findKept s.engine t.engine ∧ ordinary s t

/-- `alu_shf` (R451, R455, R458): as `alu`, with B shifted or rotated first, by a literal or by the A-operand
latch. -/
def Obligations.AluShfResult : Prop :=
  ∀ (s : State) (d : Dest) (a : Src) (op : AluOp) (b : Src) (shf : Shf) (x : Option Word) (y : Word),
    operandIs s a x → operandIs s b (some y) →
    ∃ t r z, exec (.aluShf d a op b shf) s = .next t ∧
      (∀ v, specShift shf y s.engine.aLatch = some v → z = v) ∧
      r.toNat = specAlu op (x.getD 0).toNat z.toNat s.engine.cc.cout s.engine.prevCc.sign ∧
      destWritten s.engine t.engine d r ∧
      t.engine.cc.zero = decide (r = 0) ∧ t.engine.cc.sign = decide (r.toInt < 0) ∧
      (∀ c, specCarry op (x.getD 0).toNat z.toNat s.engine.cc.cout s.engine.prevCc.sign = some c →
        t.engine.cc.cout = c) ∧
      t.engine.aluOut = r ∧ (∀ v, x = some v → t.engine.aLatch = v.setWidth 5) ∧
      findKept s.engine t.engine ∧ ordinary s t

/-- `dbl_shf` (R459): 32 bits of the 64-bit number A:B shifted; Zero and Sign from the result, Carryout kept. -/
def Obligations.DblShfResult : Prop :=
  ∀ (s : State) (d : Dest) (a b : Src) (shf : Shf) (x y : Word), shf.dblOk = true →
    operandIs s a (some x) → operandIs s b (some y) →
    ∃ t r, exec (.dblShf d a b shf) s = .next t ∧
      (∀ n, specDouble shf x.toNat y.toNat s.engine.aLatch = some n → r.toNat = n) ∧
      destWritten s.engine t.engine d r ∧
      t.engine.cc = ⟨decide (r = 0), decide (r.toInt < 0), s.engine.cc.cout⟩ ∧
      t.engine.aluOut = r ∧ t.engine.aLatch = x.setWidth 5 ∧ findKept s.engine t.engine ∧ ordinary s t

/-! ### Branch and jump -/

/-- `br` and the eight branches on condition codes (R481 to R483, R488 to R496): taken by the current codes; no
register, code, signal, memory or unit changes. -/
def Obligations.CodeBranches : Prop :=
  ∀ p ∈ codeBranches, ∀ (s : State) (l : Label) (tok : BrTok), s.engine.defer = none →
    ∃ t, exec (p.1 l tok) s = .next t ∧
      branched s.engine t.engine (p.2 s.engine.cc) (l.setWidth 12) tok.defer ∧
      branchFrame s t ∧ contextsKept s.engine t.engine ∧ t.engine.cc = s.engine.cc

/-- After an `alu` that formed the result `r`, the branches on condition codes compare `r`, read as a signed number,
with zero (R489 to R494). -/
def Obligations.BranchesCompareResultWithZero : Prop :=
  ∀ (s : State) (d : Dest) (a : Src) (op : AluOp) (b : Src) (t : State),
    exec (.alu d a op b) s = .next t →
    (Cond.holds .eq0 t.engine.cc = true ↔ t.engine.aluOut.toInt = 0) ∧
    (Cond.holds .ne0 t.engine.cc = true ↔ t.engine.aluOut.toInt ≠ 0) ∧
    (Cond.holds .gt0 t.engine.cc = true ↔ 0 < t.engine.aluOut.toInt) ∧
    (Cond.holds .ge0 t.engine.cc = true ↔ 0 ≤ t.engine.aluOut.toInt) ∧
    (Cond.holds .lt0 t.engine.cc = true ↔ t.engine.aluOut.toInt < 0) ∧
    (Cond.holds .le0 t.engine.cc = true ↔ t.engine.aluOut.toInt ≤ 0)

/-- `br_bset`, `br_bclr`, `br=byte` and `br!=byte` (R497, R500 to R502): taken by a bit or a byte of the register;
Carryout stays, Zero and Sign are written with unspecified values (U3). -/
def Obligations.RegisterBranches : Prop :=
  ∀ (s : State) (r : Src) (v : Word) (l : Label) (tok : BrTok), operandIs s r (some v) → s.engine.defer = none →
    (∀ pos : BitVec 5,
      (∃ t, exec (.brBset r pos l tok) s = .next t ∧
        branched s.engine t.engine (v.getLsbD pos.toNat) (l.setWidth 12) tok.defer ∧
        branchFrame s t ∧ contextsKept s.engine t.engine ∧ t.engine.cc.cout = s.engine.cc.cout) ∧
      (∃ t, exec (.brBclr r pos l tok) s = .next t ∧
        branched s.engine t.engine (!v.getLsbD pos.toNat) (l.setWidth 12) tok.defer ∧
        branchFrame s t ∧ contextsKept s.engine t.engine ∧ t.engine.cc.cout = s.engine.cc.cout)) ∧
    (∀ (k : Fin 4) (n : Byte),
      (∃ t, exec (.brEqByte r k n l tok) s = .next t ∧
        branched s.engine t.engine (decide (v.toNat / 256 ^ k.val % 256 = n.toNat)) (l.setWidth 12) tok.defer ∧
        branchFrame s t ∧ contextsKept s.engine t.engine ∧ t.engine.cc.cout = s.engine.cc.cout) ∧
      (∃ t, exec (.brNeByte r k n l tok) s = .next t ∧
        branched s.engine t.engine (decide (v.toNat / 256 ^ k.val % 256 ≠ n.toNat)) (l.setWidth 12) tok.defer ∧
        branchFrame s t ∧ contextsKept s.engine t.engine ∧ t.engine.cc.cout = s.engine.cc.cout))

/-- `br=ctx`, `br!=ctx` and `br_inp_state` (R498, R503, R504): taken by the running context, by room for a receive
request, or by PUSH_PROTECT. -/
def Obligations.ContextAndInputBranches : Prop :=
  ∀ (s : State) (l : Label) (tok : BrTok), s.engine.defer = none →
    (∀ c, ∃ t, exec (.brEqCtx c l tok) s = .next t ∧
      branched s.engine t.engine (decide (s.engine.active = c)) (l.setWidth 12) tok.defer ∧
      branchFrame s t ∧ contextsKept s.engine t.engine ∧ t.engine.cc = s.engine.cc) ∧
    (∀ c, ∃ t, exec (.brNeCtx c l tok) s = .next t ∧
      branched s.engine t.engine (decide (s.engine.active ≠ c)) (l.setWidth 12) tok.defer ∧
      branchFrame s t ∧ contextsKept s.engine t.engine ∧ t.engine.cc = s.engine.cc) ∧
    (∃ t, exec (.brInpState .recReqAvail l tok) s = .next t ∧
      branched s.engine t.engine (decide (s.fbi.rcvReq.length < 2)) (l.setWidth 12) tok.defer ∧
      branchFrame s t ∧ contextsKept s.engine t.engine ∧ t.engine.cc = s.engine.cc) ∧
    (∃ t, exec (.brInpState .pushProtect l tok) s = .next t ∧
      branched s.engine t.engine s.fbi.pushProtect (l.setWidth 12) tok.defer ∧
      branchFrame s t ∧ contextsKept s.engine t.engine ∧ t.engine.cc = s.engine.cc)

/-- `br_!signal` (R499): taken when the running context's signal is absent; when it is present the branch falls
through and the signal is cleared. No other signal of any context changes. -/
def Obligations.SignalBranchConsumes : Prop :=
  ∀ (s : State) (e : SigEvent) (l : Label) (tok : BrTok), s.engine.defer = none →
    ∃ t, exec (.brNotSignal e l tok) s = .next t ∧
      branched s.engine t.engine (!s.engine.sigEvents[s.engine.active].getLsbD (sigBit e)) (l.setWidth 12) tok.defer ∧
      (∀ (c : Fin 4) (f : SigEvent), t.engine.sigEvents[c].getLsbD (sigBit f) =
        (s.engine.sigEvents[c].getLsbD (sigBit f) && !(decide (c = s.engine.active) && decide (f = e)))) ∧
      branchFrame s t ∧ t.engine.cc = s.engine.cc ∧
      t.engine.active = s.engine.active ∧ t.engine.executing = s.engine.executing ∧
      t.engine.wakeup = s.engine.wakeup ∧ t.engine.ctxEnables = s.engine.ctxEnables

/-- `jump` and `rtn` (R505, R506): the target is the label plus the register, or the register; one at or beyond the
control store is the fault of R53 (D8). That with deferred instructions this fault comes at the jump itself, before they
run, is the model's choice (DESIGN CHOICE, log entry 75). -/
def Obligations.JumpAndReturn : Prop :=
  ∀ (s : State) (r : Src) (v : Word) (l : Label) (tok : BrTok), operandIs s r (some v) → s.engine.defer = none →
    ((l.setWidth 32 + v).toNat < s.board.ustoreWords → ∃ t, exec (.jump r l tok) s = .next t ∧
      branched s.engine t.engine true (BitVec.ofNat 12 (l.setWidth 32 + v).toNat) tok.defer ∧
      branchFrame s t ∧ contextsKept s.engine t.engine ∧ t.engine.cc = s.engine.cc) ∧
    (s.board.ustoreWords ≤ (l.setWidth 32 + v).toNat →
      exec (.jump r l tok) s = .fault (.pcOutOfStore (l.setWidth 32 + v).toNat)) ∧
    (v.toNat < s.board.ustoreWords → ∃ t, exec (.rtn r tok) s = .next t ∧
      branched s.engine t.engine true (BitVec.ofNat 12 v.toNat) tok.defer ∧
      branchFrame s t ∧ contextsKept s.engine t.engine ∧ t.engine.cc = s.engine.cc) ∧
    (s.board.ustoreWords ≤ v.toNat → exec (.rtn r tok) s = .fault (.pcOutOfStore v.toNat))

/-- Exactly `n` deferred instructions run, whichever microengine instructions they are, and then the decision takes
effect (R483, R641). With two or more left, an instruction that has run leaves the next word and one fewer left; the last
one leads to the target of a taken branch, and to the next word otherwise; contexts stay until then; after the one
deferred instruction of `ctx_arb` or of a reference with `ctx_swap` the context is left, to wait or disabled. `t ≠ s`
says that the instruction has run and is not a stalled reference (R591). The contexts' clauses leave out `local_csr_wr`,
which may write them; that a deferred position may hold any other instruction is log entry 19. -/
def Obligations.DeferredInstructionsThenTarget : Prop :=
  ∀ (i : Instr) (s t : State), i.isSeq = false → s.engine.executing = true → exec i s = .next t → t ≠ s →
    (∀ n act, s.engine.defer = some ⟨n + 2, act⟩ → t.engine.defer = some ⟨n + 1, act⟩ ∧
      t.engine.pcs = s.engine.pcs.set s.engine.active (s.engine.pc + 1)) ∧
    (∀ target, s.engine.defer = some ⟨1, .jump target⟩ → t.engine.defer = none ∧
      t.engine.pcs = s.engine.pcs.set s.engine.active target) ∧
    (∀ act, s.engine.defer = some ⟨1, act⟩ → (∀ target, act ≠ .jump target) → t.engine.defer = none ∧
      t.engine.pcs = s.engine.pcs.set s.engine.active (s.engine.pc + 1)) ∧
    ((∀ reg src, i ≠ .localCsrWr reg src) →
      (∀ n act, s.engine.defer = some ⟨n + 2, act⟩ → contextsKept s.engine t.engine) ∧
      (∀ target, s.engine.defer = some ⟨1, .jump target⟩ ∨ s.engine.defer = some ⟨1, .fall⟩ →
        contextsKept s.engine t.engine) ∧
      (s.engine.hasRun = true → s.engine.enWindow ≤ 1 →
        (∀ w, s.engine.defer = some ⟨1, .swap w⟩ → swapped s.engine t.engine s.engine.ctxEnables w) ∧
        (s.engine.defer = some ⟨1, .kill⟩ → swapped s.engine t.engine
          (s.engine.ctxEnables &&& ~~~(1#4 <<< s.engine.active.val)) .voluntary)))

/-- A branch-class instruction in a deferred position is refused (D15): every branch on codes, contexts, states and
signals, `ctx_arb`, and the branches on a register whose operand can be read. That one whose operand may not be read (U14)
is a fault instead is the model's choice (log entry 75). -/
def Obligations.BranchInDeferredPositionRefused : Prop :=
  ∀ (s : State) (l : Label) (tok : BrTok), s.engine.defer.isSome = true →
    (∀ p ∈ codeBranches, exec (p.1 l tok) s = .refused .branchInDeferSlot) ∧
    (∀ c, exec (.brEqCtx c l tok) s = .refused .branchInDeferSlot ∧
      exec (.brNeCtx c l tok) s = .refused .branchInDeferSlot) ∧
    (∀ i, exec (.brInpState i l tok) s = .refused .branchInDeferSlot) ∧
    (∀ e, exec (.brNotSignal e l tok) s = .refused .branchInDeferSlot) ∧
    (∀ ev d, exec (.ctxArb ev d) s = .refused .branchInDeferSlot) ∧
    (∀ r v, operandIs s r (some v) →
      (∀ pos, exec (.brBset r pos l tok) s = .refused .branchInDeferSlot ∧
        exec (.brBclr r pos l tok) s = .refused .branchInDeferSlot) ∧
      (∀ k n, exec (.brEqByte r k n l tok) s = .refused .branchInDeferSlot ∧
        exec (.brNeByte r k n l tok) s = .refused .branchInDeferSlot) ∧
      (v.toNat < s.board.ustoreWords → exec (.rtn r tok) s = .refused .branchInDeferSlot) ∧
      ((l.setWidth 32 + v).toNat < s.board.ustoreWords → exec (.jump r l tok) s = .refused .branchInDeferSlot))

/-! ### Local registers -/

/-- `immed` (R601) and `load_addr` (R613): the shifted constant, or the two's complement of a negative one, or the
control store index of the label; no condition code changes. CSR data latched by an immediately preceding
`local_csr_rd` takes the constant's place (R560; log entry 24). That the ALU output latch takes the constant (R600, R56)
is the model's reading (log entry 27). -/
def Obligations.ConstantLoads : Prop :=
  ∀ (s : State) (d : Dest),
    (∀ (value : Int) (n : Nat), immedOk value n = true → ∃ t r, exec (.immed d value n) s = .next t ∧
      (s.engine.csrLatch = none → r.toNat = (value * 2 ^ n % 2 ^ 32).toNat) ∧
      (∀ c, s.engine.csrLatch = some c → r = c <<< n) ∧ destWritten s.engine t.engine d r ∧ t.engine.aluOut = r ∧
      t.engine.cc = s.engine.cc ∧ findKept s.engine t.engine ∧ ordinary s t) ∧
    (∀ l : Label, ∃ t r, exec (.loadAddr d l) s = .next t ∧ r.toNat = l.toNat ∧
      destWritten s.engine t.engine d r ∧ t.engine.cc = s.engine.cc ∧ findKept s.engine t.engine ∧ ordinary s t)

/-- `immed_b0` to `immed_b3`, `immed_w0` and `immed_w1` (R602 to R608): the field takes the value; the bytes outside
it keep their value or, but for `immed_w1`, are all zero (U4); no condition code changes. CSR data latched by an
immediately preceding `local_csr_rd` takes the value's place (R560; log entry 24). -/
def Obligations.FieldLoads : Prop :=
  ∀ (s : State) (d : Dest) (v8 : Byte) (v16 : BitVec 16),
    ∀ p ∈ fieldLoads d v8 v16, ∃ t r, exec p.1 s = .next t ∧
      r.toNat / 2 ^ p.2.1 % 2 ^ p.2.2.1 = (match s.engine.csrLatch with
        | none => p.2.2.2.1
        | some c => c.toNat % 2 ^ p.2.2.1) ∧
      (∀ k, destCell s.engine.active d = some k →
        (∀ i, i < p.2.1 ∨ p.2.1 + p.2.2.1 ≤ i → i < 32 → r.getLsbD i = (s.engine.cell k).getLsbD i) ∨
        (p.2.2.2.2 = false ∧ ∀ i, i < p.2.1 ∨ p.2.1 + p.2.2.1 ≤ i → r.getLsbD i = false)) ∧
      destWritten s.engine t.engine d r ∧ t.engine.cc = s.engine.cc ∧ findKept s.engine t.engine ∧ ordinary s t

/-- `ld_field` and `ld_field_w_clr` (R610, R611): each byte the mask selects takes the same byte of the shifted
source; the others stay, or are cleared. Carryout stays. -/
def Obligations.ByteFieldLoads : Prop :=
  ∀ (s : State) (d : Dest) (mask : BitVec 4) (src : Src) (shf : Shf) (v z : Word) (cell : RegCell),
    operandIs s src (some v) → specShift shf v s.engine.aLatch = some z → destCell s.engine.active d = some cell →
    (∃ t r, exec (.ldField d mask src shf) s = .next t ∧
      (∀ k, k < 4 → laneOf r k = if mask.getLsbD k then laneOf z k else laneOf (s.engine.cell cell) k) ∧
      destWritten s.engine t.engine d r ∧ t.engine.cc.cout = s.engine.cc.cout ∧
      findKept s.engine t.engine ∧ ordinary s t) ∧
    (∃ t r, exec (.ldFieldWClr d mask src shf) s = .next t ∧
      (∀ k, k < 4 → laneOf r k = if mask.getLsbD k then laneOf z k else 0) ∧
      destWritten s.engine t.engine d r ∧ t.engine.cc.cout = s.engine.cc.cout ∧
      findKept s.engine t.engine ∧ ordinary s t)

/-- `find_bset` and `find_bset_with_mask` (R620 to R622): when the low 16 bits of the shifted, masked source have a
set bit, the lowest one `p` locks the first unlocked result register with the search number and `p`; the counter
counts every search; `clr_result` clears all three first. No general or transfer register changes. R621's shift control is
a right shift: that these instructions take a left shift or a rotate too, and search the operand so shifted, is no rule of
the spec but the model's choice (DESIGN CHOICE, log entry 77). -/
def Obligations.FindBitSet : Prop :=
  ∀ (s : State) (src mask : Src) (shf : Shf) (clr : Bool) (v z k : Word) (i : Instr) (f : Word),
    operandIs s src (some v) → operandIs s mask (some k) → specShift shf v s.engine.aLatch = some z →
    (i = .findBset src shf clr ∧ f = z ∨ i = .findBsetWithMask mask src shf clr ∧ f = z &&& k) →
    ∃ t, exec i s = .next t ∧ regsKept s.engine t.engine ∧ t.engine.cc = s.engine.cc ∧ ordinary s t ∧
      t.engine.findAge = 0 ∧
      let r1 : Word := if clr then 0 else s.engine.result1;
      let r2 : Word := if clr then 0 else s.engine.result2;
      let n : BitVec 4 := if clr then 0 else s.engine.fbsCnt;
      t.engine.fbsCnt = n + 1 ∧
      ((∀ p, p < 16 → f.getLsbD p = false) → t.engine.result1 = r1 ∧ t.engine.result2 = r2) ∧
      (∀ p, p < 16 → f.getLsbD p = true → (∀ q, q < p → f.getLsbD q = false) →
        (r1.getLsbD 8 = false → t.engine.result1.toNat = 256 + 16 * n.toNat + p ∧ t.engine.result2 = r2) ∧
        (r1.getLsbD 8 = true → r2.getLsbD 8 = false →
          t.engine.result1 = r1 ∧ t.engine.result2.toNat = 256 + 16 * n.toNat + p) ∧
        (r1.getLsbD 8 = true → r2.getLsbD 8 = true → t.engine.result1 = r1 ∧ t.engine.result2 = r2))

/-- `load_bset_result1` and `load_bset_result2` (R623 to R625): three or more instructions after the last search the
destination takes the result register, with Zero and Sign from it and Carryout kept. The count of three is read from
the manual's example (log entry 23). -/
def Obligations.LoadFindResults : Prop :=
  ∀ (s : State) (d : Dest), 3 ≤ s.engine.findAge →
    (∃ t, exec (.loadBsetResult1 d) s = .next t ∧ destWritten s.engine t.engine d s.engine.result1 ∧
      t.engine.cc = ⟨decide (s.engine.result1 = 0), decide (s.engine.result1.toInt < 0), s.engine.cc.cout⟩ ∧
      findKept s.engine t.engine ∧ ordinary s t) ∧
    (∃ t, exec (.loadBsetResult2 d) s = .next t ∧ destWritten s.engine t.engine d s.engine.result2 ∧
      t.engine.cc = ⟨decide (s.engine.result2 = 0), decide (s.engine.result2.toInt < 0), s.engine.cc.cout⟩ ∧
      findKept s.engine t.engine ∧ ordinary s t)

/-! ### Miscellaneous -/

/-- `nop` (R648): no register, code, find result, memory or unit changes. -/
def Obligations.NopOnlyAdvances : Prop :=
  ∀ s : State, ∃ t, exec .nop s = .next t ∧ regsKept s.engine t.engine ∧ t.engine.cc = s.engine.cc ∧
    findKept s.engine t.engine ∧ ordinary s t

/-- `ctx_arb` (R640 to R642, R646, R647): the context waits for the event, for nothing, or is disabled; the arbiter
takes the next ready context. With `defer[1]` the swap waits for one more instruction. Log entries 16, 17 and 19 model
the first selection, the CTX_ENABLES window and the deferred position, which the premises leave out. -/
def Obligations.ContextArbitration : Prop :=
  ∀ (s : State) (ev : CtxEvent), s.engine.defer = none →
    let en := (match ev with
      | .kill => s.engine.ctxEnables &&& ~~~(1#4 <<< s.engine.active.val)
      | _ => s.engine.ctxEnables);
    let w := (match ev with
      | .signal e => Wakeup.signal e
      | _ => .voluntary);
    (s.engine.hasRun = true → s.engine.enWindow ≤ 1 → ∃ t, exec (.ctxArb ev false) s = .next t ∧
      swapped s.engine t.engine en w ∧ regsKept s.engine t.engine ∧ t.engine.cc = s.engine.cc ∧
      findKept s.engine t.engine ∧ controlKept s.engine t.engine ∧ latchesLeft s.engine t.engine ∧
      t.engine.cmdFifo = s.engine.cmdFifo ∧ othersKept s t) ∧
    (∃ t, exec (.ctxArb ev true) s = .next t ∧ regsKept s.engine t.engine ∧ t.engine.cc = s.engine.cc ∧
      findKept s.engine t.engine ∧ controlKept s.engine t.engine ∧ contextsKept s.engine t.engine ∧
      t.engine.pcs = s.engine.pcs.set s.engine.active (s.engine.pc + 1) ∧
      t.engine.defer = some ⟨1, match ev with | .kill => .kill | _ => .swap w⟩ ∧ othersKept s t)

/-! ### References and local CSRs -/

/-- The references with no address operand: the six hashes (R652 to R657), `csr` (R540), `pci_dma` (R545) and
`sram[pop]` (R547, R900), which takes the Read queue under `optimize_mem`, each put their command into the FIFO. The
registers of a hash or a burst stay within the file; that those of a relative name may run on past the eight of its
context is the model's choice (DESIGN CHOICE, log entry 20), and so is the count a CYCLE_CNT read carries (log entry 31). -/
def Obligations.PlainReferencesIssue : Prop :=
  ∀ (s : State) (x : Xfer) (tok : RefTok) (r : Nat), r = (s.xfer x).val →
    (∀ p ∈ ([(Instr.hash1x48, false, 1), (Instr.hash2x48, false, 2), (Instr.hash3x48, false, 3),
        (Instr.hash1x64, true, 1), (Instr.hash2x64, true, 2), (Instr.hash3x64, true, 3)] :
          List ((Xfer → RefTok → Instr) × Bool × Nat)),
      let cmd := ownCmd s (.hash p.2.1 p.2.2 r) .fbiHash .fbi tok false;
      r + 2 * p.2.2 ≤ 32 → canIssue s cmd tok → ∃ t, exec (p.1 x tok) s = .next t ∧ issued s t cmd .fbi tok) ∧
    (∀ (reg : FbiCsr) (cnt : Nat),
      (let cmd := ownCmd s (.csrRead reg r cnt) .fbiPush .fbi tok false;
        r + (if reg = .cycleCnt then 2 else cnt) ≤ 32 → canIssue s cmd tok →
          ∃ t, exec (.csr .read x reg cnt tok) s = .next t ∧ issued s t cmd .fbi tok) ∧
      (let cmd := ownCmd s (.csrWrite reg r cnt) .fbiPull .fbi tok false;
        r + cnt ≤ 32 → canIssue s cmd tok →
          ∃ t, exec (.csr .write x reg cnt tok) s = .next t ∧ issued s t cmd .fbi tok)) ∧
    (∀ order : Bool,
      let cmd := ownCmd s (.pciDma r order) .pci .pci tok false;
      canIssue s cmd tok → ∃ t, exec (.pciDma x order tok) s = .next t ∧ issued s t cmd .pci tok) ∧
    (∀ (list : Fin 8) (q : SramQueue),
      let o := s.engine.overrides .sramPushPop tok.indirect;
      let rd : UnitQueue := (match q with | .ordered => .sramOrder | .optimizeMem => .sramRead | .priority => .sramPrio);
      let cmd := s.command (.sramPop (xferOr o (s.xfer x)) (o.list.getD list)) rd o true .sram tok false;
      canIssue s cmd tok →
        (∃ t, exec (.sram (.pop x list) .none .none q tok) s = .next t ∧ issued s t cmd .sram tok) ∧
        (tok.indirect = false → cmd = ownCmd s (.sramPop r list) rd .sram tok false))

/-- `fast_wr` (R541): the command carries the immediate, or the one the indirect word holds; it asks for no signal. -/
def Obligations.FastWriteIssues : Prop :=
  ∀ (s : State) (imm : BitVec 10) (reg : FastReg) (indirect : Bool), s.engine.cmdFifo.length < 2 →
    let o := s.engine.overrides .fastWr indirect;
    let tok : RefTok := ⟨false, false, false, indirect⟩;
    ∃ t cmd, exec (.fastWr imm reg indirect) s = .next t ∧ issued s t cmd .fbi tok ∧
      cmd.op = .fastWr reg (o.imm.getD imm) ∧ cmd.queue = .fast ∧ cmd.sig = none ∧
      cmd.sigMe = o.me.getD s.cur ∧ cmd.sigCtx = o.ctx.getD s.engine.active ∧
      (indirect = false → cmd = ownCmd s (.fastWr reg imm) .fast .fbi tok false)

/-- `scratch` (R544): each command carries the sum of its address operands; reads go to the Push queue, the others to
the Pull queue. A microengine override names another thread to signal and no other transfer registers, which Table 4-17
does not list for scratch (R585; the model's choice, log entry 4). Without `indirect_ref` everything of every form is the
issuing thread's own. That a relative name's burst may run on past the eight registers of its context is the model's choice
(DESIGN CHOICE, log entry 20). -/
def Obligations.ScratchIssues : Prop :=
  ∀ (s : State) (a b : Src) (u v : Word) (tok : RefTok), operandIs s a (some u) → operandIs s b (some v) →
    (∀ (x : Xfer) (cnt : Nat), let o := s.engine.overrides .scratchRw tok.indirect;
      xferOr o (s.xfer x) + countOr o cnt ≤ 32 →
      (let cmd := s.command (.scratchRead (u + v) (xferOr o (s.xfer x)) (countOr o cnt)) .fbiPush o false .fbi tok false;
        canIssue s cmd tok →
          (∃ t, exec (.scratch (.read x cnt) a b tok) s = .next t ∧ issued s t cmd .fbi tok) ∧
          (tok.indirect = false → cmd = ownCmd s (.scratchRead (u + v) (s.xfer x).val cnt) .fbiPush .fbi tok false)) ∧
      (let cmd := s.command (.scratchWrite (u + v) (xferOr o (s.xfer x)) (countOr o cnt)) .fbiPull o false .fbi tok false;
        canIssue s cmd tok →
          (∃ t, exec (.scratch (.write x cnt) a b tok) s = .next t ∧ issued s t cmd .fbi tok) ∧
          (tok.indirect = false → cmd = ownCmd s (.scratchWrite (u + v) (s.xfer x).val cnt) .fbiPull .fbi tok false))) ∧
    (∀ (x : Xfer) (op : BitOp), let o := s.engine.overrides .scratchBit tok.indirect;
      let cmd := s.command (.scratchBit (u + v) (xferOr o (s.xfer x)) (bitOpOr o op)) .fbiPull o false .fbi tok false;
      (canIssue s cmd tok → ∃ t, exec (.scratch (.bitWr x op) a b tok) s = .next t ∧ issued s t cmd .fbi tok) ∧
      (tok.indirect = false →
        cmd = ownCmd s (.scratchBit (u + v) (s.xfer x).val op) .fbiPull .fbi tok false)) ∧
    (let cmd := ownCmd s (.scratchIncr (u + v)) .fbiPull .fbi tok false;
      canIssue s cmd tok → ∃ t, exec (.scratch .incr a b tok) s = .next t ∧ issued s t cmd .fbi tok)

/-- `r_fifo_rd` and `t_fifo_wr` (R542, R543): two transfer registers for each quadword. With `indirect_ref` bit 20 of
the ALU output latch lets bits 19:16 give the count of `t_fifo_wr`, less one (R583, R584). That a relative name's burst may
run on past the eight registers of its context is the model's choice (DESIGN CHOICE, log entry 20). -/
def Obligations.FifoReferencesIssue : Prop :=
  ∀ (s : State) (x : Xfer) (a b : Src) (u v : Word) (cnt : Nat) (tok : RefTok),
    operandIs s a (some u) → operandIs s b (some v) →
    (let o := s.engine.overrides .rFifoRd tok.indirect;
      let cmd := s.command (.rFifoRd (u + v) (xferOr o (s.xfer x)) (countOr o cnt)) .fbiPush o true .fbi tok false;
      xferOr o (s.xfer x) + 2 * countOr o cnt ≤ 32 → canIssue s cmd tok →
        ∃ t, exec (.rFifoRd x a b cnt tok) s = .next t ∧ issued s t cmd .fbi tok) ∧
    (let o := s.engine.overrides .tFifoWr tok.indirect;
      let n := if tok.indirect = true ∧ s.engine.aluOut.getLsbD 20 = true then s.engine.aluOut.toNat / 2 ^ 16 % 16 + 1
        else cnt;
      let cmd := s.command (.tFifoWr (u + v) (xferOr o (s.xfer x)) n) .fbiPull o true .fbi tok false;
      xferOr o (s.xfer x) + 2 * n ≤ 32 → canIssue s cmd tok →
        (∃ t, exec (.tFifoWr x a b cnt tok) s = .next t ∧ issued s t cmd .fbi tok) ∧
        (tok.indirect = false → cmd = ownCmd s (.tFifoWr (u + v) (s.xfer x).val cnt) .fbiPull .fbi tok false))

/-- `sdram` (R546, R845, R846): reads and writes with two transfer registers for each quadword, and the two FIFO
forms, which go to the Order queue whatever the token (R861, R862); a read's and a write's queue follows the token;
`chain_ref` marks the command. In the indirect word of `sdram[t_fifo_wr]` bit 20 lets bits 19:16 give the count, less one,
and the TFIFO quadword address starts at bit 4 (R583, R863); that field's width and want of an enable bit are the model's
reading, and so is alignment 0 where the word overrides no byte alignment, the spec giving no default (DESIGN CHOICE, log
entry 4). That a relative name's burst may run on past the eight registers of its context, up to register 31, is no rule of
the spec but the model's choice (DESIGN CHOICE, log entry 20): row 8 of T-SDRAM, citing D7, refuses such a read. -/
def Obligations.SdramIssues : Prop :=
  ∀ (s : State) (a b : Src) (u v : Word) (q : SdramQueue) (chain : Bool) (tok : RefTok),
    operandIs s a (some u) → operandIs s b (some v) →
    let queue : UnitQueue := (match q with
      | .order => .sdramOrder
      | .priority => .sdramPrio
      | .optimizeMem => if Config.sdramBankOdd (u + v) then .sdramOdd else .sdramEven);
    (∀ (x : Xfer) (cnt : Nat), let o := s.engine.overrides .sdramRw tok.indirect;
      let r := xferOr o (s.xfer x);
      let n := countOr o cnt;
      r + 2 * n ≤ 32 →
      (let cmd := s.command (.sdramRead (u + v) r n) queue o true .sdram tok chain;
        canIssue s cmd tok →
          ∃ t, exec (.sdram (.read x cnt) a b q chain tok) s = .next t ∧ issued s t cmd .sdram tok) ∧
      (let cmd := s.command (.sdramWrite (u + v) r n o.mask) queue o true .sdram tok chain;
        canIssue s cmd tok →
          (∃ t, exec (.sdram (.write x cnt) a b q chain tok) s = .next t ∧ issued s t cmd .sdram tok) ∧
          (tok.indirect = false →
            cmd = ownCmd s (.sdramWrite (u + v) (s.xfer x).val cnt none) queue .sdram tok chain))) ∧
    (∀ cnt : Nat, let o := s.engine.overrides .sdramTFifo tok.indirect;
      let cmd := s.command (.sdramTFifo (u + v) (countOr o cnt) (s.fifoOr o) (o.align.getD 0)) .sdramOrder o true .sdram
        tok chain;
      (canIssue s cmd tok →
        ∃ t, exec (.sdram (.tFifoWr cnt) a b q chain tok) s = .next t ∧ issued s t cmd .sdram tok) ∧
      (tok.indirect = true → s.fifoOr o = s.engine.aluOut.toNat / 2 ^ 4 % 2 ^ 8 ∧
        countOr o cnt = if s.engine.aluOut.getLsbD 20 then s.engine.aluOut.toNat / 2 ^ 16 % 16 + 1 else cnt)) ∧
    (∀ cnt : Nat, let o := s.engine.overrides .sdramRFifo tok.indirect;
      let cmd := s.command (.sdramRFifo (u + v) (countOr o cnt) (s.fifoOr o)) .sdramOrder o true .sdram tok chain;
      canIssue s cmd tok →
        ∃ t, exec (.sdram (.rFifoRd cnt) a b q chain tok) s = .next t ∧ issued s t cmd .sdram tok)

/-- `sram` with an address (R547, R900): read, write, bit operation, the three lock commands and push; only reads and
read locks take the Read queue under `optimize_mem`, and a bit operation goes to the Write/Order queue whatever the
token (R920). Which overrides a lock command takes with `indirect_ref` is the model's reading (log entry 4); without it a
lock command is the issuing thread's own. That a relative name's burst may run on past the eight registers of its context is
the model's choice (DESIGN CHOICE, log entry 20). -/
def Obligations.SramIssues : Prop :=
  ∀ (s : State) (a b : Src) (u v : Word) (q : SramQueue) (tok : RefTok),
    operandIs s a (some u) → operandIs s b (some v) →
    let rd : UnitQueue := (match q with | .ordered => .sramOrder | .optimizeMem => .sramRead | .priority => .sramPrio);
    let wr : UnitQueue := (match q with | .ordered => .sramOrder | .optimizeMem => .sramOrder | .priority => .sramPrio);
    (∀ (x : Xfer) (cnt : Nat), let o := s.engine.overrides .sramRw tok.indirect;
      let r := xferOr o (s.xfer x);
      let n := countOr o cnt;
      r + n ≤ 32 →
      (let cmd := s.command (.sramRead (u + v) r n) rd o true .sram tok false;
        canIssue s cmd tok → ∃ t, exec (.sram (.read x cnt) a b q tok) s = .next t ∧ issued s t cmd .sram tok) ∧
      (let cmd := s.command (.sramWrite (u + v) r n (o.mask.map (· &&& 0x0F))) wr o true .sram tok false;
        canIssue s cmd tok →
          ∃ t, exec (.sram (.write x cnt) a b q tok) s = .next t ∧ issued s t cmd .sram tok)) ∧
    (∀ (x : Xfer) (op : BitOp), let o := s.engine.overrides .sramBit tok.indirect;
      let cmd := s.command (.sramBit (u + v) (xferOr o (s.xfer x)) (bitOpOr o op)) .sramOrder o true .sram tok false;
      canIssue s cmd tok → ∃ t, exec (.sram (.bitWr x op) a b q tok) s = .next t ∧ issued s t cmd .sram tok) ∧
    (let o := s.engine.overrides .sramLock tok.indirect;
      (∀ (x : Xfer) (cnt : Nat), let r := xferOr o (s.xfer x);
        let n := countOr o cnt;
        r + n ≤ 32 →
        (let cmd := s.command (.sramReadLock (u + v) r n) rd o true .sram tok false;
          canIssue s cmd tok →
            (∃ t, exec (.sram (.readLock x cnt) a b q tok) s = .next t ∧ issued s t cmd .sram tok) ∧
            (tok.indirect = false → cmd = ownCmd s (.sramReadLock (u + v) (s.xfer x).val cnt) rd .sram tok false)) ∧
        (let cmd := s.command (.sramWriteUnlock (u + v) r n) wr o true .sram tok false;
          canIssue s cmd tok →
            (∃ t, exec (.sram (.writeUnlock x cnt) a b q tok) s = .next t ∧ issued s t cmd .sram tok) ∧
            (tok.indirect = false →
              cmd = ownCmd s (.sramWriteUnlock (u + v) (s.xfer x).val cnt) wr .sram tok false))) ∧
      (let cmd := s.command (.sramUnlock (u + v)) wr o true .sram tok false;
        canIssue s cmd tok →
          (∃ t, exec (.sram .unlock a b q tok) s = .next t ∧ issued s t cmd .sram tok) ∧
          (tok.indirect = false → cmd = ownCmd s (.sramUnlock (u + v)) wr .sram tok false))) ∧
    (∀ list : Fin 8, let o := s.engine.overrides .sramPushPop tok.indirect;
      let cmd := s.command (.sramPush (u + v) (o.list.getD list)) wr o true .sram tok false;
      canIssue s cmd tok → ∃ t, exec (.sram (.push list) a b q tok) s = .next t ∧ issued s t cmd .sram tok)

/-- A reference whose command FIFO is full stalls the microengine (R61, R591), in every form: that nothing at all changes
and the same instruction runs again at the engine's next step is the model's reading (log entry 15); that a relative name's
burst may run on past the eight registers of its context is its choice (DESIGN CHOICE, log entry 20). -/
def Obligations.FullCommandFifoStalls : Prop :=
  ∀ (s : State) (x : Xfer) (tok : RefTok), 2 ≤ s.engine.cmdFifo.length →
    (tok.ctxSwap = true → s.engine.defer = none) →
    (∀ imm reg ind, exec (.fastWr imm reg ind) s = .next s) ∧
    (∀ order, exec (.pciDma x order tok) s = .next s) ∧
    (∀ reg cnt, (s.xfer x).val + (if reg = .cycleCnt then 2 else cnt) ≤ 32 →
      exec (.csr .read x reg cnt tok) s = .next s) ∧
    (∀ reg cnt, (s.xfer x).val + cnt ≤ 32 → exec (.csr .write x reg cnt tok) s = .next s) ∧
    (∀ p ∈ ([(Instr.hash1x48, 1), (Instr.hash2x48, 2), (Instr.hash3x48, 3), (Instr.hash1x64, 1), (Instr.hash2x64, 2),
        (Instr.hash3x64, 3)] : List ((Xfer → RefTok → Instr) × Nat)),
      (s.xfer x).val + 2 * p.2 ≤ 32 → exec (p.1 x tok) s = .next s) ∧
    (∀ list q, exec (.sram (.pop x list) .none .none q tok) s = .next s) ∧
    (∀ a b u v, operandIs s a (some u) → operandIs s b (some v) →
      exec (.scratch .incr a b tok) s = .next s ∧
      (∀ op, exec (.scratch (.bitWr x op) a b tok) s = .next s) ∧
      (∀ cnt, let o := s.engine.overrides .scratchRw tok.indirect;
        xferOr o (s.xfer x) + countOr o cnt ≤ 32 →
          exec (.scratch (.read x cnt) a b tok) s = .next s ∧ exec (.scratch (.write x cnt) a b tok) s = .next s) ∧
      (∀ cnt, let o := s.engine.overrides .rFifoRd tok.indirect;
        xferOr o (s.xfer x) + 2 * countOr o cnt ≤ 32 → exec (.rFifoRd x a b cnt tok) s = .next s) ∧
      (∀ cnt, let o := s.engine.overrides .tFifoWr tok.indirect;
        xferOr o (s.xfer x) + 2 * countOr o cnt ≤ 32 → exec (.tFifoWr x a b cnt tok) s = .next s) ∧
      (∀ cnt q chain, let o := s.engine.overrides .sdramRw tok.indirect;
        xferOr o (s.xfer x) + 2 * countOr o cnt ≤ 32 →
          exec (.sdram (.read x cnt) a b q chain tok) s = .next s ∧
          exec (.sdram (.write x cnt) a b q chain tok) s = .next s) ∧
      (∀ cnt q chain, exec (.sdram (.tFifoWr cnt) a b q chain tok) s = .next s ∧
        exec (.sdram (.rFifoRd cnt) a b q chain tok) s = .next s) ∧
      (∀ cnt q, let o := s.engine.overrides .sramRw tok.indirect;
        xferOr o (s.xfer x) + countOr o cnt ≤ 32 →
          exec (.sram (.read x cnt) a b q tok) s = .next s ∧
          exec (.sram (.write x cnt) a b q tok) s = .next s) ∧
      (∀ cnt q, let o := s.engine.overrides .sramLock tok.indirect;
        xferOr o (s.xfer x) + countOr o cnt ≤ 32 →
          exec (.sram (.readLock x cnt) a b q tok) s = .next s ∧
          exec (.sram (.writeUnlock x cnt) a b q tok) s = .next s) ∧
      (∀ q, exec (.sram .unlock a b q tok) s = .next s ∧
        (∀ op, exec (.sram (.bitWr x op) a b q tok) s = .next s) ∧
        (∀ list, exec (.sram (.push list) a b q tok) s = .next s)))

/-- The named stops of references and operands, in every form. A reference whose burst runs past transfer register 31 is
refused, with `indirect_ref` by the register and the count the indirect word gives (D7, R49). One with `ctx_swap` in a
deferred position is refused (D15, R483). One that asks for a signal its thread still waits for is refused (U12, R78,
R587). An operand that is a read of an autopush target which the push protect protocol forbids is a fault (U14, R792). That
a swap is among the branches D15 refuses, the order of the first three, that the fault comes before D15's refusal, the thread
U12 is kept for, that a span is checked when the reference issues, against the file and not the context's eight registers,
and how U14 counts its window are the model's choice (log
entries 18 to 20, 22 and 75). -/
def Obligations.ReferenceAndOperandStops : Prop :=
  (∀ (s : State) (x : Xfer) (a b : Src) (u v : Word) (cnt : Nat) (tok : RefTok) (reg : FbiCsr) (op : BitOp)
      (list : Fin 8) (sq : SramQueue) (dq : SdramQueue) (chain order : Bool),
    operandIs s a (some u) → operandIs s b (some v) →
    ∀ f ∈ refForms s x a b cnt tok reg op list sq dq chain order,
      (32 < f.first + f.regs → exec f.instr s = .refused .burstPastRegister31) ∧
      (f.first + f.regs ≤ 32 →
        (tok.ctxSwap = true → s.engine.defer.isSome = true → exec f.instr s = .refused .branchInDeferSlot) ∧
        (s.engine.cmdFifo.length < 2 → (tok.ctxSwap = true → s.engine.defer = none) →
          (tok.sigDone || tok.ctxSwap) = true → signalDue s f → exec f.instr s = .refused .signalPending))) ∧
  (∀ (s : State) (y z : Src) (n : Fin 32) (d : Dest) (op : AluOp) (shf : Shf) (pos : BitVec 5) (k : Fin 4) (v : Byte)
      (lanes : BitVec 4) (l : Label) (t : BrTok) (clr : Bool),
    srcCell s.engine.active y = some (.sramRd n) → s.protectedRead n.val = true →
    ∀ i ∈ readForms y z d op shf pos k v lanes l t clr, exec i s = .fault .pushProtect)

/-- `local_csr_rd` (R560, R1165 (a)) of a local CSR that a thread may name (R140): the CSR's value is latched for the next
instruction, and is the old value right after a write of the same CSR; no register changes. An immediate of the next
instruction reads the latched value. The latch's reach and the old value's are the model's reading (log entries 24 and
25). -/
def Obligations.LocalCsrReadLatches : Prop :=
  ∀ (s : State) (reg : LocalCsr), reg.threadAccess = true → ∃ t, exec (.localCsrRd reg) s = .next t ∧
    t.engine.csrLatch = some (match s.engine.csrShadow with
      | some (k, old) => if k = reg then old else s.engine.csrValue s.board.pcBits reg
      | none => s.engine.csrValue s.board.pcBits reg) ∧
    (∀ v c, t.engine.csrLatch = some c → t.source (.imm v) = .ok (some c)) ∧
    regsKept s.engine t.engine ∧ t.engine.cc = s.engine.cc ∧ findKept s.engine t.engine ∧
    othersKept s t ∧ controlKept s.engine t.engine ∧ t.engine.cmdFifo = s.engine.cmdFifo ∧
    (s.engine.defer = none → contextsKept s.engine t.engine ∧
      t.engine.pcs = s.engine.pcs.set s.engine.active (s.engine.pc + 1))

/-- `local_csr_wr` (R561) completes for every local CSR a thread may name but a wakeup register whose word selects more
than one event (U33), and its named fields take effect (R144 to R152): CTX_ENABLES takes bits 11:8, the old enables
staying seen for the window of R1165 (c); CC_ENABLE, CTX_ARB_CNTL, CTX_n_SIG_EVENTS, CTX_n_WAKEUP_EVENTS and
ENABLE_SRAM_JOURNALING take their fields; ACTIVE_CTX_STS and CTX_n_STS move no running context and no program counter
(R1100). No general or transfer register changes. The bits with no named meaning, the old value's latch, the window's
length and a write of a status register are the model's choice (log entries 5, 17 and 29). So is what a wakeup word says
of `voluntary`, whose encoding R152 does not give: a word with no event bit is voluntary (DEDUCED), and one with an event
bit and the bit of `voluntary` sets a selector nothing constrains (DESIGN CHOICE, log entry 29). -/
def Obligations.LocalCsrWriteTakes : Prop :=
  ∀ (s : State) (src : Gpr) (v : Word), v = s.engine.gpr s.engine.active src →
    (∀ reg : LocalCsr, reg.threadAccess = true →
      (∀ n, reg = .ctxWakeupEvents n → ∀ e f, getBit (.wakeEvent e) v = true → getBit (.wakeEvent f) v = true → e = f) →
      ∃ t, exec (.localCsrWr reg src) s = .next t ∧ regsKept s.engine t.engine ∧ othersKept s t ∧
        findKept s.engine t.engine ∧ t.engine.csrLatch = none ∧
        t.engine.csrShadow = some (reg, s.engine.csrValue s.board.pcBits reg) ∧
        t.engine.csrRaw = s.engine.csrRaw.set (csrIndex reg) v ∧ t.engine.cmdFifo = s.engine.cmdFifo ∧
        (s.engine.defer = none → s.engine.executing = true →
          t.engine.pcs = s.engine.pcs.set s.engine.active (s.engine.pc + 1) ∧
          t.engine.active = s.engine.active ∧ t.engine.executing = true)) ∧
    (s.engine.defer = none →
      (∃ t, exec (.localCsrWr .ctxEnables src) s = .next t ∧ t.engine.ctxEnables = v.extractLsb' 8 4 ∧
        t.engine.oldEnables = s.engine.ctxEnables ∧ t.engine.enWindow = 5) ∧
      (∃ t, exec (.localCsrWr .ccEnable src) s = .next t ∧
        t.engine.cc = ⟨getBit .ccZero v, getBit .ccSign v, getBit .ccCarry v⟩ ∧
        t.engine.prevCc = ⟨getBit .ccPrevZero v, getBit .ccPrevSign v, getBit .ccPrevCarry v⟩) ∧
      (∃ t, exec (.localCsrWr .ctxArbCntl src) s = .next t ∧
        t.engine.nctx.val = (getField .arbNext 2 v).toNat ∧ t.engine.pctx.val = (getField .arbPrev 2 v).toNat) ∧
      (∃ t, exec (.localCsrWr .enableSramJournaling src) s = .next t ∧
        t.engine.journaling = getBit .journalEnable v) ∧
      (∀ n : Fin 4, ∃ t, exec (.localCsrWr (.ctxSigEvents n) src) s = .next t ∧
        ∀ (c : Fin 4) (e : SigEvent), t.engine.sigEvents[c].getLsbD (sigBit e) =
          if c = n then getBit (.sigEvent e) v else s.engine.sigEvents[c].getLsbD (sigBit e)) ∧
      (∀ (n : Fin 4) (w : Wakeup), wakeupOf v s.free = .ok w →
        ∃ t, exec (.localCsrWr (.ctxWakeupEvents n) src) s = .next t ∧
          t.engine.wakeup = s.engine.wakeup.set n w)) ∧
    (∀ w, wakeupOf v s.free = .ok w ↔ ((∀ f, getBit (.wakeEvent f) v = false) ∧ w = .voluntary) ∨
      ∃ e, (∀ f, getBit (.wakeEvent f) v = decide (f = e)) ∧
        w = if getBit .wakeVoluntary v then Config.freeWakeup s.free else .signal e) ∧
    (∀ n, exec (.localCsrWr (.ctxWakeupEvents n) src) s = .refused .registerAccess ↔
      ∃ e f, f ≠ e ∧ getBit (.wakeEvent e) v = true ∧ getBit (.wakeEvent f) v = true)

/-! ### Ready Bus sequencer -/

/-- `NOP1` to `NOP8`, `flwctl` and `send` (R700, R704, R705, R710, R713, R781): a NOP of `n` moves only the position, and
after position 11 the pass is over; every instruction adds its IX Bus cycles to the time of the pass, `3n` for a NOP, 6 for
`flwctl` with valid data and 1 without, `8n + 1` for a `send`; `flwctl` sends the MAC number and mask on the Ready Bus when
FLOWCTL_MASK has been written since the last one, FCMA clearing, else nothing; `send` of `n` longwords sends the oldest `n`
of SEND_CMD in order, zeros where the array is empty (log entry 35). That the MAC number has three bits is the model's choice:
R211 and R781 give no width (DESIGN CHOICE, log entry 79). -/
def Obligations.SequencerNopsFlowControlAndSend : Prop :=
  (∀ p ∈ nopRows, ∀ s : State,
    ∃ t, exec p.1 s = .next t ∧ t = { s with fbi := t.fbi } ∧ seqMoved (3 * p.2) s.fbi t.fbi ∧
      loopOpened s.fbi t.fbi ∧ t.fbi = seqTouched s.fbi t.fbi) ∧
  (∀ s : State, ∃ t, exec .flwctl s = .next t ∧ t = { s with fbi := t.fbi, outputs := t.outputs } ∧
    t.outputs = (if s.fbi.fcma = true
      then s.outputs ++ [.flowControl (getField .fcMac 3 s.fbi.flowMask) (getField .fcMask 8 s.fbi.flowMask)]
      else s.outputs) ∧
    t.fbi.fcma = false ∧ seqMoved (if s.fbi.fcma = true then 6 else 1) s.fbi t.fbi ∧ loopOpened s.fbi t.fbi ∧
    t.fbi = { seqTouched s.fbi t.fbi with fcma := t.fbi.fcma }) ∧
  (∀ p ∈ sendRows, ∀ s : State, ∃ t, exec p.1 s = .next t ∧
    t.outputs = s.outputs ++ (s.fbi.sendCmd.take p.2 ++ List.replicate (p.2 - s.fbi.sendCmd.length) 0).map
      Output.readyBusSend ∧
    t.fbi.sendCmd = s.fbi.sendCmd.drop p.2 ∧ t = { s with fbi := t.fbi, outputs := t.outputs } ∧
    seqMoved (8 * p.2 + 1) s.fbi t.fbi ∧ loopOpened s.fbi t.fbi ∧
    t.fbi = { seqTouched s.fbi t.fbi with sendCmd := t.fbi.sendCmd })

/-- The 28 `rxrdy` and the 28 `txrdy` instructions (R706, R707): the flags of exactly their MACs are collected into
RCV_RDY_HI and LO, or XMIT_RDY_HI and LO; the first of a loop captures the Receive Request Count (R717); three IX Bus
cycles for each MAC (R704). -/
def Obligations.ReadyFlagsCollected : Prop :=
  (∀ p ∈ rxrdyRows, ∀ s : State, ∃ t, exec p.1 s = .next t ∧ t = { s with fbi := t.fbi } ∧
    (∀ k : Fin 7, readyByte t.fbi.rcvRdyHi t.fbi.rcvRdyLo k =
      if p.2.1 ≤ k.val ∧ k.val ≤ p.2.2 then s.env.macRx[k] else readyByte s.fbi.rcvRdyHi s.fbi.rcvRdyLo k) ∧
    seqMoved (3 * (p.2.2 + 1 - p.2.1)) s.fbi t.fbi ∧ captureDone s.fbi t.fbi ∧
    t.fbi = { seqTouched s.fbi t.fbi with
      reqCapture := t.fbi.reqCapture, rcvRdyHi := t.fbi.rcvRdyHi, rcvRdyLo := t.fbi.rcvRdyLo }) ∧
  (∀ p ∈ txrdyRows, ∀ s : State, ∃ t, exec p.1 s = .next t ∧ t = { s with fbi := t.fbi } ∧
    (∀ k : Fin 7, readyByte t.fbi.xmitRdyHi t.fbi.xmitRdyLo k =
      if p.2.1 ≤ k.val ∧ k.val ≤ p.2.2 then s.env.macTx[k] else readyByte s.fbi.xmitRdyHi s.fbi.xmitRdyLo k) ∧
    seqMoved (3 * (p.2.2 + 1 - p.2.1)) s.fbi t.fbi ∧ captureDone s.fbi t.fbi ∧
    t.fbi = { seqTouched s.fbi t.fbi with
      reqCapture := t.fbi.reqCapture, xmitRdyHi := t.fbi.xmitRdyHi, xmitRdyLo := t.fbi.xmitRdyLo })

/-- `RxAutopush` and `TxAutopush` (R708, R709): the Receive Ready Count counts every `RxAutopush`; an enabled push is
requested of the Push Engine, a disabled one does nothing more; both take three IX Bus cycles (R704). The push, and the
signal with it, come as a later event (log entry 34). -/
def Obligations.AutopushRequested : Prop :=
  ∀ s : State,
    (∃ t, exec .rxAutopush s = .next t ∧ t = { s with fbi := t.fbi } ∧
      t.fbi.rdyCount = s.fbi.rdyCount + 1 ∧ t.fbi.rxPush = (s.fbi.rxPush || s.fbi.rxApEnable) ∧
      seqMoved 3 s.fbi t.fbi ∧ loopOpened s.fbi t.fbi ∧
      (s.fbi.rxApEnable = true → t.fbi.apJoined = s.fbi.apHold) ∧
      (s.fbi.rxApEnable = false → t.fbi.apJoined = s.fbi.apJoined) ∧
      t.fbi = { seqTouched s.fbi t.fbi with
        rdyCount := t.fbi.rdyCount, rxPush := t.fbi.rxPush, apJoined := t.fbi.apJoined }) ∧
    (∃ t, exec .txAutopush s = .next t ∧ t = { s with fbi := t.fbi } ∧
      t.fbi.txPush = (s.fbi.txPush || s.fbi.txApEnable) ∧ seqMoved 3 s.fbi t.fbi ∧ loopOpened s.fbi t.fbi ∧
      (s.fbi.txApEnable = true → t.fbi.apJoined = s.fbi.apHold) ∧
      (s.fbi.txApEnable = false → t.fbi.apJoined = s.fbi.apJoined) ∧
      t.fbi = { seqTouched s.fbi t.fbi with txPush := t.fbi.txPush, apJoined := t.fbi.apJoined })

/-- `get1` and `get2` of `n` longwords (R711, R712): when GET_CMD has room, the first `n` longwords offered go to its
end in order; for what is missing a `get1` takes zeros, a `get2` unspecified longwords. An overfill of the array is
refused. These three are the model's choice (log entry 35). Each takes `8n + 1` IX Bus cycles (R704). -/
def Obligations.GetAppends : Prop :=
  (∀ p ∈ get1Rows, ∀ s : State,
    (s.fbi.getCmd.length + p.2 ≤ 8 → ∃ t, exec p.1 s = .next t ∧
      t.fbi.getCmd = s.fbi.getCmd ++ s.env.slave.take p.2 ++ List.replicate (p.2 - s.env.slave.length) 0 ∧
      t.env = { s.env with slave := s.env.slave.drop p.2 } ∧ t = { s with fbi := t.fbi, env := t.env } ∧
      seqMoved (8 * p.2 + 1) s.fbi t.fbi ∧ loopOpened s.fbi t.fbi ∧
      t.fbi = { seqTouched s.fbi t.fbi with getCmd := t.fbi.getCmd }) ∧
    (8 < s.fbi.getCmd.length + p.2 → exec p.1 s = .refused .ringOverflow)) ∧
  (∀ p ∈ get2Rows, ∀ s : State,
    (s.fbi.getCmd.length + p.2 ≤ 8 → ∃ t ws, exec p.1 s = .next t ∧
      t.fbi.getCmd = s.fbi.getCmd ++ s.env.chained.take p.2 ++ ws ∧ ws.length = p.2 - s.env.chained.length ∧
      t.env = { s.env with chained := s.env.chained.drop p.2 } ∧
      t = { s with fbi := t.fbi, env := t.env, free := t.free } ∧
      seqMoved (8 * p.2 + 1) s.fbi t.fbi ∧ loopOpened s.fbi t.fbi ∧
      t.fbi = { seqTouched s.fbi t.fbi with getCmd := t.fbi.getCmd }) ∧
    (8 < s.fbi.getCmd.length + p.2 → exec p.1 s = .refused .ringOverflow))

/-! ### The units -/

/-- The SDRAM Unit serves `sdram[read]` and `sdram[write]` (R843, R848, R849, D6). A write of `n` quadwords from quadword
`a`: byte `b` of the range takes byte `b mod 4` of the write transfer register `x + (b - 8a) / 4`, with a byte mask only
where the mask bit of the byte is set; every other byte of every memory stays. A read: the read transfer registers from
`x` take the longwords of the range, low half first; no memory changes. Either raises the asked signal and changes nothing
else in any microengine. A set mask bit writes its byte (R583, D35). A write changes nothing else of the unit but the older
contents kept for the prefetch window (R858). A mask with more than one quadword, to which R843 gives no result, leaves the
bytes of the range unspecified and all else as in any write: the model's choice (log entry 21). -/
def Obligations.SdramReadsAndWrites : Prop :=
  ∀ (s : State) (c : Cmd) (a : Word) (x n : Nat), 8 * (a.toNat + n) ≤ s.board.sdramBytes → x + 2 * n ≤ 32 →
    (∀ mask : Option Byte, c.op = .sdramWrite a x n mask → (mask = none ∨ n = 1) →
      ∃ t, s.sdramServe c = .ok t ∧
        (∀ b, 8 * a.toNat ≤ b → b < 8 * (a.toNat + n) →
          t.sdram.mem.read b = if (mask.getD 0xFF).getLsbD (b % 8)
            then ((s.me c.xfMe).sdramWr[x + (b - 8 * a.toNat) / 4]?).map fun w => laneOf w (b % 4)
            else s.sdram.mem.read b) ∧
        (∀ b, b < 8 * a.toNat ∨ 8 * (a.toNat + n) ≤ b → t.sdram.mem.read b = s.sdram.mem.read b) ∧
        t.sdram = s.sdram.store t.sdram.mem ∧ t = { s with sdram := t.sdram, mes := t.mes } ∧
        t.mes = (s.completed c).mes) ∧
    (∀ m : Byte, c.op = .sdramWrite a x n (some m) → n ≠ 1 → ∃ t, s.sdramServe c = .ok t ∧
      (∀ b, b < 8 * a.toNat ∨ 8 * (a.toNat + n) ≤ b → t.sdram.mem.read b = s.sdram.mem.read b) ∧
      t.sdram = s.sdram.store t.sdram.mem ∧
      t = { s with sdram := t.sdram, mes := t.mes, free := t.free } ∧ t.mes = (s.completed c).mes) ∧
    (c.op = .sdramRead a x n → (∀ b, 8 * a.toNat ≤ b → b < 8 * (a.toNat + n) → (s.sdram.mem.read b).isSome = true) →
      ∃ t, s.sdramServe c = .ok t ∧ t = { s with mes := t.mes } ∧
        (∀ r : Fin 32, x ≤ r.val → r.val < x + 2 * n → ∀ k, k < 4 →
          s.sdram.mem.read (8 * a.toNat + 4 * (r.val - x) + k) = some (laneOf (t.me c.xfMe).sdramRd[r] k)) ∧
        (∀ r : Fin 32, r.val < x ∨ x + 2 * n ≤ r.val → (t.me c.xfMe).sdramRd[r] = (s.me c.xfMe).sdramRd[r]) ∧
        sdramDelivered s t c)

/-- The SRAM Unit serves `sram[read]` and `sram[write]` of the SSRAM (R901, R906): the longwords of the range go to the
read transfer registers from `x`, or come from the write transfer registers from `x`, with a byte mask the bytes of one
longword whose mask bit is set (R583, D35); every other byte stays, and in every microengine all but those read transfer
registers and the asked signal, which is raised. A mask with more than one longword, to which R906 gives no result, leaves
the bytes of the range unspecified and all else as in any write: the model's choice (log entry 21). -/
def Obligations.SramReadsAndWrites : Prop :=
  ∀ (s : State) (c : Cmd) (a : Word) (x n : Nat), 4 * (a.toNat + n) ≤ s.board.sramBytes → a.toNat + n ≤ 0x200000 →
    x + n ≤ 32 →
    (c.op = .sramRead a x n → (∀ i, i < n → (s.sram.mem.readWord (a.toNat + i)).isSome = true) →
      ∃ t, s.sramServe c = .ok t ∧ t = { s with mes := t.mes } ∧
        fileHolds (s.me c.xfMe).sramRd (t.me c.xfMe).sramRd x n (fun i => s.sram.mem.readWord (a.toNat + i)) ∧
        sramDelivered s t c) ∧
    (∀ mask : Option Byte, c.op = .sramWrite a x n mask → (mask = none ∨ n = 1) →
      ∃ t, s.sramServe c = .ok t ∧
        (∀ b, 4 * a.toNat ≤ b → b < 4 * (a.toNat + n) →
          t.sram.mem.read b = if (mask.getD 0x0F).getLsbD (b % 4)
            then ((s.me c.xfMe).sramWr[x + (b - 4 * a.toNat) / 4]?).map fun w => laneOf w (b % 4)
            else s.sram.mem.read b) ∧
        (∀ b, b < 4 * a.toNat ∨ 4 * (a.toNat + n) ≤ b → t.sram.mem.read b = s.sram.mem.read b) ∧
        t.sram = { s.sram with mem := t.sram.mem } ∧ t = { s with sram := t.sram, mes := t.mes } ∧
        t.mes = (s.completed c).mes) ∧
    (∀ m : Byte, c.op = .sramWrite a x n (some m) → n ≠ 1 → ∃ t, s.sramServe c = .ok t ∧
      (∀ b, b < 4 * a.toNat ∨ 4 * (a.toNat + n) ≤ b → t.sram.mem.read b = s.sram.mem.read b) ∧
      t.sram = { s.sram with mem := t.sram.mem } ∧
      t = { s with sram := t.sram, mes := t.mes, free := t.free } ∧ t.mes = (s.completed c).mes)

/-- A bit operation on an SSRAM longword (R920): set or clear the bits of the mask; the test forms return the value
from before to read transfer register `x`; every other byte stays. -/
def Obligations.SramBitOperation : Prop :=
  ∀ (s : State) (c : Cmd) (a : Word) (x : Nat) (op : BitOp) (old m : Word), c.op = .sramBit a x op → x < 32 →
    4 * (a.toNat + 1) ≤ s.board.sramBytes → s.sram.mem.readWord a.toNat = some old →
    (s.me c.xfMe).sramWr[x]? = some m →
    ∃ t, s.sramServe c = .ok t ∧
      t.sram.mem.readWord a.toNat = some (if op = .setBits ∨ op = .testAndSet then old ||| m else old &&& ~~~m) ∧
      (∀ b, b < 4 * a.toNat ∨ 4 * a.toNat + 4 ≤ b → t.sram.mem.read b = s.sram.mem.read b) ∧
      t.sram = { s.sram with mem := t.sram.mem } ∧ t = { s with sram := t.sram, mes := t.mes } ∧
      (∀ r : Fin 32, (t.me c.xfMe).sramRd[r] =
        if r.val = x ∧ (op = .testAndSet ∨ op = .testAndClear) then old else (s.me c.xfMe).sramRd[r]) ∧
      sramDelivered s t c

/-- A push and a pop of list `k` (R890 to R893): a push links the buffer at `m` to the old head, which it stores
at `m`, and makes `m` the head; a pop right after it delivers `m` to the register and makes the old head the
head again. -/
def Obligations.PushThenPop : Prop :=
  ∀ (s : State) (c d : Cmd) (m : Word) (k : Fin 8) (x : Nat), c.op = .sramPush m k → d.op = .sramPop x k → x < 32 →
    4 * (m.toNat + 1) ≤ s.board.sramBytes →
    ∃ t u, s.sramServe c = .ok t ∧ t.sramServe d = .ok u ∧
      t.sram.mem.readWord m.toNat = some s.sram.pushPop[k] ∧ t.sram.pushPop = s.sram.pushPop.set k m ∧
      (∀ b, b < 4 * m.toNat ∨ 4 * m.toNat + 4 ≤ b → t.sram.mem.read b = s.sram.mem.read b) ∧
      (u.me d.xfMe).sramRd[x]? = some m ∧ u.sram.pushPop = s.sram.pushPop ∧ u.sram.mem = t.sram.mem

/-- The lock CAM (R910 to R913), for longwords of the SSRAM; a lock command outside it is refused (U20, R320). A `read_lock`
of an address that is locked, or with the CAM full, waits in the fail queue, neither signalled nor answered, and with that
queue full is a fault (U21); of an address that is free, with an entry free and no read lock waiting, it takes the lock,
delivers the longwords and raises the asked signal. `write_unlock` stores its longwords; it and `unlock` remove the address,
and the waiting read locks are tried again. -/
def Obligations.LockCam : Prop :=
  ∀ (s : State) (c : Cmd) (a : Word),
    (∀ x n, c.op = .sramReadLock a x n ∨ c.op = .sramWriteUnlock a x n → s.board.sramBytes < 4 * (a.toNat + n) →
      s.sramServe c = .error (.refused .addressRange)) ∧
    (c.op = .sramUnlock a → s.board.sramBytes < 4 * (a.toNat + 1) → s.sramServe c = .error (.refused .addressRange)) ∧
    (∀ x n, c.op = .sramReadLock a x n → (a ∈ s.sram.cam ∨ 8 ≤ s.sram.cam.length) →
      4 * (a.toNat + n) ≤ s.board.sramBytes →
      (s.sram.lockFail.length < 23 → s.sramServe c =
        .ok { s with sram := { s.sram with lockFail := s.sram.lockFail ++ [.me c] } }) ∧
      (23 ≤ s.sram.lockFail.length → s.sramServe c = .error (.fault .lockQueueOverflow))) ∧
    (∀ x n, c.op = .sramReadLock a x n → a ∉ s.sram.cam → s.sram.cam.length < 8 → s.sram.lockFail = [] →
      4 * (a.toNat + n) ≤ s.board.sramBytes → x + n ≤ 32 →
      (∀ i, i < n → (s.sram.mem.readWord (a.toNat + i)).isSome = true) →
      ∃ t, s.sramServe c = .ok t ∧ t.sram = { s.sram with cam := s.sram.cam ++ [a] } ∧
        t = { s with sram := t.sram, mes := t.mes } ∧
        fileHolds (s.me c.xfMe).sramRd (t.me c.xfMe).sramRd x n (fun i => s.sram.mem.readWord (a.toNat + i)) ∧
        sramDelivered s t c) ∧
    (∀ x n, c.op = .sramWriteUnlock a x n → 4 * (a.toNat + n) ≤ s.board.sramBytes → x + n ≤ 32 →
      ∃ t, s.sramServe c = .ok t ∧
        (∀ i, i < n → t.sram.mem.readWord (a.toNat + i) = (s.me c.xfMe).sramWr[x + i]?) ∧
        (∀ b, b < 4 * a.toNat ∨ 4 * (a.toNat + n) ≤ b → t.sram.mem.read b = s.sram.mem.read b) ∧
        a ∉ t.sram.cam ∧ (∀ b, b ≠ a → (b ∈ t.sram.cam ↔ b ∈ s.sram.cam)) ∧ t.sram.retry = true ∧
        t.mes = (s.completed c).mes) ∧
    (c.op = .sramUnlock a → 4 * (a.toNat + 1) ≤ s.board.sramBytes → ∃ t, s.sramServe c = .ok t ∧ a ∉ t.sram.cam ∧
      (∀ b, b ≠ a → (b ∈ t.sram.cam ↔ b ∈ s.sram.cam)) ∧ t.sram.retry = true ∧ t.sram.mem = s.sram.mem ∧
      t.mes = (s.completed c).mes)

/-- The FBI's scratchpad operations (R750 to R755): a read delivers whole longwords, a write stores them; a bit operation
sets or clears the bits of its mask, and the test forms return the value from before to the register through the Push
Engine, which then raises the signal; the increment adds one, wrapping at 2^32; every other byte of the scratchpad stays;
a burst outside the 1024 longwords is refused (U11). -/
def Obligations.ScratchpadOperations : Prop :=
  ∀ (s : State) (c : Cmd) (a : Word),
    (∀ x n, c.op = .scratchRead a x n → x + n ≤ 32 →
      (a.toNat + n ≤ 1024 → (∀ i, i < n → (s.fbi.scratch.readWord (a.toNat + i)).isSome = true) →
        ∃ t, s.pushServe c = .ok t ∧ t = { s with mes := t.mes } ∧
          fileHolds (s.me c.xfMe).sramRd (t.me c.xfMe).sramRd x n (fun i => s.fbi.scratch.readWord (a.toNat + i)) ∧
          sramDelivered s t c) ∧
      (1024 < a.toNat + n → s.pushServe c = .error (.refused .addressRange))) ∧
    (∀ x n, c.op = .scratchWrite a x n → x + n ≤ 32 →
      (a.toNat + n ≤ 1024 → ∃ t, s.pullServe c = .ok t ∧
        (∀ i, i < n → t.fbi.scratch.readWord (a.toNat + i) = (s.me c.xfMe).sramWr[x + i]?) ∧
        (∀ b, b < 4 * a.toNat ∨ 4 * (a.toNat + n) ≤ b → t.fbi.scratch.read b = s.fbi.scratch.read b) ∧
        t.fbi = { s.fbi with scratch := t.fbi.scratch } ∧ t.mes = (s.completed c).mes ∧
        t = { s with fbi := t.fbi, mes := t.mes }) ∧
      (1024 < a.toNat + n → s.pullServe c = .error (.refused .addressRange))) ∧
    (∀ x op old m, c.op = .scratchBit a x op → a.toNat < 1024 → s.fbi.scratch.readWord a.toNat = some old →
      (s.me c.xfMe).sramWr[x]? = some m →
      ∃ t, s.pullServe c = .ok t ∧ t = { s with fbi := t.fbi, mes := t.mes } ∧
        t.fbi.scratch.readWord a.toNat = some (if op = .setBits ∨ op = .testAndSet then old ||| m else old &&& ~~~m) ∧
        (∀ b, b < 4 * a.toNat ∨ 4 * a.toNat + 4 ≤ b → t.fbi.scratch.read b = s.fbi.scratch.read b) ∧
        (op = .setBits ∨ op = .clearBits → t.mes = (s.completed c).mes ∧
          t.fbi = { s.fbi with scratch := t.fbi.scratch }) ∧
        (op = .testAndSet ∨ op = .testAndClear → t.mes = s.mes ∧
          t.fbi = { s.fbi with scratch := t.fbi.scratch, tasRet := s.fbi.tasRet ++ [(c, x, old)] })) ∧
    (∀ x old rest, x < 32 → s.fbi.tasRet = (c, x, old) :: rest →
      ∃ t, s.fbiPushStep = .ok t ∧ t.fbi = { s.fbi with tasRet := rest } ∧ t = { s with fbi := t.fbi, mes := t.mes } ∧
        fileHolds (s.me c.xfMe).sramRd (t.me c.xfMe).sramRd x 1 (fun _ => some old) ∧
        sramDelivered s t c) ∧
    (∀ old, c.op = .scratchIncr a → a.toNat < 1024 → s.fbi.scratch.readWord a.toNat = some old →
      ∃ t, s.pullServe c = .ok t ∧ t.fbi.scratch.readWord a.toNat = some (old + 1) ∧
        (∀ b, b < 4 * a.toNat ∨ 4 * a.toNat + 4 ≤ b → t.fbi.scratch.read b = s.fbi.scratch.read b) ∧
        t.mes = (s.completed c).mes ∧ t = { s with fbi := t.fbi, mes := t.mes })

/-- A hash (R649 to R651, R225). The Pull Engine reads operand `k` of the command from write transfer registers `x + 2k`
and `x + 2k + 1` and computes its index, the remainder of the product with the multiplier divided by the generator, over
GF(2); bits 63:48 of a 48-bit index are unspecified (U7). The Push Engine delivers the index to the read transfer
registers of the same numbers, and raises the asked signal after the last. Which register holds the high part is board
parameter HASH_WORD_ORDER (D19). -/
def Obligations.HashResults : Prop :=
  ∀ (s : State) (c : Cmd) (is64 : Bool) (total x k : Nat), c.op = .hash is64 total x → x + 2 * total ≤ 32 → k < total →
    (∀ r0 r1, (s.me c.xfMe).sramWr[x + 2 * k]? = some r0 → (s.me c.xfMe).sramWr[x + 2 * k + 1]? = some r1 →
      (s.fbi.hashJob = some ⟨c, k⟩ ∨ k = 0 ∧ s.fbi.hashJob = none ∧ s.fbi.hashQ.head? = some c) →
      ∃ t v, s.fbiPullStep = .ok t ∧ t.fbi.hashOut = s.fbi.hashOut ++ [⟨c, k, v⟩] ∧
        t.fbi.hashJob = (if k + 1 < total then some ⟨c, k + 1⟩ else none) ∧
        t = { s with fbi := t.fbi, free := t.free } ∧
        (let hi : Word := if s.board.hashHighFirst then r0 else r1;
          let lo : Word := if s.board.hashHighFirst then r1 else r0;
          let a := if is64 then hi.toNat * 2 ^ 32 + lo.toNat else hi.toNat % 2 ^ 16 * 2 ^ 32 + lo.toNat;
          isHash (hashDegree is64) (hashGenerator is64) a (hashMultiplier s.fbi is64)
            (v.toNat % 2 ^ hashDegree is64))) ∧
    (∀ (v : Quad) rest, s.fbi.tasRet = [] → s.fbi.autopushWork = false → s.fbi.hashOut = ⟨c, k, v⟩ :: rest →
      ∃ t, s.fbiPushStep = .ok t ∧ t.fbi = { s.fbi with hashOut := rest } ∧ t = { s with fbi := t.fbi, mes := t.mes } ∧
        fileHolds (s.me c.xfMe).sramRd (t.me c.xfMe).sramRd (x + 2 * k) 2 (fun i =>
          some (if (i == 0) == s.board.hashHighFirst then v.extractLsb' 32 32 else v.extractLsb' 0 32)) ∧
        (∀ j, (t.me j).sigEvents =
          if k + 1 = total then ((s.completed c).me j).sigEvents else (s.me j).sigEvents))

/-- The FIFO transfers (R801, R817, R861, R862, R851): `r_fifo_rd` and `t_fifo_wr` move two registers for each quadword;
`sdram[t_fifo_wr]` moves quadwords from SDRAM to the TFIFO, from byte `align` of the first one on (little-endian), and
with `sig_done` in Dual Valid Bit mode sets the element's second valid flag; `sdram[r_fifo_rd]` moves quadwords from the
RFIFO to SDRAM; every other byte of every memory stays; a burst outside a FIFO is refused, one of `sdram[t_fifo_wr]`
outside its data area (U18). Which register holds the low half is board parameter FIFO_LW_ORDER (D27). An `align` of 8 to
15, to which R850 gives no meaning, moves unspecified bytes: the model's choice (log entry 21). -/
def Obligations.FifoTransfers : Prop :=
  ∀ (s : State) (c : Cmd) (a : Word) (x n : Nat), x + 2 * n ≤ 32 →
    (c.op = .rFifoRd a x n →
      (a.toNat + n ≤ 160 → (∀ i, i < n → (s.fbi.rfifo.readQuad (a.toNat + i)).isSome = true) →
        ∃ t, s.pushServe c = .ok t ∧ t = { s with mes := t.mes } ∧
          fileHolds (s.me c.xfMe).sramRd (t.me c.xfMe).sramRd x (2 * n)
            (fifoLong s.board.fifoLowFirst s.fbi.rfifo a.toNat) ∧
          sramDelivered s t c) ∧
      (160 < a.toNat + n → s.pushServe c = .error (.refused .addressRange))) ∧
    (c.op = .tFifoWr a x n →
      (a.toNat + n ≤ 160 → ∃ t, s.pullServe c = .ok t ∧
        (∀ i, i < 2 * n → fifoLong s.board.fifoLowFirst t.fbi.tfifo a.toNat i = (s.me c.xfMe).sramWr[x + i]?) ∧
        (∀ b, b < 8 * a.toNat ∨ 8 * (a.toNat + n) ≤ b → t.fbi.tfifo.read b = s.fbi.tfifo.read b) ∧
        t.fbi = { s.fbi with tfifo := t.fbi.tfifo } ∧ t = { s with fbi := t.fbi, mes := t.mes } ∧
        t.mes = (s.completed c).mes) ∧
      (160 < a.toNat + n → s.pullServe c = .error (.refused .addressRange))) ∧
    (∀ (f : Nat) (align : BitVec 4), c.op = .sdramTFifo a n f align → 7 < align.toNat → c.link = none → f + n ≤ 128 →
      8 * (a.toNat + n + 1) ≤ s.board.sdramBytes →
      ∃ t, s.sdramServe c = .ok t ∧
        (∀ b, b < 8 * f ∨ 8 * (f + n) ≤ b → t.fbi.tfifo.read b = s.fbi.tfifo.read b) ∧
        t.fbi = { s.fbi with tfifo := t.fbi.tfifo, txValid2 := t.fbi.txValid2 } ∧ t.sdram = s.sdram ∧
        t = { s with fbi := t.fbi, mes := t.mes, free := t.free } ∧ t.mes = (s.completed c).mes) ∧
    (∀ (f : Nat) (align : BitVec 4), c.op = .sdramTFifo a n f align → c.link = none →
      s.sdram.bigEndian = false → align.toNat ≤ 7 →
      let span := if align = 0 then n else n + 1;
      (f + n ≤ 128 → 8 * (a.toNat + span) ≤ s.board.sdramBytes →
        (∀ b, b < 8 * span → (s.sdram.mem.read (8 * a.toNat + b)).isSome = true) →
        ∃ t, s.sdramServe c = .ok t ∧
          (∀ b, b < 8 * n → t.fbi.tfifo.read (8 * f + b) = s.sdram.mem.read (8 * a.toNat + align.toNat + b)) ∧
          (∀ b, b < 8 * f ∨ 8 * (f + n) ≤ b → t.fbi.tfifo.read b = s.fbi.tfifo.read b) ∧
          (∀ e : Nat, e < 16 → t.fbi.txValid2.getLsbD e = (s.fbi.txValid2.getLsbD e ||
            decide (e = f / 8) && c.sig.isSome && s.fbi.dualValid)) ∧
          t.fbi = { s.fbi with tfifo := t.fbi.tfifo, txValid2 := t.fbi.txValid2 } ∧ t.sdram = s.sdram ∧
          t = { s with fbi := t.fbi, mes := t.mes } ∧ t.mes = (s.completed c).mes) ∧
      (128 < f + n → s.sdramServe c = .error (.refused .addressRange))) ∧
    (∀ f : Nat, c.op = .sdramRFifo a n f → f + n ≤ 128 → 8 * (a.toNat + n) ≤ s.board.sdramBytes →
      (∀ b, b < 8 * n → (s.fbi.rfifo.read (8 * f + b)).isSome = true) →
      ∃ t, s.sdramServe c = .ok t ∧
        (∀ b, b < 8 * n → t.sdram.mem.read (8 * a.toNat + b) = s.fbi.rfifo.read (8 * f + b)) ∧
        (∀ b, b < 8 * a.toNat ∨ 8 * (a.toNat + n) ≤ b → t.sdram.mem.read b = s.sdram.mem.read b) ∧
        t.sdram = s.sdram.store t.sdram.mem ∧ t = { s with sdram := t.sdram, mes := t.mes } ∧
        t.mes = (s.completed c).mes)

/-- The `csr` service (R765, R733): a write takes the longword of the write transfer register, a read right after it
delivers it, for the registers that only store; a write of RCV_REQ appends a request, refused when two wait (U15) and for
two slow port requests in a row to one port (U16) (R200, R804); a read of RCV_CNTL delivers the head entry, which its last
read retires, the next head's thread being signalled, and is refused with none (R807, U15); a read of SELF_DESTRUCT clears
it (R768), a write of THREAD_DONE_REG0 and REG1 clears the bits written as 1 (R769); a read of GET_CMD takes its oldest
entries (R780). -/
def Obligations.CsrService : Prop :=
  ∀ (s : State) (c d : Cmd) (x y : Nat) (w : Word), x < 32 → y < 32 → (s.me c.xfMe).sramWr[x]? = some w →
    (∀ reg ∈ storedCsrs, c.op = .csrWrite reg x 1 → d.op = .csrRead reg y 1 →
      ∃ t u, s.pullServe c = .ok t ∧ t.pushServe d = .ok u ∧ t = { s with fbi := t.fbi, mes := t.mes } ∧
        t.mes = (s.completed c).mes ∧ u = { t with mes := u.mes } ∧
        fileHolds (t.me d.xfMe).sramRd (u.me d.xfMe).sramRd y 1 (fun _ => some w) ∧
        sramDelivered t u d) ∧
    (c.op = .csrWrite .rcvReq x 1 →
      (2 ≤ s.fbi.rcvReq.length → s.pullServe c = .error (.refused .fifoMisuse)) ∧
      (s.fbi.rcvReq.length < 2 → getBit .rqFast w = false → s.fbi.lastSlow = some (requestPort w) →
        s.pullServe c = .error (.refused .slowPortRepeat)) ∧
      (s.fbi.rcvReq.length < 2 → (getBit .rqFast w = true ∨ s.fbi.lastSlow ≠ some (requestPort w)) →
        ∃ t, s.pullServe c = .ok t ∧ t.fbi.rcvReq = s.fbi.rcvReq ++ [w] ∧
          t.fbi = { s.fbi with rcvReq := t.fbi.rcvReq, lastSlow := t.fbi.lastSlow } ∧
          t = { s with fbi := t.fbi, mes := t.mes } ∧ t.mes = (s.completed c).mes)) ∧
    (d.op = .csrRead .rcvCntl y 1 →
      (s.fbi.rcvCntl = [] → s.pushServe d = .error (.refused .fifoMisuse)) ∧
      (∀ e rest, s.fbi.rcvCntl = e :: rest → ∃ t, s.pushServe d = .ok t ∧ t = { s with fbi := t.fbi, mes := t.mes } ∧
        fileHolds (s.me d.xfMe).sramRd (t.me d.xfMe).sramRd y 1 (fun _ => some e.word) ∧
        t.fbi = { s.fbi with
          rcvCntl := if e.reads ≤ 1 then rest else { e with reads := e.reads - 1 } :: rest } ∧
        (∀ n more, rest = n :: more → e.reads ≤ 1 →
          (t.me (threadMe n.thread)).sigEvents[threadCtx n.thread].getLsbD (sigBit .startReceive) = true))) ∧
    (d.op = .csrRead .selfDestruct y 1 → ∃ t, s.pushServe d = .ok t ∧
      fileHolds (s.me d.xfMe).sramRd (t.me d.xfMe).sramRd y 1 (fun _ => some s.fbi.selfDestruct) ∧
      t.fbi = { s.fbi with selfDestruct := 0 } ∧ t = { s with fbi := t.fbi, mes := t.mes }) ∧
    (c.op = .csrWrite .threadDoneReg0 x 1 → ∃ t, s.pullServe c = .ok t ∧
      t.fbi = { s.fbi with threadDone := t.fbi.threadDone } ∧
      ∀ i, t.fbi.threadDone.getLsbD i = (s.fbi.threadDone.getLsbD i && !(decide (i < 32) && w.getLsbD i))) ∧
    (c.op = .csrWrite .threadDoneReg1 x 1 → ∃ t, s.pullServe c = .ok t ∧
      t.fbi = { s.fbi with threadDone := t.fbi.threadDone } ∧
      ∀ i, t.fbi.threadDone.getLsbD i = (s.fbi.threadDone.getLsbD i && !(decide (32 ≤ i) && w.getLsbD (i - 32)))) ∧
    (∀ n, d.op = .csrRead .getCmd y n → y + n ≤ 32 → n ≤ s.fbi.getCmd.length → ∃ t, s.pushServe d = .ok t ∧
      fileHolds (s.me d.xfMe).sramRd (t.me d.xfMe).sramRd y n (fun i => s.fbi.getCmd[i]?) ∧
      t.fbi = { s.fbi with getCmd := s.fbi.getCmd.drop n } ∧ t = { s with fbi := t.fbi, mes := t.mes })

/-- The completion signal (R588, R75, R78): a command that asked for one sets that event of the thread it names, whose
request is no longer pending; no other event, no other thread and nothing else changes; a command that asked for none
changes nothing. -/
def Obligations.CompletionSignal : Prop :=
  ∀ (s : State) (c : Cmd),
    (c.sig = none → s.completed c = s) ∧
    (∀ e, c.sig = some e → s.completed c = { s with mes := (s.completed c).mes } ∧
      ∀ m : Fin 6,
        (s.completed c).me m = { s.me m with
          sigEvents := ((s.completed c).me m).sigEvents, pending := ((s.completed c).me m).pending } ∧
        ∀ (k : Fin 4) (f : SigEvent),
          (((s.completed c).me m).sigEvents[k].getLsbD (sigBit f) =
            ((s.me m).sigEvents[k].getLsbD (sigBit f) || decide (m = c.sigMe ∧ k = c.sigCtx ∧ f = e))) ∧
          (((s.completed c).me m).pending[k].getLsbD (sigBit f) =
            ((s.me m).pending[k].getLsbD (sigBit f) && !decide (m = c.sigMe ∧ k = c.sigCtx ∧ f = e))))

/-- Five `fast_wr` functions (R768 to R770, R810): THREAD_DONE ORs the message in at the writing thread's two bits,
SELF_DESTRUCT sets the numbered bit, INTER_THD_SIG signals one thread and no other; INCR_ENQ_NUM1 and INCR_ENQ_NUM2
count their enqueue number modulo 16 and, with Fast Port mode enabled, raise its event for every thread (R75), else no
signal at all. When Fast Port mode is enabled is the model's reading (log entry 33). -/
def Obligations.FastWriteFunctions : Prop :=
  ∀ (s : State) (t : Fin 24) (d : Word),
    (∃ u, s.fastWrite .threadDone t.val d = .ok u ∧ u = { s with fbi := u.fbi } ∧
      u.fbi = { s.fbi with threadDone := u.fbi.threadDone } ∧
      (d.toNat < 4 → ∀ i : Nat, u.fbi.threadDone.getLsbD i = (s.fbi.threadDone.getLsbD i ||
        decide (2 * t.val ≤ i ∧ i < 2 * t.val + 2) && d.getLsbD (i - 2 * t.val)))) ∧
    (d.toNat < 32 → ∃ u, s.fastWrite .selfDestruct t.val d = .ok u ∧ u = { s with fbi := u.fbi } ∧
      ∀ i : Nat, i < 32 →
        u.fbi.selfDestruct.getLsbD i = (s.fbi.selfDestruct.getLsbD i || decide (i = d.toNat))) ∧
    (∀ h : d.toNat < 24, ∃ u, s.fastWrite .interThdSig t.val d = .ok u ∧ u = { s with mes := u.mes } ∧
      ∀ (m : Fin 6) (c : Fin 4) (e : SigEvent), (u.me m).sigEvents[c].getLsbD (sigBit e) =
        ((s.me m).sigEvents[c].getLsbD (sigBit e) || decide (4 * m.val + c.val = d.toNat ∧ e = .interThread))) ∧
    (24 ≤ d.toNat → s.fastWrite .interThdSig t.val d = .error (.refused .fbiValue)) ∧
    (∀ p ∈ ([(.incrEnqNum1, 0, .seqNum1), (.incrEnqNum2, 1, .seqNum2)] : List (FastReg × Fin 2 × SigEvent)),
      ∃ u, s.fastWrite p.1 t.val d = .ok u ∧ u = { s with fbi := u.fbi, mes := u.mes } ∧
        u.fbi = { s.fbi with enqSeq := s.fbi.enqSeq.set p.2.1 (s.fbi.enqSeq[p.2.1] + 1) } ∧
        (s.fbi.fastEnabled = false → u.mes = s.mes) ∧
        (s.fbi.fastEnabled = true → ∀ (m : Fin 6) (c : Fin 4) (e : SigEvent),
          (u.me m).sigEvents[c].getLsbD (sigBit e) =
            ((s.me m).sigEvents[c].getLsbD (sigBit e) || decide (e = p.2.2))))

/-! ### StrongARM core -/

/-- Taking an exception other than Reset, and returning from it (R1041, R1050, R1051, R1054 to R1058): R14 of the mode
entered takes the interrupted address plus the exception's offset, its SPSR the old CPSR; CPSR takes the mode and I, and
F for FIQ, its other bits stay; the pc goes to the vector; r0 to r12 and r13 of every other mode stay. Returning to the
address R14 holds less the offset restores the pc and CPSR of before, in every state. The places of CPSR's bits, the
address R14 takes and the offsets are the family's (log entry 7). -/
def Obligations.ExceptionEntryAndReturn : Prop :=
  ∀ (c : Arm) (e : ArmException) (at_ : Word), e ≠ .reset →
    let d := c.takeException e at_;
    let r := d.returnFrom (d.reg 14 - e.offset);
    d.mode = e.mode ∧ d.spsr d.mode = c.cpsr ∧ d.reg 14 = at_ + e.offset ∧
    d.pc = c.vectorBase + e.vector ∧
    d.irqMasked = true ∧ d.fiqMasked = (decide (e = .fiq) || c.fiqMasked) ∧
    (∀ i : Nat, 8 ≤ i → i < 32 → d.cpsr.getLsbD i = c.cpsr.getLsbD i) ∧
    (∀ i : Fin 15, d.usr[i] = c.usr[i]) ∧ (∀ i : Fin 7, i.val ≠ 6 → d.fiq[i] = c.fiq[i]) ∧
    d.svc[0] = c.svc[0] ∧ d.abt[0] = c.abt[0] ∧ d.irq[0] = c.irq[0] ∧ d.und[0] = c.und[0] ∧
    d.control = c.control ∧ d.fsr = c.fsr ∧ d.far = c.far ∧ d.wb = c.wb ∧
    r.pc = at_ ∧ r.cpsr = c.cpsr ∧ r.mode = c.mode

/-- Between instructions (R1052, R1056, R1058, R1060): a pending FIQ that is not masked goes before an IRQ, a
masked line is not taken; with no interrupt to take, an enabled instruction breakpoint at the pc takes the
prefetch abort in place of the instruction, and nothing but the core changes; its standing request for the PCI bus,
the model's own mark (log entry 59), is withdrawn. The moment an interrupt is looked for is log entry 48's. -/
def Obligations.BoundaryExceptions : Prop :=
  ∀ s : State,
    (s.fiqLine = true → s.arm.fiqMasked = false → s.armInterrupt false = some .fiq) ∧
    (s.irqLine = true → s.arm.irqMasked = false → (s.fiqLine = false ∨ s.arm.fiqMasked = true) →
      s.armInterrupt false = some .irq) ∧
    ((s.irqLine = false ∨ s.arm.irqMasked = true) → (s.fiqLine = false ∨ s.arm.fiqMasked = true) →
      s.armInterrupt false = none) ∧
    (∀ late ans, s.arm.resume = none → s.armInterrupt late = none → s.arm.ibEnable = true →
      (s.arm.pc &&& ~~~3) = (s.arm.ibcr &&& ~~~3) →
      s.run (.strongArm late ans) = .next { s with
        arm := s.arm.ended.takeException .prefetchAbort s.arm.pc, pci := { s.pci with coreReq := false } })

/-- `SWI`, an undefined instruction, LDC, STC and CDP, MCR and MRC with a coprocessor other than 15 in any mode (R671,
R1054) and, in User mode, MCR and MRC with coprocessor 15 take their exception at the instruction; in a privileged mode a
read of CONTROL_CP15 delivers its value (R261). The User mode exception is R671's and R260's own inference ('from general
knowledge, not in source'; log entry 63). That the core's program enters as actions is log entry 6. -/
def Obligations.TrapsAndPrivilege : Prop :=
  ∀ (s : State) (r : Resume) (ans : PciTurn),
    s.armAct r .swi ans = .ok (.over (s.trap .swi) false) ∧
    s.armAct r .undefined ans = .ok (.over (s.trap .undefined) false) ∧
    s.armAct r .coprocOther ans = .ok (.over (s.trap .undefined) false) ∧
    (s.trap .swi).arm.pc = s.arm.vectorBase + 8 ∧ (s.trap .swi).arm.mode = .svc ∧
    (s.trap .undefined).arm.pc = s.arm.vectorBase + 4 ∧
    (∀ cp crn crm op2 v d, cp ≠ 15 →
      s.armAct r (.mcr cp crn crm op2 v) ans = .ok (.over (s.trap .undefined) false) ∧
      s.armAct r (.mrc cp crn crm op2 d) ans = .ok (.over (s.trap .undefined) false)) ∧
    (s.arm.mode = .usr → ∀ crn crm op2 v d,
      s.armAct r (.mcr 15 crn crm op2 v) ans = .ok (.over (s.trap .undefined) false) ∧
      s.armAct r (.mrc 15 crn crm op2 d) ans = .ok (.over (s.trap .undefined) false)) ∧
    (s.arm.mode ≠ .usr → ∀ (crm : BitVec 4) (op2 : BitVec 3) (d : Fin 15),
      s.armAct r (.mrc 15 1 crm op2 ⟨d.val, by omega⟩) ans =
        .ok (.go { s with arm := s.arm.setReg d s.arm.controlValue } r ans))

/-- A write of CONTROL_CP15 (R261, R675, R676): an invalid combination of the MMU, data cache and write buffer enables
is refused (U35); a valid one without the big endian bit (U37) takes effect, and a change of the MMU enable lets the
next three fetches use the old setting. The refusals and the window are log entries 50 and 52. -/
def Obligations.ControlWrite : Prop :=
  ∀ (c : Arm) (v : Word),
    let m := v.getLsbD 0;
    let d := v.getLsbD 2;
    let w := v.getLsbD 3;
    (¬((m, d, w) = (false, false, false) ∨ (m, d, w) = (true, false, false) ∨ (m, d, w) = (true, false, true) ∨
        (m, d, w) = (true, true, true)) → c.writeControl v = .error (.refused .controlValue)) ∧
    ((m, d, w) = (false, false, false) ∨ (m, d, w) = (true, false, false) ∨ (m, d, w) = (true, false, true) ∨
        (m, d, w) = (true, true, true) → getBit .cpEndian v = false →
      ∃ c', c.writeControl v = .ok c' ∧ c'.mmuOn = m ∧ c'.dcOn = d ∧ c'.wbOn = w ∧ c'.icOn = v.getLsbD 12 ∧
        (m ≠ c.mmuOn → c'.flatLeft = 3 ∧ c'.flatMmu = c.mmuOn) ∧
        (m = c.mmuOn → c'.flatLeft = c.flatLeft) ∧ c'.usr = c.usr ∧ c'.cpsr = c.cpsr ∧ c'.pc = c.pc)

/-! ### PCI Unit, timers, system registers -/

/-- A timer tick (R1090, D52): a disabled timer stands; an enabled one counts down; reaching zero raises its
interrupt; the tick after zero reloads a periodic timer and wraps a free-running one. Timer 4 reaching zero
under the watchdog enable resets the chip (R1093). The tick as an event and the moment of the reload are log
entries 43 and 54. -/
def Obligations.TimerTicks : Prop :=
  (∀ t : Timer,
    (t.enable = false → t.tick = (t, false)) ∧
    (t.enable = true → 1 < t.value.toNat →
      (t.tick.1.value.toNat = t.value.toNat - 1 ∧ t.tick.1.int = t.int ∧ t.tick.2 = false)) ∧
    (t.enable = true → t.value = 1 → t.tick.1.value = 0 ∧ t.tick.1.int = true ∧ t.tick.2 = true) ∧
    (t.enable = true → t.value = 0 → t.periodic = true → t.tick.1.value = t.load ∧ t.tick.2 = false) ∧
    (t.enable = true → t.value = 0 → t.periodic = false → t.tick.1.value = 0xFFFFFF ∧ t.tick.2 = false)) ∧
  (∀ s : State, s.pci.timers[3].enable = true → s.pci.timers[3].value = 1 → s.pci.watchdog = true →
    ∃ u, s.run (.timerTick 3) = .next u ∧ u.arm.pc = 0 ∧ u.arm.mode = .svc ∧ (∀ m, (u.me m).inReset = true) ∧
      u.sdram.mem = [] ∧ u.pci = Pci.reset ∧ s.outputs ++ [.resetOut] <+: u.outputs)

/-- The doorbell (R982) and the UART (R244, R1095). The StrongARM core sets the doorbell bits it writes, a PCI master
clears them; an interrupt to the PCI host follows a set bit its mask enables, one to the core a clear bit its mask
enables. A byte put into a transmit FIFO with room goes behind those before it, one put into a full FIFO is dropped (U34);
the oldest byte leaves the chip first; a byte received by a full receive FIFO is lost and marks the last one. The event
forms are log entries 42 and 44. -/
def Obligations.DoorbellAndUart : Prop :=
  (∀ (s : State) (v : Word),
      (∃ t, s.pciRegWrite true .doorbell v 0xFFFFFFFF = .ok t ∧ t = { s with pci := t.pci } ∧
        t.pci = { s.pci with doorbell := s.pci.doorbell ||| v }) ∧
      (∃ t, s.pciRegWrite false .doorbell v 0xFFFFFFFF = .ok t ∧ t = { s with pci := t.pci } ∧
        t.pci = { s.pci with doorbell := s.pci.doorbell &&& ~~~v }) ∧
      (s.pci.doorbellPci = true ↔ ∃ i : Nat, i < 32 ∧ s.pci.doorbell.getLsbD i = true ∧
        s.pci.dbellPciMask.getLsbD i = true) ∧
      (s.pci.doorbellSa = true ↔ ∃ i : Nat, i < 32 ∧ s.pci.doorbell.getLsbD i = false ∧
        s.pci.dbellSaMask.getLsbD i = true)) ∧
  (∀ (s : State) (b : Byte) (rest : List Byte), s.sys.uartEnable = true → getBit .uaBreak s.sys.uartCr = false →
    s.sys.uartTx = b :: rest → ∃ t, s.run .uartTx = .next t ∧ t.outputs = s.outputs ++ [.uart b] ∧
      t.sys.uartTx = rest ∧ t = { s with sys := t.sys, outputs := t.outputs }) ∧
  (∀ (y : Sys) (b : Byte),
    (y.uartTx.length < 8 → (y.uartPut b).uartTx = y.uartTx ++ [b]) ∧
    (8 ≤ y.uartTx.length → (y.uartPut b).uartTx = y.uartTx) ∧ (y.uartPut b).uartRx = y.uartRx) ∧
  (∀ (y : Sys) (b : Byte) (p f : Bool), y.uartEnable = true →
    (y.uartRx.length < 8 → (y.uartReceive b p f).uartRx = y.uartRx ++ [⟨b, p, f, false⟩]) ∧
    (8 ≤ y.uartRx.length → ((y.uartReceive b p f).uartRx.map (·.data) = y.uartRx.map (·.data) ∧
      ((y.uartReceive b p f).uartRx.getLast?.map (·.overrun)) = some true)))

/-! ### Reset and whole-machine rules -/

/-- After reset (R125, R127 to R130, R1053, R1144 to R1146) every microengine is in reset with no context enabled or
running, the core is in supervisor mode at address 0 with both interrupts masked and MMU, caches and write buffer off,
every command queue, buffer and FIFO of every unit is empty (R130, D11), the sequencer and the four timers are disabled, the SDRAM Unit is held in reset; both
invariants below hold. A reset of a running chip, which is how the Reset exception is entered (R1053, R1141), leaves the
core so from every state, whatever R14_svc and SPSR_svc hold, and the command queues empty. The core's mode, masks and CP15 state are read through the
family's layout (log entry 7). -/
def Obligations.ResetState : Prop :=
  (let s := State.reset;
  (∀ m, (s.me m).status = .reset ∧ (s.me m).ctxEnables = 0 ∧ (s.me m).executing = false ∧ (s.me m).cmdFifo = []) ∧
  s.arm.pc = 0 ∧ s.arm.mode = .svc ∧ s.arm.irqMasked = true ∧ s.arm.fiqMasked = true ∧
  s.arm.mmuOn = false ∧ s.arm.dcOn = false ∧ s.arm.icOn = false ∧ s.arm.wbOn = false ∧ s.arm.vectorHigh = false ∧
  s.queuesEmpty = true ∧ s.arm.wb = [] ∧
  s.fbi.hashQ = [] ∧ s.fbi.pullQ = [] ∧ s.fbi.pushQ = [] ∧ s.fbi.hashJob = none ∧ s.fbi.hashOut = [] ∧ s.fbi.tasRet = [] ∧
  s.fbi.rcvReq = [] ∧ s.fbi.rcvCntl = [] ∧ s.fbi.getCmd = [] ∧ s.fbi.sendCmd = [] ∧ s.fbi.txValid = 0 ∧ s.fbi.xmitPtr = 0 ∧ s.fbi.seqEnable = false ∧
  s.sdram.inReset = true ∧ s.sdram.ready = false ∧ s.sdram.orderQ = [] ∧ s.sdram.oddQ = [] ∧ s.sdram.evenQ = [] ∧
  s.sdram.prioQ = [] ∧ s.sdram.posted = [] ∧ s.sram.orderQ = [] ∧ s.sram.readQ = [] ∧ s.sram.prioQ = [] ∧
  s.sram.lockFail = [] ∧ s.sram.posted = [] ∧ s.sram.cam = [] ∧ s.sys.uartTx = [] ∧ s.sys.uartRx = [] ∧
  s.pci.dmaReq = [] ∧ s.pci.inbound = [] ∧ s.pci.outbound = [] ∧ s.pci.watchdog = false ∧
  (∀ n : Fin 4, s.pci.timers[n].enable = false ∧ s.pci.timers[n].int = false)) ∧
  State.reset.memoryOk ∧ State.reset.fifosOk ∧
  (∀ s : State, let t := s.chipReset;
    t.arm.pc = 0 ∧ t.arm.mode = .svc ∧ t.arm.irqMasked = true ∧ t.arm.fiqMasked = true ∧
    t.arm.mmuOn = false ∧ t.arm.dcOn = false ∧ t.arm.icOn = false ∧ t.arm.wbOn = false ∧ t.arm.alignOn = false ∧
    t.queuesEmpty = true ∧ t.arm.wb = [] ∧ t.arm.icache.lines = [] ∧ t.arm.dcache.lines = [] ∧ t.arm.mini.lines = [] ∧
    ∀ m, (t.me m).inReset = true)

/-- Every step of every agent keeps every memory in its canonical form: addresses strictly rising, one entry for each byte
written (R10, R128); so too the older contents of SDRAM that the prefetch window may deliver (R858) and the bytes the slow
port devices offer. The form is the model's choice (log entry 11). -/
def Obligations.StepKeepsMemoryCanonical : Prop :=
  ∀ s t : State, s.memoryOk → step s = .next t → t.memoryOk

/-- Every step of every agent keeps the FIFOs, queues and arrays of `fifosOk` within the sizes the manual gives them: the
command FIFOs (R61), RCV_REQ and RCV_CNTL (R200, R201), GET_CMD and SEND_CMD (R214), the SDRAM and SRAM command queues
(R845, R900), the lock CAM and the Read_lock Fail queue (R910, R912), the AMBA data buffers (R856, R904), the core's write
buffer (R85), the DMA request FIFO (R965) and the UART's two (R1095). -/
def Obligations.StepKeepsFifoSizes : Prop :=
  ∀ s t : State, s.fifosOk → step s = .next t → t.fifosOk

/-- A microengine instruction, whichever it is, reaches nothing but its own engine and the pending marks of the thread
its command signals (R11, R530): no memory byte, no unit, no device, no output, no other engine's registers. What a
reference asks for is done by the units later. -/
def Obligations.MicroengineInstructionIsLocal : Prop :=
  ∀ (i : Instr) (s t : State), i.isSeq = false → exec i s = .next t →
    unitsKept s t ∧ ∀ k, k ≠ s.cur → t.me k = { s.me k with pending := (t.me k).pending }

/-- A Ready Bus sequencer instruction, whichever it is, touches no memory, no other unit and no microengine register:
only the sequencer's own position, pass time, rate timer and loop marks, the FBI's ready, autopush and command registers and the flow control mark
FCMA, signals, and the Ready Bus (R700, R706 to R713). -/
def Obligations.SequencerInstructionIsLocal : Prop :=
  ∀ (i : Instr) (s t : State), i.isSeq = true → exec i s = .next t →
    sameMemory s t ∧ t = { s with fbi := t.fbi, mes := t.mes, env := t.env, outputs := t.outputs, free := t.free } ∧
    t.fbi = { seqTouched s.fbi t.fbi with
      reqCapture := t.fbi.reqCapture, rcvRdyHi := t.fbi.rcvRdyHi, rcvRdyLo := t.fbi.rcvRdyLo
      xmitRdyHi := t.fbi.xmitRdyHi, xmitRdyLo := t.fbi.xmitRdyLo, rdyCount := t.fbi.rdyCount
      rxPush := t.fbi.rxPush, txPush := t.fbi.txPush, apJoined := t.fbi.apJoined
      getCmd := t.fbi.getCmd, sendCmd := t.fbi.sendCmd, fcma := t.fbi.fcma } ∧
    ∀ k, regsKept (s.me k) (t.me k) ∧
      t.me k = { s.me k with sigEvents := (t.me k).sigEvents, pending := (t.me k).pending }
end

