-- ==== Sys2Proof/Laws/Memory.lean ====
section
/-! SUPPORT. The laws of one memory space: a read after a write, every other address unchanged, and the canonical form
kept by every memory operation. -/

namespace Sys2Proof.Machine

/-! ### One byte -/

theorem Mem.read_write_self (a : Nat) (b : Byte) (m : Mem) : (m.write a b).read a = some b := by
  induction m with
  | nil => simp [Mem.write, Mem.read]
  | cons c rest ih =>
    simp only [Mem.write]
    split
    · simp [Mem.read]
    · split
      · simp [Mem.read]
      · simp only [Mem.read]
        split
        · omega
        · exact ih

theorem Mem.read_write_ne {a k : Nat} (b : Byte) (m : Mem) (h : k ≠ a) : (m.write a b).read k = m.read k := by
  induction m with
  | nil => simp [Mem.write, Mem.read, Ne.symm h]
  | cons c rest ih =>
    simp only [Mem.write]
    split
    · simp [Mem.read, Ne.symm h]
    · split
      · rename_i h1 h2
        simp [Mem.read, Ne.symm h, ← h2]
      · simp only [Mem.read, ih]

theorem Mem.write_mem {a : Nat} {b : Byte} {m : Mem} {c : Host.Cell} (h : c ∈ m.write a b) : c = (a, b) ∨ c ∈ m := by
  induction m with
  | nil => simpa [Mem.write] using h
  | cons d rest ih =>
    simp only [Mem.write] at h
    split at h
    · rcases List.mem_cons.1 h with h | h
      · exact .inl h
      · exact .inr h
    · split at h
      · rcases List.mem_cons.1 h with h | h
        · exact .inl h
        · exact .inr (List.mem_cons_of_mem _ h)
      · rcases List.mem_cons.1 h with h | h
        · exact .inr (h ▸ List.mem_cons_self)
        · exact (ih h).imp_right (List.mem_cons_of_mem _)

/-- A write keeps the canonical form. -/
theorem Mem.write_wf (a : Nat) (b : Byte) {m : Mem} (h : m.wf) : (m.write a b).wf := by
  induction m with
  | nil => simp [Mem.write, Mem.wf]
  | cons c rest ih =>
    have hc := List.pairwise_cons.1 h
    simp only [Mem.write]
    split
    · rename_i h1
      refine List.pairwise_cons.2 ⟨fun d hd => ?_, h⟩
      rcases List.mem_cons.1 hd with hd | hd
      · exact hd ▸ h1
      · exact Nat.lt_trans h1 (hc.1 d hd)
    · split
      · rename_i h1 h2
        exact List.pairwise_cons.2 ⟨fun d hd => h2 ▸ hc.1 d hd, hc.2⟩
      · rename_i h1 h2
        refine List.pairwise_cons.2 ⟨fun d hd => ?_, ih hc.2⟩
        rcases Mem.write_mem hd with hd | hd
        · subst hd
          show c.1 < a
          omega
        · exact hc.1 d hd

/-! ### Bytes from an address -/

theorem Mem.writeBytes_wf (bs : List Byte) (a : Nat) {m : Mem} (h : m.wf) : (m.writeBytes a bs).wf := by
  induction bs generalizing a m with
  | nil => exact h
  | cons b bs ih => exact ih _ (Mem.write_wf _ _ h)

theorem Mem.writeMasked_wf (bs : List Byte) (a mask : Nat) {m : Mem} (h : m.wf) : (m.writeMasked a mask bs).wf := by
  induction bs generalizing a mask m with
  | nil => exact h
  | cons b bs ih =>
    simp only [Mem.writeMasked]
    split
    · exact ih _ _ (Mem.write_wf _ _ h)
    · exact ih _ _ h

/-- Addresses before and after the bytes written keep theirs. -/
theorem Mem.read_writeBytes_ne (bs : List Byte) (a k : Nat) (m : Mem) (h : k < a ∨ a + bs.length ≤ k) :
    (m.writeBytes a bs).read k = m.read k := by
  induction bs generalizing a m with
  | nil => rfl
  | cons b bs ih =>
    simp only [Mem.writeBytes, List.length_cons] at *
    rw [ih (a + 1) (m.write a b) (by omega), Mem.read_write_ne b m (by omega)]

/-- Byte `i` of those written. -/
theorem Mem.read_writeBytes (bs : List Byte) (a i : Nat) (m : Mem) (h : i < bs.length) :
    (m.writeBytes a bs).read (a + i) = some bs[i] := by
  induction bs generalizing a i m with
  | nil => exact absurd h (Nat.not_lt_zero _)
  | cons b bs ih =>
    cases i with
    | zero =>
      simp only [Mem.writeBytes, Nat.add_zero, List.getElem_cons_zero]
      rw [Mem.read_writeBytes_ne bs (a + 1) a _ (by omega), Mem.read_write_self]
    | succ i =>
      simp only [Mem.writeBytes, List.getElem_cons_succ]
      rw [show a + (i + 1) = a + 1 + i by omega]
      exact ih (a + 1) i (m.write a b) (by simpa using h)

/-- Addresses outside the range of a masked write keep their byte. -/
theorem Mem.read_writeMasked_ne (bs : List Byte) (a k mask : Nat) (m : Mem) (h : k < a ∨ a + bs.length ≤ k) :
    (m.writeMasked a mask bs).read k = m.read k := by
  induction bs generalizing a mask m with
  | nil => rfl
  | cons b bs ih =>
    simp only [Mem.writeMasked, List.length_cons] at *
    rw [ih (a + 1) (mask / 2) _ (by omega)]
    split
    · exact Mem.read_write_ne b m (by omega)
    · rfl

/-- What was written as a block is read back as a block. -/
theorem Mem.readBytes_writeBytes (bs : List Byte) (a : Nat) (m : Mem) :
    (m.writeBytes a bs).readBytes a bs.length = some bs := by
  induction bs generalizing a m with
  | nil => rfl
  | cons b bs ih =>
    simp only [Mem.writeBytes, List.length_cons, Mem.readBytes]
    rw [Mem.read_writeBytes_ne bs (a + 1) a _ (by omega), Mem.read_write_self, ih]
    rfl

/-- Reads of disjoint blocks are not changed by a write. -/
theorem Mem.readBytes_writeBytes_ne (bs : List Byte) (a k n : Nat) (m : Mem) (h : k + n ≤ a ∨ a + bs.length ≤ k) :
    (m.writeBytes a bs).readBytes k n = m.readBytes k n := by
  induction n generalizing k with
  | zero => rfl
  | succ n ih =>
    simp only [Mem.readBytes]
    rw [Mem.read_writeBytes_ne bs a k m (by omega), ih (k + 1) (by omega)]

/-! ### Longwords and quadwords -/

@[simp] theorem wordBytes_length (v : Word) : (wordBytes v).length = 4 := rfl
@[simp] theorem quadBytes_length (v : Quad) : (quadBytes v).length = 8 := rfl

/-- A longword is what its bytes say. -/
@[simp] theorem wordOf_wordBytes (v : Word) : wordOf (wordBytes v) = v := by
  apply BitVec.eq_of_toNat_eq
  simp only [wordOf, wordBytes, natOfBytes, BitVec.toNat_ofNat, BitVec.extractLsb'_toNat]
  have := v.isLt
  simp only [Nat.shiftRight_eq_div_pow]
  omega

/-- A quadword is what its bytes say. -/
@[simp] theorem quadOf_quadBytes (v : Quad) : quadOf (quadBytes v) = v := by
  apply BitVec.eq_of_toNat_eq
  simp only [quadOf, quadBytes, wordBytes, List.cons_append, List.nil_append, natOfBytes, BitVec.toNat_ofNat,
    BitVec.extractLsb'_toNat, BitVec.toNat_setWidth]
  have := v.isLt
  simp only [Nat.shiftRight_eq_div_pow]
  omega

theorem Mem.readWord_writeWord (m : Mem) (i : Nat) (v : Word) : (m.writeWord i v).readWord i = some v := by
  have h := Mem.readBytes_writeBytes (wordBytes v) (4 * i) m
  simp only [wordBytes_length] at h
  simp [Mem.readWord, Mem.writeWord, h]

theorem Mem.readQuad_writeQuad (m : Mem) (i : Nat) (v : Quad) : (m.writeQuad i v).readQuad i = some v := by
  have h := Mem.readBytes_writeBytes (quadBytes v) (8 * i) m
  simp only [quadBytes_length] at h
  simp [Mem.readQuad, Mem.writeQuad, h]

theorem Mem.writeWord_wf (i : Nat) (v : Word) {m : Mem} (h : m.wf) : (m.writeWord i v).wf :=
  Mem.writeBytes_wf _ _ h

theorem Mem.writeQuad_wf (i : Nat) (v : Quad) {m : Mem} (h : m.wf) : (m.writeQuad i v).wf :=
  Mem.writeBytes_wf _ _ h

theorem Mem.writeWords_wf (ws : List Word) (i : Nat) {m : Mem} (h : m.wf) : (m.writeWords i ws).wf := by
  induction ws generalizing i m with
  | nil => exact h
  | cons w ws ih => exact ih _ (Mem.writeWord_wf _ _ h)

theorem Mem.writeQuads_wf (qs : List Quad) (i : Nat) {m : Mem} (h : m.wf) : (m.writeQuads i qs).wf := by
  induction qs generalizing i m with
  | nil => exact h
  | cons q qs ih => exact ih _ (Mem.writeQuad_wf _ _ h)

theorem Mem.read_writeWord_ne (m : Mem) (i k : Nat) (v : Word) (h : k < 4 * i ∨ 4 * i + 4 ≤ k) :
    (m.writeWord i v).read k = m.read k := Mem.read_writeBytes_ne _ _ _ _ (by simpa using h)

/-- Bytes outside the longwords written keep theirs. -/
theorem Mem.read_writeWords_ne (ws : List Word) (m : Mem) (i k : Nat)
    (h : k < 4 * i ∨ 4 * (i + ws.length) ≤ k) : (m.writeWords i ws).read k = m.read k := by
  induction ws generalizing i m with
  | nil => rfl
  | cons w ws ih =>
    simp only [Mem.writeWords, List.length_cons] at *
    rw [ih (m.writeWord i w) (i + 1) (by omega), Mem.read_writeWord_ne m i k w (by omega)]

theorem Mem.read_writeQuad_ne (m : Mem) (i k : Nat) (v : Quad) (h : k < 8 * i ∨ 8 * i + 8 ≤ k) :
    (m.writeQuad i v).read k = m.read k := Mem.read_writeBytes_ne _ _ _ _ (by simpa using h)

/-- Bytes outside the quadwords written keep theirs. -/
theorem Mem.read_writeQuads_ne (qs : List Quad) (m : Mem) (i k : Nat)
    (h : k < 8 * i ∨ 8 * (i + qs.length) ≤ k) : (m.writeQuads i qs).read k = m.read k := by
  induction qs generalizing i m with
  | nil => rfl
  | cons q qs ih =>
    simp only [Mem.writeQuads, List.length_cons] at *
    rw [ih (m.writeQuad i q) (i + 1) (by omega), Mem.read_writeQuad_ne m i k q (by omega)]

/-- Longwords written are read back. -/
theorem Mem.readWords_writeWords (ws : List Word) (m : Mem) (i : Nat) :
    (m.writeWords i ws).readWords i ws.length = some ws := by
  suffices H : ∀ (ws : List Word) (m : Mem) (i : Nat), (m.writeWords i ws).readWords i ws.length = some ws ∧
      ∀ k n, 4 * (k + n) ≤ 4 * i → (m.writeWords i ws).readBytes (4 * k) (4 * n) = m.readBytes (4 * k) (4 * n) from
    (H ws m i).1
  intro ws
  induction ws with
  | nil => exact fun m i => ⟨rfl, fun _ _ _ => rfl⟩
  | cons w ws ih =>
    intro m i
    have ⟨h1, h2⟩ := ih (m.writeWord i w) (i + 1)
    refine ⟨?_, fun k n h => ?_⟩
    · simp only [Mem.writeWords, List.length_cons, Mem.readWords, h1]
      have h3 := h2 i 1 (by omega)
      have h4 := Mem.readWord_writeWord m i w
      simp only [Mem.readWord] at h4 ⊢
      simp only [Nat.mul_one] at h3
      rw [h3, h4]
      rfl
    · simp only [Mem.writeWords]
      rw [h2 k n (by omega)]
      exact Mem.readBytes_writeBytes_ne _ _ _ _ _ (by simp; omega)

/-! ### The composite writes of the units -/

theorem storeReceived_wf (qs : List Quad) (rq : Word) (i : Nat) {m : Mem} (h : m.wf) :
    (storeReceived m rq i qs).wf := by
  induction qs generalizing i m with
  | nil => exact h
  | cons q qs ih => exact ih _ (Mem.writeQuad_wf _ _ h)

theorem storeStatus_wf (rq : Word) (p : Quad × Option Quad) {m : Mem} (h : m.wf) : (storeStatus m rq p).wf := by
  unfold storeStatus
  dsimp only
  split
  · exact Mem.writeQuad_wf _ _ (Mem.writeQuad_wf _ _ h)
  · exact Mem.writeQuad_wf _ _ h

theorem writeDwords_wf (ds : List (Word × BitVec 4)) (x : Nat) {m : Mem} (h : m.wf) : (writeDwords m x ds).wf := by
  induction ds generalizing x m with
  | nil => exact h
  | cons d ds ih => exact ih _ (Mem.writeMasked_wf _ _ _ h)

end Sys2Proof.Machine
end

