-- ==== Sys2Proof/Laws/State.lean ====
section
/-! SUPPORT. One lemma per field per update of the state and of a microengine, so that no later proof unfolds a record
update. -/

namespace Sys2Proof.Machine

/-! ### Updates of the whole state -/

@[simp] theorem State.withFbi_mes (s : State) (x : Fbi) : (s.withFbi x).mes = s.mes := rfl
@[simp] theorem State.withFbi_cur (s : State) (x : Fbi) : (s.withFbi x).cur = s.cur := rfl
@[simp] theorem State.withFbi_fbi (s : State) (x : Fbi) : (s.withFbi x).fbi = x := rfl
@[simp] theorem State.withFbi_sdram (s : State) (x : Fbi) : (s.withFbi x).sdram = s.sdram := rfl
@[simp] theorem State.withFbi_sram (s : State) (x : Fbi) : (s.withFbi x).sram = s.sram := rfl
@[simp] theorem State.withFbi_pci (s : State) (x : Fbi) : (s.withFbi x).pci = s.pci := rfl
@[simp] theorem State.withFbi_arm (s : State) (x : Fbi) : (s.withFbi x).arm = s.arm := rfl
@[simp] theorem State.withFbi_sys (s : State) (x : Fbi) : (s.withFbi x).sys = s.sys := rfl
@[simp] theorem State.withFbi_env (s : State) (x : Fbi) : (s.withFbi x).env = s.env := rfl
@[simp] theorem State.withFbi_board (s : State) (x : Fbi) : (s.withFbi x).board = s.board := rfl
@[simp] theorem State.withFbi_inputs (s : State) (x : Fbi) : (s.withFbi x).inputs = s.inputs := rfl
@[simp] theorem State.withFbi_outputs (s : State) (x : Fbi) : (s.withFbi x).outputs = s.outputs := rfl
@[simp] theorem State.withFbi_free (s : State) (x : Fbi) : (s.withFbi x).free = s.free := rfl
@[simp] theorem State.withFbi_me (s : State) (x : Fbi) (m : Fin 6) : (s.withFbi x).me m = s.me m := rfl
@[simp] theorem State.withFbi_engine (s : State) (x : Fbi) : (s.withFbi x).engine = s.engine := rfl
@[simp] theorem State.withSdram_mes (s : State) (x : Sdram) : (s.withSdram x).mes = s.mes := rfl
@[simp] theorem State.withSdram_cur (s : State) (x : Sdram) : (s.withSdram x).cur = s.cur := rfl
@[simp] theorem State.withSdram_fbi (s : State) (x : Sdram) : (s.withSdram x).fbi = s.fbi := rfl
@[simp] theorem State.withSdram_sdram (s : State) (x : Sdram) : (s.withSdram x).sdram = x := rfl
@[simp] theorem State.withSdram_sram (s : State) (x : Sdram) : (s.withSdram x).sram = s.sram := rfl
@[simp] theorem State.withSdram_pci (s : State) (x : Sdram) : (s.withSdram x).pci = s.pci := rfl
@[simp] theorem State.withSdram_arm (s : State) (x : Sdram) : (s.withSdram x).arm = s.arm := rfl
@[simp] theorem State.withSdram_sys (s : State) (x : Sdram) : (s.withSdram x).sys = s.sys := rfl
@[simp] theorem State.withSdram_env (s : State) (x : Sdram) : (s.withSdram x).env = s.env := rfl
@[simp] theorem State.withSdram_board (s : State) (x : Sdram) : (s.withSdram x).board = s.board := rfl
@[simp] theorem State.withSdram_inputs (s : State) (x : Sdram) : (s.withSdram x).inputs = s.inputs := rfl
@[simp] theorem State.withSdram_outputs (s : State) (x : Sdram) : (s.withSdram x).outputs = s.outputs := rfl
@[simp] theorem State.withSdram_free (s : State) (x : Sdram) : (s.withSdram x).free = s.free := rfl
@[simp] theorem State.withSdram_me (s : State) (x : Sdram) (m : Fin 6) : (s.withSdram x).me m = s.me m := rfl
@[simp] theorem State.withSdram_engine (s : State) (x : Sdram) : (s.withSdram x).engine = s.engine := rfl
@[simp] theorem State.withSram_mes (s : State) (x : Sram) : (s.withSram x).mes = s.mes := rfl
@[simp] theorem State.withSram_cur (s : State) (x : Sram) : (s.withSram x).cur = s.cur := rfl
@[simp] theorem State.withSram_fbi (s : State) (x : Sram) : (s.withSram x).fbi = s.fbi := rfl
@[simp] theorem State.withSram_sdram (s : State) (x : Sram) : (s.withSram x).sdram = s.sdram := rfl
@[simp] theorem State.withSram_sram (s : State) (x : Sram) : (s.withSram x).sram = x := rfl
@[simp] theorem State.withSram_pci (s : State) (x : Sram) : (s.withSram x).pci = s.pci := rfl
@[simp] theorem State.withSram_arm (s : State) (x : Sram) : (s.withSram x).arm = s.arm := rfl
@[simp] theorem State.withSram_sys (s : State) (x : Sram) : (s.withSram x).sys = s.sys := rfl
@[simp] theorem State.withSram_env (s : State) (x : Sram) : (s.withSram x).env = s.env := rfl
@[simp] theorem State.withSram_board (s : State) (x : Sram) : (s.withSram x).board = s.board := rfl
@[simp] theorem State.withSram_inputs (s : State) (x : Sram) : (s.withSram x).inputs = s.inputs := rfl
@[simp] theorem State.withSram_outputs (s : State) (x : Sram) : (s.withSram x).outputs = s.outputs := rfl
@[simp] theorem State.withSram_free (s : State) (x : Sram) : (s.withSram x).free = s.free := rfl
@[simp] theorem State.withSram_me (s : State) (x : Sram) (m : Fin 6) : (s.withSram x).me m = s.me m := rfl
@[simp] theorem State.withSram_engine (s : State) (x : Sram) : (s.withSram x).engine = s.engine := rfl
@[simp] theorem State.withPci_mes (s : State) (x : Pci) : (s.withPci x).mes = s.mes := rfl
@[simp] theorem State.withPci_cur (s : State) (x : Pci) : (s.withPci x).cur = s.cur := rfl
@[simp] theorem State.withPci_fbi (s : State) (x : Pci) : (s.withPci x).fbi = s.fbi := rfl
@[simp] theorem State.withPci_sdram (s : State) (x : Pci) : (s.withPci x).sdram = s.sdram := rfl
@[simp] theorem State.withPci_sram (s : State) (x : Pci) : (s.withPci x).sram = s.sram := rfl
@[simp] theorem State.withPci_pci (s : State) (x : Pci) : (s.withPci x).pci = x := rfl
@[simp] theorem State.withPci_arm (s : State) (x : Pci) : (s.withPci x).arm = s.arm := rfl
@[simp] theorem State.withPci_sys (s : State) (x : Pci) : (s.withPci x).sys = s.sys := rfl
@[simp] theorem State.withPci_env (s : State) (x : Pci) : (s.withPci x).env = s.env := rfl
@[simp] theorem State.withPci_board (s : State) (x : Pci) : (s.withPci x).board = s.board := rfl
@[simp] theorem State.withPci_inputs (s : State) (x : Pci) : (s.withPci x).inputs = s.inputs := rfl
@[simp] theorem State.withPci_outputs (s : State) (x : Pci) : (s.withPci x).outputs = s.outputs := rfl
@[simp] theorem State.withPci_free (s : State) (x : Pci) : (s.withPci x).free = s.free := rfl
@[simp] theorem State.withPci_me (s : State) (x : Pci) (m : Fin 6) : (s.withPci x).me m = s.me m := rfl
@[simp] theorem State.withPci_engine (s : State) (x : Pci) : (s.withPci x).engine = s.engine := rfl
@[simp] theorem State.withArm_mes (s : State) (x : Arm) : (s.withArm x).mes = s.mes := rfl
@[simp] theorem State.withArm_cur (s : State) (x : Arm) : (s.withArm x).cur = s.cur := rfl
@[simp] theorem State.withArm_fbi (s : State) (x : Arm) : (s.withArm x).fbi = s.fbi := rfl
@[simp] theorem State.withArm_sdram (s : State) (x : Arm) : (s.withArm x).sdram = s.sdram := rfl
@[simp] theorem State.withArm_sram (s : State) (x : Arm) : (s.withArm x).sram = s.sram := rfl
@[simp] theorem State.withArm_pci (s : State) (x : Arm) : (s.withArm x).pci = s.pci := rfl
@[simp] theorem State.withArm_arm (s : State) (x : Arm) : (s.withArm x).arm = x := rfl
@[simp] theorem State.withArm_sys (s : State) (x : Arm) : (s.withArm x).sys = s.sys := rfl
@[simp] theorem State.withArm_env (s : State) (x : Arm) : (s.withArm x).env = s.env := rfl
@[simp] theorem State.withArm_board (s : State) (x : Arm) : (s.withArm x).board = s.board := rfl
@[simp] theorem State.withArm_inputs (s : State) (x : Arm) : (s.withArm x).inputs = s.inputs := rfl
@[simp] theorem State.withArm_outputs (s : State) (x : Arm) : (s.withArm x).outputs = s.outputs := rfl
@[simp] theorem State.withArm_free (s : State) (x : Arm) : (s.withArm x).free = s.free := rfl
@[simp] theorem State.withArm_me (s : State) (x : Arm) (m : Fin 6) : (s.withArm x).me m = s.me m := rfl
@[simp] theorem State.withArm_engine (s : State) (x : Arm) : (s.withArm x).engine = s.engine := rfl
@[simp] theorem State.withSys_mes (s : State) (x : Sys) : (s.withSys x).mes = s.mes := rfl
@[simp] theorem State.withSys_cur (s : State) (x : Sys) : (s.withSys x).cur = s.cur := rfl
@[simp] theorem State.withSys_fbi (s : State) (x : Sys) : (s.withSys x).fbi = s.fbi := rfl
@[simp] theorem State.withSys_sdram (s : State) (x : Sys) : (s.withSys x).sdram = s.sdram := rfl
@[simp] theorem State.withSys_sram (s : State) (x : Sys) : (s.withSys x).sram = s.sram := rfl
@[simp] theorem State.withSys_pci (s : State) (x : Sys) : (s.withSys x).pci = s.pci := rfl
@[simp] theorem State.withSys_arm (s : State) (x : Sys) : (s.withSys x).arm = s.arm := rfl
@[simp] theorem State.withSys_sys (s : State) (x : Sys) : (s.withSys x).sys = x := rfl
@[simp] theorem State.withSys_env (s : State) (x : Sys) : (s.withSys x).env = s.env := rfl
@[simp] theorem State.withSys_board (s : State) (x : Sys) : (s.withSys x).board = s.board := rfl
@[simp] theorem State.withSys_inputs (s : State) (x : Sys) : (s.withSys x).inputs = s.inputs := rfl
@[simp] theorem State.withSys_outputs (s : State) (x : Sys) : (s.withSys x).outputs = s.outputs := rfl
@[simp] theorem State.withSys_free (s : State) (x : Sys) : (s.withSys x).free = s.free := rfl
@[simp] theorem State.withSys_me (s : State) (x : Sys) (m : Fin 6) : (s.withSys x).me m = s.me m := rfl
@[simp] theorem State.withSys_engine (s : State) (x : Sys) : (s.withSys x).engine = s.engine := rfl
@[simp] theorem State.withEnv_mes (s : State) (x : Env) : (s.withEnv x).mes = s.mes := rfl
@[simp] theorem State.withEnv_cur (s : State) (x : Env) : (s.withEnv x).cur = s.cur := rfl
@[simp] theorem State.withEnv_fbi (s : State) (x : Env) : (s.withEnv x).fbi = s.fbi := rfl
@[simp] theorem State.withEnv_sdram (s : State) (x : Env) : (s.withEnv x).sdram = s.sdram := rfl
@[simp] theorem State.withEnv_sram (s : State) (x : Env) : (s.withEnv x).sram = s.sram := rfl
@[simp] theorem State.withEnv_pci (s : State) (x : Env) : (s.withEnv x).pci = s.pci := rfl
@[simp] theorem State.withEnv_arm (s : State) (x : Env) : (s.withEnv x).arm = s.arm := rfl
@[simp] theorem State.withEnv_sys (s : State) (x : Env) : (s.withEnv x).sys = s.sys := rfl
@[simp] theorem State.withEnv_env (s : State) (x : Env) : (s.withEnv x).env = x := rfl
@[simp] theorem State.withEnv_board (s : State) (x : Env) : (s.withEnv x).board = s.board := rfl
@[simp] theorem State.withEnv_inputs (s : State) (x : Env) : (s.withEnv x).inputs = s.inputs := rfl
@[simp] theorem State.withEnv_outputs (s : State) (x : Env) : (s.withEnv x).outputs = s.outputs := rfl
@[simp] theorem State.withEnv_free (s : State) (x : Env) : (s.withEnv x).free = s.free := rfl
@[simp] theorem State.withEnv_me (s : State) (x : Env) (m : Fin 6) : (s.withEnv x).me m = s.me m := rfl
@[simp] theorem State.withEnv_engine (s : State) (x : Env) : (s.withEnv x).engine = s.engine := rfl
@[simp] theorem State.setMe_cur (s : State) (m : Fin 6) (e : Me) : (s.setMe m e).cur = s.cur := rfl
@[simp] theorem State.setMe_fbi (s : State) (m : Fin 6) (e : Me) : (s.setMe m e).fbi = s.fbi := rfl
@[simp] theorem State.setMe_sdram (s : State) (m : Fin 6) (e : Me) : (s.setMe m e).sdram = s.sdram := rfl
@[simp] theorem State.setMe_sram (s : State) (m : Fin 6) (e : Me) : (s.setMe m e).sram = s.sram := rfl
@[simp] theorem State.setMe_pci (s : State) (m : Fin 6) (e : Me) : (s.setMe m e).pci = s.pci := rfl
@[simp] theorem State.setMe_arm (s : State) (m : Fin 6) (e : Me) : (s.setMe m e).arm = s.arm := rfl
@[simp] theorem State.setMe_sys (s : State) (m : Fin 6) (e : Me) : (s.setMe m e).sys = s.sys := rfl
@[simp] theorem State.setMe_env (s : State) (m : Fin 6) (e : Me) : (s.setMe m e).env = s.env := rfl
@[simp] theorem State.setMe_board (s : State) (m : Fin 6) (e : Me) : (s.setMe m e).board = s.board := rfl
@[simp] theorem State.setMe_inputs (s : State) (m : Fin 6) (e : Me) : (s.setMe m e).inputs = s.inputs := rfl
@[simp] theorem State.setMe_outputs (s : State) (m : Fin 6) (e : Me) : (s.setMe m e).outputs = s.outputs := rfl
@[simp] theorem State.setMe_free (s : State) (m : Fin 6) (e : Me) : (s.setMe m e).free = s.free := rfl

/-- The engine that was replaced. -/
@[simp] theorem State.setMe_me_self (s : State) (m : Fin 6) (e : Me) : (s.setMe m e).me m = e := by
  simp [State.setMe, State.me]

/-- Every other engine. -/
theorem State.setMe_me_ne (s : State) {m k : Fin 6} (e : Me) (h : k ≠ m) : (s.setMe m e).me k = s.me k := by
  have h2 : m.val ≠ k.val := fun hv => h (Fin.ext hv.symm)
  simp [State.setMe, State.me, h2]

@[simp] theorem State.putEngine_cur (s : State) (e : Me) : (s.putEngine e).cur = s.cur := rfl
@[simp] theorem State.putEngine_fbi (s : State) (e : Me) : (s.putEngine e).fbi = s.fbi := rfl
@[simp] theorem State.putEngine_sdram (s : State) (e : Me) : (s.putEngine e).sdram = s.sdram := rfl
@[simp] theorem State.putEngine_sram (s : State) (e : Me) : (s.putEngine e).sram = s.sram := rfl
@[simp] theorem State.putEngine_pci (s : State) (e : Me) : (s.putEngine e).pci = s.pci := rfl
@[simp] theorem State.putEngine_arm (s : State) (e : Me) : (s.putEngine e).arm = s.arm := rfl
@[simp] theorem State.putEngine_sys (s : State) (e : Me) : (s.putEngine e).sys = s.sys := rfl
@[simp] theorem State.putEngine_env (s : State) (e : Me) : (s.putEngine e).env = s.env := rfl
@[simp] theorem State.putEngine_board (s : State) (e : Me) : (s.putEngine e).board = s.board := rfl
@[simp] theorem State.putEngine_inputs (s : State) (e : Me) : (s.putEngine e).inputs = s.inputs := rfl
@[simp] theorem State.putEngine_outputs (s : State) (e : Me) : (s.putEngine e).outputs = s.outputs := rfl
@[simp] theorem State.putEngine_free (s : State) (e : Me) : (s.putEngine e).free = s.free + 1 := rfl

/-- The engine an instruction leaves. -/
@[simp] theorem State.putEngine_engine (s : State) (e : Me) : (s.putEngine e).engine = e := by
  simp [State.putEngine, State.engine, State.me, State.setMe]

/-- The engines an instruction does not run on. -/
theorem State.putEngine_me_ne (s : State) (e : Me) {k : Fin 6} (h : k ≠ s.cur) : (s.putEngine e).me k = s.me k :=
  State.setMe_me_ne s e h

@[simp] theorem State.signal_cur (s : State) (m : Fin 6) (c : Fin 4) (e : SigEvent) :
    (s.signal m c e).cur = s.cur := rfl
@[simp] theorem State.signal_fbi (s : State) (m : Fin 6) (c : Fin 4) (e : SigEvent) :
    (s.signal m c e).fbi = s.fbi := rfl
@[simp] theorem State.signal_sdram (s : State) (m : Fin 6) (c : Fin 4) (e : SigEvent) :
    (s.signal m c e).sdram = s.sdram := rfl
@[simp] theorem State.signal_sram (s : State) (m : Fin 6) (c : Fin 4) (e : SigEvent) :
    (s.signal m c e).sram = s.sram := rfl
@[simp] theorem State.signal_pci (s : State) (m : Fin 6) (c : Fin 4) (e : SigEvent) :
    (s.signal m c e).pci = s.pci := rfl
@[simp] theorem State.signal_arm (s : State) (m : Fin 6) (c : Fin 4) (e : SigEvent) :
    (s.signal m c e).arm = s.arm := rfl
@[simp] theorem State.signal_sys (s : State) (m : Fin 6) (c : Fin 4) (e : SigEvent) :
    (s.signal m c e).sys = s.sys := rfl
@[simp] theorem State.signal_env (s : State) (m : Fin 6) (c : Fin 4) (e : SigEvent) :
    (s.signal m c e).env = s.env := rfl
@[simp] theorem State.signal_board (s : State) (m : Fin 6) (c : Fin 4) (e : SigEvent) :
    (s.signal m c e).board = s.board := rfl
@[simp] theorem State.signal_inputs (s : State) (m : Fin 6) (c : Fin 4) (e : SigEvent) :
    (s.signal m c e).inputs = s.inputs := rfl
@[simp] theorem State.signal_outputs (s : State) (m : Fin 6) (c : Fin 4) (e : SigEvent) :
    (s.signal m c e).outputs = s.outputs := rfl
@[simp] theorem State.signal_free (s : State) (m : Fin 6) (c : Fin 4) (e : SigEvent) :
    (s.signal m c e).free = s.free := rfl
@[simp] theorem State.signalThread_cur (s : State) (t : Fin 24) (e : SigEvent) :
    (s.signalThread t e).cur = s.cur := rfl
@[simp] theorem State.signalThread_fbi (s : State) (t : Fin 24) (e : SigEvent) :
    (s.signalThread t e).fbi = s.fbi := rfl
@[simp] theorem State.signalThread_sdram (s : State) (t : Fin 24) (e : SigEvent) :
    (s.signalThread t e).sdram = s.sdram := rfl
@[simp] theorem State.signalThread_sram (s : State) (t : Fin 24) (e : SigEvent) :
    (s.signalThread t e).sram = s.sram := rfl
@[simp] theorem State.signalThread_pci (s : State) (t : Fin 24) (e : SigEvent) :
    (s.signalThread t e).pci = s.pci := rfl
@[simp] theorem State.signalThread_arm (s : State) (t : Fin 24) (e : SigEvent) :
    (s.signalThread t e).arm = s.arm := rfl
@[simp] theorem State.signalThread_sys (s : State) (t : Fin 24) (e : SigEvent) :
    (s.signalThread t e).sys = s.sys := rfl
@[simp] theorem State.signalThread_env (s : State) (t : Fin 24) (e : SigEvent) :
    (s.signalThread t e).env = s.env := rfl
@[simp] theorem State.signalThread_board (s : State) (t : Fin 24) (e : SigEvent) :
    (s.signalThread t e).board = s.board := rfl
@[simp] theorem State.signalThread_inputs (s : State) (t : Fin 24) (e : SigEvent) :
    (s.signalThread t e).inputs = s.inputs := rfl
@[simp] theorem State.signalThread_outputs (s : State) (t : Fin 24) (e : SigEvent) :
    (s.signalThread t e).outputs = s.outputs := rfl
@[simp] theorem State.signalThread_free (s : State) (t : Fin 24) (e : SigEvent) :
    (s.signalThread t e).free = s.free := rfl
@[simp] theorem State.signalAll_cur (s : State) (e : SigEvent) : (s.signalAll e).cur = s.cur := rfl
@[simp] theorem State.signalAll_fbi (s : State) (e : SigEvent) : (s.signalAll e).fbi = s.fbi := rfl
@[simp] theorem State.signalAll_sdram (s : State) (e : SigEvent) : (s.signalAll e).sdram = s.sdram := rfl
@[simp] theorem State.signalAll_sram (s : State) (e : SigEvent) : (s.signalAll e).sram = s.sram := rfl
@[simp] theorem State.signalAll_pci (s : State) (e : SigEvent) : (s.signalAll e).pci = s.pci := rfl
@[simp] theorem State.signalAll_arm (s : State) (e : SigEvent) : (s.signalAll e).arm = s.arm := rfl
@[simp] theorem State.signalAll_sys (s : State) (e : SigEvent) : (s.signalAll e).sys = s.sys := rfl
@[simp] theorem State.signalAll_env (s : State) (e : SigEvent) : (s.signalAll e).env = s.env := rfl
@[simp] theorem State.signalAll_board (s : State) (e : SigEvent) : (s.signalAll e).board = s.board := rfl
@[simp] theorem State.signalAll_inputs (s : State) (e : SigEvent) : (s.signalAll e).inputs = s.inputs := rfl
@[simp] theorem State.signalAll_outputs (s : State) (e : SigEvent) : (s.signalAll e).outputs = s.outputs := rfl
@[simp] theorem State.signalAll_free (s : State) (e : SigEvent) : (s.signalAll e).free = s.free := rfl
@[simp] theorem State.markPending_cur (s : State) (m : Fin 6) (c : Fin 4) (e : SigEvent) :
    (s.markPending m c e).cur = s.cur := rfl
@[simp] theorem State.markPending_fbi (s : State) (m : Fin 6) (c : Fin 4) (e : SigEvent) :
    (s.markPending m c e).fbi = s.fbi := rfl
@[simp] theorem State.markPending_sdram (s : State) (m : Fin 6) (c : Fin 4) (e : SigEvent) :
    (s.markPending m c e).sdram = s.sdram := rfl
@[simp] theorem State.markPending_sram (s : State) (m : Fin 6) (c : Fin 4) (e : SigEvent) :
    (s.markPending m c e).sram = s.sram := rfl
@[simp] theorem State.markPending_pci (s : State) (m : Fin 6) (c : Fin 4) (e : SigEvent) :
    (s.markPending m c e).pci = s.pci := rfl
@[simp] theorem State.markPending_arm (s : State) (m : Fin 6) (c : Fin 4) (e : SigEvent) :
    (s.markPending m c e).arm = s.arm := rfl
@[simp] theorem State.markPending_sys (s : State) (m : Fin 6) (c : Fin 4) (e : SigEvent) :
    (s.markPending m c e).sys = s.sys := rfl
@[simp] theorem State.markPending_env (s : State) (m : Fin 6) (c : Fin 4) (e : SigEvent) :
    (s.markPending m c e).env = s.env := rfl
@[simp] theorem State.markPending_board (s : State) (m : Fin 6) (c : Fin 4) (e : SigEvent) :
    (s.markPending m c e).board = s.board := rfl
@[simp] theorem State.markPending_inputs (s : State) (m : Fin 6) (c : Fin 4) (e : SigEvent) :
    (s.markPending m c e).inputs = s.inputs := rfl
@[simp] theorem State.markPending_outputs (s : State) (m : Fin 6) (c : Fin 4) (e : SigEvent) :
    (s.markPending m c e).outputs = s.outputs := rfl
@[simp] theorem State.markPending_free (s : State) (m : Fin 6) (c : Fin 4) (e : SigEvent) :
    (s.markPending m c e).free = s.free := rfl
@[simp] theorem State.pushSram_cur (s : State) (m : Fin 6) (x : Nat) (vs : List Word) :
    (s.pushSram m x vs).cur = s.cur := rfl
@[simp] theorem State.pushSram_fbi (s : State) (m : Fin 6) (x : Nat) (vs : List Word) :
    (s.pushSram m x vs).fbi = s.fbi := rfl
@[simp] theorem State.pushSram_sdram (s : State) (m : Fin 6) (x : Nat) (vs : List Word) :
    (s.pushSram m x vs).sdram = s.sdram := rfl
@[simp] theorem State.pushSram_sram (s : State) (m : Fin 6) (x : Nat) (vs : List Word) :
    (s.pushSram m x vs).sram = s.sram := rfl
@[simp] theorem State.pushSram_pci (s : State) (m : Fin 6) (x : Nat) (vs : List Word) :
    (s.pushSram m x vs).pci = s.pci := rfl
@[simp] theorem State.pushSram_arm (s : State) (m : Fin 6) (x : Nat) (vs : List Word) :
    (s.pushSram m x vs).arm = s.arm := rfl
@[simp] theorem State.pushSram_sys (s : State) (m : Fin 6) (x : Nat) (vs : List Word) :
    (s.pushSram m x vs).sys = s.sys := rfl
@[simp] theorem State.pushSram_env (s : State) (m : Fin 6) (x : Nat) (vs : List Word) :
    (s.pushSram m x vs).env = s.env := rfl
@[simp] theorem State.pushSram_board (s : State) (m : Fin 6) (x : Nat) (vs : List Word) :
    (s.pushSram m x vs).board = s.board := rfl
@[simp] theorem State.pushSram_inputs (s : State) (m : Fin 6) (x : Nat) (vs : List Word) :
    (s.pushSram m x vs).inputs = s.inputs := rfl
@[simp] theorem State.pushSram_outputs (s : State) (m : Fin 6) (x : Nat) (vs : List Word) :
    (s.pushSram m x vs).outputs = s.outputs := rfl
@[simp] theorem State.pushSram_free (s : State) (m : Fin 6) (x : Nat) (vs : List Word) :
    (s.pushSram m x vs).free = s.free := rfl
@[simp] theorem State.pushSdram_cur (s : State) (m : Fin 6) (x : Nat) (vs : List Word) :
    (s.pushSdram m x vs).cur = s.cur := rfl
@[simp] theorem State.pushSdram_fbi (s : State) (m : Fin 6) (x : Nat) (vs : List Word) :
    (s.pushSdram m x vs).fbi = s.fbi := rfl
@[simp] theorem State.pushSdram_sdram (s : State) (m : Fin 6) (x : Nat) (vs : List Word) :
    (s.pushSdram m x vs).sdram = s.sdram := rfl
@[simp] theorem State.pushSdram_sram (s : State) (m : Fin 6) (x : Nat) (vs : List Word) :
    (s.pushSdram m x vs).sram = s.sram := rfl
@[simp] theorem State.pushSdram_pci (s : State) (m : Fin 6) (x : Nat) (vs : List Word) :
    (s.pushSdram m x vs).pci = s.pci := rfl
@[simp] theorem State.pushSdram_arm (s : State) (m : Fin 6) (x : Nat) (vs : List Word) :
    (s.pushSdram m x vs).arm = s.arm := rfl
@[simp] theorem State.pushSdram_sys (s : State) (m : Fin 6) (x : Nat) (vs : List Word) :
    (s.pushSdram m x vs).sys = s.sys := rfl
@[simp] theorem State.pushSdram_env (s : State) (m : Fin 6) (x : Nat) (vs : List Word) :
    (s.pushSdram m x vs).env = s.env := rfl
@[simp] theorem State.pushSdram_board (s : State) (m : Fin 6) (x : Nat) (vs : List Word) :
    (s.pushSdram m x vs).board = s.board := rfl
@[simp] theorem State.pushSdram_inputs (s : State) (m : Fin 6) (x : Nat) (vs : List Word) :
    (s.pushSdram m x vs).inputs = s.inputs := rfl
@[simp] theorem State.pushSdram_outputs (s : State) (m : Fin 6) (x : Nat) (vs : List Word) :
    (s.pushSdram m x vs).outputs = s.outputs := rfl
@[simp] theorem State.pushSdram_free (s : State) (m : Fin 6) (x : Nat) (vs : List Word) :
    (s.pushSdram m x vs).free = s.free := rfl
@[simp] theorem State.completed_cur (s : State) (c : Cmd) : (s.completed c).cur = s.cur := by
  unfold State.completed; split <;> rfl
@[simp] theorem State.completed_fbi (s : State) (c : Cmd) : (s.completed c).fbi = s.fbi := by
  unfold State.completed; split <;> rfl
@[simp] theorem State.completed_sdram (s : State) (c : Cmd) : (s.completed c).sdram = s.sdram := by
  unfold State.completed; split <;> rfl
@[simp] theorem State.completed_sram (s : State) (c : Cmd) : (s.completed c).sram = s.sram := by
  unfold State.completed; split <;> rfl
@[simp] theorem State.completed_pci (s : State) (c : Cmd) : (s.completed c).pci = s.pci := by
  unfold State.completed; split <;> rfl
@[simp] theorem State.completed_arm (s : State) (c : Cmd) : (s.completed c).arm = s.arm := by
  unfold State.completed; split <;> rfl
@[simp] theorem State.completed_sys (s : State) (c : Cmd) : (s.completed c).sys = s.sys := by
  unfold State.completed; split <;> rfl
@[simp] theorem State.completed_env (s : State) (c : Cmd) : (s.completed c).env = s.env := by
  unfold State.completed; split <;> rfl
@[simp] theorem State.completed_board (s : State) (c : Cmd) : (s.completed c).board = s.board := by
  unfold State.completed; split <;> rfl
@[simp] theorem State.completed_inputs (s : State) (c : Cmd) : (s.completed c).inputs = s.inputs := by
  unfold State.completed; split <;> rfl
@[simp] theorem State.completed_outputs (s : State) (c : Cmd) : (s.completed c).outputs = s.outputs := by
  unfold State.completed; split <;> rfl
@[simp] theorem State.completed_free (s : State) (c : Cmd) : (s.completed c).free = s.free := by
  unfold State.completed; split <;> rfl
@[simp] theorem State.emit_mes (s : State) (o : Output) : (s.emit o).mes = s.mes := rfl
@[simp] theorem State.emit_cur (s : State) (o : Output) : (s.emit o).cur = s.cur := rfl
@[simp] theorem State.emit_fbi (s : State) (o : Output) : (s.emit o).fbi = s.fbi := rfl
@[simp] theorem State.emit_sdram (s : State) (o : Output) : (s.emit o).sdram = s.sdram := rfl
@[simp] theorem State.emit_sram (s : State) (o : Output) : (s.emit o).sram = s.sram := rfl
@[simp] theorem State.emit_pci (s : State) (o : Output) : (s.emit o).pci = s.pci := rfl
@[simp] theorem State.emit_arm (s : State) (o : Output) : (s.emit o).arm = s.arm := rfl
@[simp] theorem State.emit_sys (s : State) (o : Output) : (s.emit o).sys = s.sys := rfl
@[simp] theorem State.emit_env (s : State) (o : Output) : (s.emit o).env = s.env := rfl
@[simp] theorem State.emit_board (s : State) (o : Output) : (s.emit o).board = s.board := rfl
@[simp] theorem State.emit_inputs (s : State) (o : Output) : (s.emit o).inputs = s.inputs := rfl
@[simp] theorem State.emit_outputs (s : State) (o : Output) : (s.emit o).outputs = s.outputs ++ [o] := rfl
@[simp] theorem State.emit_free (s : State) (o : Output) : (s.emit o).free = s.free := rfl
@[simp] theorem State.seqRun_mes (s : State) (n : Nat) (g : Fbi → Fbi) : (s.seqRun n g).mes = s.mes := rfl
@[simp] theorem State.seqRun_cur (s : State) (n : Nat) (g : Fbi → Fbi) : (s.seqRun n g).cur = s.cur := rfl
@[simp] theorem State.seqRun_sdram (s : State) (n : Nat) (g : Fbi → Fbi) : (s.seqRun n g).sdram = s.sdram := rfl
@[simp] theorem State.seqRun_sram (s : State) (n : Nat) (g : Fbi → Fbi) : (s.seqRun n g).sram = s.sram := rfl
@[simp] theorem State.seqRun_pci (s : State) (n : Nat) (g : Fbi → Fbi) : (s.seqRun n g).pci = s.pci := rfl
@[simp] theorem State.seqRun_arm (s : State) (n : Nat) (g : Fbi → Fbi) : (s.seqRun n g).arm = s.arm := rfl
@[simp] theorem State.seqRun_sys (s : State) (n : Nat) (g : Fbi → Fbi) : (s.seqRun n g).sys = s.sys := rfl
@[simp] theorem State.seqRun_board (s : State) (n : Nat) (g : Fbi → Fbi) : (s.seqRun n g).board = s.board := rfl
@[simp] theorem State.seqRun_inputs (s : State) (n : Nat) (g : Fbi → Fbi) : (s.seqRun n g).inputs = s.inputs := rfl
@[simp] theorem State.seqRun_free (s : State) (n : Nat) (g : Fbi → Fbi) : (s.seqRun n g).free = s.free := rfl
@[simp] theorem State.seqRun_env (s : State) (n : Nat) (g : Fbi → Fbi) : (s.seqRun n g).env = s.env := rfl
@[simp] theorem State.seqRun_outputs (s : State) (n : Nat) (g : Fbi → Fbi) : (s.seqRun n g).outputs = s.outputs := rfl
@[simp] theorem State.seqRun_fbi (s : State) (n : Nat) (g : Fbi → Fbi) :
    (s.seqRun n g).fbi = (g s.fbi.seqBegin).seqNext n := rfl

/-! ### Updates of a microengine -/

@[simp] theorem Me.raise_inReset (m : Me) (c : Fin 4) (e : SigEvent) : (m.raise c e).inReset = m.inReset := rfl
@[simp] theorem Me.raise_gprA (m : Me) (c : Fin 4) (e : SigEvent) : (m.raise c e).gprA = m.gprA := rfl
@[simp] theorem Me.raise_gprB (m : Me) (c : Fin 4) (e : SigEvent) : (m.raise c e).gprB = m.gprB := rfl
@[simp] theorem Me.raise_sramRd (m : Me) (c : Fin 4) (e : SigEvent) : (m.raise c e).sramRd = m.sramRd := rfl
@[simp] theorem Me.raise_sramWr (m : Me) (c : Fin 4) (e : SigEvent) : (m.raise c e).sramWr = m.sramWr := rfl
@[simp] theorem Me.raise_sdramRd (m : Me) (c : Fin 4) (e : SigEvent) : (m.raise c e).sdramRd = m.sdramRd := rfl
@[simp] theorem Me.raise_sdramWr (m : Me) (c : Fin 4) (e : SigEvent) : (m.raise c e).sdramWr = m.sdramWr := rfl
@[simp] theorem Me.raise_ustore (m : Me) (c : Fin 4) (e : SigEvent) : (m.raise c e).ustore = m.ustore := rfl
@[simp] theorem Me.raise_pcs (m : Me) (c : Fin 4) (e : SigEvent) : (m.raise c e).pcs = m.pcs := rfl
@[simp] theorem Me.raise_cc (m : Me) (c : Fin 4) (e : SigEvent) : (m.raise c e).cc = m.cc := rfl
@[simp] theorem Me.raise_prevCc (m : Me) (c : Fin 4) (e : SigEvent) : (m.raise c e).prevCc = m.prevCc := rfl
@[simp] theorem Me.raise_aluOut (m : Me) (c : Fin 4) (e : SigEvent) : (m.raise c e).aluOut = m.aluOut := rfl
@[simp] theorem Me.raise_aLatch (m : Me) (c : Fin 4) (e : SigEvent) : (m.raise c e).aLatch = m.aLatch := rfl
@[simp] theorem Me.raise_csrLatch (m : Me) (c : Fin 4) (e : SigEvent) : (m.raise c e).csrLatch = m.csrLatch := rfl
@[simp] theorem Me.raise_csrShadow (m : Me) (c : Fin 4) (e : SigEvent) : (m.raise c e).csrShadow = m.csrShadow := rfl
@[simp] theorem Me.raise_result1 (m : Me) (c : Fin 4) (e : SigEvent) : (m.raise c e).result1 = m.result1 := rfl
@[simp] theorem Me.raise_result2 (m : Me) (c : Fin 4) (e : SigEvent) : (m.raise c e).result2 = m.result2 := rfl
@[simp] theorem Me.raise_fbsCnt (m : Me) (c : Fin 4) (e : SigEvent) : (m.raise c e).fbsCnt = m.fbsCnt := rfl
@[simp] theorem Me.raise_findAge (m : Me) (c : Fin 4) (e : SigEvent) : (m.raise c e).findAge = m.findAge := rfl
@[simp] theorem Me.raise_cmdFifo (m : Me) (c : Fin 4) (e : SigEvent) : (m.raise c e).cmdFifo = m.cmdFifo := rfl
@[simp] theorem Me.raise_ctxEnables (m : Me) (c : Fin 4) (e : SigEvent) :
    (m.raise c e).ctxEnables = m.ctxEnables := rfl
@[simp] theorem Me.raise_oldEnables (m : Me) (c : Fin 4) (e : SigEvent) :
    (m.raise c e).oldEnables = m.oldEnables := rfl
@[simp] theorem Me.raise_enWindow (m : Me) (c : Fin 4) (e : SigEvent) : (m.raise c e).enWindow = m.enWindow := rfl
@[simp] theorem Me.raise_active (m : Me) (c : Fin 4) (e : SigEvent) : (m.raise c e).active = m.active := rfl
@[simp] theorem Me.raise_nctx (m : Me) (c : Fin 4) (e : SigEvent) : (m.raise c e).nctx = m.nctx := rfl
@[simp] theorem Me.raise_pctx (m : Me) (c : Fin 4) (e : SigEvent) : (m.raise c e).pctx = m.pctx := rfl
@[simp] theorem Me.raise_executing (m : Me) (c : Fin 4) (e : SigEvent) : (m.raise c e).executing = m.executing := rfl
@[simp] theorem Me.raise_hasRun (m : Me) (c : Fin 4) (e : SigEvent) : (m.raise c e).hasRun = m.hasRun := rfl
@[simp] theorem Me.raise_wakeup (m : Me) (c : Fin 4) (e : SigEvent) : (m.raise c e).wakeup = m.wakeup := rfl
@[simp] theorem Me.raise_defer (m : Me) (c : Fin 4) (e : SigEvent) : (m.raise c e).defer = m.defer := rfl
@[simp] theorem Me.raise_ppAge (m : Me) (c : Fin 4) (e : SigEvent) : (m.raise c e).ppAge = m.ppAge := rfl
@[simp] theorem Me.raise_journaling (m : Me) (c : Fin 4) (e : SigEvent) :
    (m.raise c e).journaling = m.journaling := rfl
@[simp] theorem Me.raise_uaddr (m : Me) (c : Fin 4) (e : SigEvent) : (m.raise c e).uaddr = m.uaddr := rfl
@[simp] theorem Me.raise_cse (m : Me) (c : Fin 4) (e : SigEvent) : (m.raise c e).cse = m.cse := rfl
@[simp] theorem Me.raise_ecs (m : Me) (c : Fin 4) (e : SigEvent) : (m.raise c e).ecs = m.ecs := rfl
@[simp] theorem Me.raise_csrRaw (m : Me) (c : Fin 4) (e : SigEvent) : (m.raise c e).csrRaw = m.csrRaw := rfl
@[simp] theorem Me.setPc_inReset (m : Me) (pc : BitVec 12) : (m.setPc pc).inReset = m.inReset := rfl
@[simp] theorem Me.setPc_gprA (m : Me) (pc : BitVec 12) : (m.setPc pc).gprA = m.gprA := rfl
@[simp] theorem Me.setPc_gprB (m : Me) (pc : BitVec 12) : (m.setPc pc).gprB = m.gprB := rfl
@[simp] theorem Me.setPc_sramRd (m : Me) (pc : BitVec 12) : (m.setPc pc).sramRd = m.sramRd := rfl
@[simp] theorem Me.setPc_sramWr (m : Me) (pc : BitVec 12) : (m.setPc pc).sramWr = m.sramWr := rfl
@[simp] theorem Me.setPc_sdramRd (m : Me) (pc : BitVec 12) : (m.setPc pc).sdramRd = m.sdramRd := rfl
@[simp] theorem Me.setPc_sdramWr (m : Me) (pc : BitVec 12) : (m.setPc pc).sdramWr = m.sdramWr := rfl
@[simp] theorem Me.setPc_ustore (m : Me) (pc : BitVec 12) : (m.setPc pc).ustore = m.ustore := rfl
@[simp] theorem Me.setPc_cc (m : Me) (pc : BitVec 12) : (m.setPc pc).cc = m.cc := rfl
@[simp] theorem Me.setPc_prevCc (m : Me) (pc : BitVec 12) : (m.setPc pc).prevCc = m.prevCc := rfl
@[simp] theorem Me.setPc_aluOut (m : Me) (pc : BitVec 12) : (m.setPc pc).aluOut = m.aluOut := rfl
@[simp] theorem Me.setPc_aLatch (m : Me) (pc : BitVec 12) : (m.setPc pc).aLatch = m.aLatch := rfl
@[simp] theorem Me.setPc_csrLatch (m : Me) (pc : BitVec 12) : (m.setPc pc).csrLatch = m.csrLatch := rfl
@[simp] theorem Me.setPc_csrShadow (m : Me) (pc : BitVec 12) : (m.setPc pc).csrShadow = m.csrShadow := rfl
@[simp] theorem Me.setPc_result1 (m : Me) (pc : BitVec 12) : (m.setPc pc).result1 = m.result1 := rfl
@[simp] theorem Me.setPc_result2 (m : Me) (pc : BitVec 12) : (m.setPc pc).result2 = m.result2 := rfl
@[simp] theorem Me.setPc_fbsCnt (m : Me) (pc : BitVec 12) : (m.setPc pc).fbsCnt = m.fbsCnt := rfl
@[simp] theorem Me.setPc_findAge (m : Me) (pc : BitVec 12) : (m.setPc pc).findAge = m.findAge := rfl
@[simp] theorem Me.setPc_cmdFifo (m : Me) (pc : BitVec 12) : (m.setPc pc).cmdFifo = m.cmdFifo := rfl
@[simp] theorem Me.setPc_ctxEnables (m : Me) (pc : BitVec 12) : (m.setPc pc).ctxEnables = m.ctxEnables := rfl
@[simp] theorem Me.setPc_oldEnables (m : Me) (pc : BitVec 12) : (m.setPc pc).oldEnables = m.oldEnables := rfl
@[simp] theorem Me.setPc_enWindow (m : Me) (pc : BitVec 12) : (m.setPc pc).enWindow = m.enWindow := rfl
@[simp] theorem Me.setPc_active (m : Me) (pc : BitVec 12) : (m.setPc pc).active = m.active := rfl
@[simp] theorem Me.setPc_nctx (m : Me) (pc : BitVec 12) : (m.setPc pc).nctx = m.nctx := rfl
@[simp] theorem Me.setPc_pctx (m : Me) (pc : BitVec 12) : (m.setPc pc).pctx = m.pctx := rfl
@[simp] theorem Me.setPc_executing (m : Me) (pc : BitVec 12) : (m.setPc pc).executing = m.executing := rfl
@[simp] theorem Me.setPc_hasRun (m : Me) (pc : BitVec 12) : (m.setPc pc).hasRun = m.hasRun := rfl
@[simp] theorem Me.setPc_sigEvents (m : Me) (pc : BitVec 12) : (m.setPc pc).sigEvents = m.sigEvents := rfl
@[simp] theorem Me.setPc_wakeup (m : Me) (pc : BitVec 12) : (m.setPc pc).wakeup = m.wakeup := rfl
@[simp] theorem Me.setPc_pending (m : Me) (pc : BitVec 12) : (m.setPc pc).pending = m.pending := rfl
@[simp] theorem Me.setPc_defer (m : Me) (pc : BitVec 12) : (m.setPc pc).defer = m.defer := rfl
@[simp] theorem Me.setPc_ppAge (m : Me) (pc : BitVec 12) : (m.setPc pc).ppAge = m.ppAge := rfl
@[simp] theorem Me.setPc_journaling (m : Me) (pc : BitVec 12) : (m.setPc pc).journaling = m.journaling := rfl
@[simp] theorem Me.setPc_uaddr (m : Me) (pc : BitVec 12) : (m.setPc pc).uaddr = m.uaddr := rfl
@[simp] theorem Me.setPc_cse (m : Me) (pc : BitVec 12) : (m.setPc pc).cse = m.cse := rfl
@[simp] theorem Me.setPc_ecs (m : Me) (pc : BitVec 12) : (m.setPc pc).ecs = m.ecs := rfl
@[simp] theorem Me.setPc_csrRaw (m : Me) (pc : BitVec 12) : (m.setPc pc).csrRaw = m.csrRaw := rfl
@[simp] theorem Me.setPc_pcs (m : Me) (pc : BitVec 12) : (m.setPc pc).pcs = m.pcs.set m.active pc := rfl
@[simp] theorem Me.latch_inReset (m : Me) (r : Retire) (n : Nat) : (m.latch r n).inReset = m.inReset := rfl
@[simp] theorem Me.latch_gprA (m : Me) (r : Retire) (n : Nat) : (m.latch r n).gprA = m.gprA := rfl
@[simp] theorem Me.latch_gprB (m : Me) (r : Retire) (n : Nat) : (m.latch r n).gprB = m.gprB := rfl
@[simp] theorem Me.latch_sramRd (m : Me) (r : Retire) (n : Nat) : (m.latch r n).sramRd = m.sramRd := rfl
@[simp] theorem Me.latch_sramWr (m : Me) (r : Retire) (n : Nat) : (m.latch r n).sramWr = m.sramWr := rfl
@[simp] theorem Me.latch_sdramRd (m : Me) (r : Retire) (n : Nat) : (m.latch r n).sdramRd = m.sdramRd := rfl
@[simp] theorem Me.latch_sdramWr (m : Me) (r : Retire) (n : Nat) : (m.latch r n).sdramWr = m.sdramWr := rfl
@[simp] theorem Me.latch_ustore (m : Me) (r : Retire) (n : Nat) : (m.latch r n).ustore = m.ustore := rfl
@[simp] theorem Me.latch_pcs (m : Me) (r : Retire) (n : Nat) : (m.latch r n).pcs = m.pcs := rfl
@[simp] theorem Me.latch_cc (m : Me) (r : Retire) (n : Nat) : (m.latch r n).cc = r.cc.getD m.cc := rfl
@[simp] theorem Me.latch_prevCc (m : Me) (r : Retire) (n : Nat) : (m.latch r n).prevCc = m.cc := rfl
@[simp] theorem Me.latch_aluOut (m : Me) (r : Retire) (n : Nat) :
    (m.latch r n).aluOut = r.alu.getD (Config.freeWord .aluOut n) := rfl
@[simp] theorem Me.latch_aLatch (m : Me) (r : Retire) (n : Nat) :
    (m.latch r n).aLatch = (r.a.getD (Config.freeWord .aLatch n)).setWidth 5 := rfl
@[simp] theorem Me.latch_csrLatch (m : Me) (r : Retire) (n : Nat) : (m.latch r n).csrLatch = r.latch := rfl
@[simp] theorem Me.latch_csrShadow (m : Me) (r : Retire) (n : Nat) : (m.latch r n).csrShadow = r.shadow := rfl
@[simp] theorem Me.latch_result1 (m : Me) (r : Retire) (n : Nat) : (m.latch r n).result1 = m.result1 := rfl
@[simp] theorem Me.latch_result2 (m : Me) (r : Retire) (n : Nat) : (m.latch r n).result2 = m.result2 := rfl
@[simp] theorem Me.latch_fbsCnt (m : Me) (r : Retire) (n : Nat) : (m.latch r n).fbsCnt = m.fbsCnt := rfl
@[simp] theorem Me.latch_findAge (m : Me) (r : Retire) (n : Nat) :
    (m.latch r n).findAge = if r.find then 0 else min 3 (m.findAge + 1) := rfl
@[simp] theorem Me.latch_cmdFifo (m : Me) (r : Retire) (n : Nat) : (m.latch r n).cmdFifo = m.cmdFifo := rfl
@[simp] theorem Me.latch_ctxEnables (m : Me) (r : Retire) (n : Nat) : (m.latch r n).ctxEnables = m.ctxEnables := rfl
@[simp] theorem Me.latch_oldEnables (m : Me) (r : Retire) (n : Nat) : (m.latch r n).oldEnables = m.oldEnables := rfl
@[simp] theorem Me.latch_enWindow (m : Me) (r : Retire) (n : Nat) : (m.latch r n).enWindow = m.enWindow - 1 := rfl
@[simp] theorem Me.latch_active (m : Me) (r : Retire) (n : Nat) : (m.latch r n).active = m.active := rfl
@[simp] theorem Me.latch_nctx (m : Me) (r : Retire) (n : Nat) : (m.latch r n).nctx = m.nctx := rfl
@[simp] theorem Me.latch_pctx (m : Me) (r : Retire) (n : Nat) : (m.latch r n).pctx = m.pctx := rfl
@[simp] theorem Me.latch_executing (m : Me) (r : Retire) (n : Nat) : (m.latch r n).executing = m.executing := rfl
@[simp] theorem Me.latch_hasRun (m : Me) (r : Retire) (n : Nat) : (m.latch r n).hasRun = m.hasRun := rfl
@[simp] theorem Me.latch_sigEvents (m : Me) (r : Retire) (n : Nat) : (m.latch r n).sigEvents = m.sigEvents := rfl
@[simp] theorem Me.latch_wakeup (m : Me) (r : Retire) (n : Nat) : (m.latch r n).wakeup = m.wakeup := rfl
@[simp] theorem Me.latch_pending (m : Me) (r : Retire) (n : Nat) : (m.latch r n).pending = m.pending := rfl
@[simp] theorem Me.latch_defer (m : Me) (r : Retire) (n : Nat) : (m.latch r n).defer = m.defer := rfl
@[simp] theorem Me.latch_ppAge (m : Me) (r : Retire) (n : Nat) : (m.latch r n).ppAge = m.ppAge.map (· + 1) := rfl
@[simp] theorem Me.latch_journaling (m : Me) (r : Retire) (n : Nat) : (m.latch r n).journaling = m.journaling := rfl
@[simp] theorem Me.latch_uaddr (m : Me) (r : Retire) (n : Nat) : (m.latch r n).uaddr = m.uaddr := rfl
@[simp] theorem Me.latch_cse (m : Me) (r : Retire) (n : Nat) : (m.latch r n).cse = m.cse := rfl
@[simp] theorem Me.latch_ecs (m : Me) (r : Retire) (n : Nat) : (m.latch r n).ecs = m.ecs := rfl
@[simp] theorem Me.latch_csrRaw (m : Me) (r : Retire) (n : Nat) : (m.latch r n).csrRaw = m.csrRaw := rfl
@[simp] theorem Me.latch_pc (m : Me) (r : Retire) (n : Nat) : (m.latch r n).pc = m.pc := rfl
@[simp] theorem Me.writeDest_inReset (m : Me) (c : Fin 4) (d : Dest) (v : Word) :
    (m.writeDest c d v).inReset = m.inReset := by
  unfold Me.writeDest Me.setGpr; split <;> (try split) <;> rfl
@[simp] theorem Me.writeDest_sramRd (m : Me) (c : Fin 4) (d : Dest) (v : Word) :
    (m.writeDest c d v).sramRd = m.sramRd := by
  unfold Me.writeDest Me.setGpr; split <;> (try split) <;> rfl
@[simp] theorem Me.writeDest_sdramRd (m : Me) (c : Fin 4) (d : Dest) (v : Word) :
    (m.writeDest c d v).sdramRd = m.sdramRd := by
  unfold Me.writeDest Me.setGpr; split <;> (try split) <;> rfl
@[simp] theorem Me.writeDest_ustore (m : Me) (c : Fin 4) (d : Dest) (v : Word) :
    (m.writeDest c d v).ustore = m.ustore := by
  unfold Me.writeDest Me.setGpr; split <;> (try split) <;> rfl
@[simp] theorem Me.writeDest_pcs (m : Me) (c : Fin 4) (d : Dest) (v : Word) : (m.writeDest c d v).pcs = m.pcs := by
  unfold Me.writeDest Me.setGpr; split <;> (try split) <;> rfl
@[simp] theorem Me.writeDest_cc (m : Me) (c : Fin 4) (d : Dest) (v : Word) : (m.writeDest c d v).cc = m.cc := by
  unfold Me.writeDest Me.setGpr; split <;> (try split) <;> rfl
@[simp] theorem Me.writeDest_prevCc (m : Me) (c : Fin 4) (d : Dest) (v : Word) :
    (m.writeDest c d v).prevCc = m.prevCc := by
  unfold Me.writeDest Me.setGpr; split <;> (try split) <;> rfl
@[simp] theorem Me.writeDest_aluOut (m : Me) (c : Fin 4) (d : Dest) (v : Word) :
    (m.writeDest c d v).aluOut = m.aluOut := by
  unfold Me.writeDest Me.setGpr; split <;> (try split) <;> rfl
@[simp] theorem Me.writeDest_aLatch (m : Me) (c : Fin 4) (d : Dest) (v : Word) :
    (m.writeDest c d v).aLatch = m.aLatch := by
  unfold Me.writeDest Me.setGpr; split <;> (try split) <;> rfl
@[simp] theorem Me.writeDest_csrLatch (m : Me) (c : Fin 4) (d : Dest) (v : Word) :
    (m.writeDest c d v).csrLatch = m.csrLatch := by
  unfold Me.writeDest Me.setGpr; split <;> (try split) <;> rfl
@[simp] theorem Me.writeDest_csrShadow (m : Me) (c : Fin 4) (d : Dest) (v : Word) :
    (m.writeDest c d v).csrShadow = m.csrShadow := by
  unfold Me.writeDest Me.setGpr; split <;> (try split) <;> rfl
@[simp] theorem Me.writeDest_result1 (m : Me) (c : Fin 4) (d : Dest) (v : Word) :
    (m.writeDest c d v).result1 = m.result1 := by
  unfold Me.writeDest Me.setGpr; split <;> (try split) <;> rfl
@[simp] theorem Me.writeDest_result2 (m : Me) (c : Fin 4) (d : Dest) (v : Word) :
    (m.writeDest c d v).result2 = m.result2 := by
  unfold Me.writeDest Me.setGpr; split <;> (try split) <;> rfl
@[simp] theorem Me.writeDest_fbsCnt (m : Me) (c : Fin 4) (d : Dest) (v : Word) :
    (m.writeDest c d v).fbsCnt = m.fbsCnt := by
  unfold Me.writeDest Me.setGpr; split <;> (try split) <;> rfl
@[simp] theorem Me.writeDest_findAge (m : Me) (c : Fin 4) (d : Dest) (v : Word) :
    (m.writeDest c d v).findAge = m.findAge := by
  unfold Me.writeDest Me.setGpr; split <;> (try split) <;> rfl
@[simp] theorem Me.writeDest_cmdFifo (m : Me) (c : Fin 4) (d : Dest) (v : Word) :
    (m.writeDest c d v).cmdFifo = m.cmdFifo := by
  unfold Me.writeDest Me.setGpr; split <;> (try split) <;> rfl
@[simp] theorem Me.writeDest_ctxEnables (m : Me) (c : Fin 4) (d : Dest) (v : Word) :
    (m.writeDest c d v).ctxEnables = m.ctxEnables := by
  unfold Me.writeDest Me.setGpr; split <;> (try split) <;> rfl
@[simp] theorem Me.writeDest_oldEnables (m : Me) (c : Fin 4) (d : Dest) (v : Word) :
    (m.writeDest c d v).oldEnables = m.oldEnables := by
  unfold Me.writeDest Me.setGpr; split <;> (try split) <;> rfl
@[simp] theorem Me.writeDest_enWindow (m : Me) (c : Fin 4) (d : Dest) (v : Word) :
    (m.writeDest c d v).enWindow = m.enWindow := by
  unfold Me.writeDest Me.setGpr; split <;> (try split) <;> rfl
@[simp] theorem Me.writeDest_active (m : Me) (c : Fin 4) (d : Dest) (v : Word) :
    (m.writeDest c d v).active = m.active := by
  unfold Me.writeDest Me.setGpr; split <;> (try split) <;> rfl
@[simp] theorem Me.writeDest_nctx (m : Me) (c : Fin 4) (d : Dest) (v : Word) : (m.writeDest c d v).nctx = m.nctx := by
  unfold Me.writeDest Me.setGpr; split <;> (try split) <;> rfl
@[simp] theorem Me.writeDest_pctx (m : Me) (c : Fin 4) (d : Dest) (v : Word) : (m.writeDest c d v).pctx = m.pctx := by
  unfold Me.writeDest Me.setGpr; split <;> (try split) <;> rfl
@[simp] theorem Me.writeDest_executing (m : Me) (c : Fin 4) (d : Dest) (v : Word) :
    (m.writeDest c d v).executing = m.executing := by
  unfold Me.writeDest Me.setGpr; split <;> (try split) <;> rfl
@[simp] theorem Me.writeDest_hasRun (m : Me) (c : Fin 4) (d : Dest) (v : Word) :
    (m.writeDest c d v).hasRun = m.hasRun := by
  unfold Me.writeDest Me.setGpr; split <;> (try split) <;> rfl
@[simp] theorem Me.writeDest_sigEvents (m : Me) (c : Fin 4) (d : Dest) (v : Word) :
    (m.writeDest c d v).sigEvents = m.sigEvents := by
  unfold Me.writeDest Me.setGpr; split <;> (try split) <;> rfl
@[simp] theorem Me.writeDest_wakeup (m : Me) (c : Fin 4) (d : Dest) (v : Word) :
    (m.writeDest c d v).wakeup = m.wakeup := by
  unfold Me.writeDest Me.setGpr; split <;> (try split) <;> rfl
@[simp] theorem Me.writeDest_pending (m : Me) (c : Fin 4) (d : Dest) (v : Word) :
    (m.writeDest c d v).pending = m.pending := by
  unfold Me.writeDest Me.setGpr; split <;> (try split) <;> rfl
@[simp] theorem Me.writeDest_defer (m : Me) (c : Fin 4) (d : Dest) (v : Word) :
    (m.writeDest c d v).defer = m.defer := by
  unfold Me.writeDest Me.setGpr; split <;> (try split) <;> rfl
@[simp] theorem Me.writeDest_ppAge (m : Me) (c : Fin 4) (d : Dest) (v : Word) :
    (m.writeDest c d v).ppAge = m.ppAge := by
  unfold Me.writeDest Me.setGpr; split <;> (try split) <;> rfl
@[simp] theorem Me.writeDest_journaling (m : Me) (c : Fin 4) (d : Dest) (v : Word) :
    (m.writeDest c d v).journaling = m.journaling := by
  unfold Me.writeDest Me.setGpr; split <;> (try split) <;> rfl
@[simp] theorem Me.writeDest_uaddr (m : Me) (c : Fin 4) (d : Dest) (v : Word) :
    (m.writeDest c d v).uaddr = m.uaddr := by
  unfold Me.writeDest Me.setGpr; split <;> (try split) <;> rfl
@[simp] theorem Me.writeDest_cse (m : Me) (c : Fin 4) (d : Dest) (v : Word) : (m.writeDest c d v).cse = m.cse := by
  unfold Me.writeDest Me.setGpr; split <;> (try split) <;> rfl
@[simp] theorem Me.writeDest_ecs (m : Me) (c : Fin 4) (d : Dest) (v : Word) : (m.writeDest c d v).ecs = m.ecs := by
  unfold Me.writeDest Me.setGpr; split <;> (try split) <;> rfl
@[simp] theorem Me.writeDest_csrRaw (m : Me) (c : Fin 4) (d : Dest) (v : Word) :
    (m.writeDest c d v).csrRaw = m.csrRaw := by
  unfold Me.writeDest Me.setGpr; split <;> (try split) <;> rfl
@[simp] theorem Me.writeDest_pc (m : Me) (c : Fin 4) (d : Dest) (v : Word) : (m.writeDest c d v).pc = m.pc := by
  simp [Me.pc]
@[simp] theorem Me.arbitrate_inReset (m : Me) (b : Bool) : (m.arbitrate b).inReset = m.inReset := by
  unfold Me.arbitrate; split <;> rfl
@[simp] theorem Me.arbitrate_gprA (m : Me) (b : Bool) : (m.arbitrate b).gprA = m.gprA := by
  unfold Me.arbitrate; split <;> rfl
@[simp] theorem Me.arbitrate_gprB (m : Me) (b : Bool) : (m.arbitrate b).gprB = m.gprB := by
  unfold Me.arbitrate; split <;> rfl
@[simp] theorem Me.arbitrate_sramRd (m : Me) (b : Bool) : (m.arbitrate b).sramRd = m.sramRd := by
  unfold Me.arbitrate; split <;> rfl
@[simp] theorem Me.arbitrate_sramWr (m : Me) (b : Bool) : (m.arbitrate b).sramWr = m.sramWr := by
  unfold Me.arbitrate; split <;> rfl
@[simp] theorem Me.arbitrate_sdramRd (m : Me) (b : Bool) : (m.arbitrate b).sdramRd = m.sdramRd := by
  unfold Me.arbitrate; split <;> rfl
@[simp] theorem Me.arbitrate_sdramWr (m : Me) (b : Bool) : (m.arbitrate b).sdramWr = m.sdramWr := by
  unfold Me.arbitrate; split <;> rfl
@[simp] theorem Me.arbitrate_ustore (m : Me) (b : Bool) : (m.arbitrate b).ustore = m.ustore := by
  unfold Me.arbitrate; split <;> rfl
@[simp] theorem Me.arbitrate_pcs (m : Me) (b : Bool) : (m.arbitrate b).pcs = m.pcs := by
  unfold Me.arbitrate; split <;> rfl
@[simp] theorem Me.arbitrate_cc (m : Me) (b : Bool) : (m.arbitrate b).cc = m.cc := by
  unfold Me.arbitrate; split <;> rfl
@[simp] theorem Me.arbitrate_prevCc (m : Me) (b : Bool) : (m.arbitrate b).prevCc = m.prevCc := by
  unfold Me.arbitrate; split <;> rfl
@[simp] theorem Me.arbitrate_aluOut (m : Me) (b : Bool) : (m.arbitrate b).aluOut = m.aluOut := by
  unfold Me.arbitrate; split <;> rfl
@[simp] theorem Me.arbitrate_aLatch (m : Me) (b : Bool) : (m.arbitrate b).aLatch = m.aLatch := by
  unfold Me.arbitrate; split <;> rfl
@[simp] theorem Me.arbitrate_csrLatch (m : Me) (b : Bool) : (m.arbitrate b).csrLatch = m.csrLatch := by
  unfold Me.arbitrate; split <;> rfl
@[simp] theorem Me.arbitrate_csrShadow (m : Me) (b : Bool) : (m.arbitrate b).csrShadow = m.csrShadow := by
  unfold Me.arbitrate; split <;> rfl
@[simp] theorem Me.arbitrate_result1 (m : Me) (b : Bool) : (m.arbitrate b).result1 = m.result1 := by
  unfold Me.arbitrate; split <;> rfl
@[simp] theorem Me.arbitrate_result2 (m : Me) (b : Bool) : (m.arbitrate b).result2 = m.result2 := by
  unfold Me.arbitrate; split <;> rfl
@[simp] theorem Me.arbitrate_fbsCnt (m : Me) (b : Bool) : (m.arbitrate b).fbsCnt = m.fbsCnt := by
  unfold Me.arbitrate; split <;> rfl
@[simp] theorem Me.arbitrate_findAge (m : Me) (b : Bool) : (m.arbitrate b).findAge = m.findAge := by
  unfold Me.arbitrate; split <;> rfl
@[simp] theorem Me.arbitrate_cmdFifo (m : Me) (b : Bool) : (m.arbitrate b).cmdFifo = m.cmdFifo := by
  unfold Me.arbitrate; split <;> rfl
@[simp] theorem Me.arbitrate_ctxEnables (m : Me) (b : Bool) : (m.arbitrate b).ctxEnables = m.ctxEnables := by
  unfold Me.arbitrate; split <;> rfl
@[simp] theorem Me.arbitrate_oldEnables (m : Me) (b : Bool) : (m.arbitrate b).oldEnables = m.oldEnables := by
  unfold Me.arbitrate; split <;> rfl
@[simp] theorem Me.arbitrate_enWindow (m : Me) (b : Bool) : (m.arbitrate b).enWindow = m.enWindow := by
  unfold Me.arbitrate; split <;> rfl
@[simp] theorem Me.arbitrate_wakeup (m : Me) (b : Bool) : (m.arbitrate b).wakeup = m.wakeup := by
  unfold Me.arbitrate; split <;> rfl
@[simp] theorem Me.arbitrate_pending (m : Me) (b : Bool) : (m.arbitrate b).pending = m.pending := by
  unfold Me.arbitrate; split <;> rfl
@[simp] theorem Me.arbitrate_defer (m : Me) (b : Bool) : (m.arbitrate b).defer = m.defer := by
  unfold Me.arbitrate; split <;> rfl
@[simp] theorem Me.arbitrate_ppAge (m : Me) (b : Bool) : (m.arbitrate b).ppAge = m.ppAge := by
  unfold Me.arbitrate; split <;> rfl
@[simp] theorem Me.arbitrate_journaling (m : Me) (b : Bool) : (m.arbitrate b).journaling = m.journaling := by
  unfold Me.arbitrate; split <;> rfl
@[simp] theorem Me.arbitrate_uaddr (m : Me) (b : Bool) : (m.arbitrate b).uaddr = m.uaddr := by
  unfold Me.arbitrate; split <;> rfl
@[simp] theorem Me.arbitrate_cse (m : Me) (b : Bool) : (m.arbitrate b).cse = m.cse := by
  unfold Me.arbitrate; split <;> rfl
@[simp] theorem Me.arbitrate_ecs (m : Me) (b : Bool) : (m.arbitrate b).ecs = m.ecs := by
  unfold Me.arbitrate; split <;> rfl
@[simp] theorem Me.arbitrate_csrRaw (m : Me) (b : Bool) : (m.arbitrate b).csrRaw = m.csrRaw := by
  unfold Me.arbitrate; split <;> rfl
@[simp] theorem Me.leave_inReset (m : Me) (act : DeferAct) (b : Bool) : (m.leave act b).inReset = m.inReset := by
  cases act <;> simp [Me.leave]
@[simp] theorem Me.leave_gprA (m : Me) (act : DeferAct) (b : Bool) : (m.leave act b).gprA = m.gprA := by
  cases act <;> simp [Me.leave]
@[simp] theorem Me.leave_gprB (m : Me) (act : DeferAct) (b : Bool) : (m.leave act b).gprB = m.gprB := by
  cases act <;> simp [Me.leave]
@[simp] theorem Me.leave_sramRd (m : Me) (act : DeferAct) (b : Bool) : (m.leave act b).sramRd = m.sramRd := by
  cases act <;> simp [Me.leave]
@[simp] theorem Me.leave_sramWr (m : Me) (act : DeferAct) (b : Bool) : (m.leave act b).sramWr = m.sramWr := by
  cases act <;> simp [Me.leave]
@[simp] theorem Me.leave_sdramRd (m : Me) (act : DeferAct) (b : Bool) : (m.leave act b).sdramRd = m.sdramRd := by
  cases act <;> simp [Me.leave]
@[simp] theorem Me.leave_sdramWr (m : Me) (act : DeferAct) (b : Bool) : (m.leave act b).sdramWr = m.sdramWr := by
  cases act <;> simp [Me.leave]
@[simp] theorem Me.leave_ustore (m : Me) (act : DeferAct) (b : Bool) : (m.leave act b).ustore = m.ustore := by
  cases act <;> simp [Me.leave]
@[simp] theorem Me.leave_pcs (m : Me) (act : DeferAct) (b : Bool) : (m.leave act b).pcs = m.pcs := by
  cases act <;> simp [Me.leave]
@[simp] theorem Me.leave_cc (m : Me) (act : DeferAct) (b : Bool) : (m.leave act b).cc = m.cc := by
  cases act <;> simp [Me.leave]
@[simp] theorem Me.leave_prevCc (m : Me) (act : DeferAct) (b : Bool) : (m.leave act b).prevCc = m.prevCc := by
  cases act <;> simp [Me.leave]
@[simp] theorem Me.leave_aluOut (m : Me) (act : DeferAct) (b : Bool) : (m.leave act b).aluOut = m.aluOut := by
  cases act <;> simp [Me.leave]
@[simp] theorem Me.leave_aLatch (m : Me) (act : DeferAct) (b : Bool) : (m.leave act b).aLatch = m.aLatch := by
  cases act <;> simp [Me.leave]
@[simp] theorem Me.leave_csrLatch (m : Me) (act : DeferAct) (b : Bool) : (m.leave act b).csrLatch = m.csrLatch := by
  cases act <;> simp [Me.leave]
@[simp] theorem Me.leave_csrShadow (m : Me) (act : DeferAct) (b : Bool) :
    (m.leave act b).csrShadow = m.csrShadow := by
  cases act <;> simp [Me.leave]
@[simp] theorem Me.leave_result1 (m : Me) (act : DeferAct) (b : Bool) : (m.leave act b).result1 = m.result1 := by
  cases act <;> simp [Me.leave]
@[simp] theorem Me.leave_result2 (m : Me) (act : DeferAct) (b : Bool) : (m.leave act b).result2 = m.result2 := by
  cases act <;> simp [Me.leave]
@[simp] theorem Me.leave_fbsCnt (m : Me) (act : DeferAct) (b : Bool) : (m.leave act b).fbsCnt = m.fbsCnt := by
  cases act <;> simp [Me.leave]
@[simp] theorem Me.leave_findAge (m : Me) (act : DeferAct) (b : Bool) : (m.leave act b).findAge = m.findAge := by
  cases act <;> simp [Me.leave]
@[simp] theorem Me.leave_cmdFifo (m : Me) (act : DeferAct) (b : Bool) : (m.leave act b).cmdFifo = m.cmdFifo := by
  cases act <;> simp [Me.leave]
@[simp] theorem Me.leave_enWindow (m : Me) (act : DeferAct) (b : Bool) : (m.leave act b).enWindow = m.enWindow := by
  cases act <;> simp [Me.leave]
@[simp] theorem Me.leave_pending (m : Me) (act : DeferAct) (b : Bool) : (m.leave act b).pending = m.pending := by
  cases act <;> simp [Me.leave]
@[simp] theorem Me.leave_defer (m : Me) (act : DeferAct) (b : Bool) : (m.leave act b).defer = m.defer := by
  cases act <;> simp [Me.leave]
@[simp] theorem Me.leave_ppAge (m : Me) (act : DeferAct) (b : Bool) : (m.leave act b).ppAge = m.ppAge := by
  cases act <;> simp [Me.leave]
@[simp] theorem Me.leave_journaling (m : Me) (act : DeferAct) (b : Bool) :
    (m.leave act b).journaling = m.journaling := by
  cases act <;> simp [Me.leave]
@[simp] theorem Me.leave_uaddr (m : Me) (act : DeferAct) (b : Bool) : (m.leave act b).uaddr = m.uaddr := by
  cases act <;> simp [Me.leave]
@[simp] theorem Me.leave_cse (m : Me) (act : DeferAct) (b : Bool) : (m.leave act b).cse = m.cse := by
  cases act <;> simp [Me.leave]
@[simp] theorem Me.leave_ecs (m : Me) (act : DeferAct) (b : Bool) : (m.leave act b).ecs = m.ecs := by
  cases act <;> simp [Me.leave]
@[simp] theorem Me.leave_csrRaw (m : Me) (act : DeferAct) (b : Bool) : (m.leave act b).csrRaw = m.csrRaw := by
  cases act <;> simp [Me.leave]
@[simp] theorem Me.advance_inReset (m : Me) (b : Bool) : (m.advance b).inReset = m.inReset := by
  unfold Me.advance; split <;> simp
@[simp] theorem Me.advance_gprA (m : Me) (b : Bool) : (m.advance b).gprA = m.gprA := by
  unfold Me.advance; split <;> simp
@[simp] theorem Me.advance_gprB (m : Me) (b : Bool) : (m.advance b).gprB = m.gprB := by
  unfold Me.advance; split <;> simp
@[simp] theorem Me.advance_sramRd (m : Me) (b : Bool) : (m.advance b).sramRd = m.sramRd := by
  unfold Me.advance; split <;> simp
@[simp] theorem Me.advance_sramWr (m : Me) (b : Bool) : (m.advance b).sramWr = m.sramWr := by
  unfold Me.advance; split <;> simp
@[simp] theorem Me.advance_sdramRd (m : Me) (b : Bool) : (m.advance b).sdramRd = m.sdramRd := by
  unfold Me.advance; split <;> simp
@[simp] theorem Me.advance_sdramWr (m : Me) (b : Bool) : (m.advance b).sdramWr = m.sdramWr := by
  unfold Me.advance; split <;> simp
@[simp] theorem Me.advance_ustore (m : Me) (b : Bool) : (m.advance b).ustore = m.ustore := by
  unfold Me.advance; split <;> simp
@[simp] theorem Me.advance_cc (m : Me) (b : Bool) : (m.advance b).cc = m.cc := by
  unfold Me.advance; split <;> simp
@[simp] theorem Me.advance_prevCc (m : Me) (b : Bool) : (m.advance b).prevCc = m.prevCc := by
  unfold Me.advance; split <;> simp
@[simp] theorem Me.advance_aluOut (m : Me) (b : Bool) : (m.advance b).aluOut = m.aluOut := by
  unfold Me.advance; split <;> simp
@[simp] theorem Me.advance_aLatch (m : Me) (b : Bool) : (m.advance b).aLatch = m.aLatch := by
  unfold Me.advance; split <;> simp
@[simp] theorem Me.advance_csrLatch (m : Me) (b : Bool) : (m.advance b).csrLatch = m.csrLatch := by
  unfold Me.advance; split <;> simp
@[simp] theorem Me.advance_csrShadow (m : Me) (b : Bool) : (m.advance b).csrShadow = m.csrShadow := by
  unfold Me.advance; split <;> simp
@[simp] theorem Me.advance_result1 (m : Me) (b : Bool) : (m.advance b).result1 = m.result1 := by
  unfold Me.advance; split <;> simp
@[simp] theorem Me.advance_result2 (m : Me) (b : Bool) : (m.advance b).result2 = m.result2 := by
  unfold Me.advance; split <;> simp
@[simp] theorem Me.advance_fbsCnt (m : Me) (b : Bool) : (m.advance b).fbsCnt = m.fbsCnt := by
  unfold Me.advance; split <;> simp
@[simp] theorem Me.advance_findAge (m : Me) (b : Bool) : (m.advance b).findAge = m.findAge := by
  unfold Me.advance; split <;> simp
@[simp] theorem Me.advance_cmdFifo (m : Me) (b : Bool) : (m.advance b).cmdFifo = m.cmdFifo := by
  unfold Me.advance; split <;> simp
@[simp] theorem Me.advance_enWindow (m : Me) (b : Bool) : (m.advance b).enWindow = m.enWindow := by
  unfold Me.advance; split <;> simp
@[simp] theorem Me.advance_pending (m : Me) (b : Bool) : (m.advance b).pending = m.pending := by
  unfold Me.advance; split <;> simp
@[simp] theorem Me.advance_ppAge (m : Me) (b : Bool) : (m.advance b).ppAge = m.ppAge := by
  unfold Me.advance; split <;> simp
@[simp] theorem Me.advance_journaling (m : Me) (b : Bool) : (m.advance b).journaling = m.journaling := by
  unfold Me.advance; split <;> simp
@[simp] theorem Me.advance_uaddr (m : Me) (b : Bool) : (m.advance b).uaddr = m.uaddr := by
  unfold Me.advance; split <;> simp
@[simp] theorem Me.advance_cse (m : Me) (b : Bool) : (m.advance b).cse = m.cse := by
  unfold Me.advance; split <;> simp
@[simp] theorem Me.advance_ecs (m : Me) (b : Bool) : (m.advance b).ecs = m.ecs := by
  unfold Me.advance; split <;> simp
@[simp] theorem Me.advance_csrRaw (m : Me) (b : Bool) : (m.advance b).csrRaw = m.csrRaw := by
  unfold Me.advance; split <;> simp
@[simp] theorem Me.findStep_inReset (m : Me) (f : BitVec 16) (clr : Bool) :
    (m.findStep f clr).inReset = m.inReset := by
  unfold Me.findStep; dsimp only; split
  · split <;> rfl
  · (repeat' split) <;> rfl
@[simp] theorem Me.findStep_gprA (m : Me) (f : BitVec 16) (clr : Bool) : (m.findStep f clr).gprA = m.gprA := by
  unfold Me.findStep; dsimp only; split
  · split <;> rfl
  · (repeat' split) <;> rfl
@[simp] theorem Me.findStep_gprB (m : Me) (f : BitVec 16) (clr : Bool) : (m.findStep f clr).gprB = m.gprB := by
  unfold Me.findStep; dsimp only; split
  · split <;> rfl
  · (repeat' split) <;> rfl
@[simp] theorem Me.findStep_sramRd (m : Me) (f : BitVec 16) (clr : Bool) : (m.findStep f clr).sramRd = m.sramRd := by
  unfold Me.findStep; dsimp only; split
  · split <;> rfl
  · (repeat' split) <;> rfl
@[simp] theorem Me.findStep_sramWr (m : Me) (f : BitVec 16) (clr : Bool) : (m.findStep f clr).sramWr = m.sramWr := by
  unfold Me.findStep; dsimp only; split
  · split <;> rfl
  · (repeat' split) <;> rfl
@[simp] theorem Me.findStep_sdramRd (m : Me) (f : BitVec 16) (clr : Bool) :
    (m.findStep f clr).sdramRd = m.sdramRd := by
  unfold Me.findStep; dsimp only; split
  · split <;> rfl
  · (repeat' split) <;> rfl
@[simp] theorem Me.findStep_sdramWr (m : Me) (f : BitVec 16) (clr : Bool) :
    (m.findStep f clr).sdramWr = m.sdramWr := by
  unfold Me.findStep; dsimp only; split
  · split <;> rfl
  · (repeat' split) <;> rfl
@[simp] theorem Me.findStep_ustore (m : Me) (f : BitVec 16) (clr : Bool) : (m.findStep f clr).ustore = m.ustore := by
  unfold Me.findStep; dsimp only; split
  · split <;> rfl
  · (repeat' split) <;> rfl
@[simp] theorem Me.findStep_pcs (m : Me) (f : BitVec 16) (clr : Bool) : (m.findStep f clr).pcs = m.pcs := by
  unfold Me.findStep; dsimp only; split
  · split <;> rfl
  · (repeat' split) <;> rfl
@[simp] theorem Me.findStep_cc (m : Me) (f : BitVec 16) (clr : Bool) : (m.findStep f clr).cc = m.cc := by
  unfold Me.findStep; dsimp only; split
  · split <;> rfl
  · (repeat' split) <;> rfl
@[simp] theorem Me.findStep_prevCc (m : Me) (f : BitVec 16) (clr : Bool) : (m.findStep f clr).prevCc = m.prevCc := by
  unfold Me.findStep; dsimp only; split
  · split <;> rfl
  · (repeat' split) <;> rfl
@[simp] theorem Me.findStep_aluOut (m : Me) (f : BitVec 16) (clr : Bool) : (m.findStep f clr).aluOut = m.aluOut := by
  unfold Me.findStep; dsimp only; split
  · split <;> rfl
  · (repeat' split) <;> rfl
@[simp] theorem Me.findStep_aLatch (m : Me) (f : BitVec 16) (clr : Bool) : (m.findStep f clr).aLatch = m.aLatch := by
  unfold Me.findStep; dsimp only; split
  · split <;> rfl
  · (repeat' split) <;> rfl
@[simp] theorem Me.findStep_csrLatch (m : Me) (f : BitVec 16) (clr : Bool) :
    (m.findStep f clr).csrLatch = m.csrLatch := by
  unfold Me.findStep; dsimp only; split
  · split <;> rfl
  · (repeat' split) <;> rfl
@[simp] theorem Me.findStep_csrShadow (m : Me) (f : BitVec 16) (clr : Bool) :
    (m.findStep f clr).csrShadow = m.csrShadow := by
  unfold Me.findStep; dsimp only; split
  · split <;> rfl
  · (repeat' split) <;> rfl
@[simp] theorem Me.findStep_findAge (m : Me) (f : BitVec 16) (clr : Bool) :
    (m.findStep f clr).findAge = m.findAge := by
  unfold Me.findStep; dsimp only; split
  · split <;> rfl
  · (repeat' split) <;> rfl
@[simp] theorem Me.findStep_cmdFifo (m : Me) (f : BitVec 16) (clr : Bool) :
    (m.findStep f clr).cmdFifo = m.cmdFifo := by
  unfold Me.findStep; dsimp only; split
  · split <;> rfl
  · (repeat' split) <;> rfl
@[simp] theorem Me.findStep_ctxEnables (m : Me) (f : BitVec 16) (clr : Bool) :
    (m.findStep f clr).ctxEnables = m.ctxEnables := by
  unfold Me.findStep; dsimp only; split
  · split <;> rfl
  · (repeat' split) <;> rfl
@[simp] theorem Me.findStep_oldEnables (m : Me) (f : BitVec 16) (clr : Bool) :
    (m.findStep f clr).oldEnables = m.oldEnables := by
  unfold Me.findStep; dsimp only; split
  · split <;> rfl
  · (repeat' split) <;> rfl
@[simp] theorem Me.findStep_enWindow (m : Me) (f : BitVec 16) (clr : Bool) :
    (m.findStep f clr).enWindow = m.enWindow := by
  unfold Me.findStep; dsimp only; split
  · split <;> rfl
  · (repeat' split) <;> rfl
@[simp] theorem Me.findStep_active (m : Me) (f : BitVec 16) (clr : Bool) : (m.findStep f clr).active = m.active := by
  unfold Me.findStep; dsimp only; split
  · split <;> rfl
  · (repeat' split) <;> rfl
@[simp] theorem Me.findStep_nctx (m : Me) (f : BitVec 16) (clr : Bool) : (m.findStep f clr).nctx = m.nctx := by
  unfold Me.findStep; dsimp only; split
  · split <;> rfl
  · (repeat' split) <;> rfl
@[simp] theorem Me.findStep_pctx (m : Me) (f : BitVec 16) (clr : Bool) : (m.findStep f clr).pctx = m.pctx := by
  unfold Me.findStep; dsimp only; split
  · split <;> rfl
  · (repeat' split) <;> rfl
@[simp] theorem Me.findStep_executing (m : Me) (f : BitVec 16) (clr : Bool) :
    (m.findStep f clr).executing = m.executing := by
  unfold Me.findStep; dsimp only; split
  · split <;> rfl
  · (repeat' split) <;> rfl
@[simp] theorem Me.findStep_hasRun (m : Me) (f : BitVec 16) (clr : Bool) : (m.findStep f clr).hasRun = m.hasRun := by
  unfold Me.findStep; dsimp only; split
  · split <;> rfl
  · (repeat' split) <;> rfl
@[simp] theorem Me.findStep_sigEvents (m : Me) (f : BitVec 16) (clr : Bool) :
    (m.findStep f clr).sigEvents = m.sigEvents := by
  unfold Me.findStep; dsimp only; split
  · split <;> rfl
  · (repeat' split) <;> rfl
@[simp] theorem Me.findStep_wakeup (m : Me) (f : BitVec 16) (clr : Bool) : (m.findStep f clr).wakeup = m.wakeup := by
  unfold Me.findStep; dsimp only; split
  · split <;> rfl
  · (repeat' split) <;> rfl
@[simp] theorem Me.findStep_pending (m : Me) (f : BitVec 16) (clr : Bool) :
    (m.findStep f clr).pending = m.pending := by
  unfold Me.findStep; dsimp only; split
  · split <;> rfl
  · (repeat' split) <;> rfl
@[simp] theorem Me.findStep_defer (m : Me) (f : BitVec 16) (clr : Bool) : (m.findStep f clr).defer = m.defer := by
  unfold Me.findStep; dsimp only; split
  · split <;> rfl
  · (repeat' split) <;> rfl
@[simp] theorem Me.findStep_ppAge (m : Me) (f : BitVec 16) (clr : Bool) : (m.findStep f clr).ppAge = m.ppAge := by
  unfold Me.findStep; dsimp only; split
  · split <;> rfl
  · (repeat' split) <;> rfl
@[simp] theorem Me.findStep_journaling (m : Me) (f : BitVec 16) (clr : Bool) :
    (m.findStep f clr).journaling = m.journaling := by
  unfold Me.findStep; dsimp only; split
  · split <;> rfl
  · (repeat' split) <;> rfl
@[simp] theorem Me.findStep_uaddr (m : Me) (f : BitVec 16) (clr : Bool) : (m.findStep f clr).uaddr = m.uaddr := by
  unfold Me.findStep; dsimp only; split
  · split <;> rfl
  · (repeat' split) <;> rfl
@[simp] theorem Me.findStep_cse (m : Me) (f : BitVec 16) (clr : Bool) : (m.findStep f clr).cse = m.cse := by
  unfold Me.findStep; dsimp only; split
  · split <;> rfl
  · (repeat' split) <;> rfl
@[simp] theorem Me.findStep_ecs (m : Me) (f : BitVec 16) (clr : Bool) : (m.findStep f clr).ecs = m.ecs := by
  unfold Me.findStep; dsimp only; split
  · split <;> rfl
  · (repeat' split) <;> rfl
@[simp] theorem Me.findStep_csrRaw (m : Me) (f : BitVec 16) (clr : Bool) : (m.findStep f clr).csrRaw = m.csrRaw := by
  unfold Me.findStep; dsimp only; split
  · split <;> rfl
  · (repeat' split) <;> rfl

end Sys2Proof.Machine
end

