-- ==== Sys2Proof/Laws/Ops.lean ====
section
/-! SUPPORT. For each shared operation of a microengine one lemma that says what it does: operands, registers, the
retirement of an instruction, a branch, a context swap, a command. Callers cite these and never unfold the operation. -/

namespace Sys2Proof.Machine

/-! ### Outcomes -/

@[simp] theorem finish_ok (s : State) : finish (.ok s) = .next s := rfl
@[simp] theorem finish_fault (f : Fault) : finish (.error (.fault f)) = .fault f := rfl
@[simp] theorem finish_refused (r : Refusal) : finish (.error (.refused r)) = .refused r := rfl

/-- A next state comes from a result that did not stop. -/
theorem finish_eq_next {r : Res State} {t : State} (h : finish r = .next t) : r = .ok t := by
  unfold finish at h
  split at h <;> simp_all

@[simp] theorem refuse_eq {α : Type} (r : Refusal) : (refuse r : Res α) = .error (.refused r) := rfl
@[simp] theorem stopFault_eq {α : Type} (f : Fault) : (stopFault f : Res α) = .error (.fault f) := rfl
@[simp] theorem require_true (r : Refusal) : require true r = .ok () := rfl
@[simp] theorem require_false (r : Refusal) : require false r = .error (.refused r) := rfl
@[simp] theorem written_some {α : Type} (v : α) : written (some v) = .ok v := rfl

@[simp] theorem ok_bind {α β : Type} (v : α) (f : α → Res β) : ((Except.ok v : Res α) >>= f) = f v := rfl
@[simp] theorem error_bind {α β : Type} (e : Stop) (f : α → Res β) : ((Except.error e : Res α) >>= f) = .error e := rfl
@[simp] theorem res_pure {α : Type} (v : α) : (pure v : Res α) = .ok v := rfl

/-- A computation that did not stop has run its parts. -/
theorem bind_ok {α β : Type} {x : Res α} {f : α → Res β} {b : β} (h : (x >>= f) = .ok b) :
    ∃ a, x = .ok a ∧ f a = .ok b := by
  cases x with
  | ok a => exact ⟨a, rfl, h⟩
  | error e => simp at h

theorem require_ok {b : Bool} {r : Refusal} {u : Unit} (h : require b r = .ok u) : b = true := by
  cases b with
  | true => rfl
  | false => simp at h

/-! ### Registers -/

/-- A read register of a source is the register's content. -/
theorem source_of_operandIs {s : State} {x : Src} {v : Option Word} (h : operandIs s x v) : s.source x = .ok v := by
  obtain ⟨hp, hv⟩ := h
  subst hv
  cases x with
  | none => rfl
  | imm w => rfl
  | gpr g => cases g with
    | rel k r => cases k <;> rfl
    | abs k r => cases k <;> rfl
  | sdram y => cases y <;> rfl
  | sram y =>
    have hq : s.protectedRead (xferIndex s.engine.active y).val = false := by
      cases y with
      | rel r => exact hp _ rfl
      | abs r => exact hp _ rfl
    simp only [State.source, hq]
    cases y <;> rfl

theorem sourceVal_of_operandIs {s : State} {x : Src} {v : Word} (h : operandIs s x (some v)) : s.sourceVal x = .ok v := by
  simp [State.sourceVal, source_of_operandIs h]

theorem address_of_operandIs {s : State} {a b : Src} {u v : Word} (ha : operandIs s a (some u))
    (hb : operandIs s b (some v)) : s.address a b = .ok (u + v) := by
  simp [State.address, sourceVal_of_operandIs ha, sourceVal_of_operandIs hb]

/-- A write of a destination. -/
theorem destWritten_writeDest (m : Me) (d : Dest) (v : Word) : destWritten m (m.writeDest m.active d v) d v := by
  intro k
  cases d with
  | none => simp [Me.writeDest, destCell]
  | gpr g =>
    cases g with
    | rel b r =>
      cases b <;> cases k with
      | gpr b2 i => cases b2 <;> simp [Me.writeDest, Me.setGpr, destCell, Me.cell, gprIndex, Vector.getElem_set, Fin.ext_iff]
      | _ => simp [Me.writeDest, Me.setGpr, destCell, Me.cell]
    | abs b r =>
      cases b <;> cases k with
      | gpr b2 i => cases b2 <;> simp [Me.writeDest, Me.setGpr, destCell, Me.cell, gprIndex, Vector.getElem_set, Fin.ext_iff]
      | _ => simp [Me.writeDest, Me.setGpr, destCell, Me.cell]
  | sram x =>
    cases x <;> cases k with
    | gpr b i => cases b <;> rfl
    | _ => simp [Me.writeDest, destCell, Me.cell, xferIndex, Vector.getElem_set, Fin.ext_iff]
  | sdram x =>
    cases x <;> cases k with
    | gpr b i => cases b <;> rfl
    | _ => simp [Me.writeDest, destCell, Me.cell, xferIndex, Vector.getElem_set, Fin.ext_iff]

/-- The present value of a destination is its register's. -/
theorem readDest_eq_cell (m : Me) (d : Dest) (k : RegCell) (h : destCell m.active d = some k) :
    m.readDest m.active d = m.cell k := by
  cases d with
  | none => simp [destCell] at h
  | gpr g => cases g with
    | rel b r => cases b <;> (simp [destCell] at h; subst h; rfl)
    | abs b r => cases b <;> (simp [destCell] at h; subst h; rfl)
  | sram x => cases x <;> (simp [destCell] at h; subst h; rfl)
  | sdram x => cases x <;> (simp [destCell] at h; subst h; rfl)

@[simp] theorem Me.latch_cell (m : Me) (r : Retire) (n : Nat) (k : RegCell) : (m.latch r n).cell k = m.cell k := by
  cases k <;> rfl

@[simp] theorem Me.setPc_cell (m : Me) (pc : BitVec 12) (k : RegCell) : (m.setPc pc).cell k = m.cell k := by
  cases k <;> rfl

@[simp] theorem Me.advance_cell (m : Me) (b : Bool) (k : RegCell) : (m.advance b).cell k = m.cell k := by
  cases k with
  | gpr g i => cases g <;> simp [Me.cell]
  | _ => simp [Me.cell]

@[simp] theorem Me.leave_cell (m : Me) (act : DeferAct) (b : Bool) (k : RegCell) : (m.leave act b).cell k = m.cell k := by
  cases k with
  | gpr g i => cases g <;> simp [Me.cell]
  | _ => simp [Me.cell]

@[simp] theorem Me.findStep_cell (m : Me) (f : BitVec 16) (clr : Bool) (k : RegCell) :
    (m.findStep f clr).cell k = m.cell k := by
  cases k with
  | gpr g i => cases g <;> simp [Me.cell]
  | _ => simp [Me.cell]

theorem regsKept_refl (m : Me) : regsKept m m := fun _ => rfl

/-! ### Retirement -/

theorem unitsKept_putEngine (s : State) (e : Me) : unitsKept s (s.putEngine e) :=
  ⟨rfl, fun _ => ⟨rfl, rfl, rfl, rfl, rfl, rfl⟩⟩

theorem othersKept_putEngine (s : State) (e : Me) : othersKept s (s.putEngine e) :=
  ⟨unitsKept_putEngine s e, fun _ h => State.putEngine_me_ne s e h⟩

@[simp] theorem retire_engine (s : State) (m : Me) (r : Retire) :
    (s.retire m r).engine = (m.latch r s.free).advance s.enableDraw := by
  simp [State.retire]

theorem othersKept_retire (s : State) (m : Me) (r : Retire) : othersKept s (s.retire m r) :=
  othersKept_putEngine s _

/-- Outside a deferred position an instruction goes on to the next word and leaves its contexts alone. -/
theorem advance_of_no_defer (m : Me) (b : Bool) (h : m.defer = none) : m.advance b = m.setPc (m.pc + 1) := by
  simp [Me.advance, h]

/-- The frame of an instruction whose register results are `m`: `m` differs from the engine in nothing that an ordinary
instruction keeps. -/
theorem ordinary_retire (s : State) (m : Me) (r : Retire) (hctl : controlKept s.engine m) (hctx : contextsKept s.engine m)
    (hcc : m.cc = s.engine.cc) (hfifo : m.cmdFifo = s.engine.cmdFifo) (hpend : m.pending = s.engine.pending)
    (hpcs : m.pcs = s.engine.pcs) (hdefer : m.defer = s.engine.defer) (hlatch : r.latch = none)
    (hshadow : r.shadow = none) : ordinary s (s.retire m r) := by
  refine ⟨othersKept_retire s m r, ?_, ?_, ?_, ?_, ?_⟩
  · simpa [controlKept] using hctl
  · simp [latchesLeft, hcc, hlatch, hshadow]
  · simp [hfifo]
  · simp [hpend]
  · intro hd
    have hd2 : (m.latch r s.free).defer = none := by simp [hdefer, hd]
    rw [retire_engine, advance_of_no_defer _ _ hd2]
    refine ⟨by simp [hdefer, hd], by simpa [contextsKept] using hctx, ?_⟩
    have ha : m.active = s.engine.active := hctx.1
    simp [Me.pc, ha, hpcs]

/-- The frame of an instruction that writes one destination. -/
theorem ordinary_writeDest (s : State) (d : Dest) (v : Word) (r : Retire) (hlatch : r.latch = none)
    (hshadow : r.shadow = none) : ordinary s (s.retire (s.engine.writeDest s.engine.active d v) r) := by
  apply ordinary_retire <;> simp [controlKept, contextsKept, hlatch, hshadow]

/-- What an instruction that writes one destination leaves in registers and latches. -/
theorem retire_writeDest (s : State) (d : Dest) (v : Word) (r : Retire) :
    destWritten s.engine (s.retire (s.engine.writeDest s.engine.active d v) r).engine d v := by
  intro k
  simpa using destWritten_writeDest s.engine d v k

theorem findKept_retire (s : State) (d : Dest) (v : Word) (r : Retire) (h : r.find = false) :
    findKept s.engine (s.retire (s.engine.writeDest s.engine.active d v) r).engine := by
  simp [findKept, h]

/-- A branch outside a deferred position. -/
theorem retireBranch_ok (s : State) (m : Me) (r : Retire) (taken : Bool) (target : BitVec 12) (n : Fin 4)
    (hd : m.defer = none) (hpcs : m.pcs = s.engine.pcs) (ha : m.active = s.engine.active) :
    ∃ e, s.retireBranch m r taken target n = .ok (s.putEngine e) ∧ branched s.engine e taken target n ∧
      e = { m.latch r s.free with pcs := e.pcs, defer := e.defer } := by
  by_cases hn : n = 0
  · subst hn
    refine ⟨if taken then (m.latch r s.free).setPc target else (m.latch r s.free).setPc (m.pc + 1), ?_, ?_, ?_⟩
    · simp [State.retireBranch, hd]
    · cases taken <;> simp [branched, hd, hpcs, ha, Me.pc]
    · cases taken <;> simp [Me.setPc]
  · refine ⟨{ (m.latch r s.free).setPc (m.pc + 1) with
      defer := some ⟨n.val, if taken then .jump target else .fall⟩ }, ?_, ?_, rfl⟩
    · simp [State.retireBranch, hd, hn]
    · simp [branched, hn, hpcs, ha, Me.pc]

/-- In a deferred position a branch is refused. -/
theorem retireBranch_deferred (s : State) (m : Me) (r : Retire) (taken : Bool) (target : BitVec 12) (n : Fin 4)
    (hd : m.defer.isSome = true) : s.retireBranch m r taken target n = .error (.refused .branchInDeferSlot) := by
  simp [State.retireBranch, hd]

/-! ### Context swap and issue -/

/-- Context `k` is ready after the running context left, waiting for `w`. -/
theorem ready_after_leave (m : Me) (w : Wakeup) (k : Fin 4) :
    (m.ctxEnables.getLsbD k.val && { m with wakeup := m.wakeup.set m.active w, executing := false }.ready k)
      = canRun m m.ctxEnables w k := by
  simp only [canRun, Me.ready, SigSet.has]
  by_cases hk : k = m.active
  · subst hk
    simp only [Fin.getElem_fin, Vector.getElem_set_self, if_true]
    all_goals (cases w <;> rfl)
  · have : m.active.val ≠ k.val := fun h => hk (Fin.ext h.symm)
    simp only [Fin.getElem_fin, Vector.getElem_set, this, hk, if_false]
    all_goals (cases m.wakeup[k.val] <;> rfl)

/-- A context that ran leaves: the arbiter takes the next ready one, or none runs. -/
theorem leave_swap (m : Me) (w : Wakeup) (b : Bool) (hr : m.hasRun = true) (hw : m.enWindow = 0) :
    m.leave (.swap w) b = (match nextContext m m.ctxEnables w with
      | some k => { m with wakeup := m.wakeup.set m.active w, executing := true, active := k, nctx := k + 1,
                           pctx := m.active, sigEvents := consumed m w k }
      | none => { m with wakeup := m.wakeup.set m.active w, executing := false }) := by
  have hp : { m with wakeup := m.wakeup.set m.active w, executing := false }.pick
      ({ m with wakeup := m.wakeup.set m.active w, executing := false }.enablesSeen b) = nextContext m m.ctxEnables w := by
    simp only [Me.pick, Me.enablesSeen, hw, if_true, hr, Bool.not_true, Bool.false_and, Bool.false_eq_true, if_false,
      nextContext, scanOrder]
    congr 1
    exact funext fun k => ready_after_leave m w k
  simp only [Me.leave, Me.arbitrate, hp]
  cases nextContext m m.ctxEnables w with
  | none => rfl
  | some k =>
    simp only [Me.start, hr, Bool.not_true, Bool.false_and, Bool.false_eq_true, if_false]
    congr 1
    simp only [consumed]
    by_cases hk : k = m.active
    · subst hk
      simp only [Fin.getElem_fin, Vector.getElem_set_self, if_true, sigMask]
      all_goals (cases w <;> rfl)
    · have : m.active.val ≠ k.val := fun h => hk (Fin.ext h.symm)
      simp only [Fin.getElem_fin, Vector.getElem_set, this, hk, if_false, sigMask]
      all_goals (cases m.wakeup[k.val] <;> rfl)

/-- What the machine calls `swapped`, for an engine `e` that went on to the next word and then left. -/
theorem swapped_leave (m e : Me) (w : Wakeup) (b : Bool) (hr : e.hasRun = true) (hw : e.enWindow = 0)
    (hpcs : e.pcs = m.pcs.set m.active (m.pc + 1)) (hd : e.defer = none) (hwk : e.wakeup = m.wakeup)
    (ha : e.active = m.active) (hn : e.nctx = m.nctx) (hs : e.sigEvents = m.sigEvents) :
    swapped m (e.leave (.swap w) b) e.ctxEnables w := by
  have hnc : nextContext e e.ctxEnables w = nextContext m e.ctxEnables w := by
    unfold nextContext canRun; rw [ha, hn, hs, hwk]
  rw [leave_swap e w b hr hw, hnc]
  unfold swapped
  cases nextContext m e.ctxEnables w with
  | none => simp only [hpcs, hd, hwk, ha, hn, hs]; exact ⟨trivial, trivial, trivial, trivial, trivial, trivial, trivial, trivial⟩
  | some k => 
    have hc : consumed e w k = consumed m w k := by unfold consumed; rw [ha, hs, hwk]
    simp only [hpcs, hd, hwk, ha, hc]; exact ⟨trivial, trivial, trivial, trivial, trivial, trivial, trivial, trivial, trivial⟩

/-- Issuing a command that can be issued. -/
theorem issue_ok (s : State) (cmd : Cmd) (ev : SigEvent) (tok : RefTok) (h : canIssue s cmd tok)
   (hs : cmd.sig = if tok.sigDone || tok.ctxSwap then some ev else none) : ∃ t, s.issue cmd ev tok = .ok t ∧ issued s t cmd ev tok := by
  obtain ⟨h1, h2, h3⟩ := h
  have a1 : (s.engine.defer.isSome && tok.ctxSwap) = false := by
    cases hc : tok.ctxSwap with
    | false => simp
    | true => simp [h2 hc]
  have a2 : s.engine.hasRoom = true := by simp [Me.hasRoom, h1]
  have a3 : s.signalFree cmd = true := by
    unfold State.signalFree
    split
    · rfl
    · rename_i e he
      have := h3 e he
      simp only [SigSet.has, this]; rfl
  let s1 := match cmd.sig with
      | some e => s.markPending cmd.sigMe cmd.sigCtx e
      | none => s
  have key : ∀ k, s1.me k = { s.me k with pending := (s1.me k).pending } := by
    intro k
    simp only [s1]; split
    · simp only [State.markPending]
      by_cases hk : k = cmd.sigMe
      · subst hk; simp
      · rw [State.setMe_me_ne _ _ hk]
    · rfl
  have keyp : ∀ (k : Fin 6) (c : Fin 4), (s1.me k).pending[c] = if cmd.sig = some ev ∧ k = cmd.sigMe ∧ c = cmd.sigCtx then (s.me k).pending[c] ||| (1#9 <<< sigBit ev)
        else (s.me k).pending[c] := by
    intro k c
    simp only [s1]; split
    · rename_i e he
      have : e = ev := by rw [hs] at he; split at he <;> simp_all
      subst this
      simp only [State.markPending, he, true_and]
      by_cases hk : k = cmd.sigMe
      · subst hk
        by_cases hc : c = cmd.sigCtx
        · subst hc; simp [sigMask]
        · have : cmd.sigCtx.val ≠ c.val := fun h => hc (Fin.ext h.symm)
          simp [hc, Vector.getElem_set, this]
      · simp only [State.setMe_me_ne _ _ hk, hk, false_and, if_false]
    · rename_i he
      simp [he]
  have hcur : s1.cur = s.cur := by simp only [s1]; split <;> rfl
  have hfree : s1.free = s.free := by simp only [s1]; split <;> rfl
  have hdraw : s1.enableDraw = s.enableDraw := by unfold State.enableDraw; rw [hfree]
  have hstate : s1 = { s with mes := s1.mes } := by simp only [s1]; split <;> rfl
  have heng : s1.engine = { s.engine with pending := s1.engine.pending } := by
    unfold State.engine; rw [hcur]; exact key _
  have common : ∀ e : Me, (e.cmdFifo = s.engine.cmdFifo ++ [cmd]) → (∀ k, e.cell k = s.engine.cell k) → findKept s.engine e → controlKept s.engine e → latchesLeft s.engine e →
       e.cc = s.engine.cc → e.pending = s1.engine.pending → (s.engine.defer = none → tok.ctxSwap = false → e.defer = none ∧ contextsKept s.engine e
        ∧ e.pcs = s.engine.pcs.set s.engine.active (s.engine.pc + 1)) → (s.engine.defer = none → tok.ctxSwap = true → tok.defer1 = true →
        e.defer = some ⟨1, .swap (.signal ev)⟩ ∧ contextsKept s.engine e
          ∧ e.pcs = s.engine.pcs.set s.engine.active (s.engine.pc + 1)) → (s.engine.defer = none → tok.ctxSwap = true → tok.defer1 = false → s.engine.hasRun = true →
        s.engine.enWindow ≤ 1 → swapped s.engine e s.engine.ctxEnables (.signal ev)) → issued s (s1.putEngine e) cmd ev tok := by
    intro e g1 g2 g3 g4 g5 g6 g7 g8 g9 g10
    have he : (s1.putEngine e).engine = e := State.putEngine_engine _ _
    refine ⟨?_, ?_, ?_, ?_, ?_, ?_, ?_, ?_, ?_, ?_, ?_, ?_⟩ <;> try rw [he]
    · exact g1
    · refine ⟨?_, fun a => ?_⟩
      · rw [hstate]; rfl
      · rw [hstate]; exact ⟨rfl, rfl, rfl, rfl, rfl, rfl⟩
    · exact g2
    · exact g3
    · exact g4
    · exact g5
    · exact g6
    · intro k c
      rw [← keyp]
      by_cases hk : k = s1.cur
      · subst hk
        have : (s1.putEngine e).me s1.cur = e := he
        rw [this, g7]; rfl
      · rw [State.putEngine_me_ne _ _ hk]
    · intro k hk
      rw [State.putEngine_me_ne _ _ (by rw [hcur]; exact hk)]
      exact key k
    · exact g8
    · exact g9
    · exact g10
  have hissue : s.issue cmd ev tok = (if tok.ctxSwap then s1.retireSwap { s1.engine with cmdFifo := s1.engine.cmdFifo ++ [cmd] } {} (.swap (.signal ev)) tok.defer1
    else .ok (s1.retire { s1.engine with cmdFifo := s1.engine.cmdFifo ++ [cmd] } {})) := by
    simp only [State.issue, a1, a2, a3, Bool.not_true, Bool.false_eq_true, if_false]
    rfl
  cases hc : tok.ctxSwap with
  | false =>
    refine ⟨_, by rw [hissue, hc]; rfl, ?_⟩
    apply common
    · simp; rw [heng]
    · intro k; simp; rw [heng]; cases k with
      | gpr b i => cases b <;> rfl
      | _ => rfl
    · rw [heng]; simp [findKept]
    · rw [heng]; simp [controlKept]
    · rw [heng]; simp [latchesLeft]
    · rw [heng]; simp
    · simp
    · intro hd _
      rw [advance_of_no_defer _ _ (by rw [heng]; simpa using hd)]
      rw [heng]; simp [hd, contextsKept, Me.pc]
    · intro _ h; rw [hc] at h; cases h
    · intro _ h; rw [hc] at h; cases h
  | true =>
    have hd : s.engine.defer = none := h2 hc
    have hd' : ({ s1.engine with cmdFifo := s1.engine.cmdFifo ++ [cmd] } : Me).defer.isSome = false := by rw [heng]; simp [hd]
    cases h1 : tok.defer1 with
    | true =>
      refine ⟨_, by rw [hissue, hc]; simp only [if_true, State.retireSwap, hd', h1]; rfl, ?_⟩
      apply common
      · show s1.engine.cmdFifo ++ [cmd] = _; rw [heng]
      · intro k; rw [heng]; cases k with
        | gpr b i => cases b <;> rfl
        | _ => rfl
      · rw [heng]; simp [findKept]
      · rw [heng]; simp [controlKept]
      · rw [heng]; simp [latchesLeft]
      · rw [heng]; rfl
      · rfl
      · intro _ h; rw [hc] at h; cases h
      · intro _ _ _; rw [heng]; simp [contextsKept, Me.pc]
      · intro _ _ h; rw [h1] at h; cases h
    | false =>
      refine ⟨_, by rw [hissue, hc]; simp only [if_true, State.retireSwap, hd', h1]; rfl, ?_⟩
      apply common
      · simp; rw [heng]
      · intro k; simp; rw [heng]; cases k with
        | gpr b i => cases b <;> rfl
        | _ => rfl
      · rw [heng]; simp [findKept]
      · rw [heng]; simp [controlKept]
      · rw [heng]; simp [latchesLeft]
      · rw [heng]; simp
      · simp
      · intro _ h; rw [hc] at h; cases h
      · intro _ _ h; rw [h1] at h; cases h
      · intro _ _ _ hr hwin
        have h := swapped_leave s.engine ((({ s1.engine with cmdFifo := s1.engine.cmdFifo ++ [cmd] } : Me).latch {} s1.free).setPc (({ s1.engine with cmdFifo := s1.engine.cmdFifo ++ [cmd] } : Me).pc+1)) (.signal ev) s1.enableDraw (by rw [heng]; simpa using hr) (by rw [heng]; simp; omega) (by rw [heng]; simp [Me.pc]) (by rw [heng]; simp [hd]) (by rw [heng]; simp) (by rw [heng]; simp) (by rw [heng]; simp) (by rw [heng]; simp)
        rw [show s.engine.ctxEnables = ((({ s1.engine with cmdFifo := s1.engine.cmdFifo ++ [cmd] } : Me).latch {} s1.free).setPc (({ s1.engine with cmdFifo := s1.engine.cmdFifo ++ [cmd] } : Me).pc+1)).ctxEnables by rw [heng]; simp]
        exact h

end Sys2Proof.Machine
end

