-- ==== Sys2Proof/Laws/Alu.lean ====
section
/-! SUPPORT. What the ALU, the shifter, the field loads and the find-bit-set logic compute, beside the tables of Safety.lean. -/

namespace Sys2Proof.Machine

/-- The result of an ALU operation is Table 4-9's number (R452). -/
theorem aluResult_spec (op : AluOp) (a s : Word) (c p : Bool) :
    (aluResult op a s c p).toNat = specAlu op a.toNat s.toNat c p := by
  have ha := a.isLt
  have hs := s.isLt
  cases op <;> simp only [aluResult, specAlu, adder, bit]
  case notB => simp
  case add => simp [BitVec.toNat_add] <;> omega
  case addCarry => cases c <;> simp [BitVec.toNat_add] <;> omega
  case add4 => simp [BitVec.toNat_add]; omega
  case add8 => simp [BitVec.toNat_add]; omega
  case add16 => simp [BitVec.toNat_add]; omega
  case sub => simp [BitVec.toNat_add, BitVec.toNat_not]; omega
  case bMinusA => simp [BitVec.toNat_add, BitVec.toNat_not]; omega
  case and => simp
  case notAnd => simp
  case andNot => simp
  case or => simp
  case xor => simp
  case addIfSign => cases p <;> simp [BitVec.toNat_add] <;> omega

/-- The carry of the 33-bit sum. -/
theorem carry_bit (x : BitVec 33) : x.getLsbD 32 = decide (2^32 ≤ x.toNat) := by
  have := x.isLt
  rw [BitVec.getLsbD, Nat.testBit_eq_decide_div_mod_eq]
  apply decide_eq_decide.2
  omega

/-- The Carryout of an ALU operation is R453's. -/
theorem aluCarry_spec (op : AluOp) (a s : Word) (c p : Bool) :
    aluCarry op a s c p = specCarry op a.toNat s.toNat c p := by
  have ha := a.isLt
  have hs := s.isLt
  cases op <;> simp only [aluCarry, specCarry, adder, bit, carry_bit]
  case add => simp [BitVec.toNat_add] <;> omega
  case addCarry => cases c <;> simp [BitVec.toNat_add] <;> omega
  case sub => simp [BitVec.toNat_add, BitVec.toNat_not]; omega
  case bMinusA => simp [BitVec.toNat_add, BitVec.toNat_not]; omega
  case addIfSign => cases p <;> simp [BitVec.toNat_add]; omega

/-- Bit 31 is the sign. -/
theorem sign_spec (r : Word) : r.getLsbD 31 = decide (r.toInt < 0) := by
  rw [← BitVec.msb_eq_toInt, BitVec.msb_eq_getLsbD_last]

/-- A left shift by the barrel shifter. -/
theorem barrel_left (b : Word) (n : Nat) (h : n ≤ 32) : barrel b 0 (32 - n) = b <<< n := by
  have hb := b.isLt
  apply BitVec.eq_of_getLsbD_eq
  intro i hi
  simp only [barrel, BitVec.getLsbD_setWidth, BitVec.getLsbD_ushiftRight, BitVec.getLsbD_append, BitVec.getLsbD_shiftLeft]
  by_cases h2 : i < n
  · simp [h2, hi, show 32 - n + i < 32 by omega]
  · simp [h2, hi, show ¬ 32 - n + i < 32 by omega, show 32 - n + i - 32 = i - n by omega]
/-- A right shift by the barrel shifter. -/
theorem barrel_right (b : Word) (n : Nat) : barrel 0 b n = b >>> n := by
  apply BitVec.eq_of_getLsbD_eq
  intro i hi
  simp only [barrel, BitVec.getLsbD_setWidth, BitVec.getLsbD_ushiftRight, BitVec.getLsbD_append]
  by_cases h2 : n + i < 32
  · simp [h2, hi]
  · simp [h2, hi, BitVec.getLsbD_of_ge b (n+i) (by omega)]
/-- A right rotate by the barrel shifter. -/
theorem barrel_rot (b : Word) (n : Nat) (h : n < 32) : barrel b b n = b.rotateRight n := by
  apply BitVec.eq_of_getLsbD_eq
  intro i hi
  simp only [barrel, BitVec.getLsbD_setWidth, BitVec.getLsbD_ushiftRight, BitVec.getLsbD_append, BitVec.getLsbD_rotateRight, Nat.mod_eq_of_lt h]
  by_cases h2 : i < 32 - n
  · simp [h2, hi, show n + i < 32 by omega]
  · simp [h2, hi, show ¬ n + i < 32 by omega, show n + i - 32 = i - (32 - n) by omega]
/-- A left rotate by the barrel shifter. -/
theorem barrel_rotl (b : Word) (n : Nat) (h : n < 32) : barrel b b (32 - n) = b.rotateLeft n := by
  apply BitVec.eq_of_getLsbD_eq
  intro i hi
  simp only [barrel, BitVec.getLsbD_setWidth, BitVec.getLsbD_ushiftRight, BitVec.getLsbD_append, BitVec.getLsbD_rotateLeft, Nat.mod_eq_of_lt h]
  by_cases h2 : i < n
  · simp [h2, hi, show 32 - n + i < 32 by omega]
  · simp [h2, hi, show ¬ 32 - n + i < 32 by omega, show 32 - n + i - 32 = i - n by omega]

/-- The shifted B operand is R451's and R455's plain shift or rotate, where one is stated. -/
theorem shiftB_spec (shf : Shf) (b : Word) (v : BitVec 5) (free z : Word) (h : specShift shf b v = some z) : shiftB shf b v free = z := by
  have hv := v.isLt
  cases shf <;> simp only [specShift, shiftB, Option.some.injEq] at *
  case none => exact h
  case left n => rw [← h]; exact barrel_left _ _ (by have := n.isLt; omega)
  case right n => rw [← h, barrel_right]
  case rotLeft n => rw [← h, barrel_rotl _ _ n.isLt]
  case rotRight n => rw [← h, barrel_rot _ _ n.isLt]
  case rightIndirect => rw [← h, barrel_right]
  case leftIndirect =>
    split at h
    · simp at h
    · rename_i h0
      simp only [h0, if_false, Option.some.injEq] at *
      rw [← h]
      have := barrel_left b (32 - v.toNat) (by omega)
      rwa [show 32 - (32 - v.toNat) = v.toNat by omega] at this

/-- The double shift is R459's. -/
theorem shiftAB_spec (shf : Shf) (a b : Word) (v : BitVec 5) (free : Word) (n : Nat) (hok : shf.dblOk = true) (h : specDouble shf a.toNat b.toNat v = some n) : (shiftAB shf a b v free).toNat = n := by
  have ha := a.isLt
  have hb := b.isLt
  have key : ∀ k, (barrel a b k).toNat = (a.toNat * 2^32 + b.toNat) / 2^k % 2^32 := by
    intro k
    simp [barrel, Nat.shiftRight_eq_div_pow]
    rw [BitVec.toNat_append, Nat.shiftLeft_eq]; rw [Nat.mul_comm, ← Nat.two_pow_add_eq_or_of_lt hb]

  have key2 : ∀ k, k ≤ 32 → (barrel a b (32 - k)).toNat = (a.toNat * 2^32 + b.toNat) * 2^k / 2^32 % 2^32 := by
    intro k hk
    rw [key]
    congr 1
    have : (2:Nat)^32 = 2^(32-k) * 2^k := by rw [← pow_add]; congr 1; omega
    conv_rhs => rw [this]
    rw [Nat.mul_div_mul_right _ _ (by positivity), ← this]
  cases shf <;> simp only [specDouble, shiftAB, Option.some.injEq] at *
  case left n => rw [← h, key2 _ (by have := n.isLt; omega)]
  case right n => rw [← h, key]
  case rightIndirect => rw [← h, key]
  case leftIndirect =>
    split at h
    · simp at h
    · rename_i h0
      have hv := v.isLt
      simp only [h0, if_false, Option.some.injEq] at *
      rw [← h, ← key2 _ (by omega), show 32 - (32 - v.toNat) = v.toNat by omega]
  all_goals simp at h

/-! ### Field loads -/

/-- The lanes a byte mask selects. -/
theorem byteLanes_bit (m : BitVec 4) (k i : Nat) (hk : k < 4) (hi : i < 8) :
    (byteLanes m).getLsbD (8*k+i) = m.getLsbD k := by
  revert m k i
  have : ∀ m : BitVec 4, ∀ k < 4, ∀ i < 8, (byteLanes m).getLsbD (8*k+i) = m.getLsbD k := by decide
  exact fun m k i hk hi => this m k hk i hi

/-- Inside the field a field load has the value. -/
theorem loadField_in (old v : Word) (lo w : Nat) (keep : Bool) (h : lo + w ≤ 32) : (loadField old v lo w keep).toNat / 2^lo % 2^w = v.toNat % 2^w := by
  apply Nat.eq_of_testBit_eq
  intro i
  rw [Nat.testBit_mod_two_pow, Nat.testBit_mod_two_pow, Nat.testBit_div_two_pow]
  by_cases hi : i < w
  · simp only [hi, decide_true, Bool.true_and]
    show (loadField old v lo w keep).getLsbD (i+lo) = v.getLsbD i
    simp [loadField, fieldMask]
    cases keep <;> simp [hi, show i + lo < 32 by omega, show i < 32 by omega]
  · simp [hi]
/-- Outside the field a field load has the old bits or zeros. -/
theorem loadField_out (old v : Word) (lo w : Nat) (keep : Bool) (i : Nat) (h : i < lo ∨ lo + w ≤ i) (hw : w ≤ 32): (loadField old v lo w keep).getLsbD i = (if keep then decide (i < 32) && old.getLsbD i else false) := by
  have hs : i < lo ∨ w ≤ i - lo := by omega
  cases keep
  · rcases hs with h | h <;> simp [loadField, fieldMask, h, Nat.not_lt.2]
  · rcases hs with h | h <;> simp [loadField, fieldMask, h, Nat.not_lt.2, Bool.and_comm]

/-! ### Find bit set -/

/-- No set bit in the range. -/
theorem lowestBit_none (f : BitVec 16) (n i : Nat) (h : ∀ p, i ≤ p → p < i + n → f.getLsbD p = false) : lowestBit f i n = none := by
  induction n generalizing i with
  | zero => rfl
  | succ n ih => simp only [lowestBit, h i (by omega) (by omega)]; exact ih _ (fun p h1 h2 => h p (by omega) (by omega))
/-- The least set bit of the range. -/
theorem lowestBit_some (f : BitVec 16) (p n i : Nat) (hi : i ≤ p) (hp : p < i + n) (h1 : f.getLsbD p = true) (h : ∀ q, q < p → f.getLsbD q = false) : lowestBit f i n = some p := by
  induction n generalizing i with
  | zero => omega
  | succ n ih =>
    by_cases hx : i = p
    · subst hx; simp [lowestBit, h1]
    · simp only [lowestBit, h i (by omega)]; exact ih _ (by omega) (by omega)

/-- A locked result register as a number (R60). -/
theorem bset_toNat (n : BitVec 4) (p : Nat) (hp : p < 16) : (bsetResult n p).toNat = 256 + 16 * n.toNat + p := by
  revert n p
  have : ∀ n : BitVec 4, ∀ p < 16, (bsetResult n p).toNat = 256 + 16 * n.toNat + p := by decide
  exact fun n p h => this n p h

/-- One search (R620): counter, result registers. -/
theorem find_spec (m : Me) (f : Word) (clr : Bool) :
      let r1 : Word := if clr then 0 else m.result1;
      let r2 : Word := if clr then 0 else m.result2;
      let n : BitVec 4 := if clr then 0 else m.fbsCnt;
      let t := m.findStep (f.setWidth 16) clr
      t.fbsCnt = n + 1 ∧
      ((∀ p, p < 16 → f.getLsbD p = false) → t.result1 = r1 ∧ t.result2 = r2) ∧
      (∀ p, p < 16 → f.getLsbD p = true → (∀ q, q < p → f.getLsbD q = false) →
        (r1.getLsbD 8 = false → t.result1.toNat = 256 + 16 * n.toNat + p ∧ t.result2 = r2) ∧
        (r1.getLsbD 8 = true → r2.getLsbD 8 = false →
          t.result1 = r1 ∧ t.result2.toNat = 256 + 16 * n.toNat + p) ∧
        (r1.getLsbD 8 = true → r2.getLsbD 8 = true → t.result1 = r1 ∧ t.result2 = r2)) := by
  intro r1 r2 n t
  refine ⟨?_, ?_, ?_⟩
  · cases clr <;> simp only [t, n, Me.findStep, Bool.false_eq_true, if_false, if_true] <;> split <;>
      first | rfl | (split <;> first | rfl | (split <;> rfl))
  · intro h
    have : lowestBit (f.setWidth 16) 0 16 = none := lowestBit_none _ _ _ (fun p h1 h2 => by simp [h p (by omega)])
    simp only [t, Me.findStep, this]
    cases clr <;> exact ⟨rfl, rfl⟩
  · intro p hp h1 h2
    have : lowestBit (f.setWidth 16) 0 16 = some p := lowestBit_some _ _ _ _ (by omega) (by omega) (by simp [h1, hp]) (fun q h3 => by simp [h2 q h3])
    have hb := bset_toNat n p hp
    refine ⟨fun h => ?_, fun h h' => ?_, fun h h' => ?_⟩
    · have : t = { (if clr then { m with result1 := 0, result2 := 0, fbsCnt := 0 } else m) with fbsCnt := n+1, result1 := bsetResult n p } := by
        simp only [t, Me.findStep, this, locked]
        cases clr <;> simp [r1,n] at h ⊢ <;> simp [h, n]
      rw [this]; refine ⟨hb, ?_⟩; cases clr <;> rfl
    · have : t = { (if clr then { m with result1 := 0, result2 := 0, fbsCnt := 0 } else m) with fbsCnt := n+1, result2 := bsetResult n p } := by
        simp only [t, Me.findStep, this, locked]
        cases clr <;> simp [r1,r2,n] at h h' ⊢ <;> simp [h, n, h']
      rw [this]; refine ⟨?_, hb⟩; cases clr <;> rfl
    · have : t = { (if clr then { m with result1 := 0, result2 := 0, fbsCnt := 0 } else m) with fbsCnt := n+1 } := by
        simp only [t, Me.findStep, this, locked]
        cases clr <;> simp [r1,r2,n] at h h' ⊢ <;> simp [h, n, h']
      rw [this]; refine ⟨?_, ?_⟩ <;> cases clr <;> rfl

/-- A search changes nothing but the result registers and the counter. -/
theorem findStep_rest (m : Me) (f : BitVec 16) (clr : Bool) : m.findStep f clr = { m with result1 := (m.findStep f clr).result1, result2 := (m.findStep f clr).result2, fbsCnt := (m.findStep f clr).fbsCnt } := by
  cases clr <;> simp only [Me.findStep, Bool.false_eq_true, if_false, if_true] <;> split <;>
    first | rfl | (split <;> first | rfl | (split <;> rfl))

end Sys2Proof.Machine
end

