-- ==== Sys2Proof/Laws/PerInstr.lean ====
section
/-! SUPPORT. For each instruction of the opcode table: where it has an opcode byte of the Ready Bus sequencer, that byte
decodes to it. -/

namespace Sys2Proof.Laws.SeqRoundTrip

/-- The opcode byte of an instruction, where it has one, decodes to that instruction (R430, R703). -/
def Statement : Instr → Prop := fun i => ∀ b, encodeSeq i = some b → decodeSeq b = some i

theorem alu (dest : Dest) (a : Src) (op : AluOp) (b : Src) : Statement (.alu dest a op b) := by intro w h; cases h
theorem aluShf (dest : Dest) (a : Src) (op : AluOp) (b : Src) (shf : Shf) : Statement (.aluShf dest a op b shf) := by intro w h; cases h
theorem dblShf (dest : Dest) (a : Src) (b : Src) (shf : Shf) : Statement (.dblShf dest a b shf) := by intro w h; cases h
theorem br (label : Label) (tok : BrTok) : Statement (.br label tok) := by intro w h; cases h
theorem brEq0 (label : Label) (tok : BrTok) : Statement (.brEq0 label tok) := by intro w h; cases h
theorem brNe0 (label : Label) (tok : BrTok) : Statement (.brNe0 label tok) := by intro w h; cases h
theorem brGt0 (label : Label) (tok : BrTok) : Statement (.brGt0 label tok) := by intro w h; cases h
theorem brGe0 (label : Label) (tok : BrTok) : Statement (.brGe0 label tok) := by intro w h; cases h
theorem brLt0 (label : Label) (tok : BrTok) : Statement (.brLt0 label tok) := by intro w h; cases h
theorem brLe0 (label : Label) (tok : BrTok) : Statement (.brLe0 label tok) := by intro w h; cases h
theorem brCout (label : Label) (tok : BrTok) : Statement (.brCout label tok) := by intro w h; cases h
theorem brNotCout (label : Label) (tok : BrTok) : Statement (.brNotCout label tok) := by intro w h; cases h
theorem brBset (reg : Src) (pos : BitVec 5) (label : Label) (tok : BrTok) : Statement (.brBset reg pos label tok) := by intro w h; cases h
theorem brBclr (reg : Src) (pos : BitVec 5) (label : Label) (tok : BrTok) : Statement (.brBclr reg pos label tok) := by intro w h; cases h
theorem brEqByte (reg : Src) (byteSpec : Fin 4) (value : Byte) (label : Label) (tok : BrTok) : Statement (.brEqByte reg byteSpec value label tok) := by intro w h; cases h
theorem brNeByte (reg : Src) (byteSpec : Fin 4) (value : Byte) (label : Label) (tok : BrTok) : Statement (.brNeByte reg byteSpec value label tok) := by intro w h; cases h
theorem brEqCtx (ctx : Fin 4) (label : Label) (tok : BrTok) : Statement (.brEqCtx ctx label tok) := by intro w h; cases h
theorem brNeCtx (ctx : Fin 4) (label : Label) (tok : BrTok) : Statement (.brNeCtx ctx label tok) := by intro w h; cases h
theorem brInpState (st : InpState) (label : Label) (tok : BrTok) : Statement (.brInpState st label tok) := by intro w h; cases h
theorem brNotSignal (e : SigEvent) (label : Label) (tok : BrTok) : Statement (.brNotSignal e label tok) := by intro w h; cases h
theorem jump (reg : Src) (label : Label) (tok : BrTok) : Statement (.jump reg label tok) := by intro w h; cases h
theorem rtn (reg : Src) (tok : BrTok) : Statement (.rtn reg tok) := by intro w h; cases h
theorem csr (rw : RW) (x : Xfer) (reg : FbiCsr) (cnt : Nat) (tok : RefTok) : Statement (.csr rw x reg cnt tok) := by intro w h; cases h
theorem fastWr (imm : BitVec 10) (reg : FastReg) (indirect : Bool) : Statement (.fastWr imm reg indirect) := by intro w h; cases h
theorem localCsrRd (reg : LocalCsr) : Statement (.localCsrRd reg) := by intro w h; cases h
theorem localCsrWr (reg : LocalCsr) (src : Gpr) : Statement (.localCsrWr reg src) := by intro w h; cases h
theorem rFifoRd (x : Xfer) (op1 op2 : Src) (cnt : Nat) (tok : RefTok) : Statement (.rFifoRd x op1 op2 cnt tok) := by intro w h; cases h
theorem pciDma (x : Xfer) (orderQueue : Bool) (tok : RefTok) : Statement (.pciDma x orderQueue tok) := by intro w h; cases h
theorem scratch (cmd : ScratchCmd) (op1 op2 : Src) (tok : RefTok) : Statement (.scratch cmd op1 op2 tok) := by intro w h; cases h
theorem sdram (cmd : SdramCmd) (a1 a2 : Src) (queue : SdramQueue) (chain : Bool) (tok : RefTok) : Statement (.sdram cmd a1 a2 queue chain tok) := by intro w h; cases h
theorem sram (cmd : SramCmd) (a1 a2 : Src) (queue : SramQueue) (tok : RefTok) : Statement (.sram cmd a1 a2 queue tok) := by intro w h; cases h
theorem tFifoWr (x : Xfer) (op1 op2 : Src) (cnt : Nat) (tok : RefTok) : Statement (.tFifoWr x op1 op2 cnt tok) := by intro w h; cases h
theorem findBset (src : Src) (shf : Shf) (clr : Bool) : Statement (.findBset src shf clr) := by intro w h; cases h
theorem findBsetWithMask (mask : Src) (src : Src) (shf : Shf) (clr : Bool) : Statement (.findBsetWithMask mask src shf clr) := by intro w h; cases h
theorem immed (dest : Dest) (value : Int) (shift : Nat) : Statement (.immed dest value shift) := by intro w h; cases h
theorem immedB0 (dest : Dest) (value : Byte) : Statement (.immedB0 dest value) := by intro w h; cases h
theorem immedB1 (dest : Dest) (value : Byte) : Statement (.immedB1 dest value) := by intro w h; cases h
theorem immedB2 (dest : Dest) (value : Byte) : Statement (.immedB2 dest value) := by intro w h; cases h
theorem immedB3 (dest : Dest) (value : Byte) : Statement (.immedB3 dest value) := by intro w h; cases h
theorem immedW0 (dest : Dest) (value : BitVec 16) : Statement (.immedW0 dest value) := by intro w h; cases h
theorem immedW1 (dest : Dest) (value : BitVec 16) : Statement (.immedW1 dest value) := by intro w h; cases h
theorem ldField (dest : Dest) (mask : BitVec 4) (src : Src) (shf : Shf) : Statement (.ldField dest mask src shf) := by intro w h; cases h
theorem ldFieldWClr (dest : Dest) (mask : BitVec 4) (src : Src) (shf : Shf) : Statement (.ldFieldWClr dest mask src shf) := by intro w h; cases h
theorem loadAddr (dest : Dest) (label : Label) : Statement (.loadAddr dest label) := by intro w h; cases h
theorem loadBsetResult1 (dest : Dest) : Statement (.loadBsetResult1 dest) := by intro w h; cases h
theorem loadBsetResult2 (dest : Dest) : Statement (.loadBsetResult2 dest) := by intro w h; cases h
theorem ctxArb (ev : CtxEvent) (defer1 : Bool) : Statement (.ctxArb ev defer1) := by intro w h; cases h
theorem nop : Statement .nop := by intro b h; cases h
theorem hash1x48 (x : Xfer) (tok : RefTok) : Statement (.hash1x48 x tok) := by intro w h; cases h
theorem hash2x48 (x : Xfer) (tok : RefTok) : Statement (.hash2x48 x tok) := by intro w h; cases h
theorem hash3x48 (x : Xfer) (tok : RefTok) : Statement (.hash3x48 x tok) := by intro w h; cases h
theorem hash1x64 (x : Xfer) (tok : RefTok) : Statement (.hash1x64 x tok) := by intro w h; cases h
theorem hash2x64 (x : Xfer) (tok : RefTok) : Statement (.hash2x64 x tok) := by intro w h; cases h
theorem hash3x64 (x : Xfer) (tok : RefTok) : Statement (.hash3x64 x tok) := by intro w h; cases h
theorem nop1 : Statement .nop1 := by intro b h; cases h; rfl
theorem nop2 : Statement .nop2 := by intro b h; cases h; rfl
theorem nop3 : Statement .nop3 := by intro b h; cases h; rfl
theorem nop4 : Statement .nop4 := by intro b h; cases h; rfl
theorem nop5 : Statement .nop5 := by intro b h; cases h; rfl
theorem nop6 : Statement .nop6 := by intro b h; cases h; rfl
theorem nop7 : Statement .nop7 := by intro b h; cases h; rfl
theorem nop8 : Statement .nop8 := by intro b h; cases h; rfl
theorem rxrdy0 : Statement .rxrdy0 := by intro b h; cases h; rfl
theorem rxrdy0to1 : Statement .rxrdy0to1 := by intro b h; cases h; rfl
theorem rxrdy0to2 : Statement .rxrdy0to2 := by intro b h; cases h; rfl
theorem rxrdy0to3 : Statement .rxrdy0to3 := by intro b h; cases h; rfl
theorem rxrdy0to4 : Statement .rxrdy0to4 := by intro b h; cases h; rfl
theorem rxrdy0to5 : Statement .rxrdy0to5 := by intro b h; cases h; rfl
theorem rxrdy0to6 : Statement .rxrdy0to6 := by intro b h; cases h; rfl
theorem rxrdy1 : Statement .rxrdy1 := by intro b h; cases h; rfl
theorem rxrdy1to2 : Statement .rxrdy1to2 := by intro b h; cases h; rfl
theorem rxrdy1to3 : Statement .rxrdy1to3 := by intro b h; cases h; rfl
theorem rxrdy1to4 : Statement .rxrdy1to4 := by intro b h; cases h; rfl
theorem rxrdy1to5 : Statement .rxrdy1to5 := by intro b h; cases h; rfl
theorem rxrdy1to6 : Statement .rxrdy1to6 := by intro b h; cases h; rfl
theorem rxrdy2 : Statement .rxrdy2 := by intro b h; cases h; rfl
theorem rxrdy2to3 : Statement .rxrdy2to3 := by intro b h; cases h; rfl
theorem rxrdy2to4 : Statement .rxrdy2to4 := by intro b h; cases h; rfl
theorem rxrdy2to5 : Statement .rxrdy2to5 := by intro b h; cases h; rfl
theorem rxrdy2to6 : Statement .rxrdy2to6 := by intro b h; cases h; rfl
theorem rxrdy3 : Statement .rxrdy3 := by intro b h; cases h; rfl
theorem rxrdy3to4 : Statement .rxrdy3to4 := by intro b h; cases h; rfl
theorem rxrdy3to5 : Statement .rxrdy3to5 := by intro b h; cases h; rfl
theorem rxrdy3to6 : Statement .rxrdy3to6 := by intro b h; cases h; rfl
theorem rxrdy4 : Statement .rxrdy4 := by intro b h; cases h; rfl
theorem rxrdy4to5 : Statement .rxrdy4to5 := by intro b h; cases h; rfl
theorem rxrdy4to6 : Statement .rxrdy4to6 := by intro b h; cases h; rfl
theorem rxrdy5 : Statement .rxrdy5 := by intro b h; cases h; rfl
theorem rxrdy5to6 : Statement .rxrdy5to6 := by intro b h; cases h; rfl
theorem rxrdy6 : Statement .rxrdy6 := by intro b h; cases h; rfl
theorem txrdy0 : Statement .txrdy0 := by intro b h; cases h; rfl
theorem txrdy0to1 : Statement .txrdy0to1 := by intro b h; cases h; rfl
theorem txrdy0to2 : Statement .txrdy0to2 := by intro b h; cases h; rfl
theorem txrdy0to3 : Statement .txrdy0to3 := by intro b h; cases h; rfl
theorem txrdy0to4 : Statement .txrdy0to4 := by intro b h; cases h; rfl
theorem txrdy0to5 : Statement .txrdy0to5 := by intro b h; cases h; rfl
theorem txrdy0to6 : Statement .txrdy0to6 := by intro b h; cases h; rfl
theorem txrdy1 : Statement .txrdy1 := by intro b h; cases h; rfl
theorem txrdy1to2 : Statement .txrdy1to2 := by intro b h; cases h; rfl
theorem txrdy1to3 : Statement .txrdy1to3 := by intro b h; cases h; rfl
theorem txrdy1to4 : Statement .txrdy1to4 := by intro b h; cases h; rfl
theorem txrdy1to5 : Statement .txrdy1to5 := by intro b h; cases h; rfl
theorem txrdy1to6 : Statement .txrdy1to6 := by intro b h; cases h; rfl
theorem txrdy2 : Statement .txrdy2 := by intro b h; cases h; rfl
theorem txrdy2to3 : Statement .txrdy2to3 := by intro b h; cases h; rfl
theorem txrdy2to4 : Statement .txrdy2to4 := by intro b h; cases h; rfl
theorem txrdy2to5 : Statement .txrdy2to5 := by intro b h; cases h; rfl
theorem txrdy2to6 : Statement .txrdy2to6 := by intro b h; cases h; rfl
theorem txrdy3 : Statement .txrdy3 := by intro b h; cases h; rfl
theorem txrdy3to4 : Statement .txrdy3to4 := by intro b h; cases h; rfl
theorem txrdy3to5 : Statement .txrdy3to5 := by intro b h; cases h; rfl
theorem txrdy3to6 : Statement .txrdy3to6 := by intro b h; cases h; rfl
theorem txrdy4 : Statement .txrdy4 := by intro b h; cases h; rfl
theorem txrdy4to5 : Statement .txrdy4to5 := by intro b h; cases h; rfl
theorem txrdy4to6 : Statement .txrdy4to6 := by intro b h; cases h; rfl
theorem txrdy5 : Statement .txrdy5 := by intro b h; cases h; rfl
theorem txrdy5to6 : Statement .txrdy5to6 := by intro b h; cases h; rfl
theorem txrdy6 : Statement .txrdy6 := by intro b h; cases h; rfl
theorem rxAutopush : Statement .rxAutopush := by intro b h; cases h; rfl
theorem txAutopush : Statement .txAutopush := by intro b h; cases h; rfl
theorem flwctl : Statement .flwctl := by intro b h; cases h; rfl
theorem get1x1 : Statement .get1x1 := by intro b h; cases h; rfl
theorem get1x2 : Statement .get1x2 := by intro b h; cases h; rfl
theorem get1x3 : Statement .get1x3 := by intro b h; cases h; rfl
theorem get1x4 : Statement .get1x4 := by intro b h; cases h; rfl
theorem get1x5 : Statement .get1x5 := by intro b h; cases h; rfl
theorem get1x6 : Statement .get1x6 := by intro b h; cases h; rfl
theorem get1x7 : Statement .get1x7 := by intro b h; cases h; rfl
theorem get1x8 : Statement .get1x8 := by intro b h; cases h; rfl
theorem get2x1 : Statement .get2x1 := by intro b h; cases h; rfl
theorem get2x2 : Statement .get2x2 := by intro b h; cases h; rfl
theorem get2x3 : Statement .get2x3 := by intro b h; cases h; rfl
theorem get2x4 : Statement .get2x4 := by intro b h; cases h; rfl
theorem get2x5 : Statement .get2x5 := by intro b h; cases h; rfl
theorem get2x6 : Statement .get2x6 := by intro b h; cases h; rfl
theorem get2x7 : Statement .get2x7 := by intro b h; cases h; rfl
theorem get2x8 : Statement .get2x8 := by intro b h; cases h; rfl
theorem sendx1 : Statement .sendx1 := by intro b h; cases h; rfl
theorem sendx2 : Statement .sendx2 := by intro b h; cases h; rfl
theorem sendx3 : Statement .sendx3 := by intro b h; cases h; rfl
theorem sendx4 : Statement .sendx4 := by intro b h; cases h; rfl
theorem sendx5 : Statement .sendx5 := by intro b h; cases h; rfl
theorem sendx6 : Statement .sendx6 := by intro b h; cases h; rfl
theorem sendx7 : Statement .sendx7 := by intro b h; cases h; rfl
theorem sendx8 : Statement .sendx8 := by intro b h; cases h; rfl

end Sys2Proof.Laws.SeqRoundTrip
end

