-- ==== Sys2Proof/Laws/ReadyBus.lean ====
section
/-! SUPPORT. The shared operations of the Ready Bus sequencer. -/

namespace Sys2Proof.Machine

/-- One MAC's flags put into a HI:LO pair. -/
theorem putReady_byte (hi lo : Word) (m k : Fin 7) (b : Byte) :
    readyByte (putReady hi lo m b).1 (putReady hi lo m b).2 k = if k = m then b else readyByte hi lo k := by
  have join : ∀ w : BitVec 64, (quadHigh w ++ quadLow w : BitVec 64) = w := by
    intro w
    apply BitVec.eq_of_getLsbD_eq
    intro i hi
    simp only [quadHigh, quadLow, BitVec.getLsbD_append, BitVec.getLsbD_setWidth, BitVec.getLsbD_extractLsb']
    by_cases h : i < 32
    · simp [h]
    · simp [h, show i - 32 < 32 by omega, show 32 + (i - 32) = i by omega]
  simp only [readyByte, putReady, join]
  apply BitVec.eq_of_getLsbD_eq
  intro i hi
  split
  · rename_i h; subst h
    simp [hi, show 8 * k.val + i < 64 by omega]
    simp [show (255#64).getLsbD i = true by revert i; decide]
  · rename_i h
    have hne : k.val ≠ m.val := fun e => h (Fin.ext e)
    simp [BitVec.getLsbD_extractLsb', hi, show 8 * k.val + i < 64 by omega]
    rcases Nat.lt_or_gt_of_ne hne with h1 | h1
    · simp [show 8 * k.val + i < 8 * m.val by omega]
    · have h2 : ∀ j, 8 ≤ j → (255#64).getLsbD j = false := by
        intro j hj
        rw [BitVec.getLsbD_ofNat]
        have : (255 : Nat).testBit j = false :=
          Nat.testBit_lt_two_pow (lt_of_lt_of_le (by norm_num : 255 < 2 ^ 8) (Nat.pow_le_pow_right (by norm_num) hj))
        simp [this]
      simp [show ¬ (8 * k.val + i < 8 * m.val) by omega, BitVec.getLsbD_of_ge b (8 * k.val + i - 8 * m.val) (by omega)]
      intro _
      have h3 := h2 (8 * k.val + i - 8 * m.val) (by omega)
      rwa [BitVec.getLsbD_eq_getElem (by omega)] at h3

/-- The flags of MACs `m` to `m + n - 1` collected (R706, R707). -/
theorem collect_byte (fl : Vector Byte 7) (n m : Nat) (p : Word × Word) (k : Fin 7) :
    readyByte (collect fl m n p).1 (collect fl m n p).2 k = if m ≤ k.val ∧ k.val < m + n then fl[k] else readyByte p.1 p.2 k := by
  induction n generalizing m p with
  | zero =>
    simp only [collect]
    rw [if_neg (by omega)]
  | succ n ih =>
    simp only [collect, ih]
    by_cases hm : m < 7
    · simp only [hm, dif_pos, putReady_byte]
      by_cases h1 : k.val = m
      · subst h1; simp
      · have : k ≠ ⟨m, hm⟩ := fun e => h1 (by rw [e])
        simp only [this, if_false]
        congr 1
        simp; omega
    · have hk := k.isLt
      simp only [hm, dif_neg, not_false_eq_true]
      rw [if_neg (by omega), if_neg (by omega)]

/-! ### Where an instruction finds and leaves the sequencer -/

@[simp] theorem seqBegin_seqPos (f : Fbi) : f.seqBegin.seqPos = f.seqPos := by
  unfold Fbi.seqBegin; dsimp only; split <;> rfl
@[simp] theorem seqBegin_seqWait (f : Fbi) : f.seqBegin.seqWait = (decide (f.seqPos ≠ 0) && f.seqWait) := by
  unfold Fbi.seqBegin; dsimp only
  split <;> rename_i h <;> simp only [h, ne_eq, not_true_eq_false, not_false_eq_true, decide_false, decide_true,
    Bool.false_and, Bool.true_and]
@[simp] theorem seqBegin_seqTime (f : Fbi) : f.seqBegin.seqTime = if f.seqPos = 0 then 0 else f.seqTime := by
  unfold Fbi.seqBegin; dsimp only; split <;> rfl
@[simp] theorem seqBegin_seqExpired (f : Fbi) :
    f.seqBegin.seqExpired = (decide (f.seqPos ≠ 0) && f.seqExpired) := by
  unfold Fbi.seqBegin; dsimp only
  split <;> rename_i h <;> simp only [h, ne_eq, not_true_eq_false, not_false_eq_true, decide_false, decide_true,
    Bool.false_and, Bool.true_and]
@[simp] theorem seqNext_seqPos (f : Fbi) (n : Nat) :
    (f.seqNext n).seqPos = if f.seqPos = 11 then 0 else f.seqPos + 1 := by
  unfold Fbi.seqNext; dsimp only; split <;> rfl
@[simp] theorem seqNext_seqWait (f : Fbi) (n : Nat) :
    (f.seqNext n).seqWait = if f.seqPos = 11 then true else f.seqWait := by
  unfold Fbi.seqNext; dsimp only; split <;> rfl
@[simp] theorem seqNext_seqTime (f : Fbi) (n : Nat) : (f.seqNext n).seqTime = f.seqTime + n := by
  unfold Fbi.seqNext; dsimp only; split <;> rfl
@[simp] theorem seqNext_seqExpired (f : Fbi) (n : Nat) : (f.seqNext n).seqExpired = f.seqExpired := by
  unfold Fbi.seqNext; dsimp only; split <;> rfl

/-- How every sequencer instruction moves the sequencer (R700, R704): its effect `g` leaves position, pass and rate timer
alone, its `n` cycles count. -/
theorem seqRun_moved (s : State) (n : Nat) (g : Fbi → Fbi)
    (hg : ∀ f, (g f).seqPos = f.seqPos ∧ (g f).seqWait = f.seqWait ∧ (g f).seqTime = f.seqTime ∧
      (g f).seqExpired = f.seqExpired) :
    seqMoved n s.fbi (s.seqRun n g).fbi := by
  obtain ⟨h1, h2, h3, h4⟩ := hg s.fbi.seqBegin
  simp only [seqMoved, State.seqRun_fbi, seqNext_seqPos, seqNext_seqWait, seqNext_seqTime, seqNext_seqExpired, h1, h2,
    h3, h4, seqBegin_seqPos, seqBegin_seqWait, seqBegin_seqTime, seqBegin_seqExpired]
  refine ⟨?_, trivial, trivial⟩
  by_cases h : s.fbi.seqPos = 11 <;> simp [h]

/-- The sequencer runs exactly when it is enabled and master and is not waiting for the rate timer (R700). -/
theorem seqRuns_iff (f : Fbi) :
    f.seqRuns = true ↔ f.seqEnable = true ∧ f.seqSlave = false ∧
      ¬ (f.seqWait = true ∧ f.seqTime < f.synchCount.toNat ∧ f.seqExpired = false) := by
  unfold Fbi.seqRuns Fbi.seqWaits
  cases f.seqEnable <;> cases f.seqSlave <;> cases f.seqWait <;> cases f.seqExpired <;> simp

end Sys2Proof.Machine
end

