-- ==== Sys2Proof/Laws/Units.lean ====
section
/-! SUPPORT. What the units' shared operations can do, each said once: the transfer register files, reading words of a
memory, a signal, the completion of a command, and what an event leaves besides its own act. -/

namespace Sys2Proof.Machine

/-! ### Transfer register files -/

theorem fileSets_get (vs : List Word) : ∀ (f : Vector Word 32) (x : Nat) (r : Fin 32),
    (fileSets f x vs)[r] = if h : x ≤ r.val ∧ r.val < x + vs.length then vs[r.val - x]'(by omega) else f[r] := by
  induction vs with
  | nil => intro f x r; rw [dif_neg (by simp)]; rfl
  | cons v vs ih =>
    intro f x r
    rw [fileSets, ih]
    simp only [List.length_cons]
    split
    · rename_i h
      rw [dif_pos (by omega)]
      have : r.val - x = (r.val - (x + 1)) + 1 := by omega
      simp [this]
    · rename_i h
      by_cases hx : x = r.val
      · rw [dif_pos (by omega)]; simp [fileSet, hx]
      · rw [dif_neg (by omega)]; simp [fileSet, hx]

/-- A file into which the words `ws` were pushed holds them from `x` on, and nothing else changed. -/
theorem fileHolds_fileSets (f : Vector Word 32) (x n : Nat) (v : Nat → Option Word) (ws : List Word)
    (hl : ws.length = n) (h : ∀ i (hi : i < ws.length), v i = some ws[i]) : fileHolds f (fileSets f x ws) x n v := by
  subst hl
  refine ⟨fun r h1 h2 => ?_, fun r h' => ?_⟩
  · rw [fileSets_get, dif_pos ⟨h1, h2⟩]; exact h _ _
  · rw [fileSets_get, dif_neg (by omega)]

@[simp] theorem fileGets_length (f : Vector Word 32) (x n : Nat) : (fileGets f x n).length = n := by
  induction n generalizing x with
  | zero => rfl
  | succ n ih => simp [fileGets, ih]

theorem fileGets_get (f : Vector Word 32) : ∀ (n x i : Nat), i < n → x + n ≤ 32 → (fileGets f x n)[i]? = f[x + i]? := by
  intro n
  induction n with
  | zero => intro x i h; omega
  | succ n ih =>
    intro x i h h2
    cases i with
    | zero => simp [fileGets, fileGet, show x < 32 by omega]
    | succ i =>
      simp only [fileGets, List.getElem?_cons_succ]
      rw [ih (x + 1) i (by omega) (by omega)]
      congr 1
      omega

/-! ### Reading -/

/-- A range in which every longword has been written is read whole, longword by longword. -/
theorem Mem.readWords_some (m : Mem) : ∀ (n a : Nat), (∀ i, i < n → (m.readWord (a + i)).isSome = true) →
    ∃ ws, m.readWords a n = some ws ∧ ws.length = n ∧ ∀ i (h : i < ws.length), m.readWord (a + i) = some ws[i] := by
  intro n
  induction n with
  | zero => intro a _; exact ⟨[], rfl, rfl, fun i h => absurd h (by simp)⟩
  | succ n ih =>
    intro a h
    obtain ⟨w, hw⟩ := Option.isSome_iff_exists.1 (h 0 (by omega))
    obtain ⟨ws, h1, h2, h3⟩ := ih (a + 1) fun i hi => by
      have := h (i + 1) (by omega)
      rwa [show a + 1 + i = a + (i + 1) by omega]
    refine ⟨w :: ws, ?_, by simp [h2], ?_⟩
    · simp only [Nat.add_zero] at hw
      simp [Mem.readWords, hw, h1]
    · intro i hi
      cases i with
      | zero => simpa using hw
      | succ i =>
        have := h3 i (by simpa using hi)
        rw [show a + 1 + i = a + (i + 1) by omega] at this
        simpa using this

/-- A range in which every quadword has been written is read whole, quadword by quadword. -/
theorem Mem.readQuads_some (m : Mem) : ∀ (n a : Nat), (∀ i, i < n → (m.readQuad (a + i)).isSome = true) →
    ∃ qs, m.readQuads a n = some qs ∧ qs.length = n ∧ ∀ i (h : i < qs.length), m.readQuad (a + i) = some qs[i] := by
  intro n
  induction n with
  | zero => intro a _; exact ⟨[], rfl, rfl, fun i h => absurd h (by simp)⟩
  | succ n ih =>
    intro a h
    obtain ⟨w, hw⟩ := Option.isSome_iff_exists.1 (h 0 (by omega))
    obtain ⟨ws, h1, h2, h3⟩ := ih (a + 1) fun i hi => by
      have := h (i + 1) (by omega)
      rwa [show a + 1 + i = a + (i + 1) by omega]
    refine ⟨w :: ws, ?_, by simp [h2], ?_⟩
    · simp only [Nat.add_zero] at hw
      simp [Mem.readQuads, hw, h1]
    · intro i hi
      cases i with
      | zero => simpa using hw
      | succ i =>
        have := h3 i (by simpa using hi)
        rw [show a + 1 + i = a + (i + 1) by omega] at this
        simpa using this

/-! ### Signals and completion -/

/-- A raised event is set and no longer pending; every other flag of every context stays (R75, R78). -/
theorem Me.raise_spec (m : Me) (c : Fin 4) (e : SigEvent) (k : Fin 4) (f : SigEvent) :
    ((m.raise c e).sigEvents[k].getLsbD (sigBit f) = (m.sigEvents[k].getLsbD (sigBit f) || decide (k = c ∧ f = e))) ∧
    ((m.raise c e).pending[k].getLsbD (sigBit f) = (m.pending[k].getLsbD (sigBit f) && !decide (k = c ∧ f = e))) := by
  have hm : (sigMask e).getLsbD (sigBit f) = decide (f = e) := by cases e <;> cases f <;> decide
  have hn : (~~~(sigMask e)).getLsbD (sigBit f) = !decide (f = e) := by cases e <;> cases f <;> decide
  by_cases h : k = c
  · subst h
    simp only [Me.raise, Fin.getElem_fin, Vector.getElem_set_self, BitVec.getLsbD_or, BitVec.getLsbD_and, hm, hn,
      true_and, and_self]
  · have : c.val ≠ k.val := fun h' => h (Fin.ext h'.symm)
    simp [Me.raise, this, h]

/-- A completion touches the microengines alone. -/
theorem State.completed_eq (s : State) (c : Cmd) : s.completed c = { s with mes := (s.completed c).mes } := by
  unfold State.completed; split <;> rfl

/-- A completion touches the events and pending marks of a microengine alone. -/
theorem State.completed_me (s : State) (c : Cmd) (k : Fin 6) : (s.completed c).me k =
    { s.me k with sigEvents := ((s.completed c).me k).sigEvents, pending := ((s.completed c).me k).pending } := by
  unfold State.completed
  split
  · by_cases hk : k = c.sigMe
    · subst hk; simp [State.signal, Me.raise]
    · simp only [State.signal]; rw [State.setMe_me_ne _ _ hk]
  · rfl

@[simp] theorem State.completed_gprA (s : State) (c : Cmd) (k : Fin 6) :
    ((s.completed c).me k).gprA = (s.me k).gprA := by rw [State.completed_me]
@[simp] theorem State.completed_gprB (s : State) (c : Cmd) (k : Fin 6) :
    ((s.completed c).me k).gprB = (s.me k).gprB := by rw [State.completed_me]
@[simp] theorem State.completed_sramRd (s : State) (c : Cmd) (k : Fin 6) :
    ((s.completed c).me k).sramRd = (s.me k).sramRd := by rw [State.completed_me]
@[simp] theorem State.completed_sramWr (s : State) (c : Cmd) (k : Fin 6) :
    ((s.completed c).me k).sramWr = (s.me k).sramWr := by rw [State.completed_me]
@[simp] theorem State.completed_sdramRd (s : State) (c : Cmd) (k : Fin 6) :
    ((s.completed c).me k).sdramRd = (s.me k).sdramRd := by rw [State.completed_me]
@[simp] theorem State.completed_sdramWr (s : State) (c : Cmd) (k : Fin 6) :
    ((s.completed c).me k).sdramWr = (s.me k).sdramWr := by rw [State.completed_me]
@[simp] theorem State.completed_cmdFifo (s : State) (c : Cmd) (k : Fin 6) :
    ((s.completed c).me k).cmdFifo = (s.me k).cmdFifo := by rw [State.completed_me]

/-- The events a completion leaves depend only on the events it finds. -/
theorem State.completed_sigEvents (s t : State) (c : Cmd) (h : ∀ k, (t.me k).sigEvents = (s.me k).sigEvents)
    (k : Fin 6) : ((t.completed c).me k).sigEvents = ((s.completed c).me k).sigEvents := by
  unfold State.completed
  split
  · by_cases hk : k = c.sigMe
    · subst hk; simp [State.signal, Me.raise, h]
    · simp only [State.signal]; rw [State.setMe_me_ne _ _ hk, State.setMe_me_ne _ _ hk, h]
  · exact h k

/-- Pushed data reach the SRAM read transfer registers of one microengine alone. -/
theorem State.pushSram_me (s : State) (m : Fin 6) (x : Nat) (ws : List Word) (k : Fin 6) :
    (s.pushSram m x ws).me k = if k = m then { s.me k with sramRd := fileSets (s.me k).sramRd x ws } else s.me k := by
  by_cases hk : k = m
  · subst hk; simp [State.pushSram]
  · simp only [State.pushSram, hk, if_false]; rw [State.setMe_me_ne _ _ hk]

/-- Pushed data reach the SDRAM read transfer registers of one microengine alone. -/
theorem State.pushSdram_me (s : State) (m : Fin 6) (x : Nat) (ws : List Word) (k : Fin 6) :
    (s.pushSdram m x ws).me k = if k = m then { s.me k with sdramRd := fileSets (s.me k).sdramRd x ws } else s.me k := by
  by_cases hk : k = m
  · subst hk; simp [State.pushSdram]
  · simp only [State.pushSdram, hk, if_false]; rw [State.setMe_me_ne _ _ hk]

/-- The requests a completion leaves depend only on those it finds. -/
theorem State.completed_pending (s t : State) (c : Cmd) (h : ∀ k, (t.me k).pending = (s.me k).pending)
    (k : Fin 6) : ((t.completed c).me k).pending = ((s.completed c).me k).pending := by
  unfold State.completed
  split
  · by_cases hk : k = c.sigMe
    · subst hk; simp [State.signal, Me.raise, h]
    · simp only [State.signal]; rw [State.setMe_me_ne _ _ hk, State.setMe_me_ne _ _ hk, h]
  · exact h k

/-- A push into SRAM read transfer registers and the completion after it: all they leave of the microengines. -/
theorem State.pushSram_completed_delivered (s : State) (c : Cmd) (x : Nat) (ws : List Word) :
    sramDelivered s ((s.pushSram c.xfMe x ws).completed c) c := by
  intro k
  have hs := State.completed_sigEvents s (s.pushSram c.xfMe x ws) c (fun k => by rw [State.pushSram_me]; split <;> rfl) k
  have hp := State.completed_pending s (s.pushSram c.xfMe x ws) c (fun k => by rw [State.pushSram_me]; split <;> rfl) k
  refine ⟨?_, fun hk => ?_⟩
  · rw [← hs, ← hp, State.completed_me, State.pushSram_me]; split <;> rfl
  · rw [State.completed_sramRd, State.pushSram_me, if_neg hk]

/-- The same of a push into SDRAM read transfer registers. -/
theorem State.pushSdram_completed_delivered (s : State) (c : Cmd) (x : Nat) (ws : List Word) :
    sdramDelivered s ((s.pushSdram c.xfMe x ws).completed c) c := by
  intro k
  have hs := State.completed_sigEvents s (s.pushSdram c.xfMe x ws) c (fun k => by rw [State.pushSdram_me]; split <;> rfl) k
  have hp := State.completed_pending s (s.pushSdram c.xfMe x ws) c (fun k => by rw [State.pushSdram_me]; split <;> rfl) k
  refine ⟨?_, fun hk => ?_⟩
  · rw [← hs, ← hp, State.completed_me, State.pushSdram_me]; split <;> rfl
  · rw [State.completed_sdramRd, State.pushSdram_me, if_neg hk]

/-! ### Write buffer of the core -/

theorem filterMap_id_length : ∀ bs : List (Option Byte), bs.all (·.isSome) = true → (bs.filterMap id).length = bs.length
  | [], _ => rfl
  | none :: _, h => by simp at h
  | some b :: bs, h => by
    exact congrArg (· + 1) (filterMap_id_length bs (by simpa using h))

/-- A piece of an entry is nothing, or bytes that all have a value in one natural access. -/
theorem wbPiece_spec (a : Nat) (bs : List (Option Byte)) : wbPiece a bs = 0 ∨
    natural a (wbPiece a bs) = true ∧ wbPiece a bs ≤ bs.length ∧ (bs.take (wbPiece a bs)).all (·.isSome) = true := by
  unfold wbPiece
  simp only []
  split_ifs with h h h h
  · simp only [Bool.and_eq_true, decide_eq_true_eq] at h; exact .inr ⟨h.1.1.1, h.1.1.2, h.1.2⟩
  all_goals first
    | exact .inl rfl
    | (simp only [Bool.and_eq_true, decide_eq_true_eq] at h; exact .inr ⟨h.1.1, h.1.2, h.2⟩)

/-- What leaves the write buffer is one natural access (R681, D45), and no entry is added. -/
theorem wbNext_spec (wb : List WbEntry) : (wbNext wb).2.length ≤ wb.length ∧
    ∀ a bs, (wbNext wb).1 = some (a, bs) → natural a bs.length = true := by
  cases wb with
  | nil => exact ⟨le_refl _, fun a bs h => by simp [wbNext] at h⟩
  | cons p rest =>
    simp only [wbNext]
    split
    · rename_i bs left hb
      cases rest with
      | nil => simp [wbBurst] at hb
      | cons q more =>
        simp only [wbBurst] at hb
        split at hb
        · rename_i hc
          simp only [Bool.and_eq_true, beq_iff_eq] at hc
          cases hb
          refine ⟨by simp only [List.length_cons]; omega, fun a bs h => ?_⟩
          cases h
          rw [filterMap_id_length _ hc.2]
          simpa [hc.1.1.1.1.1.2, hc.1.1.1.1.2] using hc.1.1.2
        · cases hb
    · split
      · exact ⟨by simp only [List.length_cons]; omega, fun a bs h => by simp at h⟩
      · rename_i hn
        refine ⟨by split <;> simp only [List.length_cons] <;> omega, fun a bs h => ?_⟩
        cases h
        have hp := (wbPiece_spec (p.addr + (p.bytes.length - (p.bytes.dropWhile (·.isNone)).length))
          (p.bytes.dropWhile (·.isNone))).resolve_left hn
        rw [filterMap_id_length _ hp.2.2, List.length_take, min_eq_left hp.2.1]
        exact hp.1

/-! ### Writes and chains of the SDRAM Unit -/

@[simp] theorem State.drawWords_snd (s : State) (k : Free) (n : Nat) :
    (s.drawWords k n).2 = { s with free := s.free + n } := rfl
@[simp] theorem State.drawWords_length (s : State) (k : Free) (n : Nat) : (s.drawWords k n).1.length = n := by
  simp [State.drawWords]

@[simp] theorem Sdram.store_mem (d : Sdram) (m : Mem) : (d.store m).mem = m := rfl
@[simp] theorem Sdram.store_past (d : Sdram) (m : Mem) : (d.store m).past = d.past.map (d.mem :: ·) := rfl
@[simp] theorem Sdram.windowUsed_mem (d : Sdram) : d.windowUsed.mem = d.mem := rfl
@[simp] theorem Sdram.windowUsed_past (d : Sdram) : d.windowUsed.past = some [] := rfl
@[simp] theorem State.windowRead_sdram (s : State) (k : Nat) : (s.windowRead k).sdram = s.sdram.windowUsed := rfl
@[simp] theorem State.windowRead_free (s : State) (k : Nat) : (s.windowRead k).free = s.free + k := rfl

/-- A store keeps the older contents canonical (R858). -/
theorem Sdram.store_past_wf (d : Sdram) (m : Mem) (hd : d.mem.wf) (h : ∀ p ∈ d.past.getD [], p.wf) :
    ∀ p ∈ (d.store m).past.getD [], p.wf := by
  rw [Sdram.store_past]
  cases hp : d.past with
  | none => simp
  | some ps =>
    rw [hp] at h
    intro p hm
    rcases List.mem_cons.mp hm with rfl | hm
    · exact hd
    · exact h p hm

/-- What a read through the window sees is the array, or one of the contents it had since the core's last access there
(R858, D33). -/
theorem Sdram.seen_mem (d : Sdram) (n : Nat) : d.seen n = d.mem ∨ d.seen n ∈ d.past.getD [] := by
  have h : d.seen n ∈ d.mem :: d.past.getD [] := by
    unfold Sdram.seen
    rw [List.getD_eq_getElem _ _ (Nat.mod_lt _ (by simp))]
    exact List.getElem_mem _
  exact List.mem_cons.mp h

/-- A longword read from the slow port is drawn only where the host offers nothing (R884). -/
theorem State.slowRead_offered (s : State) (x n : Nat) (bs : List Byte) (h : s.env.slow.readBytes x n = some bs) :
    (s.slowRead x n).1 = bs ∧ (s.slowRead x n).2 = { s with free := s.free + n } := by
  refine ⟨?_, rfl⟩
  have key : ∀ (n x k : Nat) (bs : List Byte), s.env.slow.readBytes x n = some bs →
      (List.range' k n).map (fun i => (s.env.slow.read (x + i - k)).getD ((Config.freeWord .slowPort (s.free + i)).setWidth 8))
        = bs := by
    intro n
    induction n with
    | zero => intro x k bs h; simpa [Mem.readBytes] using h
    | succ n ih =>
      intro x k bs h
      simp only [Mem.readBytes] at h
      cases hr : s.env.slow.read x with
      | none => simp [hr] at h
      | some b =>
        cases hrs : s.env.slow.readBytes (x + 1) n with
        | none => simp [hr, hrs] at h
        | some rest =>
          simp [hr, hrs] at h
          subst h
          rw [List.range'_succ, List.map_cons, Nat.add_sub_cancel, hr, Option.getD_some]
          congr 1
          have := ih (x + 1) (k + 1) rest hrs
          rw [← this]
          apply List.map_congr_left
          intro i hi
          have : k + 1 ≤ i := (List.mem_range'_1.mp hi).1
          rw [show x + 1 + i - (k + 1) = x + i - k by omega]
  simpa [State.slowRead, List.range_eq_range'] using key n x 0 bs h

/-- A write of quadwords by a microengine changes the array alone, which stays canonical, and may draw free values
(R843, R849). -/
theorem State.sdramPut_eq (s : State) (a : Nat) (qs : List Quad) (mask : Option Byte) :
    ∃ (mem : Mem) (n : Nat), s.sdramPut a qs mask = { s with sdram := s.sdram.store mem, free := n } ∧
      s.free ≤ n ∧ (s.sdram.mem.wf → mem.wf) := by
  match mask, qs with
  | none, qs => exact ⟨_, s.free, rfl, Nat.le_refl _, Mem.writeQuads_wf _ _⟩
  | some m, [q] => exact ⟨_, s.free, rfl, Nat.le_refl _, Mem.writeMasked_wf _ _ _⟩
  | some m, [] => exact ⟨_, s.free + 0, rfl, Nat.le_refl _, Mem.writeQuads_wf _ _⟩
  | some m, q :: r :: qs =>
    exact ⟨_, s.free + 2 * (q :: r :: qs).length, rfl, Nat.le_add_right _ _, Mem.writeQuads_wf _ _⟩

/-- Beginning, continuing and ending chains, and keeping a residue, touch the list of chains alone (R844, R851). -/
theorem Sdram.joinChain_eq (d : Sdram) (c : Cmd) (q : UnitQueue) :
    d.joinChain c q = { d with chains := (d.joinChain c q).chains } := by
  unfold Sdram.joinChain; split
  · rfl
  · split <;> rfl
theorem Sdram.endChains_eq (d : Sdram) : d.endChains = { d with chains := d.endChains.chains } := rfl
theorem Sdram.keepResidue_eq (d : Sdram) (c : Cmd) (r : Option Residue) :
    d.keepResidue c r = { d with chains := (d.keepResidue c r).chains } := rfl

/-- A command that enters lengthens its own queue by one; the other queues, the array and the posted writes stay (R845). -/
theorem Sdram.enqueue_lengths (d : Sdram) (c : Cmd) :
    (d.enqueue c).oddQ.length = d.oddQ.length + (if c.queue = .sdramOdd then 1 else 0) ∧
    (d.enqueue c).evenQ.length = d.evenQ.length + (if c.queue = .sdramEven then 1 else 0) ∧
    (d.enqueue c).prioQ.length = d.prioQ.length + (if c.queue = .sdramPrio then 1 else 0) ∧
    (d.enqueue c).orderQ.length ≤ d.orderQ.length + 1 ∧
    (d.enqueue c).mem = d.mem ∧ (d.enqueue c).posted = d.posted := by
  unfold Sdram.enqueue Sdram.setQueue Sdram.queue
  cases c.queue <;> simp

/-! ### Write buffer -/

/-- A piece of a write buffer entry is none, or one natural access of bytes that all have a value (R681, D45). -/
theorem wbPiece_natural (addr : Nat) (bs : List (Option Byte)) : wbPiece addr bs = 0 ∨
    (natural addr (wbPiece addr bs) = true ∧ wbPiece addr bs ≤ bs.length ∧
      (bs.take (wbPiece addr bs)).all (·.isSome) = true) := by
  unfold wbPiece
  simp only []
  split
  · rename_i h; simp only [Bool.and_eq_true, decide_eq_true_eq] at h; exact .inr ⟨h.1.1.1, h.1.1.2, h.1.2⟩
  · repeat' split
    all_goals first | exact .inl rfl | (rename_i h; simp only [Bool.and_eq_true, decide_eq_true_eq] at h; exact .inr ⟨h.1.1, h.1.2, h.2⟩)

/-- An entry whose first byte has a value is written further at each drain (R681). -/
theorem wbPiece_pos (addr : Nat) (b : Byte) (bs : List (Option Byte)) : wbPiece addr (some b :: bs) ≠ 0 := by
  unfold wbPiece
  simp [natural]
  repeat' split
  all_goals simp

/-! ### The PCI bus and the SRAM Unit's turn -/

/-- An access the PCI Unit has made moves the SDRAM Unit's turn and its chained bit alone, and takes one draw (R841,
R844). -/
theorem State.pciServed_eq (s : State) (x n : Nat) : s.pciServed x n = { s with
    sdram := { s.sdram.granted .pci (x / 8) with pciChain := (s.pciServed x n).sdram.pciChain }, free := s.free + 1 } := rfl

/-- A wait of the core touches the PCI Unit's arbiter alone (R946). -/
theorem State.noteWait_eq (s : State) (w : Wait) :
    s.noteWait w = s.withPci { s.pci with coreReq := (s.noteWait w).pci.coreReq, arbLast := (s.noteWait w).pci.arbLast } := by
  cases w <;> rfl

/-- A master that never asserted frame_l touches the PCI Unit's arbiter alone (R946). -/
theorem State.pciNoFrame_eq (s : State) : s.pciNoFrame = s.withPci { s.pci with arbMuted := s.pciNoFrame.pci.arbMuted } := by
  unfold State.pciNoFrame; split <;> rfl

@[simp] theorem Sram.turn_mem (r : Sram) (k : SramSide) : (r.turn k).mem = r.mem := by unfold Sram.turn; split <;> rfl
@[simp] theorem Sram.turn_boot (r : Sram) (k : SramSide) : (r.turn k).boot = r.boot := by unfold Sram.turn; split <;> rfl
@[simp] theorem Sram.turn_cam (r : Sram) (k : SramSide) : (r.turn k).cam = r.cam := by unfold Sram.turn; split <;> rfl
@[simp] theorem Sram.turn_lockFail (r : Sram) (k : SramSide) : (r.turn k).lockFail = r.lockFail := by
  unfold Sram.turn; split <;> rfl
@[simp] theorem Sram.turn_posted (r : Sram) (k : SramSide) : (r.turn k).posted = r.posted := by
  unfold Sram.turn; split <;> rfl

/-- A read by the core touches the row of Table 8-5 alone (R902). -/
theorem State.sramHasRead_eq (s : State) (w : SramWindow) : s.sramHasRead w =
    s.withSram { s.sram with side := (s.sramHasRead w).sram.side, served := (s.sramHasRead w).sram.served } := by
  unfold State.sramHasRead Sram.turn
  split
  · split <;> rfl
  · rfl

@[simp] theorem Pci.queueWrite_inbound (p : Pci) (e : Inbound) : (p.queueWrite e).inbound = p.inbound ++ [e] := rfl
@[simp] theorem Pci.queueWrite_latch (p : Pci) (e : Inbound) :
    (p.queueWrite e).latch = p.latch.map fun l => { l with noStream := true } := rfl

/-! ### Reads of the core that wait (R1007) -/

@[simp] theorem State.keepRead_readSoFar (s : State) (bs : List Byte) : (s.keepRead bs).arm.readSoFar = bs := rfl
@[simp] theorem State.keepRead_pci (s : State) (bs : List Byte) : (s.keepRead bs).pci = s.pci := rfl
@[simp] theorem State.keepRead_outputs (s : State) (bs : List Byte) : (s.keepRead bs).outputs = s.outputs := rfl
@[simp] theorem State.rbPut_rb (s : State) (k : Fin 4) (e : Option ReadBuf) (q : List (Fin 4)) :
    (s.rbPut k e q).arm.rb = s.arm.rb.set k e := rfl
@[simp] theorem State.rbPut_rbQueue (s : State) (k : Fin 4) (e : Option ReadBuf) (q : List (Fin 4)) :
    (s.rbPut k e q).arm.rbQueue = q := rfl
@[simp] theorem State.rbPut_pci (s : State) (k : Fin 4) (e : Option ReadBuf) (q : List (Fin 4)) :
    (s.rbPut k e q).pci = s.pci := rfl

/-- A flush or an invalidation never takes a fill that is still to come: the entry stays, marked, until the fill is over,
and is then free (R683, R1007). -/
theorem ReadBuf.drop_filling (e : ReadBuf) (h : e.filling = true) : e.drop = some { e with dropped := true } := by
  simp [ReadBuf.drop, h]
theorem ReadBuf.drop_filled (e : ReadBuf) (h : e.filling = false) : e.drop = none := by simp [ReadBuf.drop, h]
theorem ReadBuf.filled_dropped (e : ReadBuf) (bs : List (Option Byte)) (h : e.dropped = true) : e.filled bs = none := by
  simp [ReadBuf.filled, h]
@[simp] theorem Arm.rbFlush_rbQueue (c : Arm) (k : Fin 4) : (c.rbFlush k).rbQueue = c.rbQueue := rfl
@[simp] theorem Arm.rbFlushAll_rbQueue (c : Arm) : c.rbFlushAll.rbQueue = c.rbQueue := rfl

/-- The entry a walk retrieves is found for its address, so that an access that waits does not walk again (R673). -/
theorem entryFor_hits (va : Word) (e : TlbEntry) : entryHits va (entryFor va e) = true := by
  simp [entryHits, entryFor]

/-- What has been read of a block is never read again: it stands before the rest (R1007). -/
theorem State.readLongs_prefix (keep : State → List Byte → State) (n : Nat) : ∀ (s : State) (pa : Nat) (ans : PciTurn)
    (got bs : List Byte) (t : State) (a : PciTurn),
    s.readLongs pa ans keep got n = .ok (.done bs t a) → got <+: bs := by
  induction n with
  | zero =>
    intro s pa ans got bs t a h
    simp only [State.readLongs, Except.ok.injEq, Access.done.injEq] at h
    exact h.1 ▸ List.prefix_rfl
  | succ n ih =>
    intro s pa ans got bs t a h
    unfold State.readLongs at h
    split at h
    · simp only [Except.ok.injEq, Access.done.injEq] at h; exact h.1 ▸ List.prefix_rfl
    · simp at h
    · cases hr : s.armRead pa 4 ans with
      | error e => rw [hr] at h; simp [Access.bind] at h
      | ok r =>
        rw [hr] at h
        cases r with
        | done b s1 a1 => exact (List.prefix_append got b).trans (ih _ _ _ _ _ _ _ h)
        | abort k s1 => simp [Access.bind] at h
        | wait w s1 => simp [Access.bind] at h
        | reset s1 => simp [Access.bind] at h

/-- A fetch that has been answered leaves no fetch in progress; one that waits leaves it as it began (R675, D48). -/
theorem State.armFetch_fetching (s : State) (va : Word) (ans : PciTurn) :
    (∀ w t a, s.armFetch va ans = .ok (.done w t a) → t.arm.fetching = none) ∧
    (∀ w t, s.armFetch va ans = .ok (.wait w t) → t.arm.fetching = some (s.beginFetch va).1) := by
  unfold State.armFetch
  constructor
  · intro w t a h
    dsimp only at h
    split at h
    · simp only [Except.ok.injEq, Access.done.injEq] at h; rw [← h.2.1]; rfl
    · simp at h
    · simp at h
    · next hd _ _ => exact absurd h (hd _ _ _)
  · intro w t h
    dsimp only at h
    split at h
    · simp at h
    · simp at h
    · simp only [Except.ok.injEq, Access.wait.injEq] at h; rw [← h.2]; rfl
    · next hw => exact absurd h (hw _ _)

/-! ### Levels -/

/-- Recording the levels of the pins only adds outputs (R1190). -/
theorem State.noteLevels_eq (s old : State) : ∃ os, s.noteLevels old = { s with outputs := s.outputs ++ os } := by
  unfold State.noteLevels
  simp only [State.emit]
  split <;> split
  · exact ⟨[], by simp⟩
  · exact ⟨_, rfl⟩
  · exact ⟨_, rfl⟩
  · exact ⟨_, by simp only [List.append_assoc]; rfl⟩

end Sys2Proof.Machine
end

