-- ==== Sys2Proof/Tests/Slice0.lean ====
section
/-! SUPPORT. The model's own tests: an ill-formed term for each check of well-formedness, opcode bytes written out bit by
bit, single steps with results from 95_test_vectors.md (the block is named before each group), and for each statement
with hypotheses a state that meets them. -/

namespace Sys2Proof.Tests

open Sys2Proof Sys2Proof.Machine

/-! ### Well-formedness: each check refuses an ill-formed term -/

/-- Operands and tokens the tests share: GPR 0 of bank A, GPR 0 of bank B, GPR 1 of bank A as destination. -/
def srcA : Src := .gpr (.rel .a 0)
def srcB : Src := .gpr (.rel .b 0)
def dst : Dest := .gpr (.rel .a 1)
def x0 : Xfer := .rel 0
def noTok : RefTok := ⟨false, false, false, false⟩
def ok (i : Instr) : Bool := i.wf

theorem test_wf_alu : ok (.alu dst srcA .add srcB) = true := by decide
theorem test_wf_same_bank : ok (.alu dst srcA .add (.gpr (.abs .a 5))) = false := by decide
theorem test_wf_missing_b : ok (.alu dst srcA .add .none) = false := by decide
theorem test_wf_missing_a : ok (.alu dst .none .add srcB) = false ∧ ok (.alu dst .none .b srcB) = true := by decide
theorem test_wf_dbl_rotate : ok (.dblShf dst srcA srcB (.rotLeft 4)) = false := by decide
theorem test_wf_defer : ok (.br 0 ⟨3, false⟩) = true ∧ ok (.brEq0 0 ⟨3, true⟩) = true := by decide
theorem test_wf_guess : ok (.br 0 ⟨0, true⟩) = false ∧ ok (.brEq0 0 ⟨0, true⟩) = true := by decide
theorem test_wf_branch_operand : ok (.brBset (.imm 1) 0 0 ⟨0, false⟩) = false := by decide
/-- R402 and R481: the last word of the 1024 is a target, the next one has no encoding. -/
theorem test_wf_label : (Instr.br 1023 ⟨0, false⟩).wfIn 1024 = true ∧ (Instr.br 1024 ⟨0, false⟩).wfIn 1024 = false ∧
    ok (.br 2047 ⟨0, false⟩) = true ∧ (Instr.loadAddr dst 1024).wfIn 1024 = false ∧
    (Instr.jump srcA 1024 ⟨0, false⟩).wfIn 1024 = false := by decide
theorem test_wf_rtn_operand : ok (.rtn .none ⟨0, false⟩) = false := by decide
theorem test_wf_csr_count : ok (.csr .read x0 .ireg 2 noTok) = false ∧ ok (.csr .read x0 .getCmd 8 noTok) = true := by
  decide
theorem test_wf_csr_indirect : ok (.csr .read x0 .ireg 1 ⟨false, false, false, true⟩) = false := by decide
theorem test_wf_defer_without_swap : ok (.pciDma x0 false ⟨true, false, true, false⟩) = false := by decide
theorem test_wf_local_csr : ok (.localCsrRd .ustoreData) = false ∧ ok (.localCsrWr .aluOutput (.rel .a 0)) = false := by
  decide
theorem test_wf_address : ok (.scratch .incr .none srcB noTok) = false := by decide
theorem test_wf_address_xfer : ok (.rFifoRd x0 (.sram x0) srcB 1 noTok) = false := by decide
theorem test_wf_fifo_count : ok (.tFifoWr x0 srcA srcB 17 noTok) = false ∧ ok (.tFifoWr x0 srcA srcB 0 noTok) = false := by
  decide
theorem test_wf_scratch_count : ok (.scratch (.read x0 9) srcA srcB noTok) = false := by decide
theorem test_wf_sdram_count : ok (.sdram (.write x0 17) srcA srcB .order false noTok) = false := by decide
theorem test_wf_sdram_fifo : ok (.sdram (.tFifoWr 1) srcA srcB .order false noTok) = false := by decide
/-- R546 and R581 give the FIFO forms every queue selector. -/
theorem test_wf_sdram_fifo_queue :
    ok (.sdram (.tFifoWr 1) srcA srcB .priority false ⟨false, false, false, true⟩) = true := by decide
theorem test_wf_sdram_chain : ok (.sdram (.read x0 1) srcA srcB .optimizeMem true noTok) = false := by decide
theorem test_wf_sram_count : ok (.sram (.write x0 9) srcA srcB .ordered noTok) = false := by decide
/-- R547: 1 to 16 with `indirect_ref`. -/
theorem test_wf_sram_count_indirect : ok (.sram (.write x0 16) srcA srcB .ordered ⟨false, false, false, true⟩) = true ∧
    ok (.sram (.read x0 17) srcA srcB .ordered ⟨false, false, false, true⟩) = false := by decide
theorem test_wf_read_lock : ok (.sram (.readLock x0 1) srcA srcB .ordered noTok) = false := by decide
theorem test_wf_unlock_indirect : ok (.sram .unlock srcA srcB .ordered ⟨false, false, false, true⟩) = true := by decide
theorem test_wf_pop_address : ok (.sram (.pop x0 0) srcA .none .ordered noTok) = false := by decide
theorem test_wf_find_source : ok (.findBset (.imm 1) .none false) = false := by decide
theorem test_wf_find_indirect : ok (.findBset srcA .rightIndirect false) = false := by decide
theorem test_wf_find_mask : ok (.findBsetWithMask .none srcA .none false) = false := by decide
theorem test_wf_immed_value : ok (.immed dst 65536 0) = false ∧ ok (.immed dst (-65537) 0) = false := by decide
theorem test_wf_immed_shift : ok (.immed dst 1 4) = false ∧ ok (.immed dst (-1) 8) = false := by decide
theorem test_wf_immed_dest : ok (.immed .none 1 0) = false ∧ ok (.immedB0 .none 1) = false := by decide
theorem test_wf_ld_field : ok (.ldField .none 1 srcA .none) = false ∧ ok (.ldField dst 1 (.imm 1) .none) = false := by
  decide
theorem test_wf_load_addr : ok (.loadAddr .none 4) = false := by decide
theorem test_wf_load_bset : ok (.loadBsetResult1 .none) = false := by decide
theorem test_wf_hash_span : ok (.hash3x48 (.rel 3) noTok) = false ∧ ok (.hash3x48 (.rel 2) noTok) = true := by decide

/-! ### Opcode bytes, from the tables of 46_ready_bus_sequencer.md (R703 to R713, T-RDYBUS) -/

theorem test_decode_nop : decode [0b00011111] = .ok .nop1 ∧ decode [0b11111111] = .ok .nop8 := by decide
theorem test_decode_rxrdy : decode [0b11011011] = .ok .rxrdy0to1 ∧ decode [0b10011000] = .ok .rxrdy3 ∧
    decode [0b01101011] = .ok .rxrdy4 ∧ decode [0b01011001] = .ok .rxrdy2to5 ∧ decode [0b00101011] = .ok .rxrdy4to6 := by
  decide
theorem test_decode_txrdy : decode [0b11010111] = .ok .txrdy0to1 ∧ decode [0b01010101] = .ok .txrdy2to5 ∧
    decode [0b10010100] = .ok .txrdy3 ∧ decode [0b00110111] = .ok .txrdy0to6 := by decide
theorem test_decode_single : decode [0b00001100] = .ok .rxAutopush ∧ decode [0b10011100] = .ok .txAutopush ∧
    decode [0b00000000] = .ok .flwctl := by decide
theorem test_decode_get : decode [0b00011110] = .ok .get1x1 ∧ decode [0b11111110] = .ok .get1x8 ∧
    decode [0b00001110] = .ok .get2x1 ∧ decode [0b11101110] = .ok .get2x8 := by decide
theorem test_decode_send : decode [0b00001101] = .ok .sendx1 ∧ decode [0b00101101] = .ok .sendx2 ∧
    decode [0b11101101] = .ok .sendx8 := by decide
/-- The undefined bytes T-RDYBUS samples. -/
theorem test_decode_undefined : ([0x01, 0x0B, 0x10, 0x1B, 0x1C, 0x20, 0x24, 0x28, 0x2C, 0x3D, 0x68, 0x6A, 0x88, 0x8B,
    0xF8, 0xFC] : List Byte).all (fun b => decodeSeq b == none) = true := by decide
/-- Every instruction of the opcode table's readybus8 rows is the decoding of its byte. -/
theorem test_decode_every_row : seqTable.all (fun r => decode [r.1] == .ok r.2) = true ∧ seqTable.length = 91 := by
  decide
theorem test_encode : encode .rxrdy2to5 = [0x59] ∧ encode .txrdy2to5 = [0x55] ∧ encode .rxrdy4to6 = [0x2B] ∧
    encode .txrdy3 = [0x94] ∧ encode .rxrdy1to6 = [0x3A] ∧ encode .rxrdy5 = [0x4A] := by decide
theorem test_table_word : decodeTableWord 8 0xDB = some .rxrdy0to1 ∧ decodeTableWord 8 0x01 = none := by decide
theorem test_length : decode [0, 0] = .error (.length 2) := by decide


/-! ### Single steps of a microengine -/

/-- Microengine 0 running context 0, all contexts enabled, with `x` in GPR 0 of bank A and `y` in GPR 0 of bank B. -/
def eng (x y : Word) : Me :=
  { Me.reset with
    inReset := false, ctxEnables := 15, oldEnables := 15, executing := true, hasRun := true, nctx := 1
    gprA := Me.reset.gprA.set 0 x, gprB := Me.reset.gprB.set 0 y }

/-- The reset state with that engine as microengine 0. -/
def on (m : Me) : State := State.reset.setMe 0 m

/-- The step ends in a next state of which `p` holds. -/
def after (o : Host.Outcome State Fault Refusal) (p : State → Bool) : Bool :=
  match o with
  | .next t => p t
  | _ => false

/-- The step stops with the fault `f`. -/
def faults (o : Host.Outcome State Fault Refusal) (f : Fault) : Bool :=
  match o with
  | .fault g => g == f
  | _ => false

/-- The step is refused as `r`. -/
def refuses (o : Host.Outcome State Fault Refusal) (r : Refusal) : Bool :=
  match o with
  | .refused q => q == r
  | _ => false

/-- `i` run with the two register values leaves `r` in the destination and the codes Zero and Sign. -/
def gives (i : Instr) (x y r : Word) (z n : Bool) : Bool :=
  after (exec i (on (eng x y))) fun t => t.engine.gprA[1] == r && t.engine.cc.zero == z && t.engine.cc.sign == n
    && t.engine.pc == 1

/-- Rows of T-ALU. -/
theorem test_alu_arithmetic :
    gives (.alu dst srcA .add srcB) 0x7FFFFFFF 1 0x80000000 false true = true ∧
    gives (.alu dst srcA .sub srcB) 0 1 0xFFFFFFFF false true = true ∧
    gives (.alu dst srcA .bMinusA srcB) 1 5 4 false false = true ∧
    gives (.alu dst srcA .add4 srcB) 0x12345678 5 0xD false false = true ∧
    gives (.alu dst srcA .add8 srcB) 0x12345678 0x10 0x88 false false = true ∧
    gives (.alu dst srcA .add16 srcB) 0x1234 0xFFFF 0x1233 false false = true := by decide
theorem test_alu_logic :
    gives (.alu dst .none .notB srcB) 0 0 0xFFFFFFFF false true = true ∧
    gives (.alu dst srcA .and srcB) 0xF0F0F0F0 0xFF00FF00 0xF000F000 false true = true ∧
    gives (.alu dst srcA .notAnd srcB) 0xF0F0F0F0 0xFF00FF00 0x0F000F00 false false = true ∧
    gives (.alu dst srcA .andNot srcB) 0xF0F0F0F0 0xFF00FF00 0x00F000F0 false false = true ∧
    gives (.alu dst srcA .or srcB) 0xF0F0F0F0 0xFF00FF00 0xFFF0FFF0 false true = true ∧
    gives (.alu dst srcA .xor srcB) 0xAAAAAAAA 0xAAAAAAAA 0 true false = true := by decide
/-- Carryout rows of T-ALU: set by a wrap, clear on a borrow. -/
theorem test_alu_carry :
    after (exec (.alu dst srcA .add srcB) (on (eng 0xFFFFFFFF 1))) (·.engine.cc.cout) = true ∧
    after (exec (.alu dst srcA .sub srcB) (on (eng 0x80000000 1))) (·.engine.cc.cout) = true ∧
    after (exec (.alu dst srcA .sub srcB) (on (eng 0 1))) (!·.engine.cc.cout) = true ∧
    after (exec (.alu dst srcA .bMinusA srcB) (on (eng 5 1))) (!·.engine.cc.cout) = true := by decide
/-- T-CARRY row 1 and T-IFSIGN: the carry is current, the sign is the previous one. -/
theorem test_alu_chained :
    after (exec (.alu dst srcA .addCarry srcB) (on { eng 1 2 with cc := ⟨true, false, true⟩ }))
      (fun t => t.engine.gprA[1] == 4 && !t.engine.cc.cout) = true ∧
    after (exec (.alu dst srcA .addIfSign srcB) (on { eng 7 5 with prevCc := ⟨false, true, false⟩ }))
      (fun t => t.engine.gprA[1] == 12) = true ∧
    after (exec (.alu dst srcA .addIfSign srcB) (on { eng 7 5 with cc := ⟨false, true, false⟩ }))
      (fun t => t.engine.gprA[1] == 5 && t.engine.prevCc.sign) = true := by decide
/-- Rows of T-SHIFT. -/
theorem test_alu_shf :
    gives (.aluShf dst .none .b srcB (.right 1)) 0 0x80000001 0x40000000 false false = true ∧
    gives (.aluShf dst .none .b srcB (.left 31)) 0 1 0x80000000 false true = true ∧
    gives (.aluShf dst .none .b srcB (.rotRight 8)) 0 0x12345678 0x78123456 false false = true ∧
    gives (.aluShf dst .none .b srcB (.rotLeft 4)) 0 0x12345678 0x23456781 false false = true ∧
    gives (.aluShf dst srcA .sub srcB (.left 4)) 0x100 1 0xF0 false false = true := by decide
/-- Rows 1 and 3 of T-INDIRECT. -/
theorem test_alu_shf_indirect :
    after (exec (.aluShf dst .none .b srcB .leftIndirect) (on { eng 0 0xABC with aLatch := 20 }))
      (fun t => t.engine.gprA[1] == 0xABC000) = true ∧
    after (exec (.alu .none (.imm 0x124) .add (.imm 0)) (on (eng 0 0))) (fun t => t.engine.aLatch == 4) = true := by
  decide
/-- Rows of T-DBL. -/
theorem test_dbl_shf :
    gives (.dblShf dst srcA srcB (.right 8)) 0xAB 0xCDEF0123 0xABCDEF01 false true = true ∧
    gives (.dblShf dst srcA srcB (.left 8)) 0xAB 0xCDEF0123 0xABCD false false = true ∧
    gives (.dblShf dst srcA srcB (.right 31)) 0x12345678 0x9ABCDEF0 0x2468ACF1 false false = true ∧
    gives (.dblShf dst srcA srcB (.left 31)) 0x12345678 0x9ABCDEF0 0x4D5E6F78 false false = true := by decide

/-- The program counter after a branch to word 9 on an engine with the codes Zero `z`, Sign `n`, Carryout `c`. -/
def pcAfter (i : Instr) (z n c : Bool) : Nat :=
  match exec i (on { eng 0x12345678 0 with cc := ⟨z, n, c⟩ }) with
  | .next t => t.engine.pc.toNat
  | _ => 4096

def brTok : BrTok := ⟨0, false⟩

/-- T-BRANCH: v = 1 (codes 00), 0x80000000 (01), 0 (10). -/
theorem test_branch_codes :
    pcAfter (.brEq0 9 brTok) true false false = 9 ∧ pcAfter (.brNe0 9 brTok) true false false = 1 ∧
    pcAfter (.brGt0 9 brTok) false false false = 9 ∧ pcAfter (.brGt0 9 brTok) true false false = 1 ∧
    pcAfter (.brGe0 9 brTok) true false false = 9 ∧ pcAfter (.brGe0 9 brTok) false true false = 1 ∧
    pcAfter (.brLt0 9 brTok) false true false = 9 ∧ pcAfter (.brLe0 9 brTok) true false false = 9 := by decide
theorem test_branch_carry :
    pcAfter (.brCout 9 brTok) false false true = 9 ∧ pcAfter (.brNotCout 9 brTok) false false true = 1 ∧
    pcAfter (.br 9 brTok) false false false = 9 := by decide
theorem test_branch_register :
    pcAfter (.brEqByte srcA 1 0x56 9 brTok) false false false = 9 ∧
    pcAfter (.brEqByte srcA 0 0x56 9 brTok) false false false = 1 ∧
    pcAfter (.brNeByte srcA 0 0x56 9 brTok) false false false = 9 ∧
    pcAfter (.brBset srcA 3 9 brTok) false false false = 9 ∧ pcAfter (.brBclr srcA 7 9 brTok) false false false = 9 ∧
    pcAfter (.brBset srcA 7 9 brTok) false false false = 1 := by decide
theorem test_branch_context :
    pcAfter (.brEqCtx 0 9 brTok) false false false = 9 ∧ pcAfter (.brNeCtx 0 9 brTok) false false false = 1 ∧
    pcAfter (.brInpState .recReqAvail 9 brTok) false false false = 9 ∧
    pcAfter (.brInpState .pushProtect 9 brTok) false false false = 1 ∧
    pcAfter (.brNotSignal .sram 9 brTok) false false false = 9 := by decide
theorem test_branch_deferred :
    after (exec (.brEqByte srcA 0 0x78 9 ⟨3, false⟩) (on (eng 0x12345678 0)))
      (fun t => t.engine.pc == 1 && t.engine.defer == some ⟨3, .jump 9⟩) = true := by decide
theorem test_jump_rtn :
    after (exec (.jump srcA 9 brTok) (on (eng 4 0))) (·.engine.pc == 13) = true ∧
    after (exec (.rtn srcA brTok) (on (eng 4 0))) (·.engine.pc == 4) = true ∧
    faults (exec (.rtn srcA brTok) (on (eng 1024 0))) (.pcOutOfStore 1024) = true := by decide

/-- Rows of T-IMMED; the codes stay. -/
theorem test_immed :
    gives (.immed dst 0xFF 8) 0 0 0xFF00 false false = true ∧ gives (.immed dst (-1) 0) 0 0 0xFFFFFFFF false false = true ∧
    gives (.immed dst (-65536) 0) 0 0 0xFFFF0000 false false = true ∧
    gives (.loadAddr dst 237) 0 0 237 false false = true := by decide
theorem test_immed_w1 :
    after (exec (.immedW1 (.gpr (.rel .a 0)) 0x80) (on (eng 0xAAAA175B 0))) (·.engine.gprA[0] == 0x0080175B) = true := by
  decide
/-- T-LDFIELD. -/
theorem test_ld_field :
    after (exec (.ldField (.gpr (.rel .a 0)) 0b0110 srcB .none) (on (eng 0x11223344 0xAABBCCDD)))
      (·.engine.gprA[0] == 0x11BBCC44) = true ∧
    after (exec (.ldField (.gpr (.rel .a 0)) 0b1000 srcB (.left 8)) (on (eng 0x11223344 0xAABBCCDD)))
      (·.engine.gprA[0] == 0xBB223344) = true ∧
    after (exec (.ldFieldWClr (.gpr (.rel .a 0)) 0b0001 srcB (.right 8)) (on (eng 0x11223344 0xAABBCCDD)))
      (·.engine.gprA[0] == 0x000000CC) = true := by decide
/-- T-FIND: case 2's second find, the sixteenth and seventeenth finds, and a masked one. -/
theorem test_find_bset :
    after (exec (.findBset srcA (.right 16) false) (on { eng 0x00200008 0 with result1 := 0x103, fbsCnt := 1 }))
      (fun t => t.engine.result2 == 0x115 && t.engine.fbsCnt == 2) = true ∧
    after (exec (.findBset srcA .none false) (on { eng 0x8000 0 with fbsCnt := 15 }))
      (fun t => t.engine.result1 == 0x1FF && t.engine.fbsCnt == 0) = true := by decide
theorem test_find_bset_with_mask :
    after (exec (.findBsetWithMask srcA srcB .none true) (on { eng 0xF0 0xC0 with result1 := 0x103 }))
      (fun t => t.engine.result1 == 0x106) = true ∧
    after (exec (.findBsetWithMask srcA srcB (.right 16) true) (on (eng 0x30 0x00F00000)))
      (fun t => t.engine.result1 == 0x104) = true := by decide
theorem test_load_bset :
    after (exec (.loadBsetResult1 dst) (on { eng 0 0 with result1 := 0x103 })) (·.engine.gprA[1] == 0x103) = true ∧
    after (exec (.loadBsetResult2 dst) (on { eng 0 0 with result2 := 0 }))
      (fun t => t.engine.gprA[1] == 0 && t.engine.cc.zero) = true := by decide

/-- T-CTX (a), (b), (c), (d). -/
theorem test_ctx_arb_voluntary :
    after (exec (.ctxArb .voluntary false) (on { eng 0 0 with wakeup := #v[.voluntary, .signal .fbi, .signal .sram, .signal .pci] }))
      (fun t => t.engine.active == 0 && t.engine.nctx == 1 && t.engine.pc == 1 && t.engine.executing) = true := by decide
theorem test_ctx_arb_signal :
    after (exec (.ctxArb .voluntary false) (on { eng 0 0 with
        wakeup := #v[.voluntary, .signal .fbi, .signal .sram, .signal .pci], sigEvents := #v[0, 0, sigMask .sram, 0] }))
      (fun t => t.engine.active == 2 && t.engine.nctx == 3 && t.engine.pctx == 0 && t.engine.sigEvents[2] == 0) = true ∧
    after (exec (.ctxArb (.signal .sram) false) (on { eng 0 0 with
        ctxEnables := 1, sigEvents := #v[sigMask .sram, 0, 0, 0] }))
      (fun t => t.engine.active == 0 && t.engine.executing && t.engine.sigEvents[0] == 0) = true := by decide
theorem test_ctx_arb_kill :
    after (exec (.ctxArb .kill false) (on { eng 0 0 with ctxEnables := 1 }))
      (fun t => t.engine.ctxEnables == 0 && t.engine.status == .paused) = true := by decide
theorem test_nop : after (exec .nop (on (eng 0 0))) (fun t => t.engine.pc == 1) = true := by decide

/-! ### References: the command in the FIFO, and the named stops (T-REF) -/

/-- The command a reference puts into the FIFO of microengine 0. -/
def issuedOp (i : Instr) : Option CmdOp :=
  match exec i (on (eng 0x10 4)) with
  | .next t => t.engine.cmdFifo.head?.map (·.op)
  | _ => none

theorem test_scratch_issue :
    issuedOp (.scratch (.read (.rel 3) 2) srcA srcB noTok) = some (.scratchRead 0x14 3 2) ∧
    issuedOp (.scratch .incr srcA srcB noTok) = some (.scratchIncr 0x14) := by decide
theorem test_sdram_issue :
    issuedOp (.sdram (.write (.rel 2) 3) srcA srcB .order false noTok) = some (.sdramWrite 0x14 2 3 none) := by decide
theorem test_sram_issue :
    issuedOp (.sram (.bitWr (.rel 2) .testAndSet) srcA srcB .ordered noTok) = some (.sramBit 0x14 2 .testAndSet) ∧
    issuedOp (.sram (.pop (.rel 1) 3) .none .none .ordered noTok) = some (.sramPop 1 3) := by decide
theorem test_fbi_issue :
    issuedOp (.csr .write (.rel 1) .ireg 1 noTok) = some (.csrWrite .ireg 1 1) ∧
    issuedOp (.fastWr 5 .interThdSig false) = some (.fastWr .interThdSig 5) ∧
    issuedOp (.hash2x64 (.rel 1) noTok) = some (.hash true 2 1) ∧
    issuedOp (.rFifoRd (.rel 1) srcA srcB 2 noTok) = some (.rFifoRd 0x14 1 2) ∧
    issuedOp (.tFifoWr (.rel 1) srcA srcB 2 noTok) = some (.tFifoWr 0x14 1 2) ∧
    issuedOp (.pciDma (.rel 1) true noTok) = some (.pciDma 1 true) := by decide
theorem test_burst_past_31 :
    refuses (exec (.scratch (.read (.rel 6) 4) srcA srcB noTok) (on { eng 0 0 with active := 3 }))
      .burstPastRegister31 = true := by decide
theorem test_ctx_swap :
    after (exec (.pciDma x0 false ⟨false, true, false, false⟩) (on { eng 0 0 with ctxEnables := 1 }))
      (fun t => !t.engine.executing && t.engine.wakeup[0] == .signal .pci && t.engine.pending[0] == sigMask .pci) = true := by
  decide

/-! ### Local CSRs -/

theorem test_local_csr_rd :
    after (exec (.localCsrRd .aluOutput) (on { eng 0 0 with aluOut := 7 }))
      (fun t => t.engine.csrLatch == some 7 && t.engine.immediate 0 == 7) = true := by decide
theorem test_local_csr_wr :
    after (exec (.localCsrWr .ctxEnables (.rel .a 0)) (on (eng 0x500 0)))
      (fun t => t.engine.ctxEnables == 5 && t.engine.oldEnables == 15) = true := by decide

/-! ### The hash functions (T-HASH) -/

theorem test_hash48 : hash48 0x800000000000 0x2 = 0x001002000401 ∧
    hash48 0x123456789ABC 0xFEDCBA987654 = 0x53FC6D9F7E93 := by decide +kernel
theorem test_hash64 : hash64 0x8000000000000000 0x2 = 0x0040000800020001 ∧
    hash64 0x0123456789ABCDEF 0xFEDCBA9876543210 = 0x82814A8C112A20CE := by decide +kernel

/-- T-HASH's x^47 times x: the product is the 48-bit generator plus the remainder, quotient 1. -/
theorem test_hash_remainder : (List.range 96).all (fun k =>
    productBit 0x800000000000 2 k == (productBit 1 (hashGenerator false) k ^^ (0x1002000401 : Nat).testBit k)) = true := by
  decide +kernel

/-! ### Ready Bus sequencer -/

/-- T-RDYBUS: the flags of MAC 0 and MAC 1 replace the low half of RCV_RDY_LO. -/
theorem test_rxrdy :
    after (exec .rxrdy0to1 { State.reset with
        fbi := { Fbi.reset with rcvRdyLo := 0xFFFF0000 }
        env := { Env.initial with macRx := #v[0x01, 0x80, 0, 0, 0, 0, 0] } })
      (fun t => t.fbi.rcvRdyLo == 0xFFFF8001 && t.fbi.rcvRdyHi == 0 && t.fbi.seqPos == 1) = true := by decide
theorem test_txrdy :
    after (exec .txrdy5 { State.reset with env := { Env.initial with macTx := #v[1, 2, 3, 4, 5, 6, 7] } })
      (fun t => t.fbi.xmitRdyHi == 0x0600 && t.fbi.xmitRdyLo == 0) = true := by decide
theorem test_get_send :
    after (exec .get1x2 { State.reset with env := { Env.initial with slave := [7] } })
      (fun t => t.fbi.getCmd == [7, 0]) = true ∧
    after (exec .sendx2 { State.reset with fbi := { Fbi.reset with sendCmd := [4, 5, 6] } })
      (fun t => t.outputs == [.readyBusSend 4, .readyBusSend 5] && t.fbi.sendCmd == [6]) = true := by decide
theorem test_autopush :
    after (exec .rxAutopush { State.reset with fbi := { Fbi.reset with rxApEnable := true } })
      (fun t => t.fbi.rxPush && t.fbi.rdyCount == 1) = true := by decide
theorem test_flwctl : after (exec .flwctl State.reset) (fun t => t.outputs == []) = true := by decide
theorem test_nop1_wraps :
    after (exec .nop1 { State.reset with fbi := { Fbi.reset with seqPos := 11 } })
      (fun t => t.fbi.seqPos == 0 && t.fbi.seqWait) = true := by decide
/-- T-RDYBUS: a pass that ends after 80 cycles waits for a count of 84, one that ends after 85 does not (R700, R704). -/
theorem test_sequence_rate :
    let last := fun (e : Instr) (n : Nat) => after (exec e { State.reset with
      fbi := { Fbi.reset with seqEnable := true, seqPos := 11, seqTime := n, synchCount := 84 } }) (·.fbi.seqRuns)
    last .nop1 77 = false ∧ last .nop1 82 = true ∧ last .sendx1 71 = false ∧ last .rxAutopush 81 = true := by decide

/-! ### Fetching the placed instruction -/

/-- The first step after placing a sequencer byte runs it. -/
theorem test_place_readybus :
    after (step (State.reset.withFetchWord 8 0x3F)) (fun t => t.fbi.seqPos == 1 && t.fbi.seqEnable) = true := by decide

/-! ### Units: T-TIMER, T-SCRATCH, T-LOCK, T-FBICSR -/

theorem test_timer :
    ({ Timer.reset with enable := true, periodic := true, load := 3, value := 1 } : Timer).tick.1.int = true ∧
    ({ Timer.reset with enable := true, periodic := true, load := 3, value := 0 } : Timer).tick.1.value = 3 := by decide
/-- R141, R143, R1126: in Reset an ALU_OUTPUT read gives the latch whatever ECS is; Stopped it loops on UADDR's word. -/
theorem test_alu_output_in_reset :
    let read := fun (m : Me) => match m.aluOutput with
      | .ok v => some v
      | .error _ => none
    read { Me.reset with ecs := true, aluOut := 7 } = some 7 ∧
    read { eng 5 6 with executing := false, ctxEnables := 0, ecs := true, aluOut := 7 } = none := by decide
theorem test_self_destruct :
    (match State.reset.fastWrite .selfDestruct 0 12 with
      | .ok t => t.fbi.selfDestruct == 0x1000
      | .error _ => false) = true ∧
    (match State.reset.fastWrite .selfDestruct 0 32 with
      | .ok _ => false
      | .error e => e == .refused .fbiValue) = true := by decide

/-- R1085: a write-back of the word read leaves IREG's five control bits, wherever the thread and breakpoint bits lie. -/
theorem test_ireg_write_back : ([(0, 24), (8, 5), (3, 29)] : List (Nat × Nat)).all (fun p =>
    ([0, 5, 0x12, 0x1F] : List (BitVec 5)).all fun c =>
      controlsOf p.1 p.2 (iregWord p.1 p.2 0xA5A5A5 5 c) == c) = true := by decide

/-! ### Witnesses: for each statement with hypotheses, states and operands that meet them together -/

/-- Microengine 0 running context 0 with 1 and 2 in the two source registers, nothing pending. -/
def idle : State := on (eng 1 2)

/-- A longword in every one of the byte-list memories' first places. -/
def bytes4 : Mem := [(0, 1), (1, 0), (2, 0), (3, 0)]

theorem operand_a : operandIs idle srcA (some 1) := ⟨by decide, by decide⟩
theorem operand_b : operandIs idle srcB (some 2) := ⟨by decide, by decide⟩
theorem operand_imm : operandIs idle (.imm 7) (some 7) := ⟨by decide, by decide⟩
theorem operand_none : operandIs idle .none none := ⟨by decide, by decide⟩
theorem operand_xfer : operandIs idle (.sram (.abs 31)) (some 0) := ⟨by decide, by decide⟩
theorem idle_no_defer : idle.engine.defer = none := by decide
theorem nothing_pending : ∀ (m : Fin 6) (c : Fin 4), (idle.me m).pending[c] = 0 := by decide

/-- On the idle engine every command can be issued. -/
theorem can_issue (cmd : Cmd) (tok : RefTok) : canIssue idle cmd tok :=
  ⟨by decide, fun _ => idle_no_defer, fun e _ => by rw [nothing_pending]; simp⟩

theorem witness_SequencerDecodeEncode : encodeSeq .nop1 = some 0x1F ∧ decode [0x1F] = .ok .nop1 := by decide

/-- Microengine 0 about to fetch at `pc` from the control store `us`. -/
def fetching (us : List (Nat × UEntry)) (pc : BitVec 12) : State :=
  { on { eng 1 2 with ustore := us, pcs := Vector.replicate 4 pc } with inputs := [.me 0] }

theorem witness_StepRunsMicroengineInstruction :
    let s := fetching [(1023, .instr .nop)] 1023
    s.inputs = .me 0 :: [] ∧ (s.me 0).inReset = false ∧ (s.me 0).executing = true ∧
      (s.me 0).pc.toNat < s.board.ustoreWords ∧
      ustoreGet (s.me 0).pc.toNat (s.me 0).ustore = some (.instr .nop) ∧
      Instr.nop.wfIn s.board.ustoreWords = true ∧ Instr.nop.isSeq = false := by decide
theorem witness_StepRunsMicroengineInstruction_illFormed :
    let s := fetching [(0, .instr .nop1)] 0
    s.inputs = .me 0 :: [] ∧ (s.me 0).inReset = false ∧ (s.me 0).executing = true ∧
      ustoreGet (s.me 0).pc.toNat (s.me 0).ustore = some (.instr .nop1) ∧ Instr.nop1.isSeq = true := by decide
/-- A label at the first word beyond the store (R481). -/
theorem witness_StepRunsMicroengineInstruction_label :
    let i := Instr.br 1024 ⟨0, false⟩
    let s := fetching [(0, .instr i)] 0
    s.inputs = .me 0 :: [] ∧ (s.me 0).inReset = false ∧ (s.me 0).executing = true ∧
      ustoreGet (s.me 0).pc.toNat (s.me 0).ustore = some (.instr i) ∧ i.wfIn s.board.ustoreWords = false := by decide
theorem witness_StepRunsMicroengineInstruction_stops :
    let runs := fun s : State => s.inputs = .me 0 :: [] ∧ (s.me 0).inReset = false ∧ (s.me 0).executing = true
    let entry := fun s : State => ustoreGet (s.me 0).pc.toNat (s.me 0).ustore
    runs (fetching [] 0) ∧ entry (fetching [] 0) = none ∧
      runs (fetching [(0, .raw 5)] 0) ∧ entry (fetching [(0, .raw 5)] 0) = some (.raw 5) ∧
      runs (fetching [] 1024) ∧ (fetching [] 1024).board.ustoreWords ≤ ((fetching [] 1024).me 0).pc.toNat := by decide

theorem witness_StepRunsSequencerInstruction :
    let s : State := { State.reset with inputs := [.readyBus], fbi := Fbi.reset.holding 0x1F }
    s.inputs = .readyBus :: [] ∧ s.fbi.seqEnable = true ∧ s.fbi.seqSlave = false ∧ s.fbi.seqWait = false ∧
      decode [s.fbi.prog[s.fbi.seqPos]] = .ok .nop1 := by decide
theorem witness_StepRunsSequencerInstruction_undefined :
    let s : State := { State.reset with inputs := [.readyBus], fbi := Fbi.reset.holding 0x01 }
    s.inputs = .readyBus :: [] ∧ s.fbi.seqEnable = true ∧ s.fbi.seqSlave = false ∧ s.fbi.seqWait = false ∧
      decodeSeq s.fbi.prog[s.fbi.seqPos] = none := by decide

/-- T-RDYBUS: with the count at 84 a pass of 80 cycles waits, one of 85 does not, nor one whose rate timer expired. -/
theorem witness_StepRunsSequencerInstruction_rate :
    let s : Nat → Bool → State := fun n e => { State.reset with
      inputs := [.readyBus]
      fbi := { Fbi.reset.holding 0x1F with seqWait := true, seqTime := n, seqExpired := e, synchCount := 84 } }
    let waits : State → Prop := fun s =>
      s.fbi.seqWait = true ∧ s.fbi.seqTime < s.fbi.synchCount.toNat ∧ s.fbi.seqExpired = false
    waits (s 80 false) ∧ waits (s 83 false) ∧ ¬ waits (s 84 false) ∧ ¬ waits (s 85 false) ∧ ¬ waits (s 80 true) ∧
      ∀ n e, decode [(s n e).fbi.prog[(s n e).fbi.seqPos]] = .ok .nop1 := by
  refine ⟨?_, ?_, ?_, ?_, ?_, fun _ _ => rfl⟩ <;> decide

theorem witness_ArbiterTakesNextReadyContext :
    let s : State := { on { eng 1 2 with executing := false } with inputs := [.me 0] }
    s.inputs = .me 0 :: [] ∧ (s.me 0).inReset = false ∧ (s.me 0).executing = false ∧ (s.me 0).hasRun = true ∧
      (s.me 0).enWindow = 0 ∧ nextContext (s.me 0) (s.me 0).ctxEnables (s.me 0).wakeup[(s.me 0).active] = some 1 := by
  decide
theorem witness_ArbiterTakesNextReadyContext_reset :
    let s : State := { State.reset with inputs := [.me 5] }
    s.inputs = .me 5 :: [] ∧ (s.me 5).inReset = true := by decide

theorem witness_AluResult : operandIs idle srcA (some 1) ∧ operandIs idle srcB (some 2) := ⟨operand_a, operand_b⟩
theorem witness_AluResult_noA : operandIs idle .none none ∧ operandIs idle (.imm 7) (some 7) := ⟨operand_none, operand_imm⟩
theorem witness_AluShfResult : operandIs idle srcA (some 1) ∧ operandIs idle srcB (some 2) ∧
    specShift (.left 31) 2 idle.engine.aLatch = some 0 ∧ specShift (.leftIndirect) 2 0 = none :=
  ⟨operand_a, operand_b, by decide, by decide⟩
theorem witness_DblShfResult : (Shf.right 31).dblOk = true ∧ operandIs idle srcA (some 1) ∧
    operandIs idle srcB (some 2) ∧ specDouble (.right 31) 1 2 idle.engine.aLatch = some 2 :=
  ⟨by decide, operand_a, operand_b, by decide⟩

theorem witness_CodeBranches :
    codeBranches.length = 9 ∧ idle.engine.defer = none := ⟨by decide, idle_no_defer⟩
theorem witness_BranchesCompareResultWithZero : ∃ t, exec (.alu dst srcA .sub srcB) idle = .next t := ⟨_, rfl⟩
theorem witness_RegisterBranches : operandIs idle srcA (some 1) ∧ idle.engine.defer = none := ⟨operand_a, idle_no_defer⟩
theorem witness_ContextAndInputBranches : idle.engine.defer = none := idle_no_defer
theorem witness_SignalBranchConsumes : idle.engine.defer = none := idle_no_defer
theorem witness_JumpAndReturn : operandIs idle srcA (some 1) ∧ idle.engine.defer = none ∧
    ((1022 : Label).setWidth 32 + (1 : Word)).toNat < idle.board.ustoreWords ∧
    idle.board.ustoreWords ≤ ((1023 : Label).setWidth 32 + (1 : Word)).toNat ∧
    (1 : Word).toNat < idle.board.ustoreWords := ⟨operand_a, idle_no_defer, by decide, by decide, by decide⟩
theorem witness_JumpAndReturn_beyond : operandIs (on (eng 1024 0)) srcA (some 1024) ∧
    (on (eng 1024 0)).engine.defer = none ∧ (on (eng 1024 0)).board.ustoreWords ≤ (1024 : Word).toNat :=
  ⟨⟨by decide, by decide⟩, by decide, by decide⟩

/-- The idle engine in a deferred position. -/
def inSlot (d : Deferred) : State := on { eng 1 2 with defer := some d }

theorem slot_runs (d : Deferred) : Instr.nop.isSeq = false ∧ (inSlot d).engine.executing = true ∧
    (inSlot d).engine.defer = some d ∧ (inSlot d).engine.hasRun = true ∧ (inSlot d).engine.enWindow ≤ 1 ∧
    ∃ t, exec .nop (inSlot d) = .next t ∧ t ≠ inSlot d :=
  ⟨by decide, rfl, rfl, rfl, Nat.zero_le _, _, rfl, fun h => absurd (congrArg State.free h) (Nat.succ_ne_self _)⟩
theorem witness_DeferredInstructionsThenTarget :
    (inSlot ⟨1 + 2, .jump 9⟩).engine.defer = some ⟨1 + 2, .jump 9⟩ ∧ (inSlot ⟨1, .jump 9⟩).engine.defer = some ⟨1, .jump 9⟩ ∧
    (inSlot ⟨1, .fall⟩).engine.defer = some ⟨1, .fall⟩ ∧ (∀ target, DeferAct.fall ≠ .jump target) ∧
    (inSlot ⟨1, .swap .voluntary⟩).engine.defer = some ⟨1, .swap .voluntary⟩ ∧
    (inSlot ⟨1, .kill⟩).engine.defer = some ⟨1, .kill⟩ ∧ (∀ reg src, Instr.nop ≠ .localCsrWr reg src) ∧
    ∀ d, ∃ t, exec .nop (inSlot d) = .next t ∧ t ≠ inSlot d :=
  ⟨rfl, rfl, rfl, by simp, rfl, rfl, by simp, fun d => (slot_runs d).2.2.2.2.2⟩
theorem witness_BranchInDeferredPositionRefused :
    (inSlot ⟨1, .fall⟩).engine.defer.isSome = true ∧ operandIs (inSlot ⟨1, .fall⟩) srcA (some 1) ∧
    ((1022 : Label).setWidth 32 + (1 : Word)).toNat < (inSlot ⟨1, .fall⟩).board.ustoreWords :=
  ⟨by decide, ⟨by decide, by decide⟩, by decide⟩

theorem witness_ConstantLoads : immedOk 65535 16 = true ∧ immedOk (-65536) 0 = true ∧ idle.engine.csrLatch = none ∧
    (on { eng 1 2 with csrLatch := some 3 }).engine.csrLatch = some 3 := by decide
theorem witness_FieldLoads : (fieldLoads dst 1 2).length = 6 ∧
    destCell idle.engine.active dst = some (.gpr .a 1) := by decide
theorem witness_ByteFieldLoads : operandIs idle srcB (some 2) ∧ specShift (.left 31) 2 idle.engine.aLatch = some 0 ∧
    destCell idle.engine.active dst = some (.gpr .a 1) := ⟨operand_b, by decide, by decide⟩

/-- The lowest set bit of 0x8000 is bit 15, of 2 bit 1; 0 has none. -/
theorem witness_FindBitSet : operandIs (on (eng 0x8000 2)) srcA (some 0x8000) ∧
    operandIs (on (eng 0x8000 2)) srcB (some 2) ∧
    specShift .none 0x8000 (on (eng 0x8000 2)).engine.aLatch = some 0x8000 ∧
    (0x8000 : Word).getLsbD 15 = true ∧ (∀ q, q < 15 → (0x8000 : Word).getLsbD q = false) ∧
    (∀ p, p < 16 → ((0x8000 : Word) &&& 2).getLsbD p = false) ∧ (0 : Word).getLsbD 8 = false ∧
    (0x103 : Word).getLsbD 8 = true :=
  ⟨⟨by decide, by decide⟩, ⟨by decide, by decide⟩, by decide, by decide, by decide, by decide, by decide, by decide⟩
theorem witness_LoadFindResults : 3 ≤ idle.engine.findAge := by decide
theorem witness_ContextArbitration : idle.engine.defer = none ∧ idle.engine.hasRun = true ∧ idle.engine.enWindow ≤ 1 := by
  decide

theorem witness_PlainReferencesIssue :
    26 = (idle.xfer (.abs 26)).val ∧ 26 + 2 * 3 ≤ 32 ∧
    canIssue idle (ownCmd idle (.hash true 3 26) .fbiHash .fbi ⟨true, true, false, false⟩ false)
      ⟨true, true, false, false⟩ ∧
    canIssue idle (ownCmd idle (.csrRead .cycleCnt 26 2) .fbiPush .fbi noTok false) noTok ∧
    canIssue idle (ownCmd idle (.csrWrite .ireg 26 1) .fbiPull .fbi noTok false) noTok ∧
    canIssue idle (ownCmd idle (.pciDma 26 true) .pci .pci noTok false) noTok ∧
    canIssue idle (ownCmd idle (.sramPop 26 7) .sramRead .sram noTok false) noTok :=
  ⟨by decide, by decide, can_issue _ _, can_issue _ _, can_issue _ _, can_issue _ _, can_issue _ _⟩
theorem witness_FastWriteIssues : idle.engine.cmdFifo.length < 2 := by decide
theorem witness_ScratchIssues : operandIs idle srcA (some 1) ∧ operandIs idle srcB (some 2) ∧
    xferOr (idle.engine.overrides .scratchRw false) (idle.xfer (.abs 24))
      + countOr (idle.engine.overrides .scratchRw false) 8 ≤ 32 ∧
    canIssue idle (ownCmd idle (.scratchRead (1 + 2) 24 8) .fbiPush .fbi ⟨true, false, false, false⟩ false)
      ⟨true, false, false, false⟩ := ⟨operand_a, operand_b, by decide, can_issue _ _⟩
theorem witness_FifoReferencesIssue : operandIs idle srcA (some 1) ∧ operandIs idle srcB (some 2) ∧
    xferOr (idle.engine.overrides .rFifoRd false) (idle.xfer (.abs 0))
      + 2 * countOr (idle.engine.overrides .rFifoRd false) 16 ≤ 32 ∧
    canIssue idle (ownCmd idle (.tFifoWr (1 + 2) 0 16) .fbiPull .fbi noTok false) noTok :=
  ⟨operand_a, operand_b, by decide, can_issue _ _⟩
theorem witness_SdramIssues : operandIs idle srcA (some 1) ∧ operandIs idle srcB (some 2) ∧
    xferOr (idle.engine.overrides .sdramRw false) (idle.xfer (.abs 0))
      + 2 * countOr (idle.engine.overrides .sdramRw false) 16 ≤ 32 ∧
    (∀ cmd, canIssue idle cmd noTok) :=
  ⟨operand_a, operand_b, by decide, fun _ => can_issue _ _⟩
theorem witness_SramIssues : operandIs idle srcA (some 1) ∧ operandIs idle srcB (some 2) ∧
    xferOr (idle.engine.overrides .sramRw false) (idle.xfer (.abs 24))
      + countOr (idle.engine.overrides .sramRw false) 8 ≤ 32 ∧
    xferOr (idle.engine.overrides .sramLock false) (idle.xfer (.abs 24))
      + countOr (idle.engine.overrides .sramLock false) 8 ≤ 32 ∧ (∀ cmd, canIssue idle cmd noTok) :=
  ⟨operand_a, operand_b, by decide, by decide, fun _ => can_issue _ _⟩

/-- The idle engine with two commands waiting. -/
def stalled : State := on { eng 1 2 with cmdFifo := [default, default] }

theorem witness_FullCommandFifoStalls : 2 ≤ stalled.engine.cmdFifo.length ∧ stalled.engine.defer = none ∧
    (stalled.xfer (.abs 26)).val + 2 * 3 ≤ 32 ∧ (stalled.xfer (.abs 30)).val + 2 ≤ 32 ∧
    operandIs stalled srcA (some 1) ∧ operandIs stalled srcB (some 2) ∧
    (∀ k, xferOr (stalled.engine.overrides k false) (stalled.xfer (.abs 26))
      + 2 * countOr (stalled.engine.overrides k false) 3 ≤ 32) :=
  ⟨by decide, by decide, by decide, by decide, ⟨by decide, by decide⟩, ⟨by decide, by decide⟩, fun _ => (by decide : 26 + 2 * 3 ≤ 32)⟩

/-- The forms of a state's references with the tokens `tok` and a count of 2 from register `x`. -/
def formsAt (s : State) (x : Xfer) (tok : RefTok) : List RefForm :=
  refForms s x srcA srcB 2 tok .cycleCnt .setBits 0 .ordered .order false false

/-- The last register starts no burst of two, the one before it starts one of two and none of two quadwords. -/
theorem witness_ReferenceAndOperandStops : operandIs idle srcA (some 1) ∧ operandIs idle srcB (some 2) ∧
    RefForm.mk (.sram (.readLock (.abs 31) 2) srcA srcB .ordered ⟨false, true, false, false⟩) .sram {} 31 2
      ∈ formsAt idle (.abs 31) ⟨false, true, false, false⟩ ∧ 32 < 31 + 2 ∧
    RefForm.mk (.csr .read (.abs 30) .cycleCnt 2 noTok) .fbi {} 30 2 ∈ formsAt idle (.abs 30) noTok ∧ 30 + 2 ≤ 32 ∧
    RefForm.mk (.hash1x64 (.abs 31) noTok) .fbi {} 31 2 ∈ formsAt idle (.abs 31) noTok :=
  ⟨operand_a, operand_b, by simp [formsAt, refForms, Me.overrides, countOr, xferOr, State.xfer, xferIndex], by decide,
    by simp [formsAt, refForms, State.xfer, xferIndex], by decide, by simp [formsAt, refForms, State.xfer, xferIndex]⟩
theorem witness_ReferenceAndOperandStops_pending :
    let s := on { eng 1 2 with pending := Vector.replicate 4 (sigMask .pci) }
    let f := RefForm.mk (.pciDma (.abs 31) false ⟨true, false, false, false⟩) .pci {} 31 0
    operandIs s srcA (some 1) ∧ operandIs s srcB (some 2) ∧ f ∈ formsAt s (.abs 31) ⟨true, false, false, false⟩ ∧
      f.first + f.regs ≤ 32 ∧ s.engine.cmdFifo.length < 2 ∧ s.engine.defer = none ∧ signalDue s f :=
  ⟨⟨by decide, by decide⟩, ⟨by decide, by decide⟩, by simp [formsAt, refForms, State.xfer, xferIndex], by decide,
    by decide, by decide, by simp [signalDue]; decide⟩
theorem witness_ReferenceAndOperandStops_slot :
    let s := inSlot ⟨1, .fall⟩
    let f := RefForm.mk (.scratch .incr srcA srcB ⟨false, true, false, false⟩) .fbi {} 31 0
    operandIs s srcA (some 1) ∧ operandIs s srcB (some 2) ∧ f ∈ formsAt s (.abs 31) ⟨false, true, false, false⟩ ∧
      f.first + f.regs ≤ 32 ∧ s.engine.defer.isSome = true :=
  ⟨⟨by decide, by decide⟩, ⟨by decide, by decide⟩, by simp [formsAt, refForms, State.xfer, xferIndex], by decide,
    by decide⟩

/-- Thread 0 is an autopush target and the push protect state is set: register 0 may not be read. -/
def protectedState : State :=
  { idle with fbi := { Fbi.reset with rxApEnable := true, pushProtect := true } }

/-- So it is while a push that has been requested, and disabled since, is still to come (R792). -/
theorem test_pending_push_protected :
    ({ protectedState with fbi := { protectedState.fbi with rxApEnable := false, rxPush := true } } :
      State).protectedRead 0 = true := by
  simp [State.protectedRead, State.autopushTarget, protectedState, threadOf, threadMe, threadCtx, Fbi.reset]; rfl

theorem witness_ReferenceAndOperandStops_protected :
    operandIs protectedState srcA (some 1) ∧ operandIs protectedState srcB (some 2) ∧
      srcCell protectedState.engine.active (.sram (.abs 0)) = some (.sramRd 0) ∧
      protectedState.protectedRead 0 = true ∧
      .jump (.sram (.abs 0)) 9 ⟨0, false⟩
        ∈ readForms (.sram (.abs 0)) .none .none .b Shf.none 0 0 0 0 9 ⟨0, false⟩ false :=
  ⟨⟨by decide, by decide⟩, ⟨by decide, by decide⟩, by decide, by
    simp [State.protectedRead, State.autopushTarget, protectedState, threadOf, threadMe, threadCtx, Fbi.reset]; rfl,
    by decide⟩

/-- R900: a bit write with the priority token goes to the Write/Order queue. -/
theorem test_sram_queue_of_bit_write :
    sramQueueOf .priority (.bitWr (.abs 0) .clearBits) = .sramOrder ∧
    sramQueueOf .priority .unlock = .sramPrio := by decide

/-- R681: the last three bytes of a half line leave the write buffer as a byte and a halfword. -/
theorem test_write_buffer_tail :
    wbPiece 13 [some 1, some 2, some 3] = 1 ∧ wbPiece 14 [some 2, some 3] = 2 := by decide

/-- R844: the access of the next longword continues a chain, one a longword further does not. -/
theorem test_adjacent : adjacent 8 8 = true ∧ adjacent 6 8 = true ∧ adjacent 6 6 = true ∧ adjacent 8 12 = false := by
  decide

theorem test_wakeup_of_zero (n : Nat) : wakeupOf 0 n = .ok .voluntary := by
  simp [wakeupOf, allSignals, getBit]
/-- R152: one event beside the bit of `voluntary` is no stop; the selector is any. -/
theorem test_wakeup_open (v : Word) (n : Nat)
    (h : allSignals.filter (fun e => getBit (.wakeEvent e) v) = [.sram]) (hv : getBit .wakeVoluntary v = true) :
    wakeupOf v n = .ok (Config.freeWakeup n) := by
  simp [wakeupOf, h, hv]
theorem all_ones (f : CsrField) : getBit f 0xFFFFFFFF = true :=
  (by decide : ∀ p : BitVec 5, (0xFFFFFFFF : Word).getLsbD p.toNat = true) (Config.fieldLo f)
theorem witness_LocalCsrWriteTakes :
    (0 : Word) = (on (eng 0 0)).engine.gpr (on (eng 0 0)).engine.active (.rel .a 0) ∧
    (LocalCsr.ctxWakeupEvents 3).threadAccess = true ∧ wakeupOf 0 (on (eng 0 0)).free = .ok .voluntary ∧
    (on (eng 0 0)).engine.defer = none ∧ (on (eng 0 0)).engine.executing = true :=
  ⟨by decide, by decide, test_wakeup_of_zero _, by decide, by decide⟩
/-- A word that selects every event is refused. -/
theorem witness_LocalCsrWriteTakes_refused :
    (0xFFFFFFFF : Word) = (on (eng 0xFFFFFFFF 0)).engine.gpr 0 (.rel .a 0) ∧ SigEvent.pci ≠ .sram ∧
    getBit (.wakeEvent .sram) 0xFFFFFFFF = true ∧ getBit (.wakeEvent .pci) 0xFFFFFFFF = true :=
  ⟨by decide, by decide, all_ones _, all_ones _⟩
theorem witness_LocalCsrReadLatches : LocalCsr.ccEnable.threadAccess = true ∧ idle.engine.defer = none :=
  ⟨rfl, idle_no_defer⟩

theorem witness_SequencerNopsFlowControlAndSend :
    Instr.nop8 ∈ ([.nop1, .nop2, .nop3, .nop4, .nop5, .nop6, .nop7, .nop8] : List Instr) ∧
    (Instr.sendx8, 8) ∈ sendRows := by decide
theorem witness_ReadyFlagsCollected : (Instr.rxrdy6, 6, 6) ∈ rxrdyRows ∧ (Instr.txrdy0to6, 0, 6) ∈ txrdyRows := by decide

/-- A full GET_CMD array but for one place. -/
def sevenGot : State := { State.reset with fbi := { Fbi.reset with getCmd := [1, 2, 3, 4, 5, 6, 7] } }

theorem witness_GetAppends : (Instr.get1x1, 1) ∈ get1Rows ∧ (Instr.get2x1, 1) ∈ get2Rows ∧
    sevenGot.fbi.getCmd.length + 1 ≤ 8 ∧ (Instr.get1x2, 2) ∈ get1Rows ∧ (Instr.get2x2, 2) ∈ get2Rows ∧
    8 < sevenGot.fbi.getCmd.length + 2 := by decide

/-! Units: a command of thread 0, one longword written at the bottom of each memory. -/

def unitCmd (op : CmdOp) : Cmd :=
  { op := op, queue := .fast, me := 0, ctx := 0, xfMe := 0, sigMe := 0, sigCtx := 0, sig := none, chain := false, link := none }

/-- Eight bytes at the bottom of a memory. -/
def bytes8 : Mem := [(0, 1), (1, 0), (2, 0), (3, 0), (4, 1), (5, 0), (6, 0), (7, 0)]

/-- A memory's first eight bytes have been written. -/
theorem bytes8_written (b : Nat) (h : b < 8) : (bytes8.read b).isSome = true := by interval_cases b <;> decide

/-- The last SDRAM quadword and the last pair of registers, plain and masked. -/
theorem witness_SdramReadsAndWrites_write :
    (unitCmd (.sdramWrite 0x1FFFFFF 30 1 none)).op = .sdramWrite 0x1FFFFFF 30 1 none ∧
    (unitCmd (.sdramWrite 0x1FFFFFF 30 1 (some 0x80))).op = .sdramWrite 0x1FFFFFF 30 1 (some 0x80) ∧
    (unitCmd (.sdramWrite 0x1FFFFFE 28 2 (some 1))).op = .sdramWrite 0x1FFFFFE 28 2 (some 1) ∧
    8 * ((0x1FFFFFE : Word).toNat + 2) ≤ State.reset.board.sdramBytes ∧
    8 * ((0x1FFFFFF : Word).toNat + 1) ≤ State.reset.board.sdramBytes ∧ 30 + 2 * 1 ≤ 32 := by decide

/-- Every memory but the TFIFO and the BootROM holds eight bytes. -/
def holding8 : State :=
  { State.reset with
    sdram := { Sdram.reset with mem := bytes8 }
    sram := { Sram.reset with mem := bytes8 }
    fbi := { Fbi.reset with scratch := bytes8, rfifo := bytes8, getCmd := [7, 8] } }

theorem witness_SdramReadsAndWrites_read :
    (unitCmd (.sdramRead 0 30 1)).op = .sdramRead 0 30 1 ∧ 8 * ((0 : Word).toNat + 1) ≤ holding8.board.sdramBytes ∧
      30 + 2 * 1 ≤ 32 ∧
      ∀ b, 8 * (0 : Word).toNat ≤ b → b < 8 * ((0 : Word).toNat + 1) → (holding8.sdram.mem.read b).isSome = true :=
  ⟨rfl, by decide, by decide, fun b _ h => bytes8_written b (by simpa using h)⟩
/-- The last register for a read; the last SSRAM longword for a write. -/
theorem witness_SramReadsAndWrites :
    (unitCmd (.sramRead 0 30 2)).op = .sramRead 0 30 2 ∧ 4 * ((0 : Word).toNat + 2) ≤ holding8.board.sramBytes ∧
    (0 : Word).toNat + 2 ≤ 0x200000 ∧ 30 + 2 ≤ 32 ∧
    (∀ i, i < 2 → (holding8.sram.mem.readWord ((0 : Word).toNat + i)).isSome = true) ∧
    (unitCmd (.sramWrite 0x1FFFFF 31 1 (some 8))).op = .sramWrite 0x1FFFFF 31 1 (some 8) ∧
    4 * ((0x1FFFFF : Word).toNat + 1) ≤ holding8.board.sramBytes ∧ (0x1FFFFF : Word).toNat + 1 ≤ 0x200000 ∧
    (unitCmd (.sramWrite 0x1FFFFE 30 2 (some 8))).op = .sramWrite 0x1FFFFE 30 2 (some 8) ∧
    4 * ((0x1FFFFE : Word).toNat + 2) ≤ holding8.board.sramBytes := by decide

def sramHolding : State := { State.reset with sram := { Sram.reset with mem := bytes4 } }

theorem witness_SramBitOperation :
    (unitCmd (.sramBit 0 31 .testAndSet)).op = .sramBit 0 31 .testAndSet ∧
    4 * ((0 : Word).toNat + 1) ≤ sramHolding.board.sramBytes ∧ sramHolding.sram.mem.readWord 0 = some 1 ∧
    (sramHolding.me (unitCmd (.sramBit 0 31 .testAndSet)).xfMe).sramWr[31]? = some 0 := by decide
theorem witness_PushThenPop :
    (unitCmd (.sramPush 0x1FFFFF 7)).op = .sramPush 0x1FFFFF 7 ∧ (unitCmd (.sramPop 31 7)).op = .sramPop 31 7 ∧
    4 * ((0x1FFFFF : Word).toNat + 1) ≤ State.reset.board.sramBytes := by decide
theorem witness_LockCam :
    let s : State := { State.reset with sram := { Sram.reset with cam := [5], lockFail := List.replicate 22 (.strongArm 5) } }
    let t : State := { State.reset with sram := { Sram.reset with
      cam := [1, 2, 3, 4, 6, 7, 8, 9], lockFail := List.replicate 23 (.strongArm 5) } }
    (unitCmd (.sramReadLock 5 0 1)).op = .sramReadLock 5 0 1 ∧ 5 ∈ s.sram.cam ∧ s.sram.lockFail.length < 23 ∧
      8 ≤ t.sram.cam.length ∧ 23 ≤ t.sram.lockFail.length ∧ (unitCmd (.sramUnlock 5)).op = .sramUnlock 5 ∧
      4 * ((5 : Word).toNat + 1) ≤ s.board.sramBytes ∧ t.board = s.board := by decide
theorem witness_LockCam_outside :
    (unitCmd (.sramReadLock 0x1FFFFF 0 2)).op = .sramReadLock 0x1FFFFF 0 2 ∧
    (unitCmd (.sramWriteUnlock 0x1FFFFF 0 2)).op = .sramWriteUnlock 0x1FFFFF 0 2 ∧
    State.reset.board.sramBytes < 4 * ((0x1FFFFF : Word).toNat + 2) ∧
    (unitCmd (.sramUnlock 0x200000)).op = .sramUnlock 0x200000 ∧
    State.reset.board.sramBytes < 4 * ((0x200000 : Word).toNat + 1) := by decide
theorem witness_LockCam_granted :
    (unitCmd (.sramReadLock 0 30 2)).op = .sramReadLock 0 30 2 ∧ (0 : Word) ∉ holding8.sram.cam ∧
    holding8.sram.cam.length < 8 ∧ holding8.sram.lockFail = [] ∧
    4 * ((0 : Word).toNat + 2) ≤ holding8.board.sramBytes ∧ 30 + 2 ≤ 32 ∧
    (∀ i, i < 2 → (holding8.sram.mem.readWord ((0 : Word).toNat + i)).isSome = true) ∧
    (unitCmd (.sramWriteUnlock 0x1FFFFF 31 1)).op = .sramWriteUnlock 0x1FFFFF 31 1 ∧
    4 * ((0x1FFFFF : Word).toNat + 1) ≤ holding8.board.sramBytes ∧ 31 + 1 ≤ 32 := by decide
theorem witness_ScratchpadOperations :
    (unitCmd (.scratchRead 0 30 2)).op = .scratchRead 0 30 2 ∧
      (∀ i, i < 2 → (holding8.fbi.scratch.readWord ((0 : Word).toNat + i)).isSome = true) ∧
      (unitCmd (.scratchWrite 1022 30 2)).op = .scratchWrite 1022 30 2 ∧ 30 + 2 ≤ 32 ∧ (1022 : Word).toNat + 2 ≤ 1024 ∧
      1024 < (1023 : Word).toNat + 2 ∧ (unitCmd (.scratchIncr 0)).op = .scratchIncr 0 ∧ (0 : Word).toNat < 1024 ∧
      holding8.fbi.scratch.readWord (0 : Word).toNat = some 1 ∧
      (unitCmd (.scratchBit 0 31 .testAndClear)).op = .scratchBit 0 31 .testAndClear ∧
      (holding8.me 0).sramWr[31]? = some 0 := by decide
theorem witness_ScratchpadOperations_return :
    let c := unitCmd (.scratchBit 0 31 .testAndClear)
    ({ Fbi.reset with tasRet := [(c, 31, 5)] } : Fbi).tasRet = (c, 31, 5) :: [] ∧ 31 < 32 := by decide
/-- The last pair of a three hash command, and a new command at the head of the Hash queue. -/
theorem witness_HashResults :
    let c := unitCmd (.hash true 3 26)
    let s : State := { State.reset with fbi := { Fbi.reset with hashJob := some ⟨c, 2⟩ } }
    let u : State := { State.reset with fbi := { Fbi.reset with hashQ := [c] } }
    let v : State := { State.reset with fbi := { Fbi.reset with hashOut := [⟨c, 2, 7⟩] } }
    c.op = .hash true 3 26 ∧ 26 + 2 * 3 ≤ 32 ∧ 2 < 3 ∧ (s.me c.xfMe).sramWr[26 + 2 * 2]? = some 0 ∧
      (s.me c.xfMe).sramWr[26 + 2 * 2 + 1]? = some 0 ∧ s.fbi.hashJob = some ⟨c, 2⟩ ∧
      u.fbi.hashJob = none ∧ u.fbi.hashQ.head? = some c ∧
      v.fbi.tasRet = [] ∧ v.fbi.autopushWork = false ∧ v.fbi.hashOut = ⟨c, 2, 7⟩ :: [] := by decide
theorem witness_FifoTransfers :
    (unitCmd (.rFifoRd 0 30 1)).op = .rFifoRd 0 30 1 ∧ 30 + 2 * 1 ≤ 32 ∧
    (∀ i, i < 1 → (holding8.fbi.rfifo.readQuad ((0 : Word).toNat + i)).isSome = true) ∧
    (unitCmd (.tFifoWr 159 30 1)).op = .tFifoWr 159 30 1 ∧ (159 : Word).toNat + 1 ≤ 160 ∧ 160 < (160 : Word).toNat + 1 ∧
    (unitCmd (.sdramTFifo 0 1 127 0)).op = .sdramTFifo 0 1 127 0 ∧ 127 + 1 ≤ 128 ∧ 128 < 128 + 1 ∧
    (unitCmd (.sdramTFifo 0 0 127 7)).op = .sdramTFifo 0 0 127 7 ∧ (7 : BitVec 4).toNat ≤ 7 ∧
    (unitCmd (.sdramTFifo 0 0 127 7)).link = none ∧ holding8.sdram.bigEndian = false ∧
    (unitCmd (.sdramTFifo 0 1 127 15)).op = .sdramTFifo 0 1 127 15 ∧ 7 < (15 : BitVec 4).toNat ∧
    (unitCmd (.sdramTFifo 0 1 127 15)).link = none ∧ 8 * ((0 : Word).toNat + 1 + 1) ≤ holding8.board.sdramBytes ∧
    (∀ b, b < 8 * 1 → (holding8.sdram.mem.read (8 * (0 : Word).toNat + b)).isSome = true) ∧
    (unitCmd (.sdramRFifo 0x1FFFFFF 1 0)).op = .sdramRFifo 0x1FFFFFF 1 0 ∧
    8 * ((0x1FFFFFF : Word).toNat + 1) ≤ holding8.board.sdramBytes ∧
    (∀ b, b < 8 * 1 → (holding8.fbi.rfifo.read (8 * 0 + b)).isSome = true) := by decide
theorem witness_CsrService :
    (31 : Nat) < 32 ∧ (holding8.me 0).sramWr[31]? = some 0 ∧ FbiCsr.rdybusProg3 ∈ storedCsrs ∧
    (unitCmd (.csrWrite .rdybusProg3 31 1)).op = .csrWrite .rdybusProg3 31 1 ∧
    (unitCmd (.csrRead .rdybusProg3 31 1)).op = .csrRead .rdybusProg3 31 1 ∧
    holding8.fbi.rcvReq.length < 2 ∧ 2 ≤ ({ Fbi.reset with rcvReq := [1, 2] } : Fbi).rcvReq.length ∧
    holding8.fbi.lastSlow ≠ some (requestPort 0) ∧ holding8.fbi.rcvCntl = [] ∧
    (unitCmd (.csrRead .getCmd 30 2)).op = .csrRead .getCmd 30 2 ∧ 30 + 2 ≤ 32 ∧ 2 ≤ holding8.fbi.getCmd.length :=
  ⟨by decide, by decide, by decide, by decide, by decide, by decide, by decide, by simp [holding8, Fbi.reset], by decide,
    by decide, by decide, by decide⟩
theorem witness_CsrService_slow :
    let s : State := { State.reset with fbi := { Fbi.reset with lastSlow := some (requestPort 0) } }
    s.fbi.rcvReq.length < 2 ∧ getBit .rqFast 0 = false ∧ s.fbi.lastSlow = some (requestPort 0) :=
  ⟨by decide, by simp [getBit], rfl⟩
theorem witness_CsrService_head :
    let f : Fbi := { Fbi.reset with rcvCntl := [⟨5, 1, 3, false⟩, ⟨6, 2, 4, true⟩] }
    f.rcvCntl = ⟨5, 1, 3, false⟩ :: [⟨6, 2, 4, true⟩] ∧ (⟨5, 1, 3, false⟩ : RcvEntry).reads ≤ 1 := by decide
theorem witness_CompletionSignal :
    (unitCmd (.sramUnlock 5)).sig = none ∧ ({ unitCmd (.sramUnlock 5) with sig := some .sram } : Cmd).sig = some .sram := by
  decide
theorem witness_FastWriteFunctions : (3 : Word).toNat < 4 ∧ (31 : Word).toNat < 32 ∧ (23 : Word).toNat < 24 ∧
    24 ≤ (24 : Word).toNat ∧ Fbi.reset.fastEnabled = true ∧
    ({ Fbi.reset with rcvRdyCtl := 0x6000 } : Fbi).fastEnabled = false := by decide

/-! The core and the devices. -/

/-- Interrupts of the UART as the FIQ or the IRQ, with both lines open. -/
def uartPending (fiq : Bool) (cpsr : Word) : State :=
  { State.reset with
    sys := { Sys.reset with uartInt := true, uartFiq := fiq }
    arm := { Arm.reset with cpsr := cpsr } }

theorem any_uart (s : State) (f : Bool) (h : s.sys.uartInt = true) (hf : s.sys.uartFiq = f) :
    (s.lineRequests f).any (·.2) = true := by
  simp [State.lineRequests, h, hf]
theorem witness_ExceptionEntryAndReturn : ArmException.fiq ≠ .reset ∧ ArmException.dataAbort ≠ .reset := by decide
theorem witness_BoundaryExceptions_fiq :
    (uartPending true 0x10).fiqLine = true ∧ (uartPending true 0x10).arm.fiqMasked = false :=
  ⟨any_uart _ _ rfl rfl, by decide⟩
theorem witness_BoundaryExceptions_irq :
    (uartPending false 0x50).irqLine = true ∧ (uartPending false 0x50).arm.irqMasked = false ∧
      (uartPending false 0x50).arm.fiqMasked = true := ⟨any_uart _ _ rfl rfl, by decide, by decide⟩
theorem witness_BoundaryExceptions_masked :
    (uartPending true 0xD3).arm.irqMasked = true ∧ (uartPending true 0xD3).arm.fiqMasked = true := by decide
theorem witness_BoundaryExceptions_breakpoint :
    let s : State := { State.reset with arm := { Arm.reset with ibEnable := true, pc := 8, ibcr := 9 } }
    s.arm.resume = none ∧ s.armInterrupt false = none ∧ s.arm.ibEnable = true ∧
      (s.arm.pc &&& ~~~3) = (s.arm.ibcr &&& ~~~3) := by
  refine ⟨rfl, ?_, by decide, by decide⟩
  simp [State.armInterrupt, Arm.fiqMasked, Arm.irqMasked, Arm.reset]
theorem witness_TrapsAndPrivilege : (uartPending true 0x10).arm.mode = .usr ∧ State.reset.arm.mode ≠ .usr ∧
    (14 : BitVec 4) ≠ 15 := by decide
theorem witness_ControlWrite : getBit .cpEndian 0 = false ∧ (0 : Word).getLsbD 0 ≠ ({ Arm.reset with mmuOn := true } : Arm).mmuOn ∧
    (0 : Word).getLsbD 0 = Arm.reset.mmuOn ∧
    ¬(((4 : Word).getLsbD 0, (4 : Word).getLsbD 2, (4 : Word).getLsbD 3) = (false, false, false)) ∧
    ((4 : Word).getLsbD 0, (4 : Word).getLsbD 2, (4 : Word).getLsbD 3) = (false, true, false) :=
  ⟨by simp [getBit], by decide, by decide, by decide, by decide⟩
theorem witness_TimerTicks :
    let t : Timer := { Timer.reset with enable := true, value := 2 }
    Timer.reset.enable = false ∧ t.enable = true ∧ 1 < t.value.toNat ∧
      ({ t with value := 1 } : Timer).value = 1 ∧ ({ t with value := 0, periodic := true } : Timer).periodic = true ∧
      ({ t with value := 0 } : Timer).periodic = false := by decide
theorem witness_TimerTicks_watchdog :
    let s : State := { State.reset with pci := { Pci.reset with
      watchdog := true, timers := Vector.replicate 4 { Timer.reset with enable := true, value := 1 } } }
    s.pci.timers[3].enable = true ∧ s.pci.timers[3].value = 1 ∧ s.pci.watchdog = true := by decide
theorem witness_DoorbellAndUart :
    let y : Sys := { Sys.reset with uartEnable := true, uartTx := [7], uartRx := List.replicate 8 ⟨0, false, false, false⟩ }
    y.uartEnable = true ∧ getBit .uaBreak y.uartCr = false ∧ y.uartTx = [7] ∧ 8 ≤ y.uartRx.length ∧
      Sys.reset.uartRx.length < 8 ∧ Sys.reset.uartTx.length < 8 ∧
      8 ≤ ({ Sys.reset with uartTx := List.replicate 8 0 } : Sys).uartTx.length :=
  ⟨rfl, by simp [Sys.reset, getBit], rfl, by decide, by decide, by decide, by decide⟩

/-! StrongARM reads that wait, the prefetch window, and the slow port. -/

/-- The chip is bus master and idle. -/
def mastering : State := { State.reset with pci := { Pci.reset with busMaster := true } }

/-- R1007, R1016: of two loads, the first aborted and the second retried, the abort bit stays and the first load's Dword of
FFFF FFFF is kept; only the second is still to be made. -/
theorem test_retried_read_keeps_the_first :
    (match mastering.readLongs 0x60000000 ⟨[.masterAbort, .retry], false⟩ State.keepRead [] 2 with
      | .ok (.wait w s) => w == .retried && s.pci.masterAbort && s.arm.readSoFar == [255, 255, 255, 255]
      | _ => false) = true ∧
    (match mastering.readLongs 0x60000004 ⟨[.done [5] [false]], false⟩ State.keepRead [255, 255, 255, 255] 1 with
      | .ok (.done bs _ _) => bs == [255, 255, 255, 255, 5, 0, 0, 0]
      | _ => false) = true := by decide

/-- A read buffer entry of one word in a PCI window, its fill still to come. -/
def fillingEntry : ReadBuf := ⟨0x60000000, 1, [], false, true, 0x60000000, false⟩

/-- R1007: a retried fill is made again after its entry has been flushed, and the entry is then free; no load hits it. -/
theorem test_flushed_fill_is_repeated :
    (match ({ mastering with arm := { Arm.reset with
        rb := Arm.reset.rb.set 0 (some fillingEntry), rbQueue := [0] } } : State).readBufferFill [.retry] with
      | .ok s =>
        let t := s.withArm (s.arm.rbFlush 0)
        t.arm.rbQueue == [0] && (match t.arm.rbFind 0x60000000 4 with | .miss => true | _ => false)
          && match t.readBufferFill [.done [5] [false]] with
            | .ok u => u.arm.rbQueue == [] && u.arm.rb[0] == none && decide (u.outputs.length = t.outputs.length + 1)
            | _ => false
      | _ => false) = true := by decide

/-- D33: right after an access through the window a read there delivers what SDRAM holds; a later write leaves the older
contents a choice. -/
theorem test_window (d : Sdram) (m : Mem) (n x i : Nat) :
    d.windowUsed.windowByte n x i = d.mem.read (x + i) ∧ (d.windowUsed.store m).past = some [d.mem] := by
  refine ⟨?_, rfl⟩
  simp only [Sdram.windowByte, Sdram.seen, Sdram.windowUsed, Option.getD_some, List.length_singleton, Nat.mod_one,
    List.getD_cons_zero]
  cases d.mem.read (x + i) <;> rfl

/-- R999, R973: an I2O list write stops the stream of a delayed read as any write to SDRAM does. -/
theorem test_i2o_write_stops_stream :
    (({ Pci.reset with latch := some ⟨0, .memReadMultiple, false, none, false⟩ } : Pci).queueWrite (.i2oPost 8)).latch
      = some ⟨0, .memReadMultiple, false, none, true⟩ := by decide

/-- R884: a longword that the host offers is what the slow port delivers. -/
theorem test_slow_port : ((State.reset.slowOffer 4 [1, 2, 3, 4]).slowRead 4 4).1 = [1, 2, 3, 4] ∧
    (State.reset.slowOffer 0x200000 [1]).env.slow = [] := by decide

/-- R904, Table 8-4: a dirty line leaves the write buffer as one burst of eight longwords, a dirty half as one of four. -/
theorem test_line_eviction :
    let line (lo hi : Bool) : CacheLine := ⟨0, 0, 0, 0xC0000020, List.replicate 32 (some 7), lo, hi⟩
    wbNext (line true true).dirty = (some (0xC0000020, List.replicate 32 7), []) ∧
    wbNext (line false true).dirty = (some (0xC0000030, List.replicate 16 7), []) := by decide

/-- R904: a store multiple of eight longwords fills two entries, which leave as one burst; two of four longwords do not. -/
theorem test_store_multiple_burst :
    let stored (second : Bool) := (List.range 8).foldl (fun (c : Option Arm) i => c.bind fun c =>
      c.pushWb (0xC0000000 + 4 * i) [1, 2, 3, 4] (i != 0 && (second || i != 4))) (some Arm.reset)
    ((stored true).map fun c => ((wbNext c.wb).1.map (·.2.length), (wbNext c.wb).2.length)) = some (some 32, 0) ∧
    ((stored false).map fun c => ((wbNext c.wb).1.map (·.2.length), (wbNext c.wb).2.length)) = some (some 16, 1) := by decide

/-- R587, R736: while the value of a test is still to be pushed, the Pull Queue stands. -/
theorem test_pull_queue_waits (s : State) (c d : Cmd) (x : Nat) (old : Word) (rest : List Cmd)
    (h : s.fbi.tasRet = [(c, x, old)]) (hq : s.fbi.pullQ = d :: rest) (hh : s.fbi.hashQ = []) (hj : s.fbi.hashJob = none) :
    s.fbiPullStep = .ok s := by
  simp [State.fbiPullStep, hq, hh, hj, State.pullBlocked, h]

/-- R1052: an FIQ that was pending at a data abort is the very next step, whatever the handler's first instruction does. -/
theorem test_fiq_after_data_abort (s : State) (late : Bool) (turn : PciTurn) (h : s.arm.fiqDue = true) (hf : s.arm.fetching = none)
    (hi : s.armInterrupt false = some .fiq) : s.armBoundary late turn =
      .ok (s.withArm { s.arm.takeException .fiq s.arm.pc with fiqDue := false }) := by
  simp [State.armBoundary, h, hf, hi]

/-! Whole machine: the reset state with one event to come takes a step. -/

def ticking : State := { State.reset with inputs := [.cycleTick] }

theorem ticking_memoryOk : ticking.memoryOk := by
  refine ⟨?_, ?_, ?_, ?_, ?_, ?_, ?_, fun _ h => absurd h List.not_mem_nil⟩ <;> exact List.Pairwise.nil
theorem witness_StepKeepsMemoryCanonical : ticking.memoryOk ∧ ∃ t, step ticking = .next t := ⟨ticking_memoryOk, _, rfl⟩
theorem witness_StepKeepsFifoSizes : ticking.fifosOk ∧ ∃ t, step ticking = .next t :=
  ⟨by refine ⟨by decide, ?_⟩; decide, _, rfl⟩
theorem witness_MicroengineInstructionIsLocal : Instr.nop.isSeq = false ∧ ∃ t, exec .nop idle = .next t :=
  ⟨by decide, _, rfl⟩
theorem witness_SequencerInstructionIsLocal : Instr.nop1.isSeq = true ∧ ∃ t, exec .nop1 State.reset = .next t :=
  ⟨by decide, _, rfl⟩

end Sys2Proof.Tests
end

section
/-! Operations that may stop, and the reach of a microengine instruction (00_scope.md R10, R11). -/

namespace Sys2Proof.Machine

section
variable {α β : Type} {P : α → Prop} {Q : β → Prop}

/-! ### What an operation that may stop leaves -/

/-- Unless the operation stops, its result has `P`. -/
def Holds (P : α → Prop) : Res α → Prop
  | .ok a => P a
  | .error _ => True

theorem holds_iff {r : Res α} : Holds P r ↔ ∀ a, r = .ok a → P a := by
  cases r with
  | ok a => exact ⟨fun h b hb => by cases hb; exact h, fun h => h a rfl⟩
  | error e => exact ⟨fun _ _ h => (nomatch h), fun _ => trivial⟩

theorem Holds.ok {a : α} (h : P a) : Holds P (.ok a) := h

theorem Holds.of_ok {r : Res α} {a : α} (h : Holds P r) (hr : r = .ok a) : P a := holds_iff.1 h a hr

theorem Holds.mono {P' : α → Prop} {r : Res α} (h : Holds P r) (hi : ∀ a, P a → P' a) : Holds P' r :=
  holds_iff.2 fun a ha => hi a (h.of_ok ha)

/-- What comes after an operation may use what the operation leaves. -/
theorem Holds.bind {x : Res α} {f : α → Res β} (hx : Holds P x) (hf : ∀ a, P a → Holds Q (f a)) :
    Holds Q (x >>= f) := by
  cases x with
  | ok a => exact hf a hx
  | error e => trivial

/-- A check or a read that comes first leaves nothing that matters. -/
theorem Holds.after {x : Res α} {f : α → Res β} (hf : ∀ a, Holds Q (f a)) : Holds Q (x >>= f) :=
  Holds.bind (P := fun _ => True) (holds_iff.2 fun _ _ => trivial) fun a _ => hf a

theorem Holds.ite {c : Prop} [Decidable c] {x y : Res α} (hx : Holds P x) (hy : Holds P y) :
    Holds P (if c then x else y) := by
  split
  · exact hx
  · exact hy

theorem Holds.of_finish {P : State → Prop} {r : Res State} {t : State} (h : Holds P r) (ht : finish r = .next t) :
    P t := h.of_ok (finish_eq_next ht)

end

/-! ### The reach of a microengine instruction (R11, R530) -/

/-- The running engine and pending marks of the others alone changed. -/
def localStep (s t : State) : Prop :=
  unitsKept s t ∧ ∀ k, k ≠ s.cur → t.me k = { s.me k with pending := (t.me k).pending }

theorem localStep_refl (s : State) : localStep s s :=
  ⟨⟨rfl, fun _ => ⟨rfl, rfl, rfl, rfl, rfl, rfl⟩⟩, fun _ _ => rfl⟩

theorem localStep_of_othersKept {s t : State} (h : othersKept s t) : localStep s t := by
  obtain ⟨hunits, hothers⟩ := h
  exact ⟨hunits, fun k hk => by rw [hothers k hk]⟩

theorem localStep_putEngine (s : State) (e : Me) : localStep s (s.putEngine e) :=
  localStep_of_othersKept (othersKept_putEngine s e)

theorem localStep_retire (s : State) (m : Me) (r : Retire) : localStep s (s.retire m r) :=
  localStep_putEngine s _

theorem localStep_retireBranch (s : State) (m : Me) (r : Retire) (taken : Bool) (l : BitVec 12) (n : Fin 4) :
    Holds (localStep s) (s.retireBranch m r taken l n) :=
  .ite trivial (.ite (localStep_putEngine s _) (localStep_putEngine s _))

theorem localStep_retireSwap (s : State) (m : Me) (r : Retire) (act : DeferAct) (defer1 : Bool) :
    Holds (localStep s) (s.retireSwap m r act defer1) :=
  .ite trivial (.ite (localStep_putEngine s _) (localStep_putEngine s _))

/-- Marking a signal as requested changes pending marks alone (R78). -/
theorem markPending_me (s : State) (m : Fin 6) (c : Fin 4) (e : SigEvent) (k : Fin 6) :
    (s.markPending m c e).me k = { s.me k with pending := ((s.markPending m c e).me k).pending } := by
  by_cases hk : k = m
  · subst hk; simp [State.markPending]
  · simp only [State.markPending, State.setMe_me_ne _ _ hk]

/-- After the mark of the thread its command signals an instruction still reaches its own engine alone. -/
theorem localStep_of_markPending {s t : State} {m : Fin 6} {c : Fin 4} {e : SigEvent}
    (h : localStep (s.markPending m c e) t) : localStep s t := by
  obtain ⟨⟨hunits, hmem⟩, hothers⟩ := h
  refine ⟨⟨hunits, hmem⟩, fun k hk => ?_⟩
  rw [hothers k hk, markPending_me]

/-- A reference reaches its own engine's FIFO and the mark of the thread it signals (R530, R78). -/
theorem localStep_issue (s : State) (cmd : Cmd) (ev : SigEvent) (tok : RefTok) :
    Holds (localStep s) (s.issue cmd ev tok) := by
  unfold State.issue
  refine .ite trivial (.ite (localStep_refl s) (.ite trivial ?_))
  cases cmd.sig with
  | none => exact .ite (localStep_retireSwap s _ _ _ _) (localStep_retire s _ _)
  | some e =>
    refine Holds.mono (P := localStep (s.markPending cmd.sigMe cmd.sigCtx e)) ?_ fun _ => localStep_of_markPending
    exact .ite (localStep_retireSwap _ _ _ _ _) (localStep_retire _ _ _)

theorem localStep_hashRef (s : State) (is64 : Bool) (total : Nat) (x : Xfer) (tok : RefTok) :
    Holds (localStep s) (s.hashRef is64 total x tok) :=
  .after fun _ => localStep_issue s _ _ _

/-- Every microengine instruction retires on its own engine, or issues a command. -/
theorem exec_localStep (i : Instr) (s : State) (hi : i.isSeq = false) :
    ∃ r, exec i s = finish r ∧ Holds (localStep s) r := by
  cases i with
  | alu | aluShf | dblShf | findBsetWithMask =>
    exact ⟨_, rfl, .after fun _ => .after fun _ => localStep_retire s _ _⟩
  | findBset | ldField | ldFieldWClr => exact ⟨_, rfl, .after fun _ => localStep_retire s _ _⟩
  | immed | immedB0 | immedB1 | immedB2 | immedB3 | immedW0 | immedW1 | loadAddr | loadBsetResult1
  | loadBsetResult2 | nop | localCsrRd => exact ⟨_, rfl, .ok (localStep_retire s _ _)⟩
  | localCsrWr => exact ⟨_, rfl, .after fun _ => localStep_putEngine s _⟩
  | br | brEq0 | brNe0 | brGt0 | brGe0 | brLt0 | brLe0 | brCout | brNotCout | brEqCtx | brNeCtx | brInpState
  | brNotSignal => exact ⟨_, rfl, localStep_retireBranch s _ _ _ _ _⟩
  | brBset | brBclr | brEqByte | brNeByte => exact ⟨_, rfl, .after fun _ => localStep_retireBranch s _ _ _ _ _⟩
  | jump | rtn => exact ⟨_, rfl, .after fun _ => .after fun _ => localStep_retireBranch s _ _ _ _ _⟩
  | ctxArb => exact ⟨_, rfl, localStep_retireSwap s _ _ _ _⟩
  | csr rw =>
    refine ⟨_, rfl, .after fun _ => ?_⟩
    cases rw <;> exact localStep_issue s _ _ _
  | fastWr | pciDma => exact ⟨_, rfl, localStep_issue s _ _ _⟩
  | rFifoRd | tFifoWr | scratch | sdram | sram =>
    exact ⟨_, rfl, .after fun _ => .after fun _ => localStep_issue s _ _ _⟩
  | hash1x48 | hash2x48 | hash3x48 | hash1x64 | hash2x64 | hash3x64 => exact ⟨_, rfl, localStep_hashRef s _ _ _ _⟩
  | _ => exact absurd hi (by decide)

/-- Settles O59: every microengine instruction ends in one of the shared retirements, each of which is local. -/
theorem microengineInstructionIsLocal : Obligations.MicroengineInstructionIsLocal := by
  intro i s t hi ht
  obtain ⟨r, hr, hlocal⟩ := exec_localStep i s hi
  exact hlocal.of_finish (hr ▸ ht)

/-! ### The fetch of a microengine step (R53, R401) -/

theorem fetchMe_beyond (s : State) (m : Fin 6) (h : s.board.ustoreWords ≤ (s.me m).pc.toNat) :
    s.fetchMe m = .error (.fault (.pcOutOfStore (s.me m).pc.toNat)) := by
  simp [State.fetchMe, h]

theorem fetchMe_unwritten (s : State) (m : Fin 6) (h : (s.me m).pc.toNat < s.board.ustoreWords)
    (hget : ustoreGet (s.me m).pc.toNat (s.me m).ustore = none) :
    s.fetchMe m = .error (.fault (.unwrittenStore (s.me m).pc.toNat)) := by
  simp [State.fetchMe, Nat.not_le.2 h, hget]

theorem fetchMe_raw (s : State) (m : Fin 6) (w : Word) (h : (s.me m).pc.toNat < s.board.ustoreWords)
    (hget : ustoreGet (s.me m).pc.toNat (s.me m).ustore = some (.raw w)) :
    s.fetchMe m = .error (.fault (.illegalWord w)) := by
  simp [State.fetchMe, Nat.not_le.2 h, hget]

/-- An instruction in the store is fetched, or is the word it encodes to where this chip's store has none for it. -/
theorem fetchMe_instr (s : State) (m : Fin 6) (i : Instr) (h : (s.me m).pc.toNat < s.board.ustoreWords)
    (hget : ustoreGet (s.me m).pc.toNat (s.me m).ustore = some (.instr i)) :
    s.fetchMe m = if i.wfIn s.board.ustoreWords && !i.isSeq then .ok i
      else .error (.fault (.illegalWord (Config.meEncode i))) := by
  simp [State.fetchMe, Nat.not_le.2 h, hget]

section
variable {s : State} {m : Fin 6} {rest : List Event} (hin : s.inputs = .me m :: rest)
  (hreset : (s.me m).inReset = false) (hrun : (s.me m).executing = true)
include hin

/-- The step of a microengine with a running context is that of the state without the event. -/
theorem step_me : step s = ({ s with inputs := rest } : State).meStep m := by
  simp only [step, State.nextEvent, hin, State.run]

include hreset hrun

theorem step_me_of_fetched {i : Instr} (h : s.fetchMe m = .ok i) :
    step s = exec i { s with inputs := rest, cur := m } := by
  have hme : ({ s with inputs := rest } : State).me m = s.me m := rfl
  have hfetch : ({ s with inputs := rest } : State).fetchMe m = .ok i := h
  simp [step_me hin, State.meStep, hme, hreset, hrun, hfetch]

theorem step_me_of_fault {f : Fault} (h : s.fetchMe m = .error (.fault f)) : step s = .fault f := by
  have hme : ({ s with inputs := rest } : State).me m = s.me m := rfl
  have hfetch : ({ s with inputs := rest } : State).fetchMe m = .error (.fault f) := h
  simp [step_me hin, State.meStep, hme, hreset, hrun, hfetch]

end

/-- Settles O4: the step is the fetch at the running context's program counter, and then the instruction found there. -/
theorem stepRunsMicroengineInstruction : Obligations.StepRunsMicroengineInstruction := by
  intro s m rest hin hreset hrun
  refine ⟨fun hpc => step_me_of_fault hin hreset hrun (fetchMe_beyond s m hpc), fun hpc => ⟨fun i hi => ⟨?_, ?_⟩,
    fun hnone => step_me_of_fault hin hreset hrun (fetchMe_unwritten s m hpc hnone),
    fun w hw => step_me_of_fault hin hreset hrun (fetchMe_raw s m w hpc hw)⟩⟩
  · intro hwf hseq
    exact step_me_of_fetched hin hreset hrun (by simp [fetchMe_instr s m i hpc hi, hwf, hseq])
  · intro hbad
    have hno : (i.wfIn s.board.ustoreWords && !i.isSeq) = false := by
      rcases hbad with h | h <;> simp [h]
    exact step_me_of_fault hin hreset hrun (by simp [fetchMe_instr s m i hpc hi, hno])

end Sys2Proof.Machine
end

section
/-! The canonical form of every memory (00_scope.md R10, 10_state.md R128): what keeps it, for each operation of the
microengines, the FBI, SDRAM and SRAM Units, and for the resets. -/

namespace Sys2Proof.Machine

/-! ### The memories of each unit -/

def Fbi.memOk (f : Fbi) : Prop := f.scratch.wf ∧ f.rfifo.wf ∧ f.tfifo.wf
def Sdram.memOk (d : Sdram) : Prop := d.mem.wf ∧ ∀ m ∈ d.past.getD [], m.wf
def Sram.memOk (r : Sram) : Prop := r.mem.wf ∧ r.boot.wf

theorem memoryOk_iff (s : State) :
    s.memoryOk ↔ s.fbi.memOk ∧ s.sdram.memOk ∧ s.sram.memOk ∧ s.env.slow.wf := by
  simp only [State.memoryOk, Fbi.memOk, Sdram.memOk, Sram.memOk]
  tauto

section
variable {s : State} (h : s.memoryOk)
include h

theorem State.memoryOk.fbi : s.fbi.memOk := ((memoryOk_iff s).1 h).1
theorem State.memoryOk.sdram : s.sdram.memOk := ((memoryOk_iff s).1 h).2.1
theorem State.memoryOk.sram : s.sram.memOk := ((memoryOk_iff s).1 h).2.2.1
theorem State.memoryOk.slow : s.env.slow.wf := ((memoryOk_iff s).1 h).2.2.2

end

section
variable {s : State}

theorem State.memoryOk.withFbi {f : Fbi} (h : s.memoryOk) (hf : f.memOk) : (s.withFbi f).memoryOk :=
  (memoryOk_iff _).2 ⟨hf, h.sdram, h.sram, h.slow⟩
theorem State.memoryOk.withSdram {d : Sdram} (h : s.memoryOk) (hd : d.memOk) : (s.withSdram d).memoryOk :=
  (memoryOk_iff _).2 ⟨h.fbi, hd, h.sram, h.slow⟩
theorem State.memoryOk.withSram {r : Sram} (h : s.memoryOk) (hr : r.memOk) : (s.withSram r).memoryOk :=
  (memoryOk_iff _).2 ⟨h.fbi, h.sdram, hr, h.slow⟩

/-- A step that keeps the units keeps their memories. -/
theorem State.memoryOk.of_unitsKept {t : State} (h : s.memoryOk) (ht : unitsKept s t) : t.memoryOk := by
  obtain ⟨ht, -⟩ := ht
  rw [ht]
  exact h

end

/-- An operation that may stop keeps the memories canonical. -/
abbrev Kept (r : Res State) : Prop := Holds State.memoryOk r

/-- An operation that delivers a value too. -/
abbrev KeptWith {α : Type} (r : Res (α × State)) : Prop := Holds (fun p => p.2.memoryOk) r

/-! ### Microengines: signals, transfer registers, local CSRs -/

section
variable {s : State}

theorem memoryOk_completed {c : Cmd} (h : s.memoryOk) : (s.completed c).memoryOk := by
  rw [State.completed_eq]; exact h

theorem kept_armCsrRead {m : Fin 6} {k : LocalCsr} (h : s.memoryOk) : KeptWith (s.armCsrRead m k) := by
  cases k with
  | aluOutput => exact .after fun _ => h
  | ustoreData =>
    refine .after fun _ => ?_
    split <;> exact h
  | _ => exact h

theorem kept_armCsrWrite {m : Fin 6} {k : LocalCsr} {v : Word} (h : s.memoryOk) : Kept (s.armCsrWrite m k v) := by
  cases k with
  | aluOutput => trivial
  | ustoreAddress => exact .after fun _ => .after fun _ => h
  | ctxEnables => exact .ite h (.after fun _ => h)
  | _ => exact .after fun _ => h

/-! ### FBI registers -/

theorem memoryOk_signalHead (h : s.memoryOk) : s.signalHead.memoryOk := by
  unfold State.signalHead
  split
  · exact h
  · dsimp only; split <;> exact h

theorem memoryOk_incrEnq {p : Fin 2} (h : s.memoryOk) : (s.incrEnq p).memoryOk := by
  unfold State.incrEnq
  dsimp only; split <;> exact h

theorem kept_readRcvCntl (h : s.memoryOk) : KeptWith s.readRcvCntl := by
  unfold State.readRcvCntl
  split
  · trivial
  · exact .ite (memoryOk_signalHead h) h

theorem kept_fbiRead {reg : FbiCsr} {cnt : Nat} (h : s.memoryOk) : KeptWith (s.fbiRead reg cnt) := by
  cases reg with
  | rcvCntl => exact .bind (kept_readRcvCntl h) fun _ hp => hp
  | _ => exact h

theorem kept_interThread {v : Nat} (h : s.memoryOk) : Kept (s.interThread v) := by
  unfold State.interThread
  split
  · exact h
  · trivial

theorem kept_writeTemplate {v : Word} (h : s.memoryOk) : Kept (s.writeTemplate v) := by
  unfold State.writeTemplate
  refine .ite ?_ h
  split
  · trivial
  · exact h

theorem kept_fbiPlain {reg : FbiCsr} {ws : List Word} (h : s.memoryOk) : ∀ r ∈ s.fbiPlain reg ws, Kept r := by
  intro r hr
  cases reg with
  | rcvReq => cases hr; exact .after fun _ => .after fun _ => h
  | rdybusTemplateCtl => cases hr; exact kept_writeTemplate h
  | sendCmd => cases hr; exact .after fun _ => h
  | interThdSig => cases hr; exact kept_interThread h
  | incrEnqNum1 | incrEnqNum2 | xmitValidate | threadDone | threadDoneIncr1 | threadDoneIncr2 | selfDestruct =>
    cases hr
  | _ => cases hr; exact h

theorem kept_fastWrite {reg : FastReg} {t : Nat} {d : Word} (h : s.memoryOk) : Kept (s.fastWrite reg t d) := by
  cases reg with
  | interThdSig => exact kept_interThread h
  | threadDoneIncr1 | threadDoneIncr2 => exact memoryOk_incrEnq h
  | incrEnqNum1 | incrEnqNum2 => exact memoryOk_incrEnq h
  | selfDestruct => exact .ite h trivial
  | _ => exact h

theorem kept_fbiWrite {reg : FbiCsr} {ws : List Word} {t : Nat} (h : s.memoryOk) : Kept (s.fbiWrite reg ws t) := by
  unfold State.fbiWrite
  split
  · next hr => exact kept_fbiPlain h _ hr
  · exact kept_fastWrite h
  · exact h

theorem kept_armFbiRead {reg : FbiCsr} (h : s.memoryOk) : KeptWith (s.armFbiRead reg) :=
  .after fun _ => .ite h (.bind (kept_fbiRead h) fun _ hp => hp)

theorem kept_armFbiWrite {reg : FbiCsr} {v : Word} (h : s.memoryOk) : Kept (s.armFbiWrite reg v) := by
  refine .after fun _ => .ite h ?_
  cases hr : s.fbiPlain reg [v] with
  | none => exact h
  | some r => exact kept_fbiPlain h _ hr

/-! ### FBI engines -/

theorem memoryOk_scratchPut {a v : Word} (h : s.memoryOk) : (s.scratchPut a v).memoryOk := by
  obtain ⟨hscratch, hrfifo, htfifo⟩ := h.fbi
  exact h.withFbi ⟨Mem.writeWord_wf _ _ hscratch, hrfifo, htfifo⟩

theorem kept_pullServe {c : Cmd} (h : s.memoryOk) : Kept (s.pullServe c) := by
  obtain ⟨hscratch, hrfifo, htfifo⟩ := h.fbi
  unfold State.pullServe
  split
  · exact .bind (kept_fbiWrite h) fun _ ht => memoryOk_completed ht
  · exact .after fun _ => memoryOk_completed (h.withFbi ⟨Mem.writeWords_wf _ _ hscratch, hrfifo, htfifo⟩)
  · refine .after fun _ => .ite ?_ ?_
    · exact (memoryOk_scratchPut h).withFbi (memoryOk_scratchPut h).fbi
    · exact memoryOk_completed (memoryOk_scratchPut h)
  · exact .after fun _ => memoryOk_completed (memoryOk_scratchPut h)
  · exact .after fun _ => memoryOk_completed (h.withFbi ⟨hscratch, hrfifo, Mem.writeQuads_wf _ _ htfifo⟩)
  · exact h

theorem kept_fbiPullStep (h : s.memoryOk) : Kept s.fbiPullStep := by
  unfold State.fbiPullStep
  split
  · split <;> exact h
  · split <;> exact h
  · exact .ite h (kept_pullServe h)
  · exact h

theorem memoryOk_autopushTo {t : Fin 24} {ctl : Word} {ws : List Word} {sig : Bool} (h : s.memoryOk) :
    (s.autopushTo t ctl ws sig).memoryOk := by
  unfold State.autopushTo
  dsimp only; split <;> exact h

theorem memoryOk_autopushStep (h : s.memoryOk) : s.autopushStep.memoryOk := by
  unfold State.autopushStep
  dsimp only
  split
  · split
    · exact h
    · exact (memoryOk_autopushTo h).withFbi h.fbi
  · split
    · split
      · exact h
      · exact (memoryOk_autopushTo h).withFbi h.fbi
    · exact h

theorem memoryOk_pushHash {o : HashOut} (h : s.memoryOk) : (s.pushHash o).memoryOk := by
  unfold State.pushHash
  split
  · dsimp only
    split
    · exact memoryOk_completed h
    · exact h
  · exact h

theorem kept_pushServe {c : Cmd} (h : s.memoryOk) : Kept (s.pushServe c) := by
  unfold State.pushServe
  split
  · exact .bind (kept_fbiRead h) fun p hp => memoryOk_completed (s := p.2.pushSram _ _ _) hp
  · exact .after fun _ => .after fun _ => memoryOk_completed h
  · exact .after fun _ => .after fun _ => memoryOk_completed h
  · exact h

theorem kept_fbiPushStep (h : s.memoryOk) : Kept s.fbiPushStep := by
  unfold State.fbiPushStep
  split
  · exact memoryOk_completed h
  · refine .ite (memoryOk_autopushStep h) ?_
    split
    · exact memoryOk_pushHash h
    · exact kept_pushServe h
    · exact h

theorem memoryOk_pushRcvCntl {e : RcvEntry} (h : s.memoryOk) : (s.pushRcvCntl e).memoryOk := by
  unfold State.pushRcvCntl
  dsimp only
  split
  · exact memoryOk_signalHead h
  · exact h

theorem memoryOk_statusArrives {rq : Word} {e : RcvEntry} {status : Quad} (h : s.memoryOk) :
    (s.statusArrives rq e status).memoryOk := by
  obtain ⟨hscratch, hrfifo, htfifo⟩ := h.fbi
  exact memoryOk_pushRcvCntl ((memoryOk_iff _).2
    ⟨⟨hscratch, storeStatus_wf _ _ hrfifo, htfifo⟩, h.sdram, h.sram, h.slow⟩)

/-- The sequence numbers of a fast port request touch no memory. -/
theorem memOk_sequenceIf {f : Fbi} {c : Prop} [Decidable c] {p : Fin 2} {sop : Bool} (hf : f.memOk) :
    (if c then f.sequence p sop else f).memOk := by
  unfold Fbi.sequence
  split
  · split <;> exact hf
  · exact hf

/-- The thread assignment of a fast port request touches no memory. -/
theorem memOk_assignIf {f : Fbi} {c : Prop} [Decidable c] {p : Fin 2} {tid : BitVec 5} {sop : Bool} (hf : f.memOk) :
    (if c then f.assign p tid sop else (tid, f)).2.memOk := by
  unfold Fbi.assign
  dsimp only
  repeat' split
  all_goals exact hf

theorem memoryOk_receiveData {rq : Word} {rx : RxData} {free : Word} (h : s.memoryOk) :
    (s.receiveData rq rx free).memoryOk := by
  obtain ⟨hscratch, hrfifo, htfifo⟩ := h.fbi
  have hstored : Fbi.memOk { s.fbi with rfifo := storeReceived s.fbi.rfifo rq 0 (rx.quads.take (requestQuads rq)) } :=
    ⟨hscratch, storeReceived_wf _ _ _ hrfifo, htfifo⟩
  have hdone := h.withFbi (memOk_assignIf (c := getBit .rqFast rq) (p := fastPort rq)
    (tid := getField .rqThread 5 rq) (sop := rx.sop) (memOk_sequenceIf (c := getBit .rqFast rq) (p := fastPort rq)
      (sop := rx.sop) hstored))
  unfold State.receiveData
  dsimp only
  split
  · exact memoryOk_pushRcvCntl hdone
  · split
    · exact hdone
    · exact memoryOk_statusArrives hdone

theorem memoryOk_receiveRequest {rq : Word} {rx : RxData} (h : s.memoryOk) : (s.receiveRequest rq rx).memoryOk := by
  have h2 : (s.draw .rcvCntl).2.memoryOk := h
  unfold State.receiveRequest
  dsimp only
  split
  · exact memoryOk_pushRcvCntl h2
  · exact memoryOk_receiveData h2

theorem memoryOk_receiveStep {rx : RxData} (h : s.memoryOk) : (s.receiveStep rx).memoryOk := by
  unfold State.receiveStep
  split
  · exact h
  · split
    · exact memoryOk_statusArrives h
    · exact memoryOk_statusArrives h
    · exact memoryOk_receiveRequest h
    · exact h

theorem kept_transmitStep (h : s.memoryOk) : Kept s.transmitStep :=
  .ite h (.after fun _ => .ite h (.after fun _ => h))

end

end Sys2Proof.Machine
end

section
/-! The canonical form of every memory, continued: the SDRAM and SRAM Units, the command bus, the resets and the Ready
Bus sequencer. -/

namespace Sys2Proof.Machine

section
variable {s : State}

/-! ### SDRAM Unit -/

theorem memOk_store {d : Sdram} {m : Mem} (hd : d.memOk) (hm : m.wf) : (d.store m).memOk := by
  obtain ⟨hmem, hpast⟩ := hd
  exact ⟨hm, Sdram.store_past_wf d m hmem hpast⟩

theorem memOk_windowUsed {d : Sdram} (hd : d.memOk) : d.windowUsed.memOk := by
  obtain ⟨hmem, -⟩ := hd
  exact ⟨hmem, fun _ hm => nomatch hm⟩

theorem memOk_setQueue {d : Sdram} {q : UnitQueue} {cs : List Cmd} (hd : d.memOk) : (d.setQueue q cs).memOk := by
  unfold Sdram.setQueue
  split <;> exact hd

theorem memOk_joinChain {d : Sdram} {c : Cmd} {q : UnitQueue} (hd : d.memOk) : (d.joinChain c q).memOk := by
  rw [Sdram.joinChain_eq]; exact hd

theorem memOk_enqueue {d : Sdram} {c : Cmd} (hd : d.memOk) : (d.enqueue c).memOk := memOk_setQueue hd

theorem memOk_secondValid {f : Fbi} {addr : Nat} {sig : Bool} (hf : f.memOk) : (f.secondValid addr sig).memOk := by
  unfold Fbi.secondValid
  split <;> exact hf

theorem memoryOk_windowRead {k : Nat} (h : s.memoryOk) : (s.windowRead k).memoryOk :=
  h.withSdram (memOk_windowUsed h.sdram)

theorem kept_alignOut {res : Option Residue} {a : Word} {c : Nat} {align : BitVec 4} (h : s.memoryOk) :
    Holds (fun p => p.2.2.memoryOk) (s.alignOut res a c align) :=
  .ite (.after fun _ => h) h

theorem memoryOk_sdramPut {a : Nat} {qs : List Quad} {mask : Option Byte} (h : s.memoryOk) :
    (s.sdramPut a qs mask).memoryOk := by
  obtain ⟨mem, n, heq, -, hmem⟩ := State.sdramPut_eq s a qs mask
  rw [heq]
  exact h.withSdram (memOk_store h.sdram (hmem h.sdram.1))

theorem kept_sdramServe {c : Cmd} (h : s.memoryOk) : Kept (s.sdramServe c) := by
  unfold State.sdramServe
  split
  · exact .after fun _ => .after fun _ => memoryOk_completed h
  · exact .after fun _ => memoryOk_completed (memoryOk_sdramPut h)
  · refine .after fun _ => .bind (kept_alignOut h) fun p hp => ?_
    obtain ⟨hscratch, hrfifo, htfifo⟩ := hp.fbi
    exact memoryOk_completed ((memoryOk_iff _).2
      ⟨memOk_secondValid ⟨hscratch, hrfifo, Mem.writeQuads_wf _ _ htfifo⟩, hp.sdram, hp.sram, hp.slow⟩)
  · exact .after fun _ => .after fun _ =>
      memoryOk_completed (h.withSdram (memOk_store h.sdram (Mem.writeQuads_wf _ _ h.sdram.1)))
  · exact h

theorem kept_sdramFrom {q : UnitQueue} (h : s.memoryOk) : Kept (s.sdramFrom q) := by
  unfold State.sdramFrom
  split
  · exact h
  · exact .bind (kept_sdramServe (h.withSdram (memOk_joinChain (memOk_setQueue h.sdram)))) fun _ ht => ht

theorem kept_sdramPosted (h : s.memoryOk) : Kept s.sdramPosted := by
  unfold State.sdramPosted
  split
  · exact h
  · next p rest _ =>
    have hd := memOk_store (d := { s.sdram.granted .amba (p.addr / 8) with posted := rest }) h.sdram
      (Mem.writeBytes_wf p.bytes p.addr h.sdram.1)
    refine .after fun _ => .ok (h.withSdram ?_)
    split
    · exact memOk_windowUsed hd
    · exact hd

theorem kept_sdramStep (h : s.memoryOk) : Kept s.sdramStep := by
  unfold State.sdramStep
  refine .ite h ?_
  split
  · split
    · exact kept_sdramFrom h
    · exact h
  · split
    · exact kept_sdramPosted h
    · exact kept_sdramFrom h
    · split
      · exact kept_sdramFrom h
      · exact h

theorem memoryOk_sdramInitDone (h : s.memoryOk) : s.sdramInitDone.memoryOk := by
  unfold State.sdramInitDone
  split <;> exact h

theorem memOk_csrWrite {d : Sdram} {r : SdramCsr} {v : Word} (hd : d.memOk) : (d.csrWrite r v).memOk := by
  unfold Sdram.csrWrite
  split
  · dsimp only; split <;> exact hd
  all_goals exact hd

/-! ### SRAM Unit -/

theorem memOk_turn {r : Sram} {k : SramSide} (hr : r.memOk) : (r.turn k).memOk := by
  unfold Sram.turn
  split <;> exact hr

theorem kept_ssramWrite {a : Nat} {v : Word} (h : s.memoryOk) : Kept (s.ssramWrite a v) := by
  obtain ⟨hmem, hboot⟩ := h.sram
  exact .after fun _ => h.withSram ⟨Mem.writeWord_wf _ _ hmem, hboot⟩

theorem memoryOk_sramCsrRead {k : SramCsr} (h : s.memoryOk) : (s.sramCsrRead k).2.memoryOk := by
  cases k <;> exact h

theorem kept_sramCsrWrite {who : Option (Fin 6 × Fin 4)} {k : SramCsr} {v : Word} (h : s.memoryOk) :
    Kept (s.sramCsrWrite who k v) := by
  cases k with
  | autoBase | autoEnd => exact .after fun _ => h
  | autoPtr => exact .ite (.bind (kept_ssramWrite h) fun _ ht => ht) h
  | _ => exact h

theorem memoryOk_bootPut {x : Nat} {bs : List Byte} (h : s.memoryOk) : (s.bootPut x bs).memoryOk := by
  obtain ⟨hmem, hboot⟩ := h.sram
  refine State.memoryOk.withSram (s := { s with outputs := _ }) h ?_
  split
  · exact ⟨hmem, Mem.writeBytes_wf _ _ hboot⟩
  · exact ⟨hmem, hboot⟩

theorem memoryOk_bootHalves {x : Nat} {bs : List Byte} (h : s.memoryOk) : (s.bootHalves x bs).memoryOk := by
  fun_induction State.bootHalves s x bs with
  | case1 s x b0 b1 _ _ rest ih => exact ih (memoryOk_bootPut h)
  | case2 => exact h
  | case3 => exact memoryOk_bootPut h

theorem memoryOk_bootWrite {x : Nat} {bs : List Byte} (h : s.memoryOk) : (s.bootWrite x bs).memoryOk := by
  unfold State.bootWrite
  split
  · exact memoryOk_bootHalves h
  · exact memoryOk_bootPut h

theorem memoryOk_bootLong {v : Word} (h : s.memoryOk) : (s.bootLong v).2.memoryOk := by
  unfold State.bootLong
  split <;> exact h

theorem kept_sramLongRead {w : Nat} (h : s.memoryOk) : KeptWith (s.sramLongRead w) := by
  refine .ite (.after fun _ => h) (.ite (.after fun _ => .after fun _ => memoryOk_bootLong h) (.ite ?_ (.ite h trivial)))
  split
  · exact memoryOk_sramCsrRead h
  · trivial

theorem kept_sramLongWrite {who : Option (Fin 6 × Fin 4)} {w : Nat} {v : Word} (h : s.memoryOk) :
    Kept (s.sramLongWrite who w v) := by
  refine .ite (kept_ssramWrite h) (.ite (.after fun _ => memoryOk_bootWrite h) (.ite ?_ (.ite h trivial)))
  split
  · exact kept_sramCsrWrite h
  · trivial

theorem kept_sramReads {w n : Nat} (h : s.memoryOk) : KeptWith (s.sramReads w n) := by
  induction n generalizing s w with
  | zero => exact h
  | succ n ih => exact .bind (kept_sramLongRead h) fun _ hp => .bind (ih hp) fun _ hq => hq

theorem kept_sramWrites {who : Option (Fin 6 × Fin 4)} {w : Nat} {vs : List Word} (h : s.memoryOk) :
    Kept (s.sramWrites who w vs) := by
  induction vs generalizing s w with
  | nil => exact h
  | cons v vs ih => exact .bind (kept_sramLongWrite h) fun _ ht => ih ht

theorem kept_lockWait {w : LockWaiter} (h : s.memoryOk) : Kept (s.lockWait w) := .ite h trivial

theorem kept_lockRead {c : Cmd} {a : Word} {x cnt : Nat} (h : s.memoryOk) : Kept (s.lockRead c a x cnt) :=
  .after fun _ => .after fun _ => memoryOk_completed h

theorem kept_retryHead {w : LockWaiter} {rest : List LockWaiter} (h : s.memoryOk) : Kept (s.retryHead w rest) := by
  have ht : (s.withSram { s.sram.turn .read with lockFail := rest }).memoryOk := h.withSram (memOk_turn h.sram)
  unfold State.retryHead
  dsimp only
  split
  · split
    · exact kept_lockRead ht
    · exact ht
  · exact ht

theorem kept_sramBits {a : Nat} {op : BitOp} {m : Word} (h : s.memoryOk) : KeptWith (s.sramBits a op m) :=
  .after fun _ => .bind (kept_ssramWrite h) fun _ ht => ht

theorem kept_pop {k : Fin 8} (h : s.memoryOk) : KeptWith (s.pop k) := .after fun _ => h

theorem kept_push {k : Fin 8} {m : Word} (h : s.memoryOk) : Kept (s.push k m) :=
  .bind (kept_ssramWrite h) fun _ ht => ht

theorem kept_sramPut {who : Option (Fin 6 × Fin 4)} {w : Nat} {vs : List Word} {mask : Option Byte} (h : s.memoryOk) :
    Kept (s.sramPut who w vs mask) := by
  obtain ⟨hmem, hboot⟩ := h.sram
  unfold State.sramPut
  split
  · exact kept_sramWrites h
  · exact .ite (.after fun _ => h.withSram ⟨Mem.writeMasked_wf _ _ _ hmem, hboot⟩)
      (.bind (kept_sramLongRead h) fun _ hp => kept_sramLongWrite hp)
  · exact kept_sramWrites h

theorem kept_sramServe {c : Cmd} (h : s.memoryOk) : Kept (s.sramServe c) := by
  obtain ⟨hmem, hboot⟩ := h.sram
  unfold State.sramServe
  split
  · exact .bind (kept_sramReads h) fun p hp => memoryOk_completed (s := p.2.pushSram _ _ _) hp
  · exact .bind (kept_sramPut h) fun _ ht => memoryOk_completed ht
  · refine .bind (kept_sramBits h) fun p hp => memoryOk_completed ?_
    split <;> exact hp
  · exact .after fun _ => .ite (kept_lockWait h) (kept_lockRead h)
  · exact .after fun _ => memoryOk_completed (h.withSram ⟨Mem.writeWords_wf _ _ hmem, hboot⟩)
  · exact .after fun _ => memoryOk_completed h
  · exact .bind (kept_push h) fun _ ht => memoryOk_completed ht
  · exact .bind (kept_pop h) fun p hp => memoryOk_completed (s := p.2.pushSram _ _ _) hp
  · exact h

theorem memoryOk_sramHasRead {w : SramWindow} (h : s.memoryOk) : (s.sramHasRead w).memoryOk := by
  rw [State.sramHasRead_eq]; exact h

theorem kept_sramArmWrite {a : Nat} {bs : List Byte} (h : s.memoryOk) : Kept (s.sramArmWrite a bs) := by
  obtain ⟨hmem, hboot⟩ := h.sram
  unfold State.sramArmWrite
  split
  · exact .after fun _ => memoryOk_bootWrite h
  · exact .after fun _ => h.withSram ⟨Mem.writeBytes_wf _ _ hmem, hboot⟩
  · exact .after fun _ => h.withSram ⟨Mem.writeBytes_wf _ _ hmem, hboot⟩
  · exact .after fun _ => h
  · refine .bind (kept_sramBits h) fun p hp => .ok ?_
    split <;> exact hp
  · exact kept_push h
  · exact kept_sramCsrWrite h
  · exact h
  all_goals trivial

theorem kept_sramArmRead {a n : Nat} (h : s.memoryOk) : KeptWith (s.sramArmRead a n) := by
  unfold State.sramArmRead
  split
  · exact .after fun _ => .after fun _ => h
  · exact .after fun _ => .after fun _ => h
  · exact .after fun _ => .ite (.bind (kept_lockWait h) fun _ ht => ht) h
  · exact .bind (kept_pop h) fun _ hp => hp
  · exact memoryOk_sramCsrRead h
  · exact h
  all_goals trivial

theorem memOk_afterOrder {r : Sram} {c : Cmd} (hr : r.memOk) : (r.afterOrder c).memOk := by
  unfold Sram.afterOrder
  dsimp only
  repeat' split
  all_goals exact hr

theorem memOk_afterRead {r : Sram} (hr : r.memOk) : r.afterRead.memOk := by
  unfold Sram.afterRead
  dsimp only
  repeat' split
  all_goals exact hr

theorem kept_sramQueues (h : s.memoryOk) : Kept s.sramQueues := by
  unfold State.sramQueues
  dsimp only
  split
  · exact kept_sramServe (h.withSram (memOk_afterOrder h.sram))
  · exact kept_sramServe (h.withSram (memOk_afterRead h.sram))
  · exact kept_sramServe (h.withSram (memOk_afterRead h.sram))
  · exact kept_sramServe (h.withSram (memOk_afterOrder h.sram))
  · exact h

theorem kept_sramServeNext (h : s.memoryOk) : Kept s.sramServeNext := by
  unfold State.sramServeNext
  dsimp only
  split
  · exact kept_sramArmWrite (h.withSram (memOk_turn h.sram))
  · exact kept_sramServe (h.withSram (memOk_turn h.sram))
  · exact kept_sramQueues h

theorem kept_sramStep (h : s.memoryOk) : Kept s.sramStep := by
  unfold State.sramStep
  split
  · exact .ite (kept_retryHead h) (kept_sramServeNext h)
  · exact kept_sramServeNext h

/-! ### Command bus -/

theorem kept_pciRequest {c : Cmd} {x : Nat} {orderQueue : Bool} (h : s.memoryOk) :
    Kept (s.pciRequest c x orderQueue) :=
  .after fun _ => .after fun _ => .ite h trivial

theorem kept_deliver {c : Cmd} (h : s.memoryOk) : Kept (s.deliver c) := by
  unfold State.deliver
  split
  case h_4 => split <;> [exact kept_fastWrite h; exact h]
  case h_5 => split <;> [exact kept_pciRequest h; exact h]
  case h_6 | h_7 | h_8 | h_9 => exact h.withSdram (memOk_enqueue h.sdram)
  all_goals exact h

theorem kept_busStep {m : Fin 6} (h : s.memoryOk) : Kept (s.busStep m) := by
  unfold State.busStep
  split
  · exact h
  · exact .ite h (kept_deliver h)

/-! ### Resets -/

theorem memoryOk_chipReset (h : s.memoryOk) : s.chipReset.memoryOk := by
  obtain ⟨-, hboot⟩ := h.sram
  exact (memoryOk_iff _).2 ⟨⟨.nil, .nil, .nil⟩, ⟨.nil, fun _ hm => nomatch hm⟩, ⟨.nil, hboot⟩, h.slow⟩

theorem memoryOk_setMeReset {m : Fin 6} {on : Bool} (h : s.memoryOk) : (s.setMeReset m on).memoryOk := by
  unfold State.setMeReset
  split
  · split <;> exact h
  · exact h

theorem memoryOk_setMeResets {w : Word} (h : s.memoryOk) : (s.setMeResets w).memoryOk :=
  List.foldlRecOn _ _ h fun _ ht _ _ => memoryOk_setMeReset ht

theorem memoryOk_setSdramReset {on : Bool} (h : s.memoryOk) : (s.setSdramReset on).memoryOk := by
  unfold State.setSdramReset
  split
  · refine h.withSdram ⟨?_, fun _ hm => nomatch hm⟩
    dsimp only
    split
    · exact h.sdram.1
    · exact .nil
  · exact h

theorem memoryOk_writeReset {v : Word} (h : s.memoryOk) : (s.writeReset v).memoryOk := by
  unfold State.writeReset
  split
  · exact memoryOk_chipReset h
  · exact memoryOk_setSdramReset (memoryOk_setMeResets h)

theorem memoryOk_pciRst (h : s.memoryOk) : s.pciRst.memoryOk := by
  unfold State.pciRst
  split
  · exact h
  · exact memoryOk_chipReset h

/-! ### Ready Bus sequencer -/

/-- A sequencer instruction keeps the memories of the FBI Unit if its own effect does. -/
theorem memOk_seqRun {n : Nat} {g : Fbi → Fbi} (h : s.memoryOk) (hg : ∀ f : Fbi, f.memOk → (g f).memOk) :
    (s.seqRun n g).fbi.memOk := by
  have hbegin : s.fbi.seqBegin.memOk := by
    unfold Fbi.seqBegin
    dsimp only
    split <;> exact h.fbi
  rw [State.seqRun_fbi]
  unfold Fbi.seqNext
  dsimp only
  split <;> exact hg _ hbegin

theorem memoryOk_seqRun {n : Nat} {g : Fbi → Fbi} (h : s.memoryOk) (hg : ∀ f : Fbi, f.memOk → (g f).memOk) :
    (s.seqRun n g).memoryOk :=
  h.withFbi (memOk_seqRun h hg)

theorem memOk_capture {f : Fbi} (hf : f.memOk) : f.capture.memOk := by
  unfold Fbi.capture
  split <;> exact hf

theorem memoryOk_seqNop {n : Nat} (h : s.memoryOk) : (s.seqNop n).memoryOk := memoryOk_seqRun h fun _ hf => hf

theorem memoryOk_rxrdy {a b : Nat} (h : s.memoryOk) : (s.rxrdy a b).memoryOk :=
  memoryOk_seqRun h fun _ hf => memOk_capture hf

theorem memoryOk_txrdy {a b : Nat} (h : s.memoryOk) : (s.txrdy a b).memoryOk :=
  memoryOk_seqRun h fun _ hf => memOk_capture hf

theorem memoryOk_rxAutopush (h : s.memoryOk) : s.rxAutopush.memoryOk :=
  memoryOk_seqRun h fun f hf => by dsimp only; split <;> exact hf

theorem memoryOk_txAutopush (h : s.memoryOk) : s.txAutopush.memoryOk :=
  memoryOk_seqRun h fun f hf => by dsimp only; split <;> exact hf

theorem memoryOk_flwctl (h : s.memoryOk) : s.flwctl.memoryOk := by
  unfold State.flwctl
  split
  · refine (memoryOk_iff _).2 ⟨?_, h.sdram, h.sram, h.slow⟩
    dsimp only
    exact memOk_seqRun h fun _ hf => hf
  · exact memoryOk_seqRun h fun _ hf => hf

theorem kept_get1 {n : Nat} (h : s.memoryOk) : Kept (s.get1 n) := by
  refine .after fun _ => .ok ((memoryOk_iff _).2 ⟨?_, h.sdram, h.sram, h.slow⟩)
  dsimp only
  exact memOk_seqRun h fun _ hf => hf

theorem kept_get2 {n : Nat} (h : s.memoryOk) : Kept (s.get2 n) := by
  refine .after fun _ => .ok ((memoryOk_iff _).2 ⟨?_, h.sdram, h.sram, h.slow⟩)
  dsimp only
  exact memOk_seqRun h fun _ hf => hf

theorem memoryOk_send {n : Nat} (h : s.memoryOk) : (s.send n).memoryOk := by
  refine (memoryOk_iff _).2 ⟨?_, h.sdram, h.sram, h.slow⟩
  exact memOk_seqRun (g := fun f => { f with sendCmd := (takeWords n s.fbi.sendCmd).2 }) h fun _ hf => hf

/-- Every instruction of the Ready Bus sequencer keeps every memory canonical. -/
theorem exec_seq_kept {i : Instr} (h : s.memoryOk) (hi : i.isSeq = true) : ∃ r, exec i s = finish r ∧ Kept r := by
  cases i with
  | nop1 | nop2 | nop3 | nop4 | nop5 | nop6 | nop7 | nop8 => exact ⟨_, rfl, .ok (memoryOk_seqNop h)⟩
  | rxrdy0 | rxrdy0to1 | rxrdy0to2 | rxrdy0to3 | rxrdy0to4 | rxrdy0to5 | rxrdy0to6 | rxrdy1 | rxrdy1to2 | rxrdy1to3
  | rxrdy1to4 | rxrdy1to5 | rxrdy1to6 | rxrdy2 | rxrdy2to3 | rxrdy2to4 | rxrdy2to5 | rxrdy2to6 | rxrdy3 | rxrdy3to4
  | rxrdy3to5 | rxrdy3to6 | rxrdy4 | rxrdy4to5 | rxrdy4to6 | rxrdy5 | rxrdy5to6 | rxrdy6 =>
    exact ⟨_, rfl, .ok (memoryOk_rxrdy h)⟩
  | txrdy0 | txrdy0to1 | txrdy0to2 | txrdy0to3 | txrdy0to4 | txrdy0to5 | txrdy0to6 | txrdy1 | txrdy1to2 | txrdy1to3
  | txrdy1to4 | txrdy1to5 | txrdy1to6 | txrdy2 | txrdy2to3 | txrdy2to4 | txrdy2to5 | txrdy2to6 | txrdy3 | txrdy3to4 | txrdy3to5 | txrdy3to6
  | txrdy4 | txrdy4to5 | txrdy4to6 | txrdy5 | txrdy5to6 | txrdy6 =>
    exact ⟨_, rfl, .ok (memoryOk_txrdy h)⟩
  | rxAutopush => exact ⟨_, rfl, .ok (memoryOk_rxAutopush h)⟩
  | txAutopush => exact ⟨_, rfl, .ok (memoryOk_txAutopush h)⟩
  | flwctl => exact ⟨_, rfl, .ok (memoryOk_flwctl h)⟩
  | get1x1 | get1x2 | get1x3 | get1x4 | get1x5 | get1x6 | get1x7 | get1x8 => exact ⟨_, rfl, kept_get1 h⟩
  | get2x1 | get2x2 | get2x3 | get2x4 | get2x5 | get2x6 | get2x7 | get2x8 => exact ⟨_, rfl, kept_get2 h⟩
  | sendx1 | sendx2 | sendx3 | sendx4 | sendx5 | sendx6 | sendx7 | sendx8 =>
    exact ⟨_, rfl, .ok (memoryOk_send h)⟩
  | _ => exact absurd hi Bool.false_ne_true

/-- Every instruction, of a microengine or of the sequencer, keeps every memory canonical. -/
theorem exec_kept {i : Instr} {t : State} (h : s.memoryOk) (ht : exec i s = .next t) : t.memoryOk := by
  cases hi : i.isSeq with
  | true =>
    obtain ⟨r, hr, hkept⟩ := exec_seq_kept h hi
    exact hkept.of_finish (hr ▸ ht)
  | false =>
    obtain ⟨r, hr, hlocal⟩ := exec_localStep i s hi
    obtain ⟨hunits, -⟩ := hlocal.of_finish (hr ▸ ht)
    exact h.of_unitsKept hunits

end

end Sys2Proof.Machine
end

section
/-! The canonical form of every memory, continued: the PCI Unit, its bus, the system registers, and the StrongARM core's
physical map. -/

namespace Sys2Proof.Machine

section
variable {s : State}

/-! ### PCI Unit -/

theorem memoryOk_pciRegRead {r : PciReg} (h : s.memoryOk) : (s.pciRegRead r).2.memoryOk := by
  cases r <;> exact h

theorem kept_chanWrite {arm : Bool} {n : Fin 2} {c : Chan} (h : s.memoryOk) : Kept (s.chanWrite arm n c) :=
  .after fun _ => h

theorem kept_pciRegWrite {arm : Bool} {r : PciReg} {v mask : Word} (h : s.memoryOk) :
    Kept (s.pciRegWrite arm r v mask) := by
  cases r with
  | reset => exact memoryOk_writeReset h
  | dmaMode => exact .after fun _ => h
  | byteCount | chanPci | chanDram | chanDesc | chanControl => exact kept_chanWrite h
  | inbFreeCount | inbPostCount | outbPostCount => exact .after fun _ => h
  | _ => exact h

theorem memoryOk_timerTick {n : Fin 4} (h : s.memoryOk) : (s.timerTick n).memoryOk := by
  unfold State.timerTick
  dsimp only
  split
  · exact memoryOk_chipReset h
  · exact h

theorem kept_pciSdramRead {x n : Nat} (h : s.memoryOk) : KeptWith (s.pciSdramRead x n) :=
  .after fun _ => .after fun _ => h

theorem kept_pciSdramPut {x n : Nat} {mem : Mem} (h : s.memoryOk) (hm : mem.wf) : Kept (s.pciSdramPut x n mem) :=
  .after fun _ => h.withSdram (memOk_store h.sdram hm)

theorem kept_pciSdramWrite {x : Nat} {bs : List Byte} (h : s.memoryOk) : Kept (s.pciSdramWrite x bs) :=
  kept_pciSdramPut h (Mem.writeBytes_wf _ _ h.sdram.1)

theorem kept_dmaFetch {n : Fin 2} (h : s.memoryOk) : Kept (s.dmaFetch n) :=
  .after fun _ => .bind (kept_pciSdramRead h) fun _ hp => hp

theorem memoryOk_dmaFinish {n : Fin 2} (h : s.memoryOk) : (s.dmaFinish n).memoryOk := by
  unfold State.dmaFinish
  dsimp only
  repeat' split
  all_goals exact h

theorem memoryOk_writeParity {ps : List Bool} (h : s.memoryOk) : (s.writeParity ps).2.memoryOk := by
  unfold State.writeParity
  split <;> exact h

theorem memoryOk_readParity {ps : List Bool} (h : s.memoryOk) : (s.readParity ps).memoryOk := by
  unfold State.readParity
  dsimp only
  repeat' split
  all_goals exact h

theorem memoryOk_pciNoFrame (h : s.memoryOk) : s.pciNoFrame.memoryOk := by
  rw [State.pciNoFrame_eq]; exact h

theorem kept_dmaOut {n : Fin 2} (h : s.memoryOk) : Kept (s.dmaOut n) :=
  .bind (kept_pciSdramRead h) fun _ hp => hp

theorem memoryOk_dmaArrive {n : Fin 2} {ws : List Word} {ps : List Bool} (h : s.memoryOk) :
    (s.dmaArrive n ws ps).memoryOk :=
  memoryOk_readParity (ps := ps) h

theorem memoryOk_dmaIn {n : Fin 2} {ans : PciAns} (h : s.memoryOk) : (s.dmaIn n ans).memoryOk := by
  cases ans with
  | done | disconnectAfter => exact memoryOk_dmaArrive h
  | _ => exact h

theorem kept_dmaStep {n : Fin 2} {ans : PciAns} (h : s.memoryOk) : Kept (s.dmaStep n ans) :=
  .ite h (.ite (memoryOk_dmaFinish h) (.ite (.ite (kept_dmaFetch h) h)
    (.after fun _ => .ite (.ite (kept_dmaOut h) h) (.ite (memoryOk_dmaIn h) h))))

theorem memoryOk_dmaAlloc {n : Fin 2} (h : s.memoryOk) : (s.dmaAlloc n).memoryOk := by
  unfold State.dmaAlloc
  split
  · exact h
  · split <;> exact h

/-! ### The PCI bus -/

theorem memoryOk_pciSideRead {r : Option PciReg} (h : s.memoryOk) : (s.pciSideRead r).2.memoryOk := by
  unfold State.pciSideRead
  split
  · split
    · exact h
    · exact memoryOk_pciRegRead h
  · exact h

theorem kept_pciSideWrite {r : Option PciReg} {d : Word × BitVec 4} (h : s.memoryOk) : Kept (s.pciSideWrite r d) := by
  unfold State.pciSideWrite
  split
  · exact .ite h (kept_pciRegWrite h)
  · exact h

theorem memoryOk_targetParity {ps : List Bool} (h : s.memoryOk) : (s.targetParity ps).memoryOk := by
  unfold State.targetParity
  dsimp only
  repeat' split
  all_goals exact h

theorem memoryOk_answerWrite {t : PciTxn} {k : Nat} (h : s.memoryOk) : (s.answerWrite t k).memoryOk :=
  memoryOk_targetParity h

theorem kept_targetRegWrite {t : PciTxn} {r : Option PciReg} (h : s.memoryOk) : Kept (s.targetRegWrite t r) := by
  unfold State.targetRegWrite
  split
  · exact memoryOk_answerWrite h
  · exact .bind (kept_pciSideWrite h) fun _ ht => memoryOk_answerWrite ht

theorem memoryOk_targetRegRead {t : PciTxn} {r : Option PciReg} (h : s.memoryOk) : (s.targetRegRead t r).memoryOk :=
  memoryOk_pciSideRead (r := r) h

theorem memoryOk_streamed {l : ReadLatch} {done : Nat} {more : List Word} (h : s.memoryOk) :
    (s.streamed l done more).memoryOk := by
  unfold State.streamed
  split <;> exact h

theorem kept_delayedRead {t : PciTxn} {i2o : Bool} (h : s.memoryOk) : Kept (s.delayedRead t i2o) := by
  unfold State.delayedRead
  split
  · exact h
  · refine .ite h ?_
    split
    · exact h
    · refine .ite (.ok ?_) h
      exact memoryOk_streamed (s := ((s.withPci { s.pci with latch := none }).draw .pciAccept).2) h

theorem memoryOk_targetDramWrite {t : PciTxn} {x : Nat} (h : s.memoryOk) : (s.targetDramWrite t x).memoryOk := by
  unfold State.targetDramWrite
  generalize (if t.addr.extractLsb' 0 2 = 0 then t.data.length else min 1 t.data.length) = most
  dsimp only
  split
  · exact h
  · exact memoryOk_answerWrite h

theorem memoryOk_targetI2oWrite {t : PciTxn} {post : Bool} (h : s.memoryOk) : (s.targetI2oWrite t post).memoryOk := by
  unfold State.targetI2oWrite
  split <;> exact memoryOk_answerWrite h

theorem kept_targetCsr {t : PciTxn} (h : s.memoryOk) : Kept (s.targetCsr t) :=
  .ite (.ite (memoryOk_targetI2oWrite h) (.ite (memoryOk_targetI2oWrite h) (kept_targetRegWrite h)))
    (.ite (kept_delayedRead h) (memoryOk_targetRegRead h))

theorem kept_targetIo {t : PciTxn} (h : s.memoryOk) : Kept (s.targetIo t) :=
  .ite (kept_targetRegWrite h) (memoryOk_targetRegRead h)

theorem memoryOk_addressParity {t : PciTxn} (h : s.memoryOk) : (s.addressParity t).memoryOk := by
  unfold State.addressParity
  dsimp only
  repeat' split
  all_goals exact h

theorem kept_pciClaim {t : PciTxn} (h : s.memoryOk) : Kept (s.pciClaim t) := by
  have ha : (s.addressParity t).memoryOk := memoryOk_addressParity h
  unfold State.pciClaim
  refine .ite h ?_
  dsimp only
  split
  case h_1 | h_2 => exact .ite (.ite (kept_targetRegWrite ha) (memoryOk_targetRegRead ha)) ha
  case h_3 | h_4 => exact .ite (kept_targetIo ha) ha
  case h_10 | h_11 | h_12 => exact ha
  all_goals
    refine .ite (kept_targetCsr ha) ?_
    split
    · exact .ite (memoryOk_targetDramWrite ha) (kept_delayedRead ha)
    · exact ha

theorem kept_pciTarget {t : PciTxn} (h : s.memoryOk) : Kept (s.pciTarget t) := .ite (kept_pciClaim h) h

theorem kept_latchRead {l : ReadLatch} (h : s.memoryOk) : Kept (s.latchRead l) := by
  unfold State.latchRead
  split
  · exact h
  · exact .after fun _ => h

theorem kept_i2oRead {l : ReadLatch} (h : s.memoryOk) : Kept (s.i2oRead l) :=
  .ite (.ite h (.bind (kept_pciSdramRead h) fun _ hp => hp)) (.ite h (.bind (kept_pciSdramRead h) fun _ hp => hp))

theorem kept_pciInbound (h : s.memoryOk) : Kept s.pciInbound := by
  unfold State.pciInbound
  refine .ite h ?_
  dsimp only
  split
  · exact h
  · exact .bind (kept_pciSdramPut h (writeDwords_wf _ _ h.sdram.1)) fun _ ht => ht
  · exact .bind (kept_pciSdramWrite h) fun _ ht => ht
  · exact .after fun _ => .bind (kept_pciSdramWrite h) fun _ ht => ht
  · exact .bind (kept_pciSdramWrite h) fun _ ht => ht
  · split
    · exact .ite (kept_i2oRead h) (kept_latchRead h)
    · exact h

theorem memoryOk_discardTimer (h : s.memoryOk) : s.discardTimer.memoryOk := by
  unfold State.discardTimer
  split
  · split <;> exact h
  · exact h

theorem kept_pciPost {o : Outbound} (h : s.memoryOk) : Kept (s.pciPost o) := .after fun _ => h

theorem memoryOk_tellChan {o : Outbound} {f : Chan → Chan} (h : s.memoryOk) : (s.tellChan o f).memoryOk := by
  unfold State.tellChan
  split <;> exact h

theorem memoryOk_delivered {o : Outbound} {rest : List Outbound} {k : Nat} {ps : List Bool} (h : s.memoryOk) :
    (s.delivered o rest k ps).memoryOk := by
  have hp : (s.writeParity (ps.take k)).2.memoryOk := memoryOk_writeParity h
  exact memoryOk_tellChan hp

theorem memoryOk_pciOutbound {ans : PciAns} (h : s.memoryOk) : (s.pciOutbound ans).memoryOk := by
  unfold State.pciOutbound
  split
  · exact h
  · dsimp only
    split
    · exact h
    · split
      · split <;> exact h
      · split
        · exact memoryOk_delivered h
        · exact h
        · split
          · exact h
          · exact memoryOk_delivered h
        · exact memoryOk_tellChan h
        · exact memoryOk_tellChan h

theorem memoryOk_noteWait {w : Wait} (h : s.memoryOk) : (s.noteWait w).memoryOk := by
  rw [State.noteWait_eq]; exact h

/-- A load from the PCI bus touches no memory; where it waits, nothing changes. -/
theorem kept_pciLoad {cmd : PciCmd} {addr : Word} {en : BitVec 4} {turn : PciTurn} (h : s.memoryOk) :
    Holds (fun r => ∀ p, r = .ok p → p.2.memoryOk) (s.pciLoad cmd addr en turn) := by
  refine .after fun _ => .ite (.ok fun p hp => nomatch hp) (.ite (.ok fun p hp => nomatch hp) ?_)
  dsimp only
  split
  · exact .ok fun p hp => by cases hp; exact memoryOk_readParity h
  · exact .ok fun p hp => by cases hp; exact memoryOk_readParity h
  · exact .ok fun p hp => by cases hp; exact h
  · exact .ok fun p hp => by cases hp; exact h
  all_goals exact .ok fun p hp => nomatch hp

/-! ### System registers -/

theorem memoryOk_uartTransmit (h : s.memoryOk) : s.uartTransmit.memoryOk := by
  unfold State.uartTransmit
  dsimp only
  repeat' split
  all_goals exact h

theorem memoryOk_sysRead {r : SysReg} (h : s.memoryOk) : (s.sysRead r).2.memoryOk := by
  cases r with
  | uartDr =>
    show s.uartRead.2.memoryOk
    unfold State.uartRead
    split <;> exact h
  | _ => exact h

theorem memoryOk_sysWrite {r : SysReg} {v : Word} (h : s.memoryOk) : (s.sysWrite r v).memoryOk := by
  cases r <;> exact h

end

end Sys2Proof.Machine
end

section
/-! The canonical form of every memory, continued: the accesses of the StrongARM core through its physical map, its
translation buffers, caches and buffers (R310, R672 to R683). -/

namespace Sys2Proof.Machine

section
variable {α β : Type} {s : State}

/-! ### Accesses of the core -/

/-- The state an access leaves, done or not. -/
def Access.state : Access α → State
  | .done _ s _ | .abort _ s | .wait _ s | .reset s => s

/-- An access of the core keeps the memories canonical, done or not. -/
abbrev KeptAccess (r : Res (Access α)) : Prop := Holds (fun a => a.state.memoryOk) r

theorem Holds.accessBind {r : Res (Access α)} {f : α → State → PciTurn → Res (Access β)} (hr : KeptAccess r)
    (hf : ∀ v {t : State} ans, t.memoryOk → KeptAccess (f v t ans)) : KeptAccess (Access.bind r f) := by
  cases r with
  | error e => trivial
  | ok a =>
    cases a with
    | done v t ans => exact hf v ans hr
    | abort | wait | reset => exact hr

/-- Of two checks the one that applies comes first. -/
theorem Holds.afterEither {P : α → Prop} {c : Prop} [Decidable c] {x y : Res Unit} {f : Unit → Res α}
    (hf : ∀ u, Holds P (f u)) : Holds P (if c then x >>= f else y >>= f) := .ite (.after hf) (.after hf)

/-! ### PCI windows (R315) -/

theorem memoryOk_pciAddress {k : PciSpace} {pa : Nat} (h : s.memoryOk) : (s.pciAddress k pa).2.memoryOk := by
  cases k <;> exact h

theorem keptAccess_armPciRead {pa n : Nat} {ans : PciTurn} (h : s.memoryOk) : KeptAccess (s.armPciRead pa n ans) := by
  unfold State.armPciRead
  split
  · exact h
  · exact .afterEither fun _ => memoryOk_pciRegRead h
  · refine .after fun _ => .bind (kept_pciLoad (memoryOk_pciAddress h)) fun r hr => ?_
    cases r with
    | ok p => exact hr p rfl
    | error w => exact h

theorem keptAccess_armPciWrite {pa : Nat} {bs : List Byte} {ans : PciTurn} (h : s.memoryOk) :
    KeptAccess (s.armPciWrite pa bs ans) := by
  unfold State.armPciWrite
  dsimp only
  split
  · exact h
  · exact .afterEither fun _ => .bind (kept_pciRegWrite h) fun _ ht => .ite ht ht
  · exact .after fun _ => .bind (kept_pciPost (memoryOk_pciAddress h)) fun _ ht => ht

/-! ### The ATU, SDRAM and the whole map (R310) -/

theorem kept_atuRead {w : AtuWindow} (h : s.memoryOk) : KeptWith (s.atuRead w) := by
  cases w with
  | localCsr => exact kept_armCsrRead h
  | xfer => exact h
  | fbi => exact kept_armFbiRead h
  | scratch => exact .after fun _ => h
  | reserved => trivial

theorem kept_atuWrite {w : AtuWindow} {v : Word} (h : s.memoryOk) : Kept (s.atuWrite w v) := by
  cases w with
  | localCsr => exact kept_armCsrWrite h
  | xfer => exact h
  | fbi => exact kept_armFbiWrite h
  | scratch => exact memoryOk_scratchPut h
  | reserved => trivial

theorem keptAccess_armSdramRead {x n : Nat} {fetch : Bool} {ans : PciTurn} (h : s.memoryOk) :
    KeptAccess (s.armSdramRead x n fetch ans) :=
  .after fun _ => .after fun _ => .ite h (.ite (.after fun _ => memoryOk_windowRead h) (.after fun _ => h))

theorem keptAccess_armSdramWrite {x : Nat} {bs : List Byte} {fetch : Bool} {ans : PciTurn} (h : s.memoryOk) :
    KeptAccess (s.armSdramWrite x bs fetch ans) :=
  .after fun _ => .after fun _ => .ite h h

theorem keptAccess_armRead {pa n : Nat} {ans : PciTurn} (h : s.memoryOk) : KeptAccess (s.armRead pa n ans) := by
  unfold State.armRead
  refine .ite ?sram (.ite (keptAccess_armPciRead h) (.ite ?sys (.ite (.after fun _ => h) (.ite ?atu
    (.ite (keptAccess_armSdramRead h) ?csr)))))
  case sram =>
    exact .afterEither fun _ => .ite h (.bind (kept_sramArmRead h) fun _ hp => memoryOk_sramHasRead hp)
  case sys =>
    split
    · exact h
    · exact .after fun _ => memoryOk_sysRead h
  case atu =>
    generalize atuWindow pa = w
    split
    · exact h
    · exact .after fun _ => .bind (kept_atuRead h) fun _ hp => hp
  case csr =>
    split
    · exact h
    · exact .after fun _ => .ite h h

theorem keptAccess_armWrite {pa : Nat} {bs : List Byte} {ans : PciTurn} (h : s.memoryOk) :
    KeptAccess (s.armWrite pa bs ans) := by
  unfold State.armWrite
  refine .ite ?sram (.ite (keptAccess_armPciWrite h) (.ite ?sys (.ite (.after fun _ => h) (.ite ?atu
    (.ite (keptAccess_armSdramWrite h) ?csr)))))
  case sram =>
    have hturn : (s.withSram (s.sram.turn .order)).memoryOk := h.withSram (memOk_turn h.sram)
    exact .after fun _ => .afterEither fun _ => .ite h (.ite (.bind (kept_sramArmWrite hturn) fun _ ht => ht) h)
  case sys =>
    split
    · exact h
    · exact .after fun _ => memoryOk_sysWrite h
  case atu =>
    generalize atuWindow pa = w
    split
    · exact h
    · exact .after fun _ => .bind (kept_atuWrite h) fun _ ht => ht
  case csr =>
    split
    · exact h
    · exact .after fun _ => .ite h (h.withSdram (memOk_csrWrite h.sdram))

/-! ### Translation (R672, R673) -/

theorem keptAccess_walk {va : Word} {ans : PciTurn} (h : s.memoryOk) : KeptAccess (s.walk va ans) := by
  unfold State.walk
  refine .accessBind (.ite (keptAccess_armRead h) h) fun d1 {t} ans ht => ?_
  split
  · exact ht
  · exact ht
  · have hread := fun a2 => keptAccess_armRead (pa := a2) (n := 4) (ans := ans) ht
    split
    · next heq => exact ((hread _).of_ok heq :)
    · refine .accessBind (hread _) fun d2 {u} ans hu => ?_
      split <;> exact hu

theorem keptAccess_checked {e : TlbEntry} {va : Word} {m : BitVec 5} {k : AccessKind} {ans : PciTurn}
    (h : s.memoryOk) : KeptAccess (s.checked e va m k ans) := .ite h h

theorem keptAccess_translate {va : Word} {m : BitVec 5} {mmu : Bool} {k : AccessKind} {ans : PciTurn}
    (h : s.memoryOk) : KeptAccess (s.translate va m mmu k ans) := by
  unfold State.translate
  refine .ite h ?_
  split
  · exact keptAccess_checked h
  · exact .accessBind (keptAccess_walk h) fun _ _ _ ht => keptAccess_checked ht

/-! ### Bursts and line fills -/

theorem memoryOk_burstServed {pa n : Nat} (h : s.memoryOk) : (s.burstServed pa n).memoryOk := by
  unfold State.burstServed
  split
  · exact memoryOk_sramHasRead h
  · dsimp only
    split
    · exact memoryOk_windowRead h
    · exact h

section
variable {keep : State → List Byte → State} (hkeep : ∀ (t : State) bs, t.memoryOk → (keep t bs).memoryOk)
include hkeep

theorem keptAccess_readLongs {pa : Nat} {ans : PciTurn} {got : List Byte} {n : Nat} (h : s.memoryOk) :
    KeptAccess (s.readLongs pa ans keep got n) := by
  induction n generalizing s pa ans got with
  | zero => exact h
  | succ n ih =>
    have hread := keptAccess_armRead (pa := pa) (n := 4) (ans := ans) h
    unfold State.readLongs
    split
    · next heq => exact (hread.of_ok heq :)
    · next heq => exact hkeep _ _ (hread.of_ok heq :)
    · exact .accessBind hread fun _ _ _ ht => ih ht

theorem keptAccess_readBlock {pa k : Nat} {ans : PciTurn} {got : List Byte} (h : s.memoryOk) :
    KeptAccess (s.readBlock pa k ans keep got) := by
  unfold State.readBlock
  split
  · exact .ite (memoryOk_burstServed h) trivial
  · exact .accessBind (.ite (keptAccess_armRead h) (keptAccess_readLongs hkeep h)) fun _ _ _ ht => ht

end

theorem keptAccess_lineFill {pa n : Nat} {ans : PciTurn} (h : s.memoryOk) : KeptAccess (s.lineFill pa n ans) :=
  .accessBind (keptAccess_readBlock (keep := State.keepRead) (fun _ _ ht => ht) h)
    fun _ _ _ ht => .ite ht (.after fun _ => ht)

/-! ### Write buffer and read buffer (R681 to R683) -/

theorem kept_drainWb (h : s.memoryOk) : Kept s.drainWb := by
  unfold State.drainWb
  dsimp only
  split
  · exact h
  · refine .ite h ?_
    have hwrite := fun addr bs => keptAccess_armWrite (s := s.withArm { s.arm with wb := (wbNext s.arm.wb).2 })
      (pa := addr) (bs := bs) (ans := .none) h
    split
    case h_4 => exact h
    case h_5 => trivial
    all_goals
      next heq => exact ((hwrite _ _).of_ok heq :)

theorem kept_readBufferFill {ans : List PciAns} (h : s.memoryOk) : Kept (s.readBufferFill ans) := by
  unfold State.readBufferFill
  split
  · exact h
  · split
    · exact h
    · dsimp only
      split
      case h_6 => trivial
      all_goals
        next heq => exact ((keptAccess_readBlock (by exact fun _ _ ht => ht) h).of_ok heq :)

/-! ### One load, one store, one fetch -/

theorem keptAccess_allocate {k : CacheKind} {va : Word} {pa n : Nat} {ans : PciTurn} (h : s.memoryOk) :
    KeptAccess (s.allocate k va pa n ans) := by
  unfold State.allocate
  refine .ite h (.accessBind (keptAccess_lineFill h) fun p _ _ ht => ?_)
  dsimp only
  split <;> exact ht

theorem memoryOk_unaligned {va : Word} {bs : List Byte} {ans : PciTurn} (h : s.memoryOk) :
    (s.unaligned va bs ans).state.memoryOk := by
  unfold State.unaligned
  dsimp only
  repeat' split
  all_goals exact h

theorem keptAccess_armLoad {va : Word} {size : Size} {user : Bool} {ans : PciTurn} (h : s.memoryOk) :
    KeptAccess (s.armLoad va size user ans) := by
  unfold State.armLoad
  refine .ite h (.ite h (.accessBind (keptAccess_translate h) fun t _ _ ht => ?_))
  split
  · exact ht
  · exact ht
  · exact .after fun _ => memoryOk_unaligned ht
  · exact .after fun _ => memoryOk_unaligned ht
  · exact .ite (.accessBind (keptAccess_allocate ht) fun _ _ _ hu => memoryOk_unaligned hu)
      (.ite ht (keptAccess_armRead ht))

theorem keptAccess_armStore {va : Word} {size : Size} {v : Word} {user merging : Bool} {ans : PciTurn}
    (h : s.memoryOk) : KeptAccess (s.armStore va size v user merging ans) := by
  unfold State.armStore
  refine .ite h (.ite h (.accessBind (keptAccess_translate h) fun t _ _ ht => ?_))
  split
  · exact ht
  · refine .ite ?_ (.ite ht (.accessBind (keptAccess_armWrite ht) fun _ _ _ hu => hu))
    split <;> exact ht

theorem memoryOk_beginFetch {va : Word} (h : s.memoryOk) : (s.beginFetch va).2.memoryOk := by
  unfold State.beginFetch
  split <;> exact h

theorem keptAccess_fetchWord {f : Fetching} {va : Word} {ans : PciTurn} (h : s.memoryOk) :
    KeptAccess (s.fetchWord f va ans) := by
  unfold State.fetchWord
  refine .accessBind (keptAccess_translate h) fun t _ _ ht => ?_
  split
  · exact .after fun _ => ht
  · refine .ite (.accessBind (keptAccess_lineFill ht) fun p _ _ hu => ?_)
      (.accessBind (keptAccess_armRead ht) fun _ _ _ hu => hu)
    dsimp only
    split <;> exact hu

theorem keptAccess_armFetch {va : Word} {ans : PciTurn} (h : s.memoryOk) : KeptAccess (s.armFetch va ans) := by
  have hfetch := fun f => keptAccess_fetchWord (f := f) (va := va) (ans := ans) (memoryOk_beginFetch (va := va) h)
  unfold State.armFetch
  dsimp only
  split
  case h_4 => exact hfetch _
  all_goals
    next heq => exact ((hfetch _).of_ok heq :)

end

end Sys2Proof.Machine
end

section
/-! The canonical form of every memory, concluded: the StrongARM core's step, the environment's events, and every step
of the machine (00_scope.md R10). -/

namespace Sys2Proof.Machine

section
variable {α : Type} {s : State}

/-! ### Coprocessor 15 (R260 to R268) -/

theorem keptAccess_rbAllocate {k : Fin 4} {n : Nat} {va : Word} {ans : PciTurn} (h : s.memoryOk) :
    KeptAccess (s.rbAllocate k n va ans) := by
  unfold State.rbAllocate
  refine .ite h ?_
  dsimp only
  have htranslate := keptAccess_translate (va := va) (m := s.arm.accessMode false) (mmu := s.arm.mmuOn) (k := .load)
    (ans := ans) h
  split
  case h_5 => trivial
  all_goals
    next heq => exact (htranslate.of_ok heq :)

theorem keptAccess_cp15Write {op : Cp15} {v : Word} {ans : PciTurn} (h : s.memoryOk) :
    KeptAccess (s.cp15Write op v ans) := by
  cases op with
  | control => exact .after fun _ => h
  | cleanDCacheEntry =>
    unfold State.cp15Write
    dsimp only
    split <;> exact h
  | drainWriteBuffer => exact .ite h h
  | rbAllocate => exact keptAccess_rbAllocate h
  | idRegister => trivial
  | _ => exact h

/-! ### Acts (R670) -/

/-- The state an act leaves, whatever comes after it. -/
def Progress.state : Progress → State
  | .go s _ _ | .over s _ | .wait _ s => s

/-- An act of the core keeps the memories canonical. -/
abbrev KeptProgress (r : Res Progress) : Prop := Holds (fun p => p.state.memoryOk) r

theorem memoryOk_putReg {r : Resume} {bank : Option ArmMode} {d : Fin 16} {v : Word} (h : s.memoryOk) :
    (putReg s r bank d v).1.memoryOk := by
  unfold putReg
  split <;> exact h

/-- What an access leads to keeps the memories canonical if what follows a done access does. -/
theorem keptProgress_progress {r : Resume} {va : Word} {a : Res (Access α)} {f : α → State → PciTurn → Progress}
    (ha : KeptAccess a) (hf : ∀ v {t : State} ans, t.memoryOk → (f v t ans).state.memoryOk) :
    KeptProgress (progress r va a f) := by
  cases a with
  | error e => trivial
  | ok a =>
    cases a with
    | done v t ans => exact hf v ans ha
    | abort | wait | reset => exact ha

theorem keptProgress_armAct {r : Resume} {a : ArmAct} {ans : PciTurn} (h : s.memoryOk) :
    KeptProgress (s.armAct r a ans) := by
  cases a with
  | setReg => exact memoryOk_putReg h
  | load => exact keptProgress_progress (keptAccess_armLoad h) fun _ _ _ ht => memoryOk_putReg ht
  | store => exact keptProgress_progress (keptAccess_armStore h) fun _ _ _ ht => ht
  | settle => exact .ite h h
  | swap => exact keptProgress_progress (keptAccess_armLoad h) fun _ _ _ ht => ht
  | mcr =>
    refine .ite h ?_
    split
    · exact keptProgress_progress (keptAccess_cp15Write h) fun _ _ _ ht => ht
    · trivial
  | mrc =>
    refine .ite h ?_
    split
    · exact .after fun _ => .ite h (memoryOk_putReg h)
    · trivial
  | _ => exact h

theorem kept_armActs {r : Resume} {ans : PciTurn} {acts : List ArmAct} (h : s.memoryOk) :
    Holds (fun p => p.1.memoryOk) (s.armActs r ans acts) := by
  induction acts generalizing s r ans with
  | nil => exact h
  | cons a rest ih =>
    refine .bind (keptProgress_armAct h) fun p hp => ?_
    cases p with
    | go => exact .ite (ih hp) hp
    | wait => exact memoryOk_noteWait hp
    | _ => exact hp

/-! ### The core's step (R686) -/

theorem kept_armInstr {ans : PciTurn} (h : s.memoryOk) : Holds (fun p => p.1.memoryOk) (s.armInstr ans) := by
  have hfetch := keptAccess_armFetch (va := s.arm.pc &&& ~~~3) (ans := ans) h
  unfold State.armInstr
  refine .ite h ?_
  split
  · trivial
  · next heq => exact memoryOk_noteWait (hfetch.of_ok heq :)
  · next heq => exact (hfetch.of_ok heq :)
  · next heq => exact (hfetch.of_ok heq :)
  · next heq => exact kept_armActs (hfetch.of_ok heq :)

theorem kept_armBoundary {late : Bool} {turn : PciTurn} (h : s.memoryOk) : Kept (s.armBoundary late turn) := by
  unfold State.armBoundary
  split
  · exact .bind (kept_armInstr h) fun _ hp => hp
  · refine .ite h ?_
    split
    · next heq => exact ((kept_armInstr h).of_ok heq :)
    · exact h

theorem kept_armStep {late : Bool} {ans : List PciAns} (h : s.memoryOk) : Kept (s.armStep late ans) := by
  unfold State.armStep
  dsimp only
  split
  · exact .bind (kept_armActs h) fun _ hp => hp
  · exact kept_armBoundary h

/-! ### The environment's events (D30) -/

theorem memoryOk_slowOffer {x : Nat} {bs : List Byte} (h : s.memoryOk) : (s.slowOffer x bs).memoryOk := by
  unfold State.slowOffer
  split
  · exact (memoryOk_iff _).2 ⟨h.fbi, h.sdram, h.sram, Mem.writeBytes_wf _ _ h.slow⟩
  · exact h

theorem memoryOk_noteLevels {old : State} (h : s.memoryOk) : (s.noteLevels old).memoryOk := by
  obtain ⟨os, hos⟩ := s.noteLevels_eq old
  rw [hos]
  exact h

/-- Every event but an instruction's execution is an operation that keeps the memories canonical. -/
theorem act_kept {e : Event} (h : s.memoryOk) : ∃ r, s.act e = finish r ∧ Kept r := by
  cases e with
  | bus => exact ⟨_, rfl, kept_busStep h⟩
  | sdramUnit => exact ⟨_, rfl, kept_sdramStep h⟩
  | sramUnit => exact ⟨_, rfl, kept_sramStep h⟩
  | fbiPull => exact ⟨_, rfl, kept_fbiPullStep h⟩
  | fbiPush => exact ⟨_, rfl, kept_fbiPushStep h⟩
  | receive => exact ⟨.ok _, rfl, memoryOk_receiveStep h⟩
  | transmit => exact ⟨_, rfl, kept_transmitStep h⟩
  | dma => exact ⟨_, rfl, kept_dmaStep h⟩
  | dmaAlloc => exact ⟨.ok _, rfl, memoryOk_dmaAlloc h⟩
  | pciTarget => exact ⟨_, rfl, kept_pciTarget h⟩
  | pciNoFrame => exact ⟨.ok _, rfl, memoryOk_pciNoFrame h⟩
  | pciInbound => exact ⟨_, rfl, kept_pciInbound h⟩
  | discardTimer => exact ⟨.ok _, rfl, memoryOk_discardTimer h⟩
  | pciOutbound => exact ⟨.ok _, rfl, memoryOk_pciOutbound h⟩
  | strongArm => exact ⟨_, rfl, kept_armStep h⟩
  | writeBuffer => exact ⟨_, rfl, kept_drainWb h⟩
  | readBufferFill => exact ⟨_, rfl, kept_readBufferFill h⟩
  | timerTick => exact ⟨.ok _, rfl, memoryOk_timerTick h⟩
  | uartTx => exact ⟨.ok _, rfl, memoryOk_uartTransmit h⟩
  | slowData => exact ⟨.ok _, rfl, memoryOk_slowOffer h⟩
  | sdramInitDone => exact ⟨.ok _, rfl, memoryOk_sdramInitDone h⟩
  | resetIn => exact ⟨.ok _, rfl, memoryOk_chipReset h⟩
  | pciRst => exact ⟨.ok _, rfl, memoryOk_pciRst h⟩
  | _ => exact ⟨.ok _, rfl, h⟩

/-! ### Every step -/

theorem memoryOk_meStep {m : Fin 6} {t : State} (h : s.memoryOk) (ht : s.meStep m = .next t) : t.memoryOk := by
  unfold State.meStep at ht
  split at ht
  · cases ht; exact h
  · split at ht
    · cases ht; exact h
    · split at ht
      · exact exec_kept (s := { s with cur := m }) h ht
      · cases finish_eq_next ht

theorem memoryOk_readyBusStep {t : State} (h : s.memoryOk) (ht : s.readyBusStep = .next t) : t.memoryOk := by
  unfold State.readyBusStep at ht
  split at ht
  · split at ht
    · exact exec_kept h ht
    · cases ht
  · cases ht; exact h

/-- An instruction's execution, or an event and the levels recorded after it. -/
theorem memoryOk_run {e : Event} {t : State} (h : s.memoryOk) (ht : s.run e = .next t) : t.memoryOk := by
  unfold State.run at ht
  split at ht
  · exact memoryOk_meStep h ht
  · exact memoryOk_readyBusStep h ht
  · obtain ⟨r, hact, hr⟩ := act_kept (e := e) h
    rw [hact] at ht
    split at ht
    · next heq => cases ht; exact memoryOk_noteLevels (hr.of_finish heq)
    · next hne => exact absurd ht (hne t)

/-- Taking the next event from the list, or by a free choice, touches no memory. -/
theorem memoryOk_nextEvent (h : s.memoryOk) : s.nextEvent.2.memoryOk := by
  unfold State.nextEvent
  split <;> exact h

end

/-- Settles O57: the next event is an instruction of an engine or of the sequencer, or an operation of a unit or of the
environment, and each of these keeps the canonical form. -/
theorem stepKeepsMemoryCanonical : Obligations.StepKeepsMemoryCanonical :=
  fun _ _ h ht => memoryOk_run (memoryOk_nextEvent h) ht

end Sys2Proof.Machine
end

section
/-! References (42_me_reference.md): what issuing a command does in each of its cases, every form of a reference as the
issue of one command, and the named stops of its operands. -/

namespace Sys2Proof.Machine

/-! ### The cases of an issue (R78, R483, R591) -/

section
variable {s : State} {cmd : Cmd} {ev : SigEvent} {tok : RefTok}

theorem issue_deferred_swap (hdefer : s.engine.defer.isSome = true) (hswap : tok.ctxSwap = true) :
    s.issue cmd ev tok = .error (.refused .branchInDeferSlot) := by
  simp [State.issue, hdefer, hswap]

/-- The check of D15 lets a reference through that does not swap, or that stands in no deferred position. -/
theorem swapNotDeferred (h : tok.ctxSwap = true → s.engine.defer = none) :
    (s.engine.defer.isSome && tok.ctxSwap) = false := by
  cases hswap : tok.ctxSwap with
  | true => simp [h hswap]
  | false => simp

/-- A full command FIFO stalls the engine (R591). -/
theorem issue_full (hfull : 2 ≤ s.engine.cmdFifo.length) (h : tok.ctxSwap = true → s.engine.defer = none) :
    s.issue cmd ev tok = .ok s := by
  have hroom : s.engine.hasRoom = false := by simpa [Me.hasRoom, Nat.lt_iff_add_one_le] using hfull
  simp [State.issue, swapNotDeferred h, hroom]

/-- A second request of a signal that is still to come is refused (R78, U12). -/
theorem issue_signalPending {e : SigEvent} {m : Fin 6} {c : Fin 4} (hroom : s.engine.cmdFifo.length < 2)
    (h : tok.ctxSwap = true → s.engine.defer = none) (hsig : cmd.sig = some e)
    (hme : cmd.sigMe = m) (hctx : cmd.sigCtx = c) (hpend : (s.me m).pending[c].getLsbD (sigBit e) = true) :
    s.issue cmd ev tok = .error (.refused .signalPending) := by
  subst hme hctx
  have hhas : s.engine.hasRoom = true := by simpa [Me.hasRoom] using hroom
  have hbusy : s.signalFree cmd = false := by simp only [State.signalFree, hsig, SigSet.has, hpend, Bool.not_true]
  simp [State.issue, swapNotDeferred h, hhas, hbusy]

/-! ### A form as the issue of one command -/

/-- The form checks its burst and then issues one command, which asks for the form's event, if for any, for the thread
its overrides name. -/
def RefForm.issues (s : State) (tok : RefTok) (f : RefForm) : Prop :=
  ∃ cmd : Cmd, cmd.sigMe = f.overrides.me.getD s.cur ∧ cmd.sigCtx = f.overrides.ctx.getD s.engine.active ∧
    cmd.sig = (if tok.sigDone || tok.ctxSwap then some f.event else none) ∧
    exec f.instr s = finish (require (spanOk f.first f.regs) .burstPastRegister31 >>= fun _ => s.issue cmd f.event tok)

variable {f : RefForm}

theorem RefForm.issues.pastRegister31 (h : f.issues s tok) (hspan : 32 < f.first + f.regs) :
    exec f.instr s = .refused .burstPastRegister31 := by
  obtain ⟨cmd, -, -, -, hexec⟩ := h
  have hno : spanOk f.first f.regs = false := by simpa [spanOk] using hspan
  rw [hexec, hno]; rfl

/-- A form whose burst stays in the file is the issue of its command. -/
theorem RefForm.issues.inFile (h : f.issues s tok) (hspan : f.first + f.regs ≤ 32) :
    ∃ cmd : Cmd, cmd.sigMe = f.overrides.me.getD s.cur ∧ cmd.sigCtx = f.overrides.ctx.getD s.engine.active ∧
      cmd.sig = (if tok.sigDone || tok.ctxSwap then some f.event else none) ∧
      exec f.instr s = finish (s.issue cmd f.event tok) := by
  obtain ⟨cmd, hme, hctx, hsig, hexec⟩ := h
  have hyes : spanOk f.first f.regs = true := by simpa [spanOk] using hspan
  exact ⟨cmd, hme, hctx, hsig, by rw [hexec, hyes]; rfl⟩

theorem RefForm.issues.stalls (h : f.issues s tok) (hspan : f.first + f.regs ≤ 32)
    (hfull : 2 ≤ s.engine.cmdFifo.length) (hswap : tok.ctxSwap = true → s.engine.defer = none) :
    exec f.instr s = .next s := by
  obtain ⟨cmd, -, -, -, hexec⟩ := h.inFile hspan
  rw [hexec, issue_full hfull hswap]; rfl

theorem RefForm.issues.deferred_swap (h : f.issues s tok) (hspan : f.first + f.regs ≤ 32)
    (hswap : tok.ctxSwap = true) (hdefer : s.engine.defer.isSome = true) :
    exec f.instr s = .refused .branchInDeferSlot := by
  obtain ⟨cmd, -, -, -, hexec⟩ := h.inFile hspan
  rw [hexec, issue_deferred_swap hdefer hswap]; rfl

theorem RefForm.issues.signalPending (h : f.issues s tok) (hspan : f.first + f.regs ≤ 32)
    (hroom : s.engine.cmdFifo.length < 2) (hswap : tok.ctxSwap = true → s.engine.defer = none)
    (hasks : (tok.sigDone || tok.ctxSwap) = true) (hdue : signalDue s f) :
    exec f.instr s = .refused .signalPending := by
  obtain ⟨cmd, hme, hctx, hsig, hexec⟩ := h.inFile hspan
  rw [if_pos hasks] at hsig
  rw [hexec, issue_signalPending hroom hswap hsig hme hctx hdue]; rfl

end

section
variable {s : State} {tok : RefTok}

/-- An instruction that checks a burst and issues the command the running thread builds with the overrides `o` (R580). -/
theorem RefForm.issues.of_exec {i : Instr} {ev : SigEvent} {o : Overrides} {first regs : Nat} (op : CmdOp) (q : UnitQueue)
    (moveXfer chain : Bool) (h : exec i s = finish (require (spanOk first regs) .burstPastRegister31 >>= fun _ =>
      s.issue (s.command op q o moveXfer ev tok chain) ev tok)) : RefForm.issues s tok ⟨i, ev, o, first, regs⟩ :=
  ⟨_, rfl, rfl, rfl, h⟩

/-- An instruction without a burst: no register is past register 31. -/
theorem RefForm.issues.of_plain {i : Instr} {ev : SigEvent} {o : Overrides} (x : Fin 32) (op : CmdOp) (q : UnitQueue)
    (moveXfer chain : Bool) (h : exec i s = finish (s.issue (s.command op q o moveXfer ev tok chain) ev tok)) :
    RefForm.issues s tok ⟨i, ev, o, x.val, 0⟩ :=
  .of_exec op q moveXfer chain (by
    have hspan : spanOk x.val 0 = true := by simp [spanOk, x.isLt.le]
    rw [h, hspan]; rfl)

variable {x : Xfer} {cnt : Nat}

theorem csrRead_issues {reg : FbiCsr} : RefForm.issues s tok ⟨.csr .read x reg cnt tok, .fbi, {}, (s.xfer x).val,
    if reg = .cycleCnt then 2 else cnt⟩ :=
  .of_exec (.csrRead reg (s.xfer x).val cnt) .fbiPush true false (by simp [exec, execCsr])

theorem csrWrite_issues {reg : FbiCsr} :
    RefForm.issues s tok ⟨.csr .write x reg cnt tok, .fbi, {}, (s.xfer x).val, cnt⟩ :=
  .of_exec (.csrWrite reg (s.xfer x).val cnt) .fbiPull true false (by simp [exec, execCsr])

/-- The six hash instructions (R652 to R657). -/
theorem hash_issues {i : Instr} (is64 : Bool) (total : Nat) (h : exec i s = finish (s.hashRef is64 total x tok)) :
    RefForm.issues s tok ⟨i, .fbi, {}, (s.xfer x).val, 2 * total⟩ :=
  .of_exec (.hash is64 total (s.xfer x).val) .fbiHash true false h

theorem pciDma_issues {order : Bool} :
    RefForm.issues s tok ⟨.pciDma x order tok, .pci, {}, (s.xfer x).val, 0⟩ :=
  .of_plain _ (.pciDma (s.xfer x).val order) .pci true false rfl

theorem sramPop_issues {list : Fin 8} {q : SramQueue} : RefForm.issues s tok
    ⟨.sram (.pop x list) .none .none q tok, .sram, s.engine.overrides .sramPushPop tok.indirect, 0, 0⟩ :=
  .of_plain 0 _ _ true false rfl

/-! The forms with an address, which is the sum of two operands (R532). -/

variable {a b : Src} {w : Word} (haddr : s.address a b = .ok w)
include haddr

theorem scratchIncr_issues : RefForm.issues s tok ⟨.scratch .incr a b tok, .fbi, {}, (s.xfer x).val, 0⟩ :=
  .of_plain _ (.scratchIncr w) .fbiPull false false (by simp [exec, execScratch, haddr, State.scratchOp])

theorem scratchBitWr_issues {op : BitOp} : RefForm.issues s tok
    ⟨.scratch (.bitWr x op) a b tok, .fbi, s.engine.overrides .scratchBit tok.indirect, 0, 0⟩ :=
  .of_plain 0 _ _ false false (by simp only [exec, execScratch, haddr, ok_bind]; rfl)

theorem scratchRead_issues : let o := s.engine.overrides .scratchRw tok.indirect
    RefForm.issues s tok ⟨.scratch (.read x cnt) a b tok, .fbi, o, xferOr o (s.xfer x), 1 * countOr o cnt⟩ :=
  .of_exec _ _ false false
    (by simp only [exec, execScratch, haddr, ok_bind, State.scratchOp, bind_assoc, pure_bind, one_mul]; rfl)

theorem scratchWrite_issues : let o := s.engine.overrides .scratchRw tok.indirect
    RefForm.issues s tok ⟨.scratch (.write x cnt) a b tok, .fbi, o, xferOr o (s.xfer x), 1 * countOr o cnt⟩ :=
  .of_exec _ _ false false
    (by simp only [exec, execScratch, haddr, ok_bind, State.scratchOp, bind_assoc, pure_bind, one_mul]; rfl)

theorem rFifoRd_issues : let o := s.engine.overrides .rFifoRd tok.indirect
    RefForm.issues s tok ⟨.rFifoRd x a b cnt tok, .fbi, o, xferOr o (s.xfer x), 2 * countOr o cnt⟩ :=
  .of_exec _ _ true false (by simp only [exec, execRFifoRd, haddr, ok_bind]; rfl)

theorem tFifoWr_issues : let o := s.engine.overrides .tFifoWr tok.indirect
    RefForm.issues s tok ⟨.tFifoWr x a b cnt tok, .fbi, o, xferOr o (s.xfer x), 2 * countOr o cnt⟩ :=
  .of_exec _ _ true false (by simp only [exec, execTFifoWr, haddr, ok_bind]; rfl)

theorem sdramRead_issues {q : SdramQueue} {chain : Bool} : let o := s.engine.overrides .sdramRw tok.indirect
    RefForm.issues s tok ⟨.sdram (.read x cnt) a b q chain tok, .sdram, o, xferOr o (s.xfer x), 2 * countOr o cnt⟩ :=
  .of_exec _ _ true chain
    (by simp only [exec, execSdram, haddr, ok_bind, State.sdramOp, bind_assoc, pure_bind]; rfl)

theorem sdramWrite_issues {q : SdramQueue} {chain : Bool} : let o := s.engine.overrides .sdramRw tok.indirect
    RefForm.issues s tok ⟨.sdram (.write x cnt) a b q chain tok, .sdram, o, xferOr o (s.xfer x), 2 * countOr o cnt⟩ :=
  .of_exec _ _ true chain
    (by simp only [exec, execSdram, haddr, ok_bind, State.sdramOp, bind_assoc, pure_bind]; rfl)

theorem sdramTFifo_issues {q : SdramQueue} {chain : Bool} : RefForm.issues s tok
    ⟨.sdram (.tFifoWr cnt) a b q chain tok, .sdram, s.engine.overrides .sdramTFifo tok.indirect, 0, 0⟩ :=
  .of_plain 0 _ _ true chain (by simp only [exec, execSdram, haddr, ok_bind]; rfl)

theorem sdramRFifo_issues {q : SdramQueue} {chain : Bool} : RefForm.issues s tok
    ⟨.sdram (.rFifoRd cnt) a b q chain tok, .sdram, s.engine.overrides .sdramRFifo tok.indirect, 0, 0⟩ :=
  .of_plain 0 _ _ true chain (by simp only [exec, execSdram, haddr, ok_bind]; rfl)

/-- The four `sram` forms with a burst (R547). -/
theorem sramBurst_issues {q : SramQueue} {cmd : SramCmd} {k : IndirectKind} {op : CmdOp}
    (hop : let o := s.engine.overrides k tok.indirect
      s.sramOp cmd w tok.indirect = require (spanOk (xferOr o (s.xfer x)) (countOr o cnt)) .burstPastRegister31 >>=
        fun _ => pure (op, o)) : let o := s.engine.overrides k tok.indirect
    RefForm.issues s tok ⟨.sram cmd a b q tok, .sram, o, xferOr o (s.xfer x), 1 * countOr o cnt⟩ :=
  .of_exec op (sramQueueOf q cmd) true false
    (by simp only [exec, execSram, haddr, ok_bind, hop, bind_assoc, pure_bind, one_mul])

theorem sramRead_issues {q : SramQueue} : let o := s.engine.overrides .sramRw tok.indirect
    RefForm.issues s tok ⟨.sram (.read x cnt) a b q tok, .sram, o, xferOr o (s.xfer x), 1 * countOr o cnt⟩ :=
  sramBurst_issues haddr rfl

theorem sramWrite_issues {q : SramQueue} : let o := s.engine.overrides .sramRw tok.indirect
    RefForm.issues s tok ⟨.sram (.write x cnt) a b q tok, .sram, o, xferOr o (s.xfer x), 1 * countOr o cnt⟩ :=
  sramBurst_issues haddr rfl

theorem sramReadLock_issues {q : SramQueue} : let o := s.engine.overrides .sramLock tok.indirect
    RefForm.issues s tok ⟨.sram (.readLock x cnt) a b q tok, .sram, o, xferOr o (s.xfer x), 1 * countOr o cnt⟩ :=
  sramBurst_issues haddr rfl

theorem sramWriteUnlock_issues {q : SramQueue} : let o := s.engine.overrides .sramLock tok.indirect
    RefForm.issues s tok ⟨.sram (.writeUnlock x cnt) a b q tok, .sram, o, xferOr o (s.xfer x), 1 * countOr o cnt⟩ :=
  sramBurst_issues haddr rfl

/-- The `sram` forms without a burst and with an address (R547). -/
theorem sramPlain_issues {q : SramQueue} {cmd : SramCmd} {op : CmdOp} {o : Overrides}
    (hop : s.sramOp cmd w tok.indirect = .ok (op, o)) : RefForm.issues s tok ⟨.sram cmd a b q tok, .sram, o, 0, 0⟩ :=
  .of_plain 0 op (sramQueueOf q cmd) true false (by simp only [exec, execSram, haddr, ok_bind, hop])

end

/-- Every form of every reference but `fast_wr` checks its burst and issues one command (R540 to R547, R652 to R657). -/
theorem refForms_issue {s : State} {x : Xfer} {a b : Src} {u v : Word} {cnt : Nat} {tok : RefTok} {reg : FbiCsr}
    {op : BitOp} {list : Fin 8} {sq : SramQueue} {dq : SdramQueue} {chain order : Bool}
    (ha : operandIs s a (some u)) (hb : operandIs s b (some v)) :
    ∀ f ∈ refForms s x a b cnt tok reg op list sq dq chain order, f.issues s tok := by
  have haddr : s.address a b = .ok (u + v) := address_of_operandIs ha hb
  simp only [refForms, List.forall_mem_cons]
  exact ⟨hash_issues false 1 rfl, hash_issues false 2 rfl, hash_issues false 3 rfl, hash_issues true 1 rfl,
    hash_issues true 2 rfl, hash_issues true 3 rfl, csrRead_issues, csrWrite_issues, pciDma_issues, scratchIncr_issues haddr, rFifoRd_issues haddr, tFifoWr_issues haddr,
    scratchRead_issues haddr, scratchWrite_issues haddr, scratchBitWr_issues haddr, sdramRead_issues haddr,
    sdramWrite_issues haddr, sdramTFifo_issues haddr, sdramRFifo_issues haddr, sramRead_issues haddr,
    sramWrite_issues haddr, sramReadLock_issues haddr, sramWriteUnlock_issues haddr, sramPlain_issues haddr rfl,
    sramPlain_issues haddr rfl, sramPlain_issues haddr rfl, sramPop_issues, fun _ h => nomatch h⟩

/-! ### A full command FIFO (R61, R591) -/

theorem fastWr_stalls {s : State} {imm : BitVec 10} {reg : FastReg} {ind : Bool}
    (hfull : 2 ≤ s.engine.cmdFifo.length) : exec (.fastWr imm reg ind) s = .next s := by
  simp only [exec, execFastWr]
  exact congrArg finish (issue_full (tok := ⟨false, false, false, ind⟩) hfull fun h => nomatch h)

/-- Settles O31: each form issues one command, and an issue with a full FIFO changes nothing. -/
theorem fullCommandFifoStalls : Obligations.FullCommandFifoStalls := by
  intro s x tok hfull hswap
  have stall : ∀ {f : RefForm}, f.issues s tok → f.first + f.regs ≤ 32 → exec f.instr s = .next s :=
    fun h hspan => h.stalls hspan hfull hswap
  refine ⟨fun _ _ _ => fastWr_stalls hfull, fun _ => stall pciDma_issues (s.xfer x).isLt.le,
    fun _ _ h => stall csrRead_issues h, fun _ _ h => stall csrWrite_issues h, ?hash,
    fun _ _ => stall sramPop_issues (Nat.zero_le _), fun a b u v ha hb => ?operands⟩
  case hash =>
    simp only [List.forall_mem_cons]
    exact ⟨stall (hash_issues false 1 rfl), stall (hash_issues false 2 rfl), stall (hash_issues false 3 rfl),
      stall (hash_issues true 1 rfl), stall (hash_issues true 2 rfl), stall (hash_issues true 3 rfl),
      fun _ h => nomatch h⟩
  case operands =>
    have haddr : s.address a b = .ok (u + v) := address_of_operandIs ha hb
    have one : ∀ {m n : Nat}, m + n ≤ 32 → m + 1 * n ≤ 32 := fun h => by rwa [one_mul]
    exact ⟨stall (scratchIncr_issues (x := x) haddr) (s.xfer x).isLt.le,
      fun _ => stall (scratchBitWr_issues haddr) (Nat.zero_le _),
      fun _ h => ⟨stall (scratchRead_issues haddr) (one h), stall (scratchWrite_issues haddr) (one h)⟩,
      fun _ h => stall (rFifoRd_issues haddr) h, fun _ h => stall (tFifoWr_issues haddr) h,
      fun _ _ _ h => ⟨stall (sdramRead_issues haddr) h, stall (sdramWrite_issues haddr) h⟩,
      fun _ _ _ => ⟨stall (sdramTFifo_issues haddr) (Nat.zero_le _), stall (sdramRFifo_issues haddr) (Nat.zero_le _)⟩,
      fun _ _ h => ⟨stall (sramRead_issues haddr) (one h), stall (sramWrite_issues haddr) (one h)⟩,
      fun _ _ h => ⟨stall (sramReadLock_issues haddr) (one h), stall (sramWriteUnlock_issues haddr) (one h)⟩,
      fun _ => ⟨stall (sramPlain_issues haddr rfl) (Nat.zero_le _),
        fun _ => stall (sramPlain_issues haddr rfl) (Nat.zero_le _),
        fun _ => stall (sramPlain_issues haddr rfl) (Nat.zero_le _)⟩⟩

/-! ### A forbidden read of an autopush target (U14, R792) -/

/-- The operation stops with the fault of a forbidden read. -/
def Forbidden {α : Type} (r : Res α) : Prop := r = .error (.fault .pushProtect)

theorem Forbidden.bind {α β : Type} {r : Res α} (h : Forbidden r) (f : α → Res β) : Forbidden (r >>= f) := by
  rw [Forbidden] at h; rw [h]; rfl

theorem Forbidden.exec {i : Instr} {s : State} {r : Res State} (h : Forbidden r) (hi : exec i s = finish r) :
    exec i s = .fault .pushProtect := by
  rw [hi, h]; rfl

section
variable {s : State} {y : Src}

theorem source_forbidden {n : Fin 32} (hy : srcCell s.engine.active y = some (.sramRd n))
    (hp : s.protectedRead n.val = true) : Forbidden (s.source y) := by
  cases y with
  | sram r => cases r <;> (cases hy; exact if_pos hp)
  | gpr g => cases g <;> cases hy
  | sdram r => cases r <;> cases hy
  | imm | none => cases hy

/-- Whatever operand is read first, a forbidden one behind it is the fault: the first has a value or is forbidden too. -/
theorem Forbidden.behind {β : Type} {f : Option Word → Res β} (h : ∀ v, Forbidden (f v)) :
    Forbidden (s.source y >>= f) := by
  cases y with
  | sram r =>
    simp only [State.source]
    split
    · rfl
    · exact h _
  | _ => exact h _

theorem Forbidden.behindVal {β : Type} {f : Word → Res β} (h : ∀ v, Forbidden (f v)) :
    Forbidden (s.sourceVal y >>= f) := by
  rw [State.sourceVal, bind_assoc]
  exact .behind fun v => h (v.getD 0)

end

/-- Every instruction that reads a forbidden operand faults (U14). -/
theorem readForms_forbidden {s : State} {y z : Src} {d : Dest} {op : AluOp} {shf : Shf} {pos : BitVec 5} {k : Fin 4}
    {v : Byte} {lanes : BitVec 4} {l : Label} {t : BrTok} {clr : Bool} (h : Forbidden (s.source y)) :
    ∀ i ∈ readForms y z d op shf pos k v lanes l t clr, exec i s = .fault .pushProtect := by
  have hval : Forbidden (s.sourceVal y) := h.bind _
  simp only [readForms, List.forall_mem_cons]
  exact ⟨(h.bind _).exec rfl, (Forbidden.behind fun _ => hval.bind _).exec rfl,
    (h.bind _).exec rfl, (Forbidden.behind fun _ => hval.bind _).exec rfl,
    (hval.bind _).exec rfl, (Forbidden.behindVal fun _ => hval.bind _).exec rfl,
    (hval.bind _).exec rfl, (hval.bind _).exec rfl, (hval.bind _).exec rfl, (hval.bind _).exec rfl,
    (hval.bind _).exec rfl, (hval.bind _).exec rfl, (hval.bind _).exec rfl, (hval.bind _).exec rfl,
    (hval.bind _).exec rfl, (hval.bind _).exec rfl, (Forbidden.behindVal fun _ => hval.bind _).exec rfl,
    fun _ h => nomatch h⟩

/-- Settles O32: every form issues one command behind the check of its burst, and a forbidden operand is read before
anything else can stop the instruction. -/
theorem referenceAndOperandStops : Obligations.ReferenceAndOperandStops := by
  refine ⟨fun s x a b u v cnt tok reg op list sq dq chain order ha hb f hf => ?_,
    fun s y z n d op shf pos k v lanes l t clr hy hp => readForms_forbidden (source_forbidden hy hp)⟩
  have hissues : f.issues s tok := refForms_issue ha hb f hf
  exact ⟨hissues.pastRegister31, fun hspan => ⟨hissues.deferred_swap hspan, hissues.signalPending hspan⟩⟩

end Sys2Proof.Machine
end

section
/-! Find bit set (R620 to R622), the completion signal (R588), the `fast_wr` functions (R768 to R770, R810), and what a reset
leaves (R125 to R130, R1053, R1141). -/

namespace Sys2Proof.Machine

/-! ### Find bit set -/

/-- What a search of the low half of `f` leaves, whichever instruction makes it (R620). -/
theorem find_retire (s : State) (f : Word) (clr : Bool) :
    let t := s.retire (s.engine.findStep (f.setWidth 16) clr) { find := true }
    regsKept s.engine t.engine ∧ t.engine.cc = s.engine.cc ∧ ordinary s t ∧ t.engine.findAge = 0 ∧
      t.engine.fbsCnt = (s.engine.findStep (f.setWidth 16) clr).fbsCnt ∧
      t.engine.result1 = (s.engine.findStep (f.setWidth 16) clr).result1 ∧
      t.engine.result2 = (s.engine.findStep (f.setWidth 16) clr).result2 := by
  refine ⟨fun k => by simp, ?_, ?_, ?_, ?_, ?_, ?_⟩
  · simp
  · apply ordinary_retire <;> simp [controlKept, contextsKept]
  all_goals simp

/-- Both instructions are one search of the low half of `f` (R621, R622, D12). -/
theorem findBset_exec {s : State} {src mask : Src} {shf : Shf} {clr : Bool} {v z k : Word} {i : Instr} {f : Word}
    (hsrc : operandIs s src (some v)) (hmask : operandIs s mask (some k))
    (hz : specShift shf v s.engine.aLatch = some z)
    (hi : i = .findBset src shf clr ∧ f = z ∨ i = .findBsetWithMask mask src shf clr ∧ f = z &&& k) :
    exec i s = .next (s.retire (s.engine.findStep (f.setWidth 16) clr) { find := true }) := by
  have hshift : s.shifted shf v = z := shiftB_spec shf v _ _ z hz
  rcases hi with ⟨rfl, rfl⟩ | ⟨rfl, rfl⟩
  · simp [exec, execFindBset, sourceVal_of_operandIs hsrc, hshift]
  · simp [exec, execFindBsetWithMask, sourceVal_of_operandIs hsrc, sourceVal_of_operandIs hmask, hshift,
      BitVec.setWidth_and]

/-- Settles O21: both instructions end in one search, whose result registers are `find_spec`'s. -/
theorem findBitSet : Obligations.FindBitSet := by
  intro s src mask shf clr v z k i f hsrc hmask hz hi
  obtain ⟨hregs, hcc, hord, hage, hcnt, h1, h2⟩ := find_retire s f clr
  refine ⟨_, findBset_exec hsrc hmask hz hi, hregs, hcc, hord, hage, ?_⟩
  dsimp only
  rw [hcnt, h1, h2]
  exact find_spec s.engine f clr

/-! ### Completion -/

theorem signal_me (s : State) (m : Fin 6) (c : Fin 4) (e : SigEvent) (k : Fin 6) :
    (s.signal m c e).me k = if k = m then (s.me k).raise c e else s.me k := by
  by_cases hk : k = m
  · subst hk; simp [State.signal]
  · rw [if_neg hk]; exact State.setMe_me_ne s _ hk

/-- What a signal leaves of every thread's events and requests (R75, R78). -/
theorem signal_spec (s : State) (m : Fin 6) (c : Fin 4) (e : SigEvent) (k : Fin 6) (j : Fin 4) (f : SigEvent) :
    (((s.signal m c e).me k).sigEvents[j].getLsbD (sigBit f) =
      ((s.me k).sigEvents[j].getLsbD (sigBit f) || decide (k = m ∧ j = c ∧ f = e))) ∧
    (((s.signal m c e).me k).pending[j].getLsbD (sigBit f) =
      ((s.me k).pending[j].getLsbD (sigBit f) && !decide (k = m ∧ j = c ∧ f = e))) := by
  simp only [signal_me]
  by_cases hk : k = m
  · subst hk; simpa using Me.raise_spec (s.me k) c e j f
  · simp [hk]

theorem completed_of_sig {s : State} {c : Cmd} {e : SigEvent} (h : c.sig = some e) :
    s.completed c = s.signal c.sigMe c.sigCtx e := by simp only [State.completed, h]

/-- Settles O48: a completion is the signal the command asked for. -/
theorem completionSignal : Obligations.CompletionSignal := by
  refine fun s c => ⟨fun h => by simp only [State.completed, h], fun e he => ⟨s.completed_eq c, fun m =>
    ⟨s.completed_me c m, fun k f => ?_⟩⟩⟩
  rw [completed_of_sig he]
  exact signal_spec s c.sigMe c.sigCtx e m k f

/-! ### The functions of `fast_wr` -/

/-- A message of at most two bits at a thread's place of THREAD_DONE (R769). -/
theorem doneMessage_bit (f : Fbi) (t : Fin 24) (d : Word) (hd : d.toNat < 4) (i : Nat) :
    (f.doneMessage t.val d).threadDone.getLsbD i =
      (f.threadDone.getLsbD i || decide (2 * t.val ≤ i ∧ i < 2 * t.val + 2) && d.getLsbD (i - 2 * t.val)) := by
  have hhigh : ∀ j, 2 ≤ j → d.getLsbD j = false := fun j hj =>
    Nat.testBit_lt_two_pow (hd.trans_le (Nat.pow_le_pow_right (n := 2) (by norm_num) hj))
  have hthread := t.isLt
  simp only [Fbi.doneMessage, BitVec.getLsbD_or, BitVec.getLsbD_shiftLeft, BitVec.getLsbD_setWidth]
  congr 1
  by_cases h1 : 2 * t.val ≤ i
  · by_cases h2 : i < 2 * t.val + 2
    · simp [h1, h2, show i < 48 by omega, show i - 2 * t.val < 48 by omega]
    · simp [h2, hhigh (i - 2 * t.val) (by omega)]
  · simp [h1, show i < 2 * t.val by omega]

/-- One bit of a longword. -/
theorem one_shiftLeft_bit {v i : Nat} (hi : i < 32) : ((1 : Word) <<< v).getLsbD i = decide (i = v) := by
  simp only [BitVec.getLsbD_shiftLeft, hi, decide_true, Bool.true_and]
  by_cases h : i < v
  · simp [h, h.ne]
  · simp [h]; omega

theorem signalAll_me (s : State) (e : SigEvent) (m : Fin 6) :
    (s.signalAll e).me m = ((((s.me m).raise 0 e).raise 1 e).raise 2 e).raise 3 e := by
  simp [State.signalAll, State.me]

/-- Every thread has the event (R810). -/
theorem signalAll_spec (s : State) (e : SigEvent) (m : Fin 6) (c : Fin 4) (f : SigEvent) :
    ((s.signalAll e).me m).sigEvents[c].getLsbD (sigBit f) =
      ((s.me m).sigEvents[c].getLsbD (sigBit f) || decide (f = e)) := by
  rw [signalAll_me]
  simp only [(Me.raise_spec _ _ _ _ _).1]
  by_cases hf : f = e
  · have : c = 0 ∨ c = 1 ∨ c = 2 ∨ c = 3 := by omega
    rcases this with rfl | rfl | rfl | rfl <;> simp [hf]
  · simp [hf]

/-- The thread a number names (D3). -/
theorem threadNumber_eq_iff (v : Fin 24) (m : Fin 6) (c : Fin 4) :
    m = threadMe v ∧ c = threadCtx v ↔ 4 * m.val + c.val = v.val := by
  simp only [Fin.ext_iff, threadMe, threadCtx]
  omega

theorem interThread_spec (s : State) (v : Nat) (hv : v < 24) (m : Fin 6) (c : Fin 4) (e : SigEvent) :
    ((s.signalThread ⟨v, hv⟩ .interThread).me m).sigEvents[c].getLsbD (sigBit e) =
      ((s.me m).sigEvents[c].getLsbD (sigBit e) || decide (4 * m.val + c.val = v ∧ e = .interThread)) := by
  have hsig := (signal_spec s (threadMe ⟨v, hv⟩) (threadCtx ⟨v, hv⟩) .interThread m c e).1
  rw [State.signalThread, hsig]
  simp only [← and_assoc, threadNumber_eq_iff]

/-- The unit once it has counted the enqueue number of a fast port (R810). -/
def Fbi.countEnq (f : Fbi) (p : Fin 2) : Fbi := { f with enqSeq := f.enqSeq.set p (f.enqSeq[p] + 1) }

theorem incrEnq_eq (s : State) (p : Fin 2) : s.incrEnq p =
    if s.fbi.fastEnabled then (s.withFbi (s.fbi.countEnq p)).signalAll (if p = 0 then .seqNum1 else .seqNum2)
    else s.withFbi (s.fbi.countEnq p) := rfl

/-- What counting an enqueue number leaves (R75, R810). -/
theorem incrEnq_spec (s : State) (p : Fin 2) :
    s.incrEnq p = { s with fbi := (s.incrEnq p).fbi, mes := (s.incrEnq p).mes } ∧
    (s.incrEnq p).fbi = s.fbi.countEnq p ∧ (s.fbi.fastEnabled = false → (s.incrEnq p).mes = s.mes) ∧
    (s.fbi.fastEnabled = true → ∀ (m : Fin 6) (c : Fin 4) (e : SigEvent),
      ((s.incrEnq p).me m).sigEvents[c].getLsbD (sigBit e) =
        ((s.me m).sigEvents[c].getLsbD (sigBit e) || decide (e = if p = 0 then .seqNum1 else .seqNum2))) := by
  rw [incrEnq_eq]
  split
  · next hfast => exact ⟨rfl, rfl, fun h => absurd (hfast.symm.trans h) (by decide), fun _ => signalAll_spec _ _⟩
  · next hfast => exact ⟨rfl, rfl, fun _ => rfl, fun h => absurd h hfast⟩

/-- Settles O49, function by function. -/
theorem fastWriteFunctions : Obligations.FastWriteFunctions := by
  intro s t d
  refine ⟨⟨_, rfl, rfl, rfl, doneMessage_bit s.fbi t d⟩, fun hd => ?destruct,
    fun hd => ⟨s.signalThread ⟨d.toNat, hd⟩ .interThread, dif_pos hd, rfl, interThread_spec s d.toNat hd⟩,
    fun hd => dif_neg (Nat.not_lt.2 hd), ?enqueue⟩
  case destruct =>
    refine ⟨_, if_pos hd, rfl, fun i hi => ?_⟩
    rw [State.withFbi_fbi, BitVec.getLsbD_or, one_shiftLeft_bit hi]
  case enqueue =>
    simp only [List.forall_mem_cons]
    exact ⟨⟨_, rfl, incrEnq_spec s 0⟩, ⟨_, rfl, incrEnq_spec s 1⟩, fun _ h => nomatch h⟩

/-! ### Reset -/

theorem reset_me (m : Fin 6) : State.reset.me m = Me.reset := by simp [State.me, State.reset]

theorem chipReset_me (s : State) (m : Fin 6) : s.chipReset.me m = Me.reset := by
  simp [State.me, State.chipReset, State.reset]

/-- A chip reset puts the core into supervisor mode with both interrupts masked (R1053). -/
theorem chipReset_mode (s : State) : s.chipReset.arm.mode = .svc ∧ s.chipReset.arm.irqMasked = true ∧
    s.chipReset.arm.fiqMasked = true := by
  have hcpsr : s.chipReset.arm.cpsr = Arm.reset.cpsr := rfl
  simp only [Arm.mode, Arm.irqMasked, Arm.fiqMasked, hcpsr]
  decide

theorem reset_memoryOk : State.reset.memoryOk :=
  ⟨.nil, .nil, .nil, .nil, .nil, .nil, .nil, fun _ hm => nomatch hm⟩

theorem reset_fifosOk : State.reset.fifosOk :=
  ⟨fun m => by rw [reset_me]; exact Nat.zero_le 2, by decide⟩

theorem reset_timers (n : Fin 4) : State.reset.pci.timers[n].enable = false ∧ State.reset.pci.timers[n].int = false := by
  simp [State.reset, Pci.reset, Timer.reset]

/-- Settles O56: each field is read off the state a reset leaves, which no earlier state reaches into. -/
theorem resetState : Obligations.ResetState := by
  refine ⟨⟨fun m => ?engines, ?units⟩, reset_memoryOk, reset_fifosOk, fun s => ?running⟩
  case engines => rw [reset_me]; exact ⟨rfl, rfl, rfl, rfl⟩
  case units =>
    repeat' refine And.intro ?_ ?_
    on_goal -1 => exact reset_timers
    all_goals rfl
  case running =>
    obtain ⟨hmode, hirq, hfiq⟩ := chipReset_mode s
    refine ⟨rfl, hmode, hirq, hfiq, ?_⟩
    repeat' refine And.intro ?_ ?_
    on_goal -1 => exact fun m => by rw [chipReset_me]; rfl
    all_goals rfl

end Sys2Proof.Machine
end

section
/-! The sizes of the FIFOs, queues and arrays (10_state.md R61, R85 and the units' chapters): what keeps them, for each
operation of the microengines. -/

namespace Sys2Proof.Machine

/-! ### The FIFOs of each unit -/

/-- RCV_REQ (R200), RCV_CNTL (R201), GET_CMD and SEND_CMD (R214). -/
def Fbi.fits (f : Fbi) : Prop :=
  f.rcvReq.length ≤ 2 ∧ f.rcvCntl.length ≤ 4 ∧ f.getCmd.length ≤ 8 ∧ f.sendCmd.length ≤ 8

/-- The AMBA write data buffer (R856) and the four command queues (R845). -/
def Sdram.fits (d : Sdram) : Prop :=
  d.posted.length ≤ 2 ∧ d.orderQ.length ≤ 16 ∧ d.oddQ.length ≤ 16 ∧ d.evenQ.length ≤ 16 ∧ d.prioQ.length ≤ 16

/-- The lock CAM (R910), the Read_lock Fail queue (R912), the AMBA write data buffer (R904), the three command queues
(R900). -/
def Sram.fits (r : Sram) : Prop :=
  r.cam.length ≤ 8 ∧ r.lockFail.length ≤ 23 ∧ r.posted.length ≤ 1 ∧ r.readQ.length ≤ 16 ∧ r.orderQ.length ≤ 24 ∧
    r.prioQ.length ≤ 8

/-- The UART's FIFOs (R1095). -/
def Sys.fits (y : Sys) : Prop := y.uartTx.length ≤ 8 ∧ y.uartRx.length ≤ 8

/-- The FIFOs fit, the core's write buffer in `lim` entries: an operation that puts nothing into it keeps every such
bound, so that a fill may take place after the room for the line it replaces was found (R682). -/
def State.fits (lim : Nat) (s : State) : Prop :=
  (∀ m, (s.me m).cmdFifo.length ≤ 2) ∧ s.fbi.fits ∧ s.sdram.fits ∧ s.sram.fits ∧ s.arm.wb.length ≤ lim ∧ s.sys.fits ∧
    s.pci.dmaReq.length ≤ s.board.dmaDepth

theorem fifosOk_iff (s : State) : s.fifosOk ↔ s.fits 8 := by
  simp only [State.fifosOk, State.fits, Fbi.fits, Sdram.fits, Sram.fits, Sys.fits]
  tauto

section
variable {s : State} {lim : Nat} (h : s.fits lim)
include h

theorem State.fits.engine (m : Fin 6) : (s.me m).cmdFifo.length ≤ 2 :=
  let ⟨hengine, _⟩ := h; hengine m
theorem State.fits.fbi : s.fbi.fits := let ⟨_, hfbi, _⟩ := h; hfbi
theorem State.fits.sdram : s.sdram.fits := let ⟨_, _, hsdram, _⟩ := h; hsdram
theorem State.fits.sram : s.sram.fits := let ⟨_, _, _, hsram, _⟩ := h; hsram
theorem State.fits.wb : s.arm.wb.length ≤ lim := let ⟨_, _, _, _, hwb, _⟩ := h; hwb
theorem State.fits.sys : s.sys.fits := let ⟨_, _, _, _, _, hsys, _⟩ := h; hsys
theorem State.fits.dmaReq : s.pci.dmaReq.length ≤ s.board.dmaDepth :=
  let ⟨_, _, _, _, _, _, hreq⟩ := h; hreq

theorem State.fits.withFbi {f : Fbi} (hf : f.fits) : (s.withFbi f).fits lim :=
  ⟨h.engine, hf, h.sdram, h.sram, h.wb, h.sys, h.dmaReq⟩
theorem State.fits.withSdram {d : Sdram} (hd : d.fits) : (s.withSdram d).fits lim :=
  ⟨h.engine, h.fbi, hd, h.sram, h.wb, h.sys, h.dmaReq⟩
theorem State.fits.withSram {r : Sram} (hr : r.fits) : (s.withSram r).fits lim :=
  ⟨h.engine, h.fbi, h.sdram, hr, h.wb, h.sys, h.dmaReq⟩
theorem State.fits.withSys {y : Sys} (hy : y.fits) : (s.withSys y).fits lim :=
  ⟨h.engine, h.fbi, h.sdram, h.sram, h.wb, hy, h.dmaReq⟩
theorem State.fits.withPci {p : Pci} (hp : p.dmaReq.length ≤ s.board.dmaDepth) : (s.withPci p).fits lim :=
  ⟨h.engine, h.fbi, h.sdram, h.sram, h.wb, h.sys, hp⟩

/-- A core whose write buffer is within another bound. -/
theorem State.fits.withArm {c : Arm} {l : Nat} (hc : c.wb.length ≤ l) : (s.withArm c).fits l :=
  ⟨h.engine, h.fbi, h.sdram, h.sram, hc, h.sys, h.dmaReq⟩

theorem State.fits.withArmSame {c : Arm} (hc : c.wb = s.arm.wb) : (s.withArm c).fits lim := h.withArm (hc ▸ h.wb)

theorem State.fits.setMe {m : Fin 6} {e : Me} (he : e.cmdFifo.length ≤ 2) : (s.setMe m e).fits lim := by
  refine ⟨fun k => ?_, h.fbi, h.sdram, h.sram, h.wb, h.sys, h.dmaReq⟩
  by_cases hk : k = m
  · subst hk; rw [State.setMe_me_self]; exact he
  · rw [State.setMe_me_ne s e hk]; exact h.engine k

/-- An engine that keeps its command FIFO. -/
theorem State.fits.setMeSame {m : Fin 6} {e : Me} (he : e.cmdFifo = (s.me m).cmdFifo) : (s.setMe m e).fits lim :=
  h.setMe (he ▸ h.engine m)

end

/-- An operation that may stop keeps the FIFOs within their sizes. -/
abbrev Fits (lim : Nat) (r : Res State) : Prop := Holds (State.fits lim) r

/-- An operation that delivers a value too. -/
abbrev FitsWith (lim : Nat) {α : Type} (r : Res (α × State)) : Prop := Holds (fun p => p.2.fits lim) r

/-! ### Microengines: signals and transfer registers -/

section
variable {s : State} {lim : Nat}

theorem fits_signal {m : Fin 6} {c : Fin 4} {e : SigEvent} (h : s.fits lim) : (s.signal m c e).fits lim :=
  h.setMeSame rfl

theorem fits_signalThread {t : Fin 24} {e : SigEvent} (h : s.fits lim) : (s.signalThread t e).fits lim := fits_signal h

theorem fits_signalAll {e : SigEvent} (h : s.fits lim) : (s.signalAll e).fits lim :=
  ⟨fun m => by simpa [signalAll_me] using h.engine m, h.fbi, h.sdram, h.sram, h.wb, h.sys, h.dmaReq⟩

theorem fits_completed {c : Cmd} (h : s.fits lim) : (s.completed c).fits lim := by
  unfold State.completed
  split
  · exact fits_signal h
  · exact h

theorem fits_pushSram {m : Fin 6} {x : Nat} {ws : List Word} (h : s.fits lim) : (s.pushSram m x ws).fits lim :=
  h.setMeSame rfl

theorem fits_pushSdram {m : Fin 6} {x : Nat} {ws : List Word} (h : s.fits lim) : (s.pushSdram m x ws).fits lim :=
  h.setMeSame rfl

/-! ### Microengine instructions -/

/-- The write of a local CSR keeps the command FIFO. -/
theorem writeCsr_cmdFifo {m : Me} {k : LocalCsr} {v : Word} {free : Nat} :
    Holds (fun w => w.cmdFifo = m.cmdFifo) (m.writeCsr k v free) := by
  have hfields : Holds (fun w => w.cmdFifo = m.cmdFifo) (m.csrFields k v free) := by
    cases k with
    | activeCtxSts =>
      show (if m.executing then m else { m with active := _ }).cmdFifo = m.cmdFifo
      split <;> rfl
    | ctxWakeupEvents => exact .after fun _ => rfl
    | ustoreData | aluOutput => trivial
    | _ => rfl
  exact .bind hfields fun _ hw => hw

theorem fits_putEngine {e : Me} (h : s.fits lim) (he : e.cmdFifo.length ≤ 2) : (s.putEngine e).fits lim := h.setMe he

theorem fits_retire {m : Me} {r : Retire} (h : s.fits lim) (hm : m.cmdFifo.length ≤ 2) : (s.retire m r).fits lim :=
  fits_putEngine h (by simpa using hm)

theorem fits_retireBranch {m : Me} {r : Retire} {taken : Bool} {l : BitVec 12} {k : Fin 4} (h : s.fits lim)
    (hm : m.cmdFifo.length ≤ 2) : Fits lim (s.retireBranch m r taken l k) :=
  .ite trivial (.ite (fits_putEngine h (by split <;> simpa using hm)) (fits_putEngine h hm))

theorem fits_retireSwap {m : Me} {r : Retire} {act : DeferAct} {defer1 : Bool} (h : s.fits lim)
    (hm : m.cmdFifo.length ≤ 2) : Fits lim (s.retireSwap m r act defer1) :=
  .ite trivial (.ite (fits_putEngine h hm) (fits_putEngine h (by simpa using hm)))

/-- The end of an issue: the command stands in the FIFO, in which there was room, and the reference retires. -/
theorem fits_putCommand {cmd : Cmd} {ev : SigEvent} {tok : RefTok} (h : s.fits lim)
    (hroom : s.engine.cmdFifo.length < 2) :
    Fits lim (if tok.ctxSwap then s.retireSwap { s.engine with cmdFifo := s.engine.cmdFifo ++ [cmd] } {}
        (.swap (.signal ev)) tok.defer1
      else .ok (s.retire { s.engine with cmdFifo := s.engine.cmdFifo ++ [cmd] } {})) := by
  have hlen : (s.engine.cmdFifo ++ [cmd]).length ≤ 2 := by rw [List.length_append]; exact hroom
  exact .ite (fits_retireSwap h hlen) (fits_retire h hlen)

/-- A command enters the FIFO only where there is room (R61, R591). -/
theorem fits_issue {cmd : Cmd} {ev : SigEvent} {tok : RefTok} (h : s.fits lim) : Fits lim (s.issue cmd ev tok) := by
  unfold State.issue
  refine .ite trivial ?_
  split
  · exact h
  · next hroom =>
    have hlen : s.engine.cmdFifo.length < 2 := by simpa [Me.hasRoom] using hroom
    refine .ite trivial ?_
    cases cmd.sig with
    | none => exact fits_putCommand h hlen
    | some e =>
      have hmark : (s.markPending cmd.sigMe cmd.sigCtx e).engine.cmdFifo = s.engine.cmdFifo := by
        rw [State.engine, markPending_me]; rfl
      exact fits_putCommand (s := s.markPending cmd.sigMe cmd.sigCtx e) (h.setMeSame rfl) (hmark ▸ hlen)

theorem fits_hashRef {is64 : Bool} {total : Nat} {x : Xfer} {tok : RefTok} (h : s.fits lim) :
    Fits lim (s.hashRef is64 total x tok) :=
  .after fun _ => fits_issue h

/-- Every microengine instruction retires on its own engine, or issues a command. -/
theorem fits_exec_me {i : Instr} (h : s.fits lim) (hi : i.isSeq = false) : ∃ r, exec i s = finish r ∧ Fits lim r := by
  have hfifo : s.engine.cmdFifo.length ≤ 2 := h.engine s.cur
  have hwrite : ∀ d v, (s.engine.writeDest s.engine.active d v).cmdFifo.length ≤ 2 := fun d v => by simpa using hfifo
  cases i with
  | alu | aluShf | dblShf => exact ⟨_, rfl, .after fun _ => .after fun _ => fits_retire h (hwrite _ _)⟩
  | findBsetWithMask => exact ⟨_, rfl, .after fun _ => .after fun _ => fits_retire h (by simpa using hfifo)⟩
  | findBset => exact ⟨_, rfl, .after fun _ => fits_retire h (by simpa using hfifo)⟩
  | ldField | ldFieldWClr => exact ⟨_, rfl, .after fun _ => fits_retire h (hwrite _ _)⟩
  | immed | immedB0 | immedB1 | immedB2 | immedB3 | immedW0 | immedW1 | loadAddr | loadBsetResult1
  | loadBsetResult2 => exact ⟨_, rfl, .ok (fits_retire h (hwrite _ _))⟩
  | nop | localCsrRd => exact ⟨_, rfl, .ok (fits_retire h hfifo)⟩
  | localCsrWr reg =>
    refine ⟨_, rfl, .bind writeCsr_cmdFifo fun w hw => fits_putEngine h ?_⟩
    have hlen : w.cmdFifo.length ≤ 2 := hw ▸ hfifo
    rw [Me.advance_cmdFifo]
    split <;> exact hlen
  | br | brEq0 | brNe0 | brGt0 | brGe0 | brLt0 | brLe0 | brCout | brNotCout | brEqCtx | brNeCtx | brNotSignal =>
    exact ⟨_, rfl, fits_retireBranch h hfifo⟩
  | brInpState => exact ⟨_, rfl, fits_retireBranch h (by split <;> exact hfifo)⟩
  | brBset | brBclr | brEqByte | brNeByte => exact ⟨_, rfl, .after fun _ => fits_retireBranch h hfifo⟩
  | jump | rtn => exact ⟨_, rfl, .after fun _ => .after fun _ => fits_retireBranch h hfifo⟩
  | ctxArb => exact ⟨_, rfl, fits_retireSwap h hfifo⟩
  | csr rw =>
    refine ⟨_, rfl, .after fun _ => ?_⟩
    cases rw <;> exact fits_issue h
  | fastWr | pciDma => exact ⟨_, rfl, fits_issue h⟩
  | rFifoRd | tFifoWr | scratch | sdram | sram => exact ⟨_, rfl, .after fun _ => .after fun _ => fits_issue h⟩
  | hash1x48 | hash2x48 | hash3x48 | hash1x64 | hash2x64 | hash3x64 => exact ⟨_, rfl, fits_hashRef h⟩
  | _ => exact absurd hi (by decide)

/-! ### Local CSRs, from the core -/

theorem fits_armCsrRead {m : Fin 6} {k : LocalCsr} (h : s.fits lim) : FitsWith lim (s.armCsrRead m k) := by
  cases k with
  | aluOutput => exact .after fun _ => h
  | ustoreData =>
    refine .after fun _ => ?_
    split <;> exact h
  | _ => exact h

theorem fits_armCsrWrite {m : Fin 6} {k : LocalCsr} {v : Word} (h : s.fits lim) : Fits lim (s.armCsrWrite m k v) := by
  cases k with
  | aluOutput => trivial
  | ustoreAddress => exact .after fun _ => .bind writeCsr_cmdFifo fun _ hw => h.setMeSame hw
  | ustoreData => exact .after fun _ => h.setMeSame rfl
  | ctxEnables => exact .ite h (.bind writeCsr_cmdFifo fun _ hw => h.setMeSame hw)
  | ctxSts => exact .bind writeCsr_cmdFifo fun _ hw => h.setMeSame (by split <;> exact hw)
  | _ => exact .bind writeCsr_cmdFifo fun _ hw => h.setMeSame hw

end
end Sys2Proof.Machine
end

section
/-! The sizes of the FIFOs, continued: the FBI Unit's registers and engines. -/

namespace Sys2Proof.Machine

section
variable {s : State} {lim : Nat}

/-! ### FBI registers -/

theorem fits_signalHead (h : s.fits lim) : s.signalHead.fits lim := by
  unfold State.signalHead
  split
  · exact h
  · dsimp only
    split
    · exact fits_signalThread (fits_signalThread h)
    · exact fits_signalThread h

theorem fits_incrEnq {p : Fin 2} (h : s.fits lim) : (s.incrEnq p).fits lim := by
  rw [incrEnq_eq]
  split
  · exact fits_signalAll (h.withFbi h.fbi)
  · exact h

theorem fits_readRcvCntl (h : s.fits lim) : FitsWith lim s.readRcvCntl := by
  obtain ⟨hreq, hcntl, hget, hsend⟩ := h.fbi
  unfold State.readRcvCntl
  split
  · trivial
  · next e rest heq =>
    rw [heq, List.length_cons] at hcntl
    exact .ite (fits_signalHead (h.withFbi ⟨hreq, (Nat.le_succ _).trans hcntl, hget, hsend⟩))
      (h.withFbi ⟨hreq, hcntl, hget, hsend⟩)

theorem popWords_length (ws : List Word) (n : Nat) : (popWords ws n).2.length ≤ ws.length := by
  fun_induction popWords ws n with
  | case1 => exact Nat.le_refl _
  | case2 => exact Nat.le_refl _
  | case3 w ws n ih => exact ih.trans (Nat.le_succ _)

theorem fits_fbiRead {reg : FbiCsr} {cnt : Nat} (h : s.fits lim) : FitsWith lim (s.fbiRead reg cnt) := by
  cases reg with
  | rcvCntl => exact .bind (fits_readRcvCntl h) fun _ hp => hp
  | getCmd =>
    obtain ⟨hreq, hcntl, hget, hsend⟩ := h.fbi
    exact h.withFbi ⟨hreq, hcntl, (popWords_length _ _).trans hget, hsend⟩
  | _ => exact h

/-- RCV_REQ takes a request only where it has room (R200, U15). -/
theorem fits_writeRcvReq {w : Word} (h : s.fits lim) : Fits lim (s.writeRcvReq w) := by
  obtain ⟨-, hcntl, hget, hsend⟩ := h.fbi
  refine .bind (holds_iff.2 fun _ => require_ok) fun _ hroom => .after fun _ => h.withFbi ⟨?_, hcntl, hget, hsend⟩
  rw [List.length_append]
  exact of_decide_eq_true hroom

theorem fits_interThread {v : Nat} (h : s.fits lim) : Fits lim (s.interThread v) := by
  unfold State.interThread
  split
  · exact fits_signalThread h
  · trivial

theorem fits_writeTemplate {v : Word} (h : s.fits lim) : Fits lim (s.writeTemplate v) := by
  unfold State.writeTemplate
  refine .ite ?_ h
  split
  · trivial
  · exact h

/-- SEND_CMD takes no overfill (R214, R780). -/
theorem fits_writeSend {ws : List Word} (h : s.fits lim) : Fits lim (s.writeSend ws) := by
  obtain ⟨hreq, hcntl, hget, -⟩ := h.fbi
  refine .bind (holds_iff.2 fun _ => require_ok) fun _ hroom => h.withFbi ⟨hreq, hcntl, hget, ?_⟩
  rw [List.length_append]
  exact of_decide_eq_true hroom

theorem fits_fbiPlain {reg : FbiCsr} {ws : List Word} (h : s.fits lim) : ∀ r ∈ s.fbiPlain reg ws, Fits lim r := by
  intro r hr
  cases reg with
  | rcvReq => cases hr; exact fits_writeRcvReq h
  | rdybusTemplateCtl => cases hr; exact fits_writeTemplate h
  | sendCmd => cases hr; exact fits_writeSend h
  | interThdSig => cases hr; exact fits_interThread h
  | incrEnqNum1 | incrEnqNum2 | xmitValidate | threadDone | threadDoneIncr1 | threadDoneIncr2 | selfDestruct =>
    cases hr
  | _ => cases hr; exact h

theorem fits_fastWrite {reg : FastReg} {t : Nat} {d : Word} (h : s.fits lim) : Fits lim (s.fastWrite reg t d) := by
  cases reg with
  | interThdSig => exact fits_interThread h
  | threadDoneIncr1 | threadDoneIncr2 => exact fits_incrEnq (h.withFbi h.fbi)
  | incrEnqNum1 | incrEnqNum2 => exact fits_incrEnq h
  | selfDestruct => exact .ite h trivial
  | _ => exact h

theorem fits_fbiWrite {reg : FbiCsr} {ws : List Word} {t : Nat} (h : s.fits lim) : Fits lim (s.fbiWrite reg ws t) := by
  unfold State.fbiWrite
  split
  · next hr => exact fits_fbiPlain h _ hr
  · exact fits_fastWrite h
  · exact h

theorem fits_armFbiRead {reg : FbiCsr} (h : s.fits lim) : FitsWith lim (s.armFbiRead reg) :=
  .after fun _ => .ite h (.bind (fits_fbiRead h) fun _ hp => hp)

theorem fits_armFbiWrite {reg : FbiCsr} {v : Word} (h : s.fits lim) : Fits lim (s.armFbiWrite reg v) := by
  refine .after fun _ => .ite h ?_
  cases hr : s.fbiPlain reg [v] with
  | none => exact h
  | some r => exact fits_fbiPlain h _ hr

/-! ### FBI engines -/

theorem fits_pullServe {c : Cmd} (h : s.fits lim) : Fits lim (s.pullServe c) := by
  unfold State.pullServe
  split
  · exact .bind (fits_fbiWrite h) fun _ ht => fits_completed ht
  · exact .after fun _ => fits_completed h
  · exact .after fun _ => .ite h (fits_completed h)
  · exact .after fun _ => fits_completed h
  · exact .after fun _ => fits_completed h
  · exact h

theorem fits_fbiPullStep (h : s.fits lim) : Fits lim s.fbiPullStep := by
  unfold State.fbiPullStep
  split
  · split <;> exact h
  · split <;> exact h
  · exact .ite h (fits_pullServe h)
  · exact h

theorem fits_autopushTo {t : Fin 24} {ctl : Word} {ws : List Word} {sig : Bool} (h : s.fits lim) :
    (s.autopushTo t ctl ws sig).fits lim := by
  unfold State.autopushTo
  dsimp only
  split
  · exact fits_signalThread (fits_pushSram h)
  · exact fits_pushSram h

theorem fits_autopushStep (h : s.fits lim) : s.autopushStep.fits lim := by
  unfold State.autopushStep
  dsimp only
  split
  · split
    · exact h
    · exact (fits_autopushTo h).withFbi h.fbi
  · split
    · split
      · exact h
      · exact (fits_autopushTo h).withFbi h.fbi
    · exact h

theorem fits_pushHash {o : HashOut} (h : s.fits lim) : (s.pushHash o).fits lim := by
  unfold State.pushHash
  split
  · dsimp only
    split
    · exact fits_completed (fits_pushSram h)
    · exact fits_pushSram h
  · exact h

theorem fits_pushServe {c : Cmd} (h : s.fits lim) : Fits lim (s.pushServe c) := by
  unfold State.pushServe
  split
  · exact .bind (fits_fbiRead h) fun _ hp => fits_completed (fits_pushSram hp)
  · exact .after fun _ => .after fun _ => fits_completed (fits_pushSram h)
  · exact .after fun _ => .after fun _ => fits_completed (fits_pushSram h)
  · exact h

theorem fits_fbiPushStep (h : s.fits lim) : Fits lim s.fbiPushStep := by
  unfold State.fbiPushStep
  split
  · exact fits_completed (fits_pushSram (h.withFbi h.fbi))
  · refine .ite (fits_autopushStep h) ?_
    split
    · exact fits_pushHash (h.withFbi h.fbi)
    · exact fits_pushServe h
    · exact h

/-- A receive control entry is appended only where RCV_CNTL has room (R201). -/
theorem fits_pushRcvCntl {e : RcvEntry} (h : s.fits lim) (hroom : s.fbi.rcvCntl.length < 4) :
    (s.pushRcvCntl e).fits lim := by
  obtain ⟨hreq, -, hget, hsend⟩ := h.fbi
  have hlen : (s.fbi.rcvCntl ++ [e]).length ≤ 4 := by rw [List.length_append]; exact hroom
  unfold State.pushRcvCntl
  dsimp only
  split
  · exact fits_signalHead (h.withFbi ⟨hreq, hlen, hget, hsend⟩)
  · exact h.withFbi ⟨hreq, hlen, hget, hsend⟩

theorem fits_statusArrives {rq : Word} {e : RcvEntry} {status : Quad} (h : s.fits lim)
    (hroom : s.fbi.rcvCntl.length < 4) : (s.statusArrives rq e status).fits lim :=
  fits_pushRcvCntl h hroom

/-- The sequence numbers and the thread assignment of a fast port request leave the FIFOs of the unit (R810, R812). -/
def Fbi.sameFifos (f g : Fbi) : Prop :=
  g.rcvReq = f.rcvReq ∧ g.rcvCntl = f.rcvCntl ∧ g.getCmd = f.getCmd ∧ g.sendCmd = f.sendCmd

theorem sameFifos_sequenceIf {f g : Fbi} {c : Prop} [Decidable c] {p : Fin 2} {sop : Bool} (hf : f.sameFifos g) :
    f.sameFifos (if c then g.sequence p sop else g) := by
  unfold Fbi.sequence
  split
  · split <;> exact hf
  · exact hf

theorem sameFifos_assignIf {f g : Fbi} {c : Prop} [Decidable c] {p : Fin 2} {tid : BitVec 5} {sop : Bool}
    (hf : f.sameFifos g) : f.sameFifos (if c then g.assign p tid sop else (tid, g)).2 := by
  unfold Fbi.assign
  dsimp only
  repeat' split
  all_goals exact hf

/-- A request that is done leaves RCV_REQ; RCV_CNTL is as before. -/
theorem fits_requestDone {f : Fbi} (h : s.fits lim) (hf : s.fbi.sameFifos f) :
    (s.withFbi f.requestDone).fits lim := by
  obtain ⟨hreq, hcntl, hget, hsend⟩ := h.fbi
  obtain ⟨h1, h2, h3, h4⟩ := hf
  refine h.withFbi ⟨?_, h2 ▸ hcntl, h3 ▸ hget, h4 ▸ hsend⟩
  exact (List.drop_sublist 1 f.rcvReq).length_le.trans (h1 ▸ hreq)

theorem fits_receiveData {rq : Word} {rx : RxData} {free : Word} (h : s.fits lim)
    (hroom : s.fbi.rcvCntl.length < 4) : (s.receiveData rq rx free).fits lim := by
  have hsame := sameFifos_assignIf (c := getBit .rqFast rq) (p := fastPort rq) (tid := getField .rqThread 5 rq)
    (sop := rx.sop) (sameFifos_sequenceIf (f := s.fbi)
      (g := { s.fbi with rfifo := storeReceived s.fbi.rfifo rq 0 (rx.quads.take (requestQuads rq)) })
      (c := getBit .rqFast rq) (p := fastPort rq) (sop := rx.sop) ⟨rfl, rfl, rfl, rfl⟩)
  have hdone := fits_requestDone h hsame
  have hroom2 := lt_of_eq_of_lt (congrArg List.length hsame.2.1) hroom
  unfold State.receiveData
  dsimp only
  split
  · exact fits_pushRcvCntl hdone hroom2
  · split
    · exact hdone
    · exact fits_statusArrives hdone hroom2

theorem fits_receiveRequest {rq : Word} {rx : RxData} (h : s.fits lim) (hroom : s.fbi.rcvCntl.length < 4) :
    (s.receiveRequest rq rx).fits lim := by
  have hdraw : (s.draw .rcvCntl).2.fits lim := h
  unfold State.receiveRequest
  dsimp only
  split
  · exact fits_pushRcvCntl (fits_requestDone hdraw ⟨rfl, rfl, rfl, rfl⟩) hroom
  · exact fits_receiveData hdraw hroom

/-- The receive machine works only while RCV_CNTL has room (R806). -/
theorem fits_receiveStep {rx : RxData} (h : s.fits lim) : (s.receiveStep rx).fits lim := by
  unfold State.receiveStep
  split
  · exact h
  · next hwork =>
    have hroom : s.fbi.rcvCntl.length < 4 := by
      by_contra hfull
      simp [Fbi.rxWork, hfull] at hwork
    split
    · exact fits_statusArrives h hroom
    · exact fits_statusArrives h hroom
    · exact fits_receiveRequest h hroom
    · exact h

theorem fits_transmitStep (h : s.fits lim) : Fits lim s.transmitStep :=
  .ite h (.after fun _ => .ite h (.after fun _ => h))

end

end Sys2Proof.Machine
end

section
/-! The sizes of the FIFOs, continued: the SDRAM and SRAM Units. -/

namespace Sys2Proof.Machine

section
variable {s : State} {lim : Nat}

/-- What is behind the head of a queue is within every bound the queue is within. -/
theorem length_rest_le {α : Type} {l rest : List α} {a : α} {n : Nat} (heq : l = a :: rest) (hl : l.length ≤ n) :
    rest.length ≤ n := by
  rw [heq] at hl
  exact (Nat.le_succ _).trans hl

/-! ### SDRAM Unit -/

theorem Sdram.fits.queue {d : Sdram} (hd : d.fits) (q : UnitQueue) : (d.queue q).length ≤ 16 := by
  obtain ⟨-, horder, hodd, heven, hprio⟩ := hd
  unfold Sdram.queue
  split
  · exact hodd
  · exact heven
  · exact hprio
  · exact horder

theorem Sdram.fits.setQueue {d : Sdram} {q : UnitQueue} {cs : List Cmd} (hd : d.fits) (hcs : cs.length ≤ 16) :
    (d.setQueue q cs).fits := by
  obtain ⟨hposted, horder, hodd, heven, hprio⟩ := hd
  unfold Sdram.setQueue
  split
  · exact ⟨hposted, horder, hcs, heven, hprio⟩
  · exact ⟨hposted, horder, hodd, hcs, hprio⟩
  · exact ⟨hposted, horder, hodd, heven, hcs⟩
  · exact ⟨hposted, hcs, hodd, heven, hprio⟩

theorem Sdram.fits.joinChain {d : Sdram} {c : Cmd} {q : UnitQueue} (hd : d.fits) : (d.joinChain c q).fits := by
  rw [Sdram.joinChain_eq]; exact hd

theorem Sdram.fits.enqueue {d : Sdram} {c : Cmd} (hd : d.fits) (hroom : (d.queue c.queue).length < 16) :
    (d.enqueue c).fits :=
  hd.setQueue (q := c.queue) (by rw [List.length_append]; exact hroom)

theorem fits_secondValid {f : Fbi} {addr : Nat} {sig : Bool} (hf : f.fits) : (f.secondValid addr sig).fits := by
  unfold Fbi.secondValid
  split <;> exact hf

theorem fits_alignOut {res : Option Residue} {a : Word} {c : Nat} {align : BitVec 4} (h : s.fits lim) :
    Holds (fun p => p.2.2.fits lim) (s.alignOut res a c align) :=
  .ite (.after fun _ => h) h

theorem fits_sdramPut {a : Nat} {qs : List Quad} {mask : Option Byte} (h : s.fits lim) :
    (s.sdramPut a qs mask).fits lim := by
  obtain ⟨mem, n, heq, -, -⟩ := State.sdramPut_eq s a qs mask
  rw [heq]
  exact h

theorem fits_sdramServe {c : Cmd} (h : s.fits lim) : Fits lim (s.sdramServe c) := by
  unfold State.sdramServe
  split
  · exact .after fun _ => .after fun _ => fits_completed (fits_pushSdram h)
  · exact .after fun _ => fits_completed (fits_sdramPut h)
  · exact .after fun _ => .bind (fits_alignOut h) fun p hp => fits_completed (hp.withFbi (fits_secondValid hp.fbi))
  · exact .after fun _ => .after fun _ => fits_completed h
  · exact h

theorem fits_sdramFrom {q : UnitQueue} (h : s.fits lim) : Fits lim (s.sdramFrom q) := by
  unfold State.sdramFrom
  split
  · exact h
  · next c rest heq =>
    have hrest : rest.length ≤ 16 := length_rest_le heq (h.sdram.queue q)
    exact .bind (fits_sdramServe (h.withSdram ((h.sdram.setQueue hrest).joinChain))) fun _ ht => ht

theorem fits_sdramPosted (h : s.fits lim) : Fits lim s.sdramPosted := by
  obtain ⟨hposted, hqueues⟩ := h.sdram
  unfold State.sdramPosted
  split
  · exact h
  · next p rest heq =>
    have hrest : rest.length ≤ 2 := length_rest_le heq hposted
    refine .after fun _ => .ok (h.withSdram ?_)
    split <;> exact ⟨hrest, hqueues⟩

theorem fits_sdramStep (h : s.fits lim) : Fits lim s.sdramStep := by
  unfold State.sdramStep
  refine .ite h ?_
  split
  · split
    · exact fits_sdramFrom h
    · exact h
  · split
    · exact fits_sdramPosted h
    · exact fits_sdramFrom h
    · split
      · exact fits_sdramFrom h
      · exact h

theorem fits_sdramInitDone (h : s.fits lim) : s.sdramInitDone.fits lim := by
  unfold State.sdramInitDone
  split <;> exact h

theorem Sdram.fits.csrWrite {d : Sdram} {r : SdramCsr} {v : Word} (hd : d.fits) : (d.csrWrite r v).fits := by
  unfold Sdram.csrWrite
  split
  · dsimp only; split <;> exact hd
  all_goals exact hd

/-! ### SRAM Unit -/

theorem Sram.fits.turn {r : Sram} {k : SramSide} (hr : r.fits) : (r.turn k).fits := by
  unfold Sram.turn
  split <;> exact hr

/-- A lock is taken only where the CAM has a free entry (R910, R911). -/
theorem Sram.fits.lock {r : Sram} {a : Word} (hr : r.fits) (hroom : r.cam.length < 8) : (r.lock a).fits := by
  obtain ⟨-, hrest⟩ := hr
  exact ⟨by rw [Sram.lock, List.length_append]; exact hroom, hrest⟩

theorem Sram.fits.unlock {r : Sram} {a : Word} (hr : r.fits) : (r.unlock a).fits := by
  obtain ⟨hcam, hrest⟩ := hr
  exact ⟨(List.length_filter_le ..).trans hcam, hrest⟩

theorem camRoom_of_canLock {r : Sram} {a : Word} (h : r.canLock a = true) : r.cam.length < 8 := by
  simp only [Sram.canLock, Bool.and_eq_true, decide_eq_true_eq] at h
  exact h.2

theorem camRoom_of_not_lockFails {r : Sram} {a : Word} (h : ¬ r.lockFails a = true) : r.cam.length < 8 := by
  refine camRoom_of_canLock (a := a) ?_
  by_contra hno
  simp [Sram.lockFails, hno] at h

theorem fits_ssramWrite {a : Nat} {v : Word} (h : s.fits lim) : Fits lim (s.ssramWrite a v) := .after fun _ => h

theorem fits_sramCsrRead {k : SramCsr} (h : s.fits lim) : (s.sramCsrRead k).2.fits lim := by
  cases k <;> exact h

theorem fits_sramCsrWrite {who : Option (Fin 6 × Fin 4)} {k : SramCsr} {v : Word} (h : s.fits lim) :
    Fits lim (s.sramCsrWrite who k v) := by
  cases k with
  | autoBase | autoEnd => exact .after fun _ => h
  | autoPtr => exact .ite (.bind (fits_ssramWrite h) fun _ ht => ht) h
  | _ => exact h

theorem fits_bootPut {x : Nat} {bs : List Byte} (h : s.fits lim) : (s.bootPut x bs).fits lim := by
  refine State.fits.withSram (s := { s with outputs := _ }) h ?_
  split <;> exact h.sram

theorem fits_bootHalves {x : Nat} {bs : List Byte} (h : s.fits lim) : (s.bootHalves x bs).fits lim := by
  fun_induction State.bootHalves s x bs with
  | case1 s x b0 b1 _ _ rest ih => exact ih (fits_bootPut h)
  | case2 => exact h
  | case3 => exact fits_bootPut h

theorem fits_bootWrite {x : Nat} {bs : List Byte} (h : s.fits lim) : (s.bootWrite x bs).fits lim := by
  unfold State.bootWrite
  split
  · exact fits_bootHalves h
  · exact fits_bootPut h

theorem fits_bootLong {v : Word} (h : s.fits lim) : (s.bootLong v).2.fits lim := by
  unfold State.bootLong
  split <;> exact h

theorem fits_sramLongRead {w : Nat} (h : s.fits lim) : FitsWith lim (s.sramLongRead w) := by
  refine .ite (.after fun _ => h) (.ite (.after fun _ => .after fun _ => fits_bootLong h) (.ite ?_ (.ite h trivial)))
  split
  · exact fits_sramCsrRead h
  · trivial

theorem fits_sramLongWrite {who : Option (Fin 6 × Fin 4)} {w : Nat} {v : Word} (h : s.fits lim) :
    Fits lim (s.sramLongWrite who w v) := by
  refine .ite (fits_ssramWrite h) (.ite (.after fun _ => fits_bootWrite h) (.ite ?_ (.ite h trivial)))
  split
  · exact fits_sramCsrWrite h
  · trivial

theorem fits_sramReads {w n : Nat} (h : s.fits lim) : FitsWith lim (s.sramReads w n) := by
  induction n generalizing s w with
  | zero => exact h
  | succ n ih => exact .bind (fits_sramLongRead h) fun _ hp => .bind (ih hp) fun _ hq => hq

theorem fits_sramWrites {who : Option (Fin 6 × Fin 4)} {w : Nat} {vs : List Word} (h : s.fits lim) :
    Fits lim (s.sramWrites who w vs) := by
  induction vs generalizing s w with
  | nil => exact h
  | cons v vs ih => exact .bind (fits_sramLongWrite h) fun _ ht => ih ht

/-- A 24th failed read lock is a fault (R912, U21). -/
theorem fits_lockWait {w : LockWaiter} (h : s.fits lim) : Fits lim (s.lockWait w) := by
  obtain ⟨hcam, -, hrest⟩ := h.sram
  unfold State.lockWait
  split
  · next hroom => exact h.withSram ⟨hcam, by rw [List.length_append]; exact hroom, hrest⟩
  · trivial

theorem fits_lockRead {c : Cmd} {a : Word} {x cnt : Nat} (h : s.fits lim) (hroom : s.sram.cam.length < 8) :
    Fits lim (s.lockRead c a x cnt) :=
  .after fun _ => .after fun _ => fits_completed (fits_pushSram (h.withSram (h.sram.lock hroom)))

/-- The head of the Read_lock Fail queue leaves it and takes the free entry of the CAM (R912). -/
theorem fits_retryHead {w : LockWaiter} {rest : List LockWaiter} (h : s.fits lim) (hrest : rest.length ≤ 23)
    (hroom : s.sram.cam.length < 8) : Fits lim (s.retryHead w rest) := by
  obtain ⟨hcam, -, hothers⟩ := h.sram.turn (k := .read)
  have ht : (s.withSram { s.sram.turn .read with lockFail := rest }).fits lim := h.withSram ⟨hcam, hrest, hothers⟩
  have hfree : (s.sram.turn .read).cam.length < 8 := by rwa [Sram.turn_cam]
  unfold State.retryHead
  dsimp only
  split
  · split
    · exact fits_lockRead ht hfree
    · exact ht
  · exact ht.withSram (ht.sram.lock hfree)

theorem fits_sramBits {a : Nat} {op : BitOp} {m : Word} (h : s.fits lim) : FitsWith lim (s.sramBits a op m) :=
  .after fun _ => .bind (fits_ssramWrite h) fun _ ht => ht

theorem fits_pop {k : Fin 8} (h : s.fits lim) : FitsWith lim (s.pop k) := .after fun _ => h

theorem fits_push {k : Fin 8} {m : Word} (h : s.fits lim) : Fits lim (s.push k m) :=
  .bind (fits_ssramWrite h) fun _ ht => ht

theorem fits_sramPut {who : Option (Fin 6 × Fin 4)} {w : Nat} {vs : List Word} {mask : Option Byte} (h : s.fits lim) :
    Fits lim (s.sramPut who w vs mask) := by
  unfold State.sramPut
  split
  · exact fits_sramWrites h
  · exact .ite (.after fun _ => h) (.bind (fits_sramLongRead h) fun _ hp => fits_sramLongWrite hp)
  · exact fits_sramWrites h

theorem fits_sramServe {c : Cmd} (h : s.fits lim) : Fits lim (s.sramServe c) := by
  unfold State.sramServe
  split
  · exact .bind (fits_sramReads h) fun _ hp => fits_completed (fits_pushSram hp)
  · exact .bind (fits_sramPut h) fun _ ht => fits_completed ht
  · refine .bind (fits_sramBits h) fun _ hp => fits_completed ?_
    split
    · exact fits_pushSram hp
    · exact hp
  · refine .after fun _ => ?_
    split
    · exact fits_lockWait h
    · next hfree => exact fits_lockRead h (camRoom_of_not_lockFails hfree)
  · exact .after fun _ => fits_completed (h.withSram (Sram.fits.unlock h.sram))
  · exact .after fun _ => fits_completed (h.withSram h.sram.unlock)
  · exact .bind (fits_push h) fun _ ht => fits_completed ht
  · exact .bind (fits_pop h) fun _ hp => fits_completed (fits_pushSram hp)
  · exact h

theorem fits_sramHasRead {w : SramWindow} (h : s.fits lim) : (s.sramHasRead w).fits lim := by
  rw [State.sramHasRead_eq]; exact h

theorem fits_sramArmWrite {a : Nat} {bs : List Byte} (h : s.fits lim) : Fits lim (s.sramArmWrite a bs) := by
  unfold State.sramArmWrite
  split
  · exact .after fun _ => fits_bootWrite h
  · exact .after fun _ => h
  · exact .after fun _ => h.withSram (Sram.fits.unlock h.sram)
  · exact .after fun _ => h.withSram h.sram.unlock
  · refine .bind (fits_sramBits h) fun _ hp => .ok ?_
    split <;> exact hp
  · exact fits_push h
  · exact fits_sramCsrWrite h
  · exact h
  all_goals trivial

theorem fits_sramArmRead {a n : Nat} (h : s.fits lim) : FitsWith lim (s.sramArmRead a n) := by
  unfold State.sramArmRead
  split
  · exact .after fun _ => .after fun _ => h
  · exact .after fun _ => .after fun _ => h
  · refine .after fun _ => ?_
    split
    · exact .bind (fits_lockWait h) fun _ ht => ht
    · next hfree => exact h.withSram (h.sram.lock (camRoom_of_not_lockFails hfree))
  · exact .bind (fits_pop h) fun _ hp => hp
  · exact fits_sramCsrRead h
  · exact h
  all_goals trivial

theorem Sram.fits.afterOrder {r : Sram} {c : Cmd} (hr : r.fits) : (r.afterOrder c).fits := by
  unfold Sram.afterOrder
  dsimp only
  repeat' split
  all_goals exact hr

theorem Sram.fits.afterRead {r : Sram} (hr : r.fits) : r.afterRead.fits := by
  unfold Sram.afterRead
  dsimp only
  repeat' split
  all_goals exact hr

/-- A command that leaves the Write/Order queue or the Read queue makes it shorter (R900). -/
theorem fits_sramQueues (h : s.fits lim) : Fits lim s.sramQueues := by
  obtain ⟨hcam, hfail, hposted, hread, horder, hprio⟩ := h.sram
  have order : ∀ {c rest}, s.sram.orderQ = c :: rest →
      Fits lim ((s.withSram ({ s.sram with orderQ := rest }.afterOrder c)).sramServe c) := fun heq =>
    fits_sramServe (h.withSram (Sram.fits.afterOrder
      ⟨hcam, hfail, hposted, hread, length_rest_le heq horder, hprio⟩))
  have read : ∀ {c rest}, s.sram.readQ = c :: rest →
      Fits lim ((s.withSram { s.sram with readQ := rest }.afterRead).sramServe c) := fun heq =>
    fits_sramServe (h.withSram (Sram.fits.afterRead
      ⟨hcam, hfail, hposted, length_rest_le heq hread, horder, hprio⟩))
  unfold State.sramQueues
  dsimp only
  split
  · next heq => exact order heq
  · next heq => exact read heq
  · next heq => exact read heq
  · next heq _ => exact order heq
  · exact h

theorem fits_sramServeNext (h : s.fits lim) : Fits lim s.sramServeNext := by
  obtain ⟨hcam, hfail, hposted, hread, horder, hprio⟩ := h.sram
  unfold State.sramServeNext
  dsimp only
  split
  · next heq =>
    obtain ⟨hcam, hfail, -, hqueues⟩ := h.sram.turn (k := .order)
    exact fits_sramArmWrite (h.withSram ⟨hcam, hfail, length_rest_le heq hposted, hqueues⟩)
  · next c rest _ heq =>
    have hrest : Sram.fits { s.sram with prioQ := rest } :=
      ⟨hcam, hfail, hposted, hread, horder, length_rest_le heq hprio⟩
    exact fits_sramServe (h.withSram hrest.turn)
  · exact fits_sramQueues h

theorem fits_sramStep (h : s.fits lim) : Fits lim s.sramStep := by
  obtain ⟨-, hfail, -⟩ := h.sram
  unfold State.sramStep
  split
  · next w rest _ heq =>
    split
    · next hlock => exact fits_retryHead h (length_rest_le heq hfail) (camRoom_of_canLock hlock)
    · exact fits_sramServeNext (h.withSram h.sram)
  · exact fits_sramServeNext (h.withSram h.sram)

end

end Sys2Proof.Machine
end

section
/-! The sizes of the FIFOs, continued: the command bus, the resets and the Ready Bus sequencer. -/

namespace Sys2Proof.Machine

section
variable {s : State} {lim : Nat}

/-! ### Command bus -/

theorem fits_pciRequest {c : Cmd} {x : Nat} {orderQueue : Bool} (h : s.fits lim) :
    Fits lim (s.pciRequest c x orderQueue) := by
  refine .after fun _ => .after fun _ => ?_
  split
  · next hroom => exact h.withPci (by rw [List.length_append]; exact hroom)
  · trivial

theorem length_of_roomIn {n : Nat} {q : List Cmd} (h : roomIn n q = true) : q.length < n := by
  have := of_decide_eq_true h
  omega

/-- The SDRAM Unit takes commands only with room in each of its queues (R591, R845). -/
theorem sdramRoom_of_busAccepts (h : s.busAccepts .sdram = true) (q : UnitQueue) : (s.sdram.queue q).length < 16 := by
  simp only [State.busAccepts, Bool.and_eq_true] at h
  obtain ⟨⟨⟨horder, hodd⟩, heven⟩, hprio⟩ := h
  unfold Sdram.queue
  split
  · exact length_of_roomIn hodd
  · exact length_of_roomIn heven
  · exact length_of_roomIn hprio
  · exact length_of_roomIn horder

/-- The SRAM Unit takes commands only with room in each of its queues (R591, R900). -/
theorem sramRoom_of_busAccepts (h : s.busAccepts .sram = true) :
    s.sram.readQ.length < 16 ∧ s.sram.orderQ.length < 24 ∧ s.sram.prioQ.length < 8 := by
  simp only [State.busAccepts, Bool.and_eq_true] at h
  obtain ⟨⟨hread, horder⟩, hprio⟩ := h
  exact ⟨length_of_roomIn hread, length_of_roomIn horder, length_of_roomIn hprio⟩

theorem length_snoc_le {α : Type} {l : List α} {a : α} {n : Nat} (hl : l.length < n) : (l ++ [a]).length ≤ n := by
  rw [List.length_append]; exact hl

theorem fits_deliver {c : Cmd} (h : s.fits lim) (haccepts : s.busAccepts (busUnit c.queue) = true) :
    Fits lim (s.deliver c) := by
  obtain ⟨hcam, hfail, hposted, hread, horder, hprio⟩ := h.sram
  unfold State.deliver
  split
  case h_1 | h_2 | h_3 => exact h
  case h_4 => split <;> [exact fits_fastWrite h; exact h]
  case h_5 => split <;> [exact fits_pciRequest h; exact h]
  case h_6 hq | h_7 hq | h_8 hq | h_9 hq =>
    rw [hq] at haccepts
    exact h.withSdram (h.sdram.enqueue (sdramRoom_of_busAccepts haccepts _))
  case h_10 hq =>
    rw [hq] at haccepts
    obtain ⟨-, hroom, -⟩ := sramRoom_of_busAccepts haccepts
    exact h.withSram ⟨hcam, hfail, hposted, hread, length_snoc_le hroom, hprio⟩
  case h_11 hq =>
    rw [hq] at haccepts
    obtain ⟨hroom, -⟩ := sramRoom_of_busAccepts haccepts
    exact h.withSram ⟨hcam, hfail, hposted, length_snoc_le hroom, horder, hprio⟩
  case h_12 hq =>
    rw [hq] at haccepts
    obtain ⟨-, -, hroom⟩ := sramRoom_of_busAccepts haccepts
    exact h.withSram ⟨hcam, hfail, hposted, hread, horder, length_snoc_le hroom⟩

theorem fits_busStep {m : Fin 6} (h : s.fits lim) : Fits lim (s.busStep m) := by
  unfold State.busStep
  split
  · exact h
  · next c rest heq =>
    split
    · exact h
    · next hgo =>
      simp only [List.all_cons, Bool.not_and, Bool.or_eq_true, Bool.not_eq_true', not_or, Bool.not_eq_false] at hgo
      obtain ⟨-, hhead, -⟩ := hgo
      exact fits_deliver (h.setMe (length_rest_le heq (h.engine m))) hhead

/-! ### Resets -/

/-- A chip reset empties every FIFO (R130, R1141), whatever was in them. -/
theorem fits_chipReset : s.chipReset.fits lim := by
  have hreset := (fifosOk_iff _).1 reset_fifosOk
  exact ⟨fun m => by rw [chipReset_me]; exact Nat.zero_le 2, hreset.fbi, hreset.sdram, hreset.sram, Nat.zero_le lim,
    hreset.sys, Nat.zero_le _⟩

theorem fits_setMeReset {m : Fin 6} {on : Bool} (h : s.fits lim) : (s.setMeReset m on).fits lim := by
  unfold State.setMeReset
  split
  · split
    · exact h
    · exact h.setMe (Nat.zero_le 2)
  · exact h.setMeSame rfl

theorem fits_setMeResets {w : Word} (h : s.fits lim) : (s.setMeResets w).fits lim :=
  List.foldlRecOn _ _ h fun _ ht _ _ => fits_setMeReset ht

theorem fits_setSdramReset {on : Bool} (h : s.fits lim) : (s.setSdramReset on).fits lim := by
  unfold State.setSdramReset
  split <;> exact h

theorem fits_writeReset {v : Word} (h : s.fits lim) : (s.writeReset v).fits lim := by
  unfold State.writeReset
  split
  · exact fits_chipReset
  · exact fits_setSdramReset (fits_setMeResets h)

theorem fits_pciRst (h : s.fits lim) : s.pciRst.fits lim := by
  unfold State.pciRst
  split
  · exact h
  · exact fits_chipReset

/-! ### Ready Bus sequencer -/

theorem Fbi.fits.seqBegin {f : Fbi} (hf : f.fits) : f.seqBegin.fits := by
  unfold Fbi.seqBegin
  dsimp only
  split <;> exact hf

theorem seqBegin_getCmd (f : Fbi) : f.seqBegin.getCmd = f.getCmd := by
  unfold Fbi.seqBegin
  dsimp only
  split <;> rfl

theorem seqBegin_sendCmd (f : Fbi) : f.seqBegin.sendCmd = f.sendCmd := by
  unfold Fbi.seqBegin
  dsimp only
  split <;> rfl

/-- A sequencer instruction keeps the FIFOs of the FBI Unit if its own effect does. -/
theorem fits_seqRun {n : Nat} {g : Fbi → Fbi} (h : s.fits lim) (hg : (g s.fbi.seqBegin).fits) :
    (s.seqRun n g).fits lim := by
  refine h.withFbi ?_
  unfold Fbi.seqNext
  dsimp only
  split <;> exact hg

theorem Fbi.fits.capture {f : Fbi} (hf : f.fits) : f.capture.fits := by
  unfold Fbi.capture
  split <;> exact hf

theorem fits_seqNop {n : Nat} (h : s.fits lim) : (s.seqNop n).fits lim := fits_seqRun h h.fbi.seqBegin

theorem fits_rxrdy {a b : Nat} (h : s.fits lim) : (s.rxrdy a b).fits lim := fits_seqRun h h.fbi.seqBegin.capture

theorem fits_txrdy {a b : Nat} (h : s.fits lim) : (s.txrdy a b).fits lim := fits_seqRun h h.fbi.seqBegin.capture

theorem fits_rxAutopush (h : s.fits lim) : s.rxAutopush.fits lim :=
  fits_seqRun h (by dsimp only; split <;> exact h.fbi.seqBegin)

theorem fits_txAutopush (h : s.fits lim) : s.txAutopush.fits lim :=
  fits_seqRun h (by dsimp only; split <;> exact h.fbi.seqBegin)

theorem fits_flwctl (h : s.fits lim) : s.flwctl.fits lim := by
  unfold State.flwctl
  split
  · exact fits_seqRun (g := fun f => { f with fcma := false }) h h.fbi.seqBegin
  · exact fits_seqRun h h.fbi.seqBegin

theorem takeWords_fst_length (n : Nat) (ws : List Word) : (takeWords n ws).1.length = n := by
  fun_induction takeWords n ws with
  | case1 => rfl
  | case2 n ih => exact congrArg (· + 1) ih
  | case3 n w ws ih => exact congrArg (· + 1) ih

theorem takeWords_snd_length (n : Nat) (ws : List Word) : (takeWords n ws).2.length ≤ ws.length := by
  fun_induction takeWords n ws with
  | case1 => exact le_rfl
  | case2 n ih => exact le_rfl
  | case3 n w ws ih => exact ih.trans (Nat.le_succ _)

/-- `n` longwords more in GET_CMD, in which there was room for them. -/
theorem fits_getWords {k n : Nat} {vs : List Word} (h : s.fits lim) (hvs : vs.length = n)
    (hroom : decide (s.fbi.getCmd.length + n ≤ 8) = true) :
    (s.seqRun k fun f => { f with getCmd := f.getCmd ++ vs }).fits lim := by
  obtain ⟨hreq, hcntl, -, hsend⟩ := h.fbi.seqBegin
  refine fits_seqRun h ⟨hreq, hcntl, ?_, hsend⟩
  rw [List.length_append, seqBegin_getCmd, hvs]
  exact of_decide_eq_true hroom

theorem Holds.afterRequire {α : Type} {P : α → Prop} {b : Bool} {r : Refusal} {f : Unit → Res α}
    (hf : b = true → Holds P (f ())) : Holds P (require b r >>= f) := by
  cases b with
  | true => exact hf rfl
  | false => trivial

theorem fits_get1 {n : Nat} (h : s.fits lim) : Fits lim (s.get1 n) :=
  .afterRequire fun hroom => fits_getWords h (by rw [List.length_map, takeWords_fst_length]) hroom

theorem fits_get2 {n : Nat} (h : s.fits lim) : Fits lim (s.get2 n) :=
  .afterRequire fun hroom => fits_getWords h (by rw [List.length_mapIdx, takeWords_fst_length]) hroom

theorem fits_send {n : Nat} (h : s.fits lim) : (s.send n).fits lim := by
  obtain ⟨hreq, hcntl, hget, hsend⟩ := h.fbi.seqBegin
  exact fits_seqRun (g := fun f => { f with sendCmd := (takeWords n s.fbi.sendCmd).2 }) h
    ⟨hreq, hcntl, hget, (takeWords_snd_length ..).trans (seqBegin_sendCmd s.fbi ▸ hsend)⟩

/-- Every instruction of the Ready Bus sequencer keeps the FIFOs within their sizes. -/
theorem fits_exec_seq {i : Instr} (h : s.fits lim) (hi : i.isSeq = true) : ∃ r, exec i s = finish r ∧ Fits lim r := by
  cases i with
  | nop1 | nop2 | nop3 | nop4 | nop5 | nop6 | nop7 | nop8 => exact ⟨_, rfl, .ok (fits_seqNop h)⟩
  | rxrdy0 | rxrdy0to1 | rxrdy0to2 | rxrdy0to3 | rxrdy0to4 | rxrdy0to5 | rxrdy0to6 | rxrdy1 | rxrdy1to2 | rxrdy1to3
  | rxrdy1to4 | rxrdy1to5 | rxrdy1to6 | rxrdy2 | rxrdy2to3 | rxrdy2to4 | rxrdy2to5 | rxrdy2to6 | rxrdy3 | rxrdy3to4
  | rxrdy3to5 | rxrdy3to6 | rxrdy4 | rxrdy4to5 | rxrdy4to6 | rxrdy5 | rxrdy5to6 | rxrdy6 =>
    exact ⟨_, rfl, .ok (fits_rxrdy h)⟩
  | txrdy0 | txrdy0to1 | txrdy0to2 | txrdy0to3 | txrdy0to4 | txrdy0to5 | txrdy0to6 | txrdy1 | txrdy1to2 | txrdy1to3
  | txrdy1to4 | txrdy1to5 | txrdy1to6 | txrdy2 | txrdy2to3 | txrdy2to4 | txrdy2to5 | txrdy2to6 | txrdy3 | txrdy3to4
  | txrdy3to5 | txrdy3to6 | txrdy4 | txrdy4to5 | txrdy4to6 | txrdy5 | txrdy5to6 | txrdy6 =>
    exact ⟨_, rfl, .ok (fits_txrdy h)⟩
  | rxAutopush => exact ⟨_, rfl, .ok (fits_rxAutopush h)⟩
  | txAutopush => exact ⟨_, rfl, .ok (fits_txAutopush h)⟩
  | flwctl => exact ⟨_, rfl, .ok (fits_flwctl h)⟩
  | get1x1 | get1x2 | get1x3 | get1x4 | get1x5 | get1x6 | get1x7 | get1x8 => exact ⟨_, rfl, fits_get1 h⟩
  | get2x1 | get2x2 | get2x3 | get2x4 | get2x5 | get2x6 | get2x7 | get2x8 => exact ⟨_, rfl, fits_get2 h⟩
  | sendx1 | sendx2 | sendx3 | sendx4 | sendx5 | sendx6 | sendx7 | sendx8 =>
    exact ⟨_, rfl, .ok (fits_send h)⟩
  | _ => exact absurd hi Bool.false_ne_true

/-- Every instruction, of a microengine or of the sequencer, keeps the FIFOs within their sizes. -/
theorem fits_exec {i : Instr} {t : State} (h : s.fits lim) (ht : exec i s = .next t) : t.fits lim := by
  have hstep : ∃ r, exec i s = finish r ∧ Fits lim r := by
    cases hi : i.isSeq with
    | true => exact fits_exec_seq h hi
    | false => exact fits_exec_me h hi
  obtain ⟨r, hr, hfits⟩ := hstep
  exact hfits.of_finish (hr ▸ ht)

end

end Sys2Proof.Machine
end

section
/-! The sizes of the FIFOs, continued: the PCI Unit, its bus and the system registers. -/

namespace Sys2Proof.Machine

section
variable {s : State} {lim : Nat}

/-! ### PCI Unit -/

theorem fits_pciRegRead {r : PciReg} (h : s.fits lim) : (s.pciRegRead r).2.fits lim := by
  cases r <;> exact h

theorem fits_chanWrite {arm : Bool} {n : Fin 2} {c : Chan} (h : s.fits lim) : Fits lim (s.chanWrite arm n c) :=
  .after fun _ => h

theorem fits_pciRegWrite {arm : Bool} {r : PciReg} {v mask : Word} (h : s.fits lim) :
    Fits lim (s.pciRegWrite arm r v mask) := by
  cases r with
  | reset => exact fits_writeReset h
  | dmaMode => exact .after fun _ => h
  | byteCount | chanPci | chanDram | chanDesc | chanControl => exact fits_chanWrite h
  | inbFreeCount | inbPostCount | outbPostCount => exact .after fun _ => h
  | _ => exact h

theorem fits_timerTick {n : Fin 4} (h : s.fits lim) : (s.timerTick n).fits lim := by
  unfold State.timerTick
  dsimp only
  split
  · exact fits_chipReset
  · exact h

theorem fits_pciSdramRead {x n : Nat} (h : s.fits lim) : FitsWith lim (s.pciSdramRead x n) :=
  .after fun _ => .after fun _ => h

/-- A write of the PCI port leaves the unit free to replace its registers by any that keep the DMA request FIFO. -/
theorem fits_pciSdramPut {x n : Nat} {mem : Mem} (h : s.fits lim) :
    Holds (fun t => ∀ p : Pci, p.dmaReq = s.pci.dmaReq → (t.withPci p).fits lim) (s.pciSdramPut x n mem) :=
  .after fun _ _ hp => State.fits.withPci (s := (s.withSdram (s.sdram.store mem)).pciServed x n) h (hp ▸ h.dmaReq)

theorem fits_pciSdramWrite {x : Nat} {bs : List Byte} (h : s.fits lim) :
    Holds (fun t => ∀ p : Pci, p.dmaReq = s.pci.dmaReq → (t.withPci p).fits lim) (s.pciSdramWrite x bs) :=
  fits_pciSdramPut h

theorem fits_dmaFetch {n : Fin 2} (h : s.fits lim) : Fits lim (s.dmaFetch n) :=
  .after fun _ => .bind (fits_pciSdramRead h) fun _ hp => hp

theorem fits_dmaFinish {n : Fin 2} (h : s.fits lim) : (s.dmaFinish n).fits lim := by
  unfold State.dmaFinish
  dsimp only
  split
  · exact h
  · split
    · exact h
    · split
      · exact fits_signal h
      · exact h

theorem fits_writeParity {ps : List Bool} (h : s.fits lim) : (s.writeParity ps).2.fits lim := by
  unfold State.writeParity
  split <;> exact h

theorem fits_readParity {ps : List Bool} (h : s.fits lim) : (s.readParity ps).fits lim := by
  unfold State.readParity
  dsimp only
  repeat' split
  all_goals exact h

theorem fits_pciNoFrame (h : s.fits lim) : s.pciNoFrame.fits lim := by
  rw [State.pciNoFrame_eq]; exact h

theorem fits_dmaOut {n : Fin 2} (h : s.fits lim) : Fits lim (s.dmaOut n) :=
  .bind (fits_pciSdramRead h) fun _ hp => hp

theorem fits_dmaArrive {n : Fin 2} {ws : List Word} {ps : List Bool} (h : s.fits lim) :
    (s.dmaArrive n ws ps).fits lim :=
  fits_readParity (ps := ps) h

theorem fits_dmaIn {n : Fin 2} {ans : PciAns} (h : s.fits lim) : (s.dmaIn n ans).fits lim := by
  cases ans with
  | done | disconnectAfter => exact fits_dmaArrive h
  | _ => exact h

theorem fits_dmaStep {n : Fin 2} {ans : PciAns} (h : s.fits lim) : Fits lim (s.dmaStep n ans) :=
  .ite h (.ite (fits_dmaFinish h) (.ite (.ite (fits_dmaFetch h) h)
    (.after fun _ => .ite (.ite (fits_dmaOut h) h) (.ite (fits_dmaIn h) h))))

theorem fits_dmaAlloc {n : Fin 2} (h : s.fits lim) : (s.dmaAlloc n).fits lim := by
  unfold State.dmaAlloc
  split
  · exact h
  · next r rest heq =>
    split
    · exact h.withPci (p := { s.pci with dmaReq := rest }) (length_rest_le heq h.dmaReq)
    · exact h

/-! ### The PCI bus -/

theorem fits_pciSideRead {r : Option PciReg} (h : s.fits lim) : (s.pciSideRead r).2.fits lim := by
  unfold State.pciSideRead
  split
  · split
    · exact h
    · exact fits_pciRegRead h
  · exact h

theorem fits_pciSideWrite {r : Option PciReg} {d : Word × BitVec 4} (h : s.fits lim) :
    Fits lim (s.pciSideWrite r d) := by
  unfold State.pciSideWrite
  split
  · exact .ite h (fits_pciRegWrite h)
  · exact h

theorem fits_targetParity {ps : List Bool} (h : s.fits lim) : (s.targetParity ps).fits lim := by
  unfold State.targetParity
  dsimp only
  repeat' split
  all_goals exact h

theorem fits_answerWrite {t : PciTxn} {k : Nat} (h : s.fits lim) : (s.answerWrite t k).fits lim :=
  fits_targetParity h

theorem fits_targetRegWrite {t : PciTxn} {r : Option PciReg} (h : s.fits lim) : Fits lim (s.targetRegWrite t r) := by
  unfold State.targetRegWrite
  split
  · exact fits_answerWrite h
  · exact .bind (fits_pciSideWrite h) fun _ ht => fits_answerWrite ht

theorem fits_targetRegRead {t : PciTxn} {r : Option PciReg} (h : s.fits lim) : (s.targetRegRead t r).fits lim :=
  fits_pciSideRead (r := r) h

theorem fits_streamed {l : ReadLatch} {done : Nat} {more : List Word} (h : s.fits lim) :
    (s.streamed l done more).fits lim := by
  unfold State.streamed
  split <;> exact h

theorem fits_delayedRead {t : PciTxn} {i2o : Bool} (h : s.fits lim) : Fits lim (s.delayedRead t i2o) := by
  unfold State.delayedRead
  split
  · exact h
  · refine .ite h ?_
    split
    · exact h
    · refine .ite (.ok ?_) h
      exact fits_streamed (s := ((s.withPci { s.pci with latch := none }).draw .pciAccept).2) h

theorem fits_targetDramWrite {t : PciTxn} {x : Nat} (h : s.fits lim) : (s.targetDramWrite t x).fits lim := by
  unfold State.targetDramWrite
  generalize (if t.addr.extractLsb' 0 2 = 0 then t.data.length else min 1 t.data.length) = most
  dsimp only
  split
  · exact h
  · exact fits_answerWrite h

theorem fits_targetI2oWrite {t : PciTxn} {post : Bool} (h : s.fits lim) : (s.targetI2oWrite t post).fits lim := by
  unfold State.targetI2oWrite
  split <;> exact fits_answerWrite h

theorem fits_targetCsr {t : PciTxn} (h : s.fits lim) : Fits lim (s.targetCsr t) :=
  .ite (.ite (fits_targetI2oWrite h) (.ite (fits_targetI2oWrite h) (fits_targetRegWrite h)))
    (.ite (fits_delayedRead h) (fits_targetRegRead h))

theorem fits_targetIo {t : PciTxn} (h : s.fits lim) : Fits lim (s.targetIo t) :=
  .ite (fits_targetRegWrite h) (fits_targetRegRead h)

theorem fits_addressParity {t : PciTxn} (h : s.fits lim) : (s.addressParity t).fits lim := by
  unfold State.addressParity
  dsimp only
  repeat' split
  all_goals exact h

theorem fits_pciClaim {t : PciTxn} (h : s.fits lim) : Fits lim (s.pciClaim t) := by
  have ha : (s.addressParity t).fits lim := fits_addressParity h
  unfold State.pciClaim
  refine .ite h ?_
  dsimp only
  split
  case h_1 | h_2 => exact .ite (.ite (fits_targetRegWrite ha) (fits_targetRegRead ha)) ha
  case h_3 | h_4 => exact .ite (fits_targetIo ha) ha
  case h_10 | h_11 | h_12 => exact ha
  all_goals
    refine .ite (fits_targetCsr ha) ?_
    split
    · exact .ite (fits_targetDramWrite ha) (fits_delayedRead ha)
    · exact ha

theorem fits_pciTarget {t : PciTxn} (h : s.fits lim) : Fits lim (s.pciTarget t) := .ite (fits_pciClaim h) h

theorem fits_latchRead {l : ReadLatch} (h : s.fits lim) : Fits lim (s.latchRead l) := by
  unfold State.latchRead
  split
  · exact h
  · exact .after fun _ => h

theorem fits_i2oRead {l : ReadLatch} (h : s.fits lim) : Fits lim (s.i2oRead l) :=
  .ite (.ite h (.bind (fits_pciSdramRead h) fun _ hp => hp)) (.ite h (.bind (fits_pciSdramRead h) fun _ hp => hp))

theorem fits_pciInbound (h : s.fits lim) : Fits lim s.pciInbound := by
  unfold State.pciInbound
  refine .ite h ?_
  dsimp only
  split
  · exact h
  · exact .bind (fits_pciSdramPut h) fun _ ht => ht _ rfl
  · exact .bind (fits_pciSdramWrite h) fun _ ht => ht _ rfl
  · exact .after fun _ => .bind (fits_pciSdramWrite h) fun _ ht => ht _ rfl
  · exact .bind (fits_pciSdramWrite h) fun _ ht => ht _ rfl
  · split
    · exact .ite (fits_i2oRead h) (fits_latchRead h)
    · exact h

theorem fits_discardTimer (h : s.fits lim) : s.discardTimer.fits lim := by
  unfold State.discardTimer
  split
  · split <;> exact h
  · exact h

theorem fits_pciPost {o : Outbound} (h : s.fits lim) : Fits lim (s.pciPost o) := .after fun _ => h

theorem fits_tellChan {o : Outbound} {f : Chan → Chan} (h : s.fits lim) : (s.tellChan o f).fits lim := by
  unfold State.tellChan
  split <;> exact h

theorem fits_delivered {o : Outbound} {rest : List Outbound} {k : Nat} {ps : List Bool} (h : s.fits lim) :
    (s.delivered o rest k ps).fits lim := by
  have hp : (s.writeParity (ps.take k)).2.fits lim := fits_writeParity h
  exact fits_tellChan hp

theorem fits_setMasterAbort (h : s.fits lim) : s.setMasterAbort.fits lim := h.withPci h.dmaReq

theorem fits_setTargetAbort (h : s.fits lim) : s.setTargetAbort.fits lim := h.withPci h.dmaReq

theorem fits_pciOutbound {ans : PciAns} (h : s.fits lim) : (s.pciOutbound ans).fits lim := by
  unfold State.pciOutbound
  split
  · exact h
  · dsimp only
    split
    · exact h
    · split
      · split <;> exact h
      · split
        · exact fits_delivered h
        · exact h
        · split
          · exact h
          · exact fits_delivered h
        · exact fits_tellChan (fits_setMasterAbort h)
        · exact fits_tellChan (fits_setTargetAbort h)

theorem fits_noteWait {w : Wait} (h : s.fits lim) : (s.noteWait w).fits lim := by
  cases w <;> exact h

/-- A load from the PCI bus touches no memory; where it waits, nothing changes. -/
theorem fits_pciLoad {cmd : PciCmd} {addr : Word} {en : BitVec 4} {turn : PciTurn} (h : s.fits lim) :
    Holds (fun r => ∀ p, r = .ok p → p.2.fits lim) (s.pciLoad cmd addr en turn) := by
  refine .after fun _ => .ite (.ok fun p hp => nomatch hp) (.ite (.ok fun p hp => nomatch hp) ?_)
  dsimp only
  split
  · exact .ok fun p hp => by cases hp; exact fits_readParity h
  · exact .ok fun p hp => by cases hp; exact fits_readParity h
  · exact .ok fun p hp => by cases hp; exact h
  · exact .ok fun p hp => by cases hp; exact h
  all_goals exact .ok fun p hp => nomatch hp

/-! ### System registers -/

/-- A byte that leaves the transmit FIFO, or none while a break is sent, makes it shorter. -/
theorem fits_uartTransmit (h : s.fits lim) : s.uartTransmit.fits lim := by
  obtain ⟨htx, hrx⟩ := h.sys
  unfold State.uartTransmit
  dsimp only
  split
  · exact h
  · split
    · exact h
    · split
      · exact h
      · next b rest heq => exact h.withSys ⟨length_rest_le heq htx, hrx⟩

/-- A FIFO takes an entry only while it holds fewer than its size. -/
theorem length_snocIfRoom_le {α : Type} {l : List α} {a : α} {n : Nat} (hl : l.length ≤ n) :
    (if l.length < n then l ++ [a] else l).length ≤ n := by
  split
  · next hroom => exact length_snoc_le hroom
  · exact hl

theorem markOverrun_length (bs : List UartByte) : (markOverrun bs).length = bs.length := by
  fun_induction markOverrun bs with
  | case1 | case2 => rfl
  | case3 b rest _ ih => exact congrArg (· + 1) ih

theorem Sys.fits.uartPut {y : Sys} {b : Byte} (hy : y.fits) : (y.uartPut b).fits := by
  obtain ⟨htx, hrx⟩ := hy
  exact ⟨length_snocIfRoom_le htx, hrx⟩

theorem Sys.fits.uartReceive {y : Sys} {b : Byte} {parity framing : Bool} (hy : y.fits) :
    (y.uartReceive b parity framing).fits := by
  obtain ⟨htx, hrx⟩ := hy
  unfold Sys.uartReceive
  split
  · exact ⟨htx, hrx⟩
  · refine ⟨htx, ?_⟩
    show (if y.uartRx.length < 8 then _ else markOverrun y.uartRx).length ≤ 8
    split
    · next hroom => exact length_snoc_le hroom
    · rw [markOverrun_length]; exact hrx

theorem Sys.fits.writeRtcDiv {y : Sys} {v : Word} (hy : y.fits) : (y.writeRtcDiv v).fits := by
  unfold Sys.writeRtcDiv
  dsimp only
  split <;> exact hy

theorem Sys.fits.writeRtcTval {y : Sys} {v : Word} (hy : y.fits) : (y.writeRtcTval v).fits := by
  unfold Sys.writeRtcTval
  dsimp only
  split <;> exact hy

theorem fits_sysRead {r : SysReg} (h : s.fits lim) : (s.sysRead r).2.fits lim := by
  obtain ⟨htx, hrx⟩ := h.sys
  cases r with
  | uartDr =>
    show s.uartRead.2.fits lim
    unfold State.uartRead
    split
    · next b rest heq => exact h.withSys ⟨htx, length_rest_le heq hrx⟩
    · exact h
  | _ => exact h

theorem fits_sysWrite {r : SysReg} {v : Word} (h : s.fits lim) : (s.sysWrite r v).fits lim := by
  cases r with
  | uartDr => exact h.withSys h.sys.uartPut
  | rtcDiv => exact h.withSys h.sys.writeRtcDiv
  | rtcTval => exact h.withSys h.sys.writeRtcTval
  | _ => exact h

end

end Sys2Proof.Machine
end

section
/-! The sizes of the FIFOs, continued: the accesses of the StrongARM core through its physical map, its translation
buffers, caches and buffers (R310, R672 to R683). -/

namespace Sys2Proof.Machine

section
variable {α β : Type} {s : State} {lim : Nat}

/-! ### Accesses of the core -/

/-- An access of the core keeps the FIFOs within their sizes, done or not. -/
abbrev FitsAccess (lim : Nat) (r : Res (Access α)) : Prop := Holds (fun a => a.state.fits lim) r

/-- What a done access leads to keeps `Q` from a `P` that is at least as strong. -/
theorem Holds.bindAccessTo {P Q : State → Prop} {r : Res (Access α)} {f : α → State → PciTurn → Res (Access β)}
    (hr : Holds (fun a => P a.state) r) (hstop : ∀ t, P t → Q t)
    (hf : ∀ v {t : State} ans, P t → Holds (fun a => Q a.state) (f v t ans)) :
    Holds (fun a => Q a.state) (Access.bind r f) := by
  cases r with
  | error e => trivial
  | ok a =>
    cases a with
    | done v t ans => exact hf v ans hr
    | abort | wait | reset => exact hstop _ hr

theorem Holds.bindAccess {P : State → Prop} {r : Res (Access α)} {f : α → State → PciTurn → Res (Access β)}
    (hr : Holds (fun a => P a.state) r) (hf : ∀ v {t : State} ans, P t → Holds (fun a => P a.state) (f v t ans)) :
    Holds (fun a => P a.state) (Access.bind r f) := hr.bindAccessTo (fun _ => id) hf

/-! ### PCI windows (R315) -/

theorem fits_pciAddress {k : PciSpace} {pa : Nat} (h : s.fits lim) : (s.pciAddress k pa).2.fits lim := by
  cases k <;> exact h

theorem fits_armPciRead {pa n : Nat} {ans : PciTurn} (h : s.fits lim) : FitsAccess lim (s.armPciRead pa n ans) := by
  unfold State.armPciRead
  split
  · exact h
  · exact .afterEither fun _ => fits_pciRegRead h
  · refine .after fun _ => .bind (fits_pciLoad (fits_pciAddress h)) fun r hr => ?_
    cases r with
    | ok p => exact hr p rfl
    | error w => exact h

theorem fits_armPciWrite {pa : Nat} {bs : List Byte} {ans : PciTurn} (h : s.fits lim) :
    FitsAccess lim (s.armPciWrite pa bs ans) := by
  unfold State.armPciWrite
  dsimp only
  split
  · exact h
  · exact .afterEither fun _ => .bind (fits_pciRegWrite h) fun _ ht => .ite ht ht
  · exact .after fun _ => .bind (fits_pciPost (fits_pciAddress h)) fun _ ht => ht

/-! ### The ATU, SDRAM and the whole map (R310) -/

theorem fits_atuRead {w : AtuWindow} (h : s.fits lim) : FitsWith lim (s.atuRead w) := by
  cases w with
  | localCsr => exact fits_armCsrRead h
  | xfer => exact h
  | fbi => exact fits_armFbiRead h
  | scratch => exact .after fun _ => h
  | reserved => trivial

theorem fits_atuWrite {w : AtuWindow} {v : Word} (h : s.fits lim) : Fits lim (s.atuWrite w v) := by
  cases w with
  | localCsr => exact fits_armCsrWrite h
  | xfer => exact fits_pushSram h
  | fbi => exact fits_armFbiWrite h
  | scratch => exact h
  | reserved => trivial

theorem fits_armSdramRead {x n : Nat} {fetch : Bool} {ans : PciTurn} (h : s.fits lim) :
    FitsAccess lim (s.armSdramRead x n fetch ans) :=
  .after fun _ => .after fun _ => .ite h (.ite (.after fun _ => h) (.after fun _ => h))

theorem fits_armSdramWrite {x : Nat} {bs : List Byte} {fetch : Bool} {ans : PciTurn} (h : s.fits lim) :
    FitsAccess lim (s.armSdramWrite x bs fetch ans) := by
  obtain ⟨-, hqueues⟩ := h.sdram
  refine .after fun _ => .after fun _ => ?_
  split
  · next hroom => exact h.withSdram ⟨length_snoc_le hroom, hqueues⟩
  · exact h

theorem fits_armRead {pa n : Nat} {ans : PciTurn} (h : s.fits lim) : FitsAccess lim (s.armRead pa n ans) := by
  unfold State.armRead
  refine .ite ?sram (.ite (fits_armPciRead h) (.ite ?sys (.ite (.after fun _ => h) (.ite ?atu
    (.ite (fits_armSdramRead h) ?csr)))))
  case sram =>
    exact .afterEither fun _ => .ite h (.bind (fits_sramArmRead h) fun _ hp => fits_sramHasRead hp)
  case sys =>
    split
    · exact h
    · exact .after fun _ => fits_sysRead h
  case atu =>
    generalize atuWindow pa = w
    split
    · exact h
    · exact .after fun _ => .bind (fits_atuRead h) fun _ hp => hp
  case csr =>
    split
    · exact h
    · exact .after fun _ => .ite h h

theorem fits_armWrite {pa : Nat} {bs : List Byte} {ans : PciTurn} (h : s.fits lim) :
    FitsAccess lim (s.armWrite pa bs ans) := by
  unfold State.armWrite
  refine .ite ?sram (.ite (fits_armPciWrite h) (.ite ?sys (.ite (.after fun _ => h) (.ite ?atu
    (.ite (fits_armSdramWrite h) ?csr)))))
  case sram =>
    have hturn : (s.withSram (s.sram.turn .order)).fits lim := h.withSram h.sram.turn
    obtain ⟨hcam, hfail, -, hqueues⟩ := h.sram
    exact .after fun _ => .afterEither fun _ => .ite h (.ite (.bind (fits_sramArmWrite hturn) fun _ ht => ht)
      (h.withSram ⟨hcam, hfail, le_rfl, hqueues⟩))
  case sys =>
    split
    · exact h
    · exact .after fun _ => fits_sysWrite h
  case atu =>
    generalize atuWindow pa = w
    split
    · exact h
    · exact .after fun _ => .bind (fits_atuWrite h) fun _ ht => ht
  case csr =>
    split
    · exact h
    · exact .after fun _ => .ite h (h.withSdram h.sdram.csrWrite)

/-! ### Translation (R672, R673) -/

theorem fits_walk {va : Word} {ans : PciTurn} (h : s.fits lim) : FitsAccess lim (s.walk va ans) := by
  unfold State.walk
  refine .bindAccess (.ite (fits_armRead h) h) fun d1 {t} ans ht => ?_
  split
  · exact ht
  · exact ht
  · have hread := fun a2 => fits_armRead (pa := a2) (n := 4) (ans := ans) ht
    split
    · next heq => exact ((hread _).of_ok heq :)
    · refine .bindAccess (hread _) fun d2 {u} ans hu => ?_
      split <;> exact hu

theorem fits_checked {e : TlbEntry} {va : Word} {m : BitVec 5} {k : AccessKind} {ans : PciTurn}
    (h : s.fits lim) : FitsAccess lim (s.checked e va m k ans) := .ite h h

theorem addTlb_wb (c : Arm) (k : AccessKind) (e : TlbEntry) : (c.addTlb k e).wb = c.wb := by
  cases k <;> rfl

theorem fits_translate {va : Word} {m : BitVec 5} {mmu : Bool} {k : AccessKind} {ans : PciTurn}
    (h : s.fits lim) : FitsAccess lim (s.translate va m mmu k ans) := by
  unfold State.translate
  refine .ite h ?_
  split
  · exact fits_checked h
  · exact .bindAccess (fits_walk h) fun _ _ _ ht =>
      fits_checked (ht.withArmSame (addTlb_wb ..))

/-! ### Bursts and line fills -/

theorem fits_burstServed {pa n : Nat} (h : s.fits lim) : (s.burstServed pa n).fits lim := by
  unfold State.burstServed
  split
  · exact fits_sramHasRead h
  · dsimp only
    split
    · exact h
    · exact h

section
variable {keep : State → List Byte → State} (hkeep : ∀ (t : State) bs, t.fits lim → (keep t bs).fits lim)
include hkeep

theorem fits_readLongs {pa : Nat} {ans : PciTurn} {got : List Byte} {n : Nat} (h : s.fits lim) :
    FitsAccess lim (s.readLongs pa ans keep got n) := by
  induction n generalizing s pa ans got with
  | zero => exact h
  | succ n ih =>
    have hread := fits_armRead (pa := pa) (n := 4) (ans := ans) h
    unfold State.readLongs
    split
    · next heq => exact (hread.of_ok heq :)
    · next heq => exact hkeep _ _ (hread.of_ok heq :)
    · exact .bindAccess hread fun _ _ _ ht => ih ht

theorem fits_readBlock {pa k : Nat} {ans : PciTurn} {got : List Byte} (h : s.fits lim) :
    FitsAccess lim (s.readBlock pa k ans keep got) := by
  unfold State.readBlock
  split
  · exact .ite (fits_burstServed h) trivial
  · exact .bindAccess (.ite (fits_armRead h) (fits_readLongs hkeep h)) fun _ _ _ ht => ht

end

theorem fits_lineFill {pa n : Nat} {ans : PciTurn} (h : s.fits lim) : FitsAccess lim (s.lineFill pa n ans) :=
  .bindAccess (fits_readBlock (keep := State.keepRead) (fun _ _ ht => ht) h)
    fun _ _ _ ht => .ite ht (.after fun _ => ht)

/-! ### Write buffer and read buffer (R681 to R683) -/

theorem fits_drainWb (h : s.fits lim) : Fits lim s.drainWb := by
  have hleft : (s.withArm { s.arm with wb := (wbNext s.arm.wb).2 }).fits lim := h.withArm ((wbNext_spec _).1.trans h.wb)
  unfold State.drainWb
  dsimp only
  split
  · exact hleft
  · refine .ite h ?_
    have hwrite := fun addr bs => fits_armWrite (s := s.withArm { s.arm with wb := (wbNext s.arm.wb).2 })
      (pa := addr) (bs := bs) (ans := .none) hleft
    split
    case h_4 => exact h
    case h_5 => trivial
    all_goals
      next heq => exact ((hwrite _ _).of_ok heq :)

theorem fits_readBufferFill {ans : List PciAns} (h : s.fits lim) : Fits lim (s.readBufferFill ans) := by
  unfold State.readBufferFill
  split
  · exact h
  · split
    · exact h
    · dsimp only
      split
      case h_6 => trivial
      all_goals
        next heq => exact ((fits_readBlock (by exact fun _ _ ht => ht) h).of_ok heq :)

/-! ### One load, one store, one fetch -/

theorem State.fits.mono {k : Nat} (h : s.fits lim) (hk : lim ≤ k) : s.fits k :=
  h.withArm (c := s.arm) (h.wb.trans hk)

theorem setData_wb (c : Arm) (k : CacheKind) (x : Cache) : (c.setData k x).wb = c.wb := by
  cases k <;> rfl

/-- The dirty halves of the line that a fill replaces have room in the write buffer before the fill begins (R682), and a
fill puts nothing into it. -/
theorem fits_allocate {k : CacheKind} {va : Word} {pa n : Nat} {ans : PciTurn} (h : s.fits 8) :
    FitsAccess 8 (s.allocate k va pa n ans) := by
  unfold State.allocate
  dsimp only
  split
  · exact h
  · next hgo =>
    simp only [Bool.or_eq_true, decide_eq_true_eq, not_or, Nat.not_lt] at hgo
    obtain ⟨hroom, -⟩ := hgo
    have hfill : FitsAccess s.arm.wb.length (s.lineFill pa n ans) := fits_lineFill (h.withArm (c := s.arm) le_rfl)
    refine hfill.bindAccessTo (fun t ht => ht.mono h.wb) fun p t _ ht => ?_
    have hwb := ht.wb
    split
    · refine ht.withArm ?_
      rw [List.length_append, setData_wb]
      omega
    · exact ht.mono h.wb

/-- A store that joins the newest entry takes none of its own (R85). -/
theorem mergePosted_length {wb merged : List WbEntry} {pa : Nat} {bs : List Byte}
    (h : mergePosted wb pa bs = some merged) : merged.length = wb.length := by
  unfold mergePosted at h
  split at h
  · next p hlast =>
    split at h
    · cases h
      have hne : wb ≠ [] := fun hnil => by simp [hnil] at hlast
      rw [List.length_append, List.length_dropLast, List.length_singleton]
      have := List.length_pos_of_ne_nil hne
      omega
    · cases h
  · cases h

/-- A store joins the newest entry, or takes one of the eight (R85, R681). -/
theorem pushWb_wb_length {c d : Arm} {pa : Nat} {bs : List Byte} {merging : Bool} (hc : c.wb.length ≤ 8)
    (hd : c.pushWb pa bs merging = some d) : d.wb.length ≤ 8 := by
  unfold Arm.pushWb at hd
  split at hd
  · next wb heq =>
    cases hd
    split at heq
    · exact (mergePosted_length heq).trans_le hc
    · cases heq
  · split at hd
    · next hroom => cases hd; exact length_snoc_le hroom
    · cases hd

theorem fits_unaligned {va : Word} {bs : List Byte} {ans : PciTurn} (h : s.fits lim) :
    (s.unaligned va bs ans).state.fits lim := by
  unfold State.unaligned
  dsimp only
  repeat' split
  all_goals exact h

theorem fits_armLoad {va : Word} {size : Size} {user : Bool} {ans : PciTurn} (h : s.fits 8) :
    FitsAccess 8 (s.armLoad va size user ans) := by
  unfold State.armLoad
  refine .ite h (.ite h (.bindAccess (fits_translate h) fun t _ _ ht => ?_))
  split
  · exact ht
  · exact ht
  · exact .after fun _ => fits_unaligned ht
  · exact .after fun _ => fits_unaligned ht
  · exact .ite (.bindAccess (fits_allocate ht) fun _ _ _ hu => fits_unaligned hu)
      (.ite ht (fits_armRead ht))

theorem fits_armStore {va : Word} {size : Size} {v : Word} {user merging : Bool} {ans : PciTurn}
    (h : s.fits 8) : FitsAccess 8 (s.armStore va size v user merging ans) := by
  unfold State.armStore
  refine .ite h (.ite h (.bindAccess (fits_translate h) fun t _ _ ht => ?_))
  split
  · exact ht.withArmSame (setData_wb ..)
  · refine .ite ?_ (.ite ht (.bindAccess (fits_armWrite ht) fun _ _ _ hu => hu))
    split
    · next heq => exact ht.withArm (pushWb_wb_length ht.wb heq)
    · exact ht

theorem fits_beginFetch {va : Word} (h : s.fits lim) : (s.beginFetch va).2.fits lim := by
  unfold State.beginFetch
  split <;> exact h

theorem fits_fetchWord {f : Fetching} {va : Word} {ans : PciTurn} (h : s.fits lim) :
    FitsAccess lim (s.fetchWord f va ans) := by
  unfold State.fetchWord
  refine .bindAccess (fits_translate h) fun t _ _ ht => ?_
  split
  · exact .after fun _ => ht
  · refine .ite (.bindAccess (fits_lineFill ht) fun p _ _ hu => ?_)
      (.bindAccess (fits_armRead ht) fun _ _ _ hu => hu)
    dsimp only
    split <;> exact hu

theorem fits_armFetch {va : Word} {ans : PciTurn} (h : s.fits lim) : FitsAccess lim (s.armFetch va ans) := by
  have hfetch := fun f => fits_fetchWord (f := f) (va := va) (ans := ans) (fits_beginFetch (va := va) h)
  unfold State.armFetch
  dsimp only
  split
  case h_4 => exact hfetch _
  all_goals
    next heq => exact ((hfetch _).of_ok heq :)

end

end Sys2Proof.Machine
end

section
/-! The sizes of the FIFOs, concluded: the StrongARM core's step, the environment's events, and every step
of the machine (00_scope.md R10). -/

namespace Sys2Proof.Machine

section
variable {α : Type} {s : State} {lim : Nat}

/-! ### Coprocessor 15 (R260 to R268) -/

theorem fits_rbAllocate {k : Fin 4} {n : Nat} {va : Word} {ans : PciTurn} (h : s.fits lim) :
    FitsAccess lim (s.rbAllocate k n va ans) := by
  unfold State.rbAllocate
  refine .ite h ?_
  dsimp only
  have htranslate := fits_translate (va := va) (m := s.arm.accessMode false) (mmu := s.arm.mmuOn) (k := .load)
    (ans := ans) h
  split
  case h_5 => trivial
  all_goals
    next heq => exact (htranslate.of_ok heq :)

/-- The dirty halves of a cache entry go to the write buffer together, or not yet (R678). -/
theorem cleanEntry_wb_length {c d : Arm} {va : Word} (hc : c.wb.length ≤ 8) (hd : c.cleanEntry va = some d) :
    d.wb.length ≤ 8 := by
  unfold Arm.cleanEntry at hd
  split at hd
  · cases hd; exact hc
  · split at hd
    · cases hd
    · next hroom =>
      cases hd
      rw [List.length_append, setData_wb]
      exact Nat.not_lt.1 hroom

theorem fits_cp15Write {op : Cp15} {v : Word} {ans : PciTurn} (h : s.fits 8) :
    FitsAccess 8 (s.cp15Write op v ans) := by
  cases op with
  | control => exact .bind (P := fun c => c.wb = s.arm.wb) (.after fun _ => .ok rfl) fun _ hc => h.withArmSame hc
  | cleanDCacheEntry =>
    unfold State.cp15Write
    dsimp only
    split
    · next heq => exact h.withArm (cleanEntry_wb_length h.wb heq)
    · exact h
  | drainWriteBuffer => exact .ite h h
  | rbAllocate => exact fits_rbAllocate h
  | idRegister => trivial
  | _ => exact h

/-! ### Registers and exceptions, which leave the write buffer -/

@[simp] theorem setLink_wb (c : Arm) (m : ArmMode) (v : Word) : (c.setLink m v).wb = c.wb := by cases m <;> rfl

@[simp] theorem setSpsr_wb (c : Arm) (m : ArmMode) (v : Word) : (c.setSpsr m v).wb = c.wb := by cases m <;> rfl

@[simp] theorem takeException_wb (c : Arm) (e : ArmException) (v : Word) : (c.takeException e v).wb = c.wb := by
  rw [Arm.takeException, setSpsr_wb, setLink_wb]

@[simp] theorem setRegOf_wb (c : Arm) (m : ArmMode) (r : Fin 15) (v : Word) : (c.setRegOf m r v).wb = c.wb := by
  unfold Arm.setRegOf
  repeat' split
  all_goals rfl

@[simp] theorem dataFault_wb (c : Arm) (k : AbortKind) (va : Word) : (c.dataFault k va).wb = c.wb := by cases k <;> rfl

@[simp] theorem restoreBase_wb (c : Arm) (r : Resume) : (c.restoreBase r).wb = c.wb := by
  unfold Arm.restoreBase
  split
  · split
    · exact setRegOf_wb ..
    · rfl
  · rfl

@[simp] theorem ended_wb (c : Arm) : c.ended.wb = c.wb := rfl

theorem fits_trap {e : ArmException} (h : s.fits lim) : (s.trap e).fits lim := h.withArmSame (by simp)

theorem fits_prefetchAbort (h : s.fits lim) : s.prefetchAbort.fits lim := h.withArmSame (by simp)

theorem fits_dataAbort {r : Resume} {k : AbortKind} {va : Word} (h : s.fits lim) : (s.dataAbort r k va).fits lim :=
  h.withArmSame (by simp)

/-! ### Acts (R670) -/

/-- An act of the core keeps the FIFOs within their sizes. -/
abbrev FitsProgress (lim : Nat) (r : Res Progress) : Prop := Holds (fun p => p.state.fits lim) r

theorem fits_putReg {r : Resume} {bank : Option ArmMode} {d : Fin 16} {v : Word} (h : s.fits lim) :
    (putReg s r bank d v).1.fits lim := by
  unfold putReg
  split
  · exact h.withArmSame (setRegOf_wb ..)
  · exact h

/-- What an access leads to keeps the FIFOs within their sizes if what follows a done access does. -/
theorem fits_progress {r : Resume} {va : Word} {a : Res (Access α)} {f : α → State → PciTurn → Progress}
    (ha : FitsAccess lim a) (hf : ∀ v {t : State} ans, t.fits lim → (f v t ans).state.fits lim) :
    FitsProgress lim (progress r va a f) := by
  cases a with
  | error e => trivial
  | ok a =>
    cases a with
    | done v t ans => exact hf v ans ha
    | abort => exact fits_dataAbort ha
    | wait | reset => exact ha

theorem fits_armAct {r : Resume} {a : ArmAct} {ans : PciTurn} (h : s.fits 8) : FitsProgress 8 (s.armAct r a ans) := by
  cases a with
  | setReg => exact fits_putReg h
  | setSpsr => exact h.withArmSame (setSpsr_wb ..)
  | load => exact fits_progress (fits_armLoad h) fun _ _ _ ht => fits_putReg ht
  | store => exact fits_progress (fits_armStore h) fun _ _ _ ht => ht
  | settle => exact .ite h h
  | swap => exact fits_progress (fits_armLoad h) fun _ _ _ ht => ht
  | mcr =>
    refine .ite (fits_trap h) ?_
    split
    · exact fits_progress (fits_cp15Write h) fun _ _ _ ht => ht
    · trivial
  | mrc =>
    refine .ite (fits_trap h) ?_
    split
    · exact .after fun _ => .ite h (fits_putReg h)
    · trivial
  | _ => exact h

theorem fits_armActs {r : Resume} {ans : PciTurn} {acts : List ArmAct} (h : s.fits 8) :
    Holds (fun p => p.1.fits 8) (s.armActs r ans acts) := by
  induction acts generalizing s r ans with
  | nil => exact h
  | cons a rest ih =>
    refine .bind (fits_armAct h) fun p hp => ?_
    cases p with
    | go => exact .ite (ih hp) hp
    | wait => exact (fits_noteWait hp).withArm hp.wb
    | _ => exact hp

/-! ### The core's step (R686) -/

theorem fits_armInstr {ans : PciTurn} (h : s.fits 8) : Holds (fun p => p.1.fits 8) (s.armInstr ans) := by
  have hfetch := fits_armFetch (va := s.arm.pc &&& ~~~3) (ans := ans) h
  unfold State.armInstr
  refine .ite (fits_prefetchAbort h) ?_
  split
  · trivial
  · next heq => exact fits_noteWait (hfetch.of_ok heq :)
  · next heq => exact fits_prefetchAbort (hfetch.of_ok heq :)
  · next heq => exact (hfetch.of_ok heq :)
  · next heq => exact fits_armActs (hfetch.of_ok heq :)

theorem fits_armBoundary {late : Bool} {turn : PciTurn} (h : s.fits 8) : Fits 8 (s.armBoundary late turn) := by
  unfold State.armBoundary
  split
  · exact .bind (fits_armInstr h) fun _ hp => hp
  · next e _ =>
    have htaken : (s.withArm { s.arm.takeException e s.arm.pc with fiqDue := false }).fits 8 :=
      h.withArmSame (takeException_wb ..)
    refine .ite htaken ?_
    split
    · next heq => exact ((fits_armInstr h).of_ok heq :)
    · exact htaken

theorem fits_armStep {late : Bool} {ans : List PciAns} (h : s.fits 8) : Fits 8 (s.armStep late ans) := by
  unfold State.armStep
  dsimp only
  split
  · exact .bind (fits_armActs h) fun _ hp => hp
  · exact fits_armBoundary h

/-! ### The environment's events (D30) -/

theorem fits_slowOffer {x : Nat} {bs : List Byte} (h : s.fits lim) : (s.slowOffer x bs).fits lim := by
  unfold State.slowOffer
  split <;> exact h

theorem fits_noteLevels {old : State} (h : s.fits lim) : (s.noteLevels old).fits lim := by
  obtain ⟨os, hos⟩ := s.noteLevels_eq old
  rw [hos]
  exact h

/-- Every event but an instruction's execution is an operation that keeps the FIFOs within their sizes. -/
theorem fits_act {e : Event} (h : s.fits 8) : ∃ r, s.act e = finish r ∧ Fits 8 r := by
  cases e with
  | bus => exact ⟨_, rfl, fits_busStep h⟩
  | sdramUnit => exact ⟨_, rfl, fits_sdramStep h⟩
  | sramUnit => exact ⟨_, rfl, fits_sramStep h⟩
  | fbiPull => exact ⟨_, rfl, fits_fbiPullStep h⟩
  | fbiPush => exact ⟨_, rfl, fits_fbiPushStep h⟩
  | receive => exact ⟨.ok _, rfl, fits_receiveStep h⟩
  | transmit => exact ⟨_, rfl, fits_transmitStep h⟩
  | dma => exact ⟨_, rfl, fits_dmaStep h⟩
  | dmaAlloc => exact ⟨.ok _, rfl, fits_dmaAlloc h⟩
  | pciTarget => exact ⟨_, rfl, fits_pciTarget h⟩
  | pciNoFrame => exact ⟨.ok _, rfl, fits_pciNoFrame h⟩
  | pciInbound => exact ⟨_, rfl, fits_pciInbound h⟩
  | discardTimer => exact ⟨.ok _, rfl, fits_discardTimer h⟩
  | pciOutbound => exact ⟨.ok _, rfl, fits_pciOutbound h⟩
  | strongArm => exact ⟨_, rfl, fits_armStep h⟩
  | writeBuffer => exact ⟨_, rfl, fits_drainWb h⟩
  | readBufferFill => exact ⟨_, rfl, fits_readBufferFill h⟩
  | timerTick => exact ⟨.ok _, rfl, fits_timerTick h⟩
  | uartRx => exact ⟨.ok _, rfl, h.withSys h.sys.uartReceive⟩
  | uartTx => exact ⟨.ok _, rfl, fits_uartTransmit h⟩
  | slowData => exact ⟨.ok _, rfl, fits_slowOffer h⟩
  | sdramInitDone => exact ⟨.ok _, rfl, fits_sdramInitDone h⟩
  | resetIn => exact ⟨.ok _, rfl, fits_chipReset⟩
  | pciRst => exact ⟨.ok _, rfl, fits_pciRst h⟩
  | _ => exact ⟨.ok _, rfl, h⟩

/-! ### Every step -/

theorem fits_meStep {m : Fin 6} {t : State} (h : s.fits lim) (ht : s.meStep m = .next t) : t.fits lim := by
  unfold State.meStep at ht
  split at ht
  · cases ht; exact h
  · split at ht
    · cases ht; exact h.setMeSame (Me.arbitrate_cmdFifo ..)
    · split at ht
      · exact fits_exec (s := { s with cur := m }) h ht
      · cases finish_eq_next ht

theorem fits_readyBusStep {t : State} (h : s.fits lim) (ht : s.readyBusStep = .next t) : t.fits lim := by
  unfold State.readyBusStep at ht
  split at ht
  · split at ht
    · exact fits_exec h ht
    · cases ht
  · cases ht; exact h

/-- An instruction's execution, or an event and the levels recorded after it. -/
theorem fits_run {e : Event} {t : State} (h : s.fits 8) (ht : s.run e = .next t) : t.fits 8 := by
  unfold State.run at ht
  split at ht
  · exact fits_meStep h ht
  · exact fits_readyBusStep h ht
  · obtain ⟨r, hact, hr⟩ := fits_act (e := e) h
    rw [hact] at ht
    split at ht
    · next heq => cases ht; exact fits_noteLevels (hr.of_finish heq)
    · next hne => exact absurd ht (hne t)

/-- Taking the next event from the list, or by a free choice, touches no FIFO. -/
theorem fits_nextEvent (h : s.fits lim) : s.nextEvent.2.fits lim := by
  unfold State.nextEvent
  split <;> exact h

end

/-- Settles O58: the next event is an instruction of an engine or of the sequencer, or an operation of a unit or of the
environment; each of these puts something into a FIFO only where there is room for it. -/
theorem stepKeepsFifoSizes : Obligations.StepKeepsFifoSizes :=
  fun s t h ht => (fifosOk_iff t).2 (fits_run (fits_nextEvent ((fifosOk_iff s).1 h)) ht)

end Sys2Proof.Machine
end

section
/-! The StrongARM core's traps (R671, R1041, R1054) and the control register of coprocessor 15 (R260, R261, R675, R676). -/

namespace Sys2Proof.Machine

/-! ### Exceptions of an instruction (R1041, R1054) -/

theorem modeOf_modeNumber (m : ArmMode) : modeOf (modeNumber m) = m := by cases m <;> rfl

/-- CPSR's mode bits on entry: neither what stays of the old word nor the interrupt disables reach them (R1041). -/
theorem entryCpsr_mode (e : ArmException) (v : Word) : (entryCpsr e v).setWidth 5 = modeNumber e.mode := by
  have hold : (~~~(0x1F : Word)).setWidth 5 = 0 := by decide
  have hirq : (0x80 : Word).setWidth 5 = 0 := by decide
  have hfiq : (0x40 : Word).setWidth 5 = 0 := by decide
  have hbase : ((v &&& ~~~0x1F) ||| ((modeNumber e.mode).setWidth 32) ||| 0x80 : Word).setWidth 5 = modeNumber e.mode := by
    rw [BitVec.setWidth_or, BitVec.setWidth_or, BitVec.setWidth_and, hold, hirq]
    simp
  rw [entryCpsr]
  split
  · rw [BitVec.setWidth_or, hbase, hfiq]; simp
  · exact hbase

theorem takeException_mode (c : Arm) (e : ArmException) (v : Word) : (c.takeException e v).mode = e.mode := by
  change modeOf ((entryCpsr e c.cpsr).setWidth 5) = e.mode
  rw [entryCpsr_mode, modeOf_modeNumber]

theorem trap_mode (s : State) (e : ArmException) : (s.trap e).arm.mode = e.mode := takeException_mode ..

theorem trap_pc (s : State) (e : ArmException) : (s.trap e).arm.pc = s.arm.vectorBase + e.vector := rfl

/-! ### MCR and MRC (R260, R261, R671) -/

/-- Only coprocessor 15 answers, and not in User mode (R260, R671). -/
def Arm.cpDenied (c : Arm) (cp : BitVec 4) : Prop := cp ≠ 15 ∨ c.privileged = false

theorem cpDenied_of_usr {c : Arm} {cp : BitVec 4} (h : c.mode = .usr) : c.cpDenied cp :=
  .inr (by simp [Arm.privileged, h])

theorem not_cpDenied {c : Arm} (h : c.mode ≠ .usr) : ¬ c.cpDenied 15 := by simp [Arm.cpDenied, Arm.privileged, h]

theorem armAct_mcr_denied {s : State} {r : Resume} {cp crn crm : BitVec 4} {op2 : BitVec 3} {v : Word} {ans : PciTurn}
    (h : s.arm.cpDenied cp) : s.armAct r (.mcr cp crn crm op2 v) ans = .ok (.over (s.trap .undefined) false) := if_pos h

theorem armAct_mrc_denied {s : State} {r : Resume} {cp crn crm : BitVec 4} {op2 : BitVec 3} {d : Fin 16} {ans : PciTurn}
    (h : s.arm.cpDenied cp) : s.armAct r (.mrc cp crn crm op2 d) ans = .ok (.over (s.trap .undefined) false) := if_pos h

/-- Register number 1 is the control register, whatever CRm and opcode 2 (R261). -/
theorem cp15Op_one (crm : BitVec 4) (op2 : BitVec 3) (write : Bool) : cp15Op 1 crm op2 write = some .control := rfl

/-- A register below r15 takes its value in the bank of the current mode. -/
theorem putReg_current (s : State) (r : Resume) (d : Fin 15) (v : Word) :
    putReg s r none ⟨d.val, by omega⟩ v = (s.withArm (s.arm.setReg d v), r) := dif_pos d.isLt

theorem armAct_mrc_control {s : State} (r : Resume) (crm : BitVec 4) (op2 : BitVec 3) (d : Fin 15) (ans : PciTurn)
    (h : s.arm.mode ≠ .usr) : s.armAct r (.mrc 15 1 crm op2 ⟨d.val, by omega⟩) ans =
      .ok (.go (s.withArm (s.arm.setReg d s.arm.controlValue)) r ans) := by
  have hd : (⟨d.val, by omega⟩ : Fin 16) ≠ 15 := fun hd => absurd (congrArg Fin.val hd) (Nat.ne_of_lt d.isLt)
  refine (if_neg (not_cpDenied h)).trans ?_
  simp only [cp15Op_one, Arm.cp15Read, ok_bind, if_neg hd, putReg_current, res_pure]

/-- Settles O52: each trap is the act itself, a denied coprocessor access is one, and a privileged read is granted. -/
theorem trapsAndPrivilege : Obligations.TrapsAndPrivilege := fun s r ans =>
  ⟨rfl, rfl, rfl, trap_pc s .swi, trap_mode s .swi, trap_pc s .undefined,
    fun _ _ _ _ _ _ hcp => ⟨armAct_mcr_denied (.inl hcp), armAct_mrc_denied (.inl hcp)⟩,
    fun husr _ _ _ _ _ => ⟨armAct_mcr_denied (cpDenied_of_usr husr), armAct_mrc_denied (cpDenied_of_usr husr)⟩,
    fun hpriv crm op2 d => armAct_mrc_control r crm op2 d ans hpriv⟩

/-! ### CONTROL_CP15 (R261, R675, R676) -/

/-- The rows of Table 3-1. -/
theorem validEnables_iff (m d w : Bool) : validEnables m d w = true ↔
    (m, d, w) = (false, false, false) ∨ (m, d, w) = (true, false, false) ∨ (m, d, w) = (true, false, true) ∨
      (m, d, w) = (true, true, true) := by
  revert m d w; decide

/-- A change of the MMU enable opens the window of three fetches with the old setting; else the window stays (R675). -/
theorem writeControl_valid {c : Arm} {v : Word} (hvalid : validEnables (v.getLsbD 0) (v.getLsbD 2) (v.getLsbD 3) = true)
    (hendian : getBit .cpEndian v = false) :
    ∃ c', c.writeControl v = .ok c' ∧ c'.mmuOn = v.getLsbD 0 ∧ c'.dcOn = v.getLsbD 2 ∧ c'.wbOn = v.getLsbD 3 ∧
      c'.icOn = v.getLsbD 12 ∧ (v.getLsbD 0 ≠ c.mmuOn → c'.flatLeft = 3 ∧ c'.flatMmu = c.mmuOn) ∧
      (v.getLsbD 0 = c.mmuOn → c'.flatLeft = c.flatLeft) ∧ c'.usr = c.usr ∧ c'.cpsr = c.cpsr ∧ c'.pc = c.pc := by
  simp only [Arm.writeControl, hvalid, hendian, Bool.not_false, Bool.and_self, require_true, ok_bind, res_pure]
  exact ⟨_, rfl, rfl, rfl, rfl, rfl, fun hne => ⟨if_pos (bne_iff_ne.2 hne), if_pos (bne_iff_ne.2 hne)⟩,
    fun heq => if_neg fun hne => bne_iff_ne.1 hne heq, rfl, rfl, rfl⟩

theorem writeControl_invalid {c : Arm} {v : Word}
    (h : validEnables (v.getLsbD 0) (v.getLsbD 2) (v.getLsbD 3) = false) :
    c.writeControl v = .error (.refused .controlValue) := by
  simp only [Arm.writeControl, h, Bool.false_and, require_false, error_bind]

/-- Settles O53: the enables written are a row of Table 3-1 or not. -/
theorem controlWrite : Obligations.ControlWrite := fun _ _ =>
  ⟨fun hinvalid => writeControl_invalid (Bool.eq_false_iff.2 (mt (validEnables_iff ..).1 hinvalid)),
    fun hvalid => writeControl_valid ((validEnables_iff ..).2 hvalid)⟩

end Sys2Proof.Machine
end

section
/-! The `csr` service of the FBI Unit (R733, R765): one rule for a write and one for a read, and the registers with a
behaviour of their own (R200, R768, R769, R780, R804, R807). -/

namespace Sys2Proof.Machine

/-! ### A write and a read served -/

theorem pullSram_one {s : State} {m : Fin 6} {x : Nat} {w : Word} (h : (s.me m).sramWr[x]? = some w) :
    s.pullSram m x 1 = [w] := by simp [State.pullSram, fileGets, fileGet, h]

theorem completed_withFbi (s : State) (f : Fbi) (c : Cmd) : (s.withFbi f).completed c = (s.completed c).withFbi f := by
  unfold State.completed
  split <;> rfl

section
variable {s t : State} {c d : Cmd} {reg : FbiCsr} {x y n : Nat} {w : Word} {f : Fbi}

/-- A write takes one longword, then completes; what stops the write stops the service (R765). -/
theorem pullServe_csrWrite {r : Res State} (hop : c.op = .csrWrite reg x 1) (hw : (s.me c.xfMe).sramWr[x]? = some w)
    (hplain : s.fbiPlain reg [w] = some r) : s.pullServe c = r >>= fun t => .ok (t.completed c) := by
  simp only [State.pullServe, hop, pullSram_one hw, State.fbiWrite, hplain, res_pure]

/-- A write whose effect is on the unit's registers alone. -/
theorem csrWrite_served (hop : c.op = .csrWrite reg x 1) (hw : (s.me c.xfMe).sramWr[x]? = some w)
    (hplain : s.fbiPlain reg [w] = some (.ok (s.withFbi f))) :
    ∃ t, s.pullServe c = .ok t ∧ t.fbi = f ∧ t = { s with fbi := t.fbi, mes := t.mes } ∧
      t.mes = (s.completed c).mes := by
  refine ⟨(s.completed c).withFbi f, ?_, rfl, ?_, rfl⟩
  · rw [pullServe_csrWrite hop hw hplain, ok_bind, completed_withFbi]
  · rw [s.completed_eq c]; rfl

/-- Words pushed stand in the read transfer registers after the completion too. -/
theorem pushSram_completed_fileHolds {v : Nat → Option Word} {ws : List Word} (hlen : ws.length = n)
    (hv : ∀ i (hi : i < ws.length), v i = some ws[i]) :
    fileHolds (s.me d.xfMe).sramRd (((s.pushSram d.xfMe y ws).completed d).me d.xfMe).sramRd y n v := by
  rw [State.completed_sramRd, State.pushSram_me, if_pos rfl]
  exact fileHolds_fileSets _ _ _ _ _ hlen hv

/-- A read delivers what the register gives, beside the effect `t` of the read itself (R765). -/
theorem csrRead_served {v : Nat → Option Word} {ws : List Word} (hop : d.op = .csrRead reg y n)
    (hread : s.fbiRead reg n = .ok (ws, t)) (hlen : ws.length = n) (hv : ∀ i (hi : i < ws.length), v i = some ws[i]) :
    ∃ u, s.pushServe d = .ok u ∧ u = { t with mes := u.mes } ∧
      fileHolds (t.me d.xfMe).sramRd (u.me d.xfMe).sramRd y n v ∧ sramDelivered t u d := by
  refine ⟨(t.pushSram d.xfMe y ws).completed d, ?_, State.completed_eq _ _, pushSram_completed_fileHolds hlen hv,
    State.pushSram_completed_delivered t d y ws⟩
  simp only [State.pushServe, hop, hread, ok_bind, res_pure]

theorem csrRead_refused {e : Stop} (hop : d.op = .csrRead reg y n) (hread : s.fbiRead reg n = .error e) :
    s.pushServe d = .error e := by simp only [State.pushServe, hop, hread, error_bind]

/-- A register of one longword, in the form in which `csrRead_served` asks for it. -/
theorem singleton_get (w : Word) (i : Nat) (hi : i < [w].length) : some w = some [w][i] := by simp

/-! ### Registers that only store -/

/-- The four bytes of a longword, put together again. -/
theorem bytes_append (w : Word) :
    w.extractLsb' 24 8 ++ w.extractLsb' 16 8 ++ w.extractLsb' 8 8 ++ w.extractLsb' 0 8 = w := by
  rw [BitVec.extractLsb'_append_extractLsb'_eq_extractLsb' (by rfl), BitVec.append_assoc,
    BitVec.extractLsb'_append_extractLsb'_eq_extractLsb' (by rfl)]
  simp only [BitVec.cast_eq]
  rw [BitVec.extractLsb'_append_extractLsb'_eq_extractLsb' (by rfl)]
  simp

/-- Four bytes of the sequencer's program read as they were written (D20). -/
theorem progWord_progPut (p : Vector Byte 12) (k : Fin 3) (w : Word) : progWord (progPut p k w) k = w := by
  simp [progWord, progPut, bytes_append]

/-- A register that only stores takes `w` and then reads as `w`, whatever has changed outside the unit. -/
theorem storedCsr_keeps (s : State) (w : Word) (h : reg ∈ storedCsrs) :
    ∃ f, s.fbiPlain reg [w] = some (.ok (s.withFbi f)) ∧ ∀ t : State, t.fbi = f → t.fbiRead reg 1 = .ok ([w], t) := by
  simp only [storedCsrs, List.mem_cons, List.not_mem_nil, or_false] at h
  rcases h with rfl | rfl | rfl | rfl | rfl | rfl | rfl | rfl | rfl | rfl <;>
    refine ⟨_, rfl, fun t ht => ?_⟩ <;> simp only [State.fbiRead, ht, progWord_progPut] <;> rfl

theorem storedCsr_write_read (h : reg ∈ storedCsrs) (hw : (s.me c.xfMe).sramWr[x]? = some w)
    (hc : c.op = .csrWrite reg x 1) (hd : d.op = .csrRead reg y 1) :
    ∃ t u, s.pullServe c = .ok t ∧ t.pushServe d = .ok u ∧ t = { s with fbi := t.fbi, mes := t.mes } ∧
      t.mes = (s.completed c).mes ∧ u = { t with mes := u.mes } ∧
      fileHolds (t.me d.xfMe).sramRd (u.me d.xfMe).sramRd y 1 (fun _ => some w) ∧ sramDelivered t u d := by
  obtain ⟨f, hplain, hread⟩ := storedCsr_keeps s w h
  obtain ⟨t, ht, hfbi, hframe, hmes⟩ := csrWrite_served hc hw hplain
  obtain ⟨u, hu, hrest⟩ := csrRead_served hd (hread t hfbi) rfl (singleton_get w)
  exact ⟨t, u, ht, hu, hframe, hmes, hrest⟩

/-! ### RCV_REQ (R200, R804) -/

theorem writeRcvReq_full (h : 2 ≤ s.fbi.rcvReq.length) : s.writeRcvReq w = .error (.refused .fifoMisuse) := by
  simp only [State.writeRcvReq, Nat.not_lt.2 h, decide_false, require_false, error_bind]

theorem writeRcvReq_repeat (hroom : s.fbi.rcvReq.length < 2) (hslow : getBit .rqFast w = false)
    (hport : s.fbi.lastSlow = some (requestPort w)) : s.writeRcvReq w = .error (.refused .slowPortRepeat) := by
  simp [State.writeRcvReq, hroom, hslow, hport]

theorem writeRcvReq_ok (hroom : s.fbi.rcvReq.length < 2)
    (hport : getBit .rqFast w = true ∨ s.fbi.lastSlow ≠ some (requestPort w)) :
    s.writeRcvReq w = .ok (s.withFbi { s.fbi with
      rcvReq := s.fbi.rcvReq ++ [w], lastSlow := if getBit .rqFast w then none else some (requestPort w) }) := by
  have hgate : (getBit .rqFast w || s.fbi.lastSlow != some (requestPort w)) = true := by simpa using hport
  simp only [State.writeRcvReq, hroom, hgate, decide_true, require_true, ok_bind, res_pure]

/-! ### RCV_CNTL (R807) -/

/-- Signals of the head entry touch the microengines alone. -/
theorem signalHead_eq (s : State) : s.signalHead = { s with mes := s.signalHead.mes } := by
  unfold State.signalHead
  repeat' split
  all_goals rfl

theorem signal_sramRd (s : State) (m : Fin 6) (j : Fin 4) (e : SigEvent) (k : Fin 6) :
    ((s.signal m j e).me k).sramRd = (s.me k).sramRd := by
  rw [signal_me]
  split <;> rfl

theorem signalHead_sramRd (s : State) (k : Fin 6) : (s.signalHead.me k).sramRd = (s.me k).sramRd := by
  unfold State.signalHead
  split
  · rfl
  · split <;> simp only [State.signalThread, signal_sramRd]

/-- A signal takes no event away. -/
theorem signal_keeps_event {m k : Fin 6} {i j : Fin 4} {e g : SigEvent}
    (h : (s.me k).sigEvents[j].getLsbD (sigBit g) = true) :
    ((s.signal m i e).me k).sigEvents[j].getLsbD (sigBit g) = true := by
  rw [(signal_spec ..).1, h, Bool.true_or]

theorem completed_keeps_event {k : Fin 6} {j : Fin 4} {g : SigEvent}
    (h : (s.me k).sigEvents[j].getLsbD (sigBit g) = true) :
    ((s.completed c).me k).sigEvents[j].getLsbD (sigBit g) = true := by
  unfold State.completed
  split
  · exact signal_keeps_event h
  · exact h

theorem signalThread_sets (s : State) (i : Fin 24) (e : SigEvent) :
    ((s.signalThread i e).me (threadMe i)).sigEvents[threadCtx i].getLsbD (sigBit e) = true := by
  rw [State.signalThread, (signal_spec ..).1]
  simp

/-- The thread of the head entry is signalled, whether or not the scheduler is too (R807). -/
theorem signalHead_sets {e : RcvEntry} {rest : List RcvEntry} (h : s.fbi.rcvCntl = e :: rest) :
    (s.signalHead.me (threadMe e.thread)).sigEvents[threadCtx e.thread].getLsbD (sigBit .startReceive) = true := by
  simp only [State.signalHead, h]
  split
  · exact signal_keeps_event (signalThread_sets ..)
  · exact signalThread_sets ..

/-- The queue after a read of its head. -/
def rcvRest (e : RcvEntry) (rest : List RcvEntry) : List RcvEntry :=
  if e.reads ≤ 1 then rest else { e with reads := e.reads - 1 } :: rest

/-- What reading the head entry leaves, its last read or not. -/
theorem readRcvCntl_head {e : RcvEntry} {rest : List RcvEntry} (h : s.fbi.rcvCntl = e :: rest) :
    ∃ t, s.readRcvCntl = .ok (e.word, t) ∧
      t = { s with fbi := { s.fbi with rcvCntl := rcvRest e rest }, mes := t.mes } ∧
      (∀ k, (t.me k).sramRd = (s.me k).sramRd) ∧
      (∀ n more, rest = n :: more → e.reads ≤ 1 →
        (t.me (threadMe n.thread)).sigEvents[threadCtx n.thread].getLsbD (sigBit .startReceive) = true) := by
  unfold rcvRest
  simp only [State.readRcvCntl, h]
  split
  · exact ⟨_, rfl, signalHead_eq _, signalHead_sramRd _, fun n more hn _ => signalHead_sets hn⟩
  · next hmore => exact ⟨_, rfl, rfl, fun _ => rfl, fun _ _ _ hlast => absurd hlast hmore⟩

theorem rcvCntl_empty (hop : d.op = .csrRead .rcvCntl y 1) (h : s.fbi.rcvCntl = []) :
    s.pushServe d = .error (.refused .fifoMisuse) :=
  csrRead_refused hop (by simp only [State.fbiRead, State.readRcvCntl, h, refuse_eq, error_bind])

theorem rcvCntl_read (h : s.readRcvCntl = .ok (w, t)) : s.fbiRead .rcvCntl n = .ok ([w], t) := by
  simp only [State.fbiRead, h, ok_bind, res_pure]

theorem rcvCntl_head {e : RcvEntry} {rest : List RcvEntry} (hop : d.op = .csrRead .rcvCntl y 1)
    (h : s.fbi.rcvCntl = e :: rest) :
    ∃ u, s.pushServe d = .ok u ∧ u = { s with fbi := u.fbi, mes := u.mes } ∧
      fileHolds (s.me d.xfMe).sramRd (u.me d.xfMe).sramRd y 1 (fun _ => some e.word) ∧
      u.fbi = { s.fbi with rcvCntl := rcvRest e rest } ∧
      (∀ n more, rest = n :: more → e.reads ≤ 1 →
        (u.me (threadMe n.thread)).sigEvents[threadCtx n.thread].getLsbD (sigBit .startReceive) = true) := by
  obtain ⟨t, hread, ht, hregs, hnext⟩ := readRcvCntl_head h
  obtain ⟨u, hu, hframe, hfile, hdelivered⟩ := csrRead_served hop (rcvCntl_read hread) rfl (singleton_get e.word)
  have hfbi : u.fbi = { s.fbi with rcvCntl := rcvRest e rest } := by rw [hframe, ht]
  refine ⟨u, hu, ?_, hregs _ ▸ hfile, hfbi, fun n more hn hlast => ?_⟩
  · rw [hfbi, hframe, ht]
  · rw [(hdelivered _).1]
    exact completed_keeps_event (hnext n more hn hlast)

/-! ### SELF_DESTRUCT, THREAD_DONE and GET_CMD (R768, R769, R780) -/

/-- A read whose effect is on the unit's registers alone. -/
theorem csrRead_takes {v : Nat → Option Word} {ws : List Word} (hop : d.op = .csrRead reg y n)
    (hread : s.fbiRead reg n = .ok (ws, s.withFbi f)) (hlen : ws.length = n)
    (hv : ∀ i (hi : i < ws.length), v i = some ws[i]) :
    ∃ u, s.pushServe d = .ok u ∧ fileHolds (s.me d.xfMe).sramRd (u.me d.xfMe).sramRd y n v ∧ u.fbi = f ∧
      u = { s with fbi := u.fbi, mes := u.mes } := by
  obtain ⟨u, hu, hframe, hfile, -⟩ := csrRead_served hop hread hlen hv
  have hfbi : u.fbi = f := by rw [hframe]; rfl
  exact ⟨u, hu, hfile, hfbi, by rw [hfbi]; exact hframe⟩

/-- A word written to THREAD_DONE_REG0 clears bits among 31:0, one written to THREAD_DONE_REG1 among 47:32 (R769). -/
theorem threadDone_cleared (v : BitVec 48) (w : Word) (i : Nat) :
    (v &&& ~~~(w.setWidth 48)).getLsbD i = (v.getLsbD i && !(decide (i < 32) && w.getLsbD i)) ∧
    (v &&& ~~~((w.setWidth 48) <<< 32)).getLsbD i = (v.getLsbD i && !(decide (32 ≤ i) && w.getLsbD (i - 32))) := by
  by_cases hi : i < 48
  · by_cases hlow : i < 32
    · simp [hi, hlow, Nat.not_le.2 hlow]
    · simp [hi, hlow, Nat.not_lt.1 hlow]
  · simp [BitVec.getLsbD_of_ge v i (by omega)]

/-- With enough entries a read of GET_CMD takes the oldest `n` (R780). -/
theorem popWords_eq : ∀ {ws : List Word} {n : Nat}, n ≤ ws.length → popWords ws n = (ws.take n, ws.drop n)
  | _, 0, _ => by simp [popWords]
  | w :: ws, n + 1, h => by simp [popWords, popWords_eq (Nat.le_of_succ_le_succ h)]

end

/-- Settles O47, register by register. -/
theorem csrService : Obligations.CsrService := by
  intro s c d x y w _ _ hw
  refine ⟨fun reg hreg => storedCsr_write_read hreg hw, fun hop => ⟨fun hfull => ?full, fun hroom hslow hport => ?again,
    fun hroom hport => ?request⟩, fun hop => ⟨rcvCntl_empty hop, fun e rest => rcvCntl_head hop⟩,
    fun hop => csrRead_takes hop rfl rfl (singleton_get _), fun hop => ?done0, fun hop => ?done1,
    fun n hop _ hn => ?getCmd⟩
  case full => simp [pullServe_csrWrite hop hw rfl, writeRcvReq_full hfull]
  case again => simp [pullServe_csrWrite hop hw rfl, writeRcvReq_repeat hroom hslow hport]
  case request =>
    obtain ⟨t, ht, hfbi, hrest⟩ := csrWrite_served hop hw (congrArg some (writeRcvReq_ok hroom hport))
    exact ⟨t, ht, by rw [hfbi]; rfl, by rw [hfbi], hrest⟩
  case done0 =>
    obtain ⟨t, ht, hfbi, -⟩ := csrWrite_served hop hw rfl
    exact ⟨t, ht, by rw [hfbi], fun i => by rw [hfbi]; exact (threadDone_cleared ..).1⟩
  case done1 =>
    obtain ⟨t, ht, hfbi, -⟩ := csrWrite_served hop hw rfl
    exact ⟨t, ht, by rw [hfbi], fun i => by rw [hfbi]; exact (threadDone_cleared ..).2⟩
  case getCmd =>
    refine csrRead_takes hop ?_ (List.length_take_of_le hn) ?_
    · simp only [State.fbiRead, popWords_eq hn]
    · intro i hi
      simp

end Sys2Proof.Machine
end

section
/-! The lock CAM of the SRAM Unit (R910 to R913): when a read lock fails, what a grant and a release leave, and the three
lock commands served. -/

namespace Sys2Proof.Machine

/-! ### Longwords of a block written -/

/-- Longwords below the block keep their value. -/
theorem Mem.readWord_writeWords_lt (ws : List Word) (m : Mem) {i k : Nat} (h : k < i) :
    (m.writeWords i ws).readWord k = m.readWord k := by
  induction ws generalizing i m with
  | nil => rfl
  | cons w ws ih =>
    have hkeep : (m.writeWord i w).readWord k = m.readWord k :=
      congrArg (Option.map wordOf) (Mem.readBytes_writeBytes_ne (wordBytes w) (4 * i) (4 * k) 4 m (by omega))
    exact (ih (m.writeWord i w) (by omega)).trans hkeep

theorem Mem.readWord_writeWords (ws : List Word) (m : Mem) (i : Nat) {k : Nat} (h : k < ws.length) :
    (m.writeWords i ws).readWord (i + k) = ws[k]? := by
  induction ws generalizing i k m with
  | nil => exact absurd h (Nat.not_lt_zero _)
  | cons w ws ih =>
    cases k with
    | zero => exact (Mem.readWord_writeWords_lt ws _ (Nat.lt_succ_self i)).trans (Mem.readWord_writeWord m i w)
    | succ k =>
      rw [List.getElem?_cons_succ, Nat.add_comm k, ← Nat.add_assoc]
      exact ih (m.writeWord i w) (i + 1) (Nat.lt_of_succ_lt_succ h)

/-! ### The CAM and its fail queue -/

section
variable {r : Sram} {a b : Word}

theorem Sram.canLock_iff : r.canLock a = true ↔ a ∉ r.cam ∧ r.cam.length < 8 := by
  simp [Sram.canLock]

/-- An address that is held, or a full CAM, fails a read lock whatever the RLK bit (R911). -/
theorem Sram.lockFails_of_held (h : a ∈ r.cam ∨ 8 ≤ r.cam.length) : r.lockFails a = true := by
  have hno : ¬ r.canLock a = true := fun hcan => by
    obtain ⟨hfree, hroom⟩ := Sram.canLock_iff.1 hcan
    exact h.elim hfree (Nat.not_le.2 hroom)
  simp [Sram.lockFails, hno]

/-- With no read lock waiting the RLK bit does not matter (R911). -/
theorem Sram.lockFails_of_free (hfree : a ∉ r.cam) (hroom : r.cam.length < 8) (hnone : r.lockFail = []) :
    r.lockFails a = false := by
  simp [Sram.lockFails, Sram.canLock_iff.2 ⟨hfree, hroom⟩, hnone]

theorem Sram.mem_unlock_cam : b ∈ (r.unlock a).cam ↔ b ∈ r.cam ∧ b ≠ a := by
  simp [Sram.unlock]

/-- A release takes its own address alone out of the CAM and asks for the retry (R912, R913). -/
theorem Sram.unlock_releases (r : Sram) (a : Word) :
    a ∉ (r.unlock a).cam ∧ (∀ b, b ≠ a → (b ∈ (r.unlock a).cam ↔ b ∈ r.cam)) ∧ (r.unlock a).retry = true :=
  ⟨fun h => (Sram.mem_unlock_cam.1 h).2 rfl, fun _ hne => Sram.mem_unlock_cam.trans (and_iff_left hne), rfl⟩

end

section
variable {s : State} {c : Cmd} {a : Word} {x n : Nat} {w : LockWaiter}

theorem lockWait_room (h : s.sram.lockFail.length < 23) :
    s.lockWait w = .ok (s.withSram { s.sram with lockFail := s.sram.lockFail ++ [w] }) := if_pos h

theorem lockWait_full (h : 23 ≤ s.sram.lockFail.length) : s.lockWait w = .error (.fault .lockQueueOverflow) :=
  if_neg (Nat.not_lt.2 h)

/-! ### The burst and the completion -/

theorem ssramOk_of_le {k : Nat} (h : 4 * (k + n) ≤ s.board.sramBytes) : s.ssramOk k n = true := decide_eq_true h

theorem ssramOk_of_lt {k : Nat} (h : s.board.sramBytes < 4 * (k + n)) : s.ssramOk k n = false :=
  decide_eq_false (Nat.not_le.2 h)

theorem completed_withSram (s : State) (r : Sram) (c : Cmd) :
    (s.withSram r).completed c = (s.completed c).withSram r := by
  unfold State.completed
  split <;> rfl

/-- A replaced SRAM Unit is no part of what a delivery leaves of the microengines. -/
theorem sramDelivered_of_withSram {t : State} {r : Sram} (h : sramDelivered (s.withSram r) t c) :
    sramDelivered s t c := by
  intro k
  have hk := h k
  rwa [completed_withSram] at hk

/-! ### The lock commands served -/

/-- A lock command that names a longword outside the SSRAM is refused (U20, R320). -/
theorem lockCommand_outside
    (hop : (∃ x, c.op = .sramReadLock a x n ∨ c.op = .sramWriteUnlock a x n) ∨ (c.op = .sramUnlock a ∧ n = 1))
    (h : s.board.sramBytes < 4 * (a.toNat + n)) : s.sramServe c = .error (.refused .addressRange) := by
  rcases hop with ⟨x, hop | hop⟩ | ⟨hop, rfl⟩ <;>
    simp only [State.sramServe, hop, ssramOk_of_lt h, require_false, error_bind]

theorem readLock_waits (hop : c.op = .sramReadLock a x n) (hin : 4 * (a.toNat + n) ≤ s.board.sramBytes)
    (hfails : s.sram.lockFails a = true) : s.sramServe c = s.lockWait (.me c) := by
  simp only [State.sramServe, hop, ssramOk_of_le hin, require_true, ok_bind, hfails, if_true]

theorem readLock_succeeds (hop : c.op = .sramReadLock a x n) (hin : 4 * (a.toNat + n) ≤ s.board.sramBytes)
    (hfails : s.sram.lockFails a = false) : s.sramServe c = s.lockRead c a x n := by
  simp only [State.sramServe, hop, ssramOk_of_le hin, require_true, ok_bind, hfails, Bool.false_eq_true, if_false]

/-- A successful read lock of longwords that have all been written (R911). -/
theorem lockRead_ok (hin : 4 * (a.toNat + n) ≤ s.board.sramBytes)
    (hwritten : ∀ i, i < n → (s.sram.mem.readWord (a.toNat + i)).isSome = true) :
    ∃ t, s.lockRead c a x n = .ok t ∧ t.sram = s.sram.lock a ∧ t = { s with sram := t.sram, mes := t.mes } ∧
      fileHolds (s.me c.xfMe).sramRd (t.me c.xfMe).sramRd x n (fun i => s.sram.mem.readWord (a.toNat + i)) ∧
      sramDelivered s t c := by
  obtain ⟨ws, hws, hlen, hget⟩ := Mem.readWords_some s.sram.mem n a.toNat hwritten
  refine ⟨((s.withSram (s.sram.lock a)).pushSram c.xfMe x ws).completed c, ?_, by simp, ?_,
    pushSram_completed_fileHolds (s := s.withSram (s.sram.lock a)) hlen hget,
    sramDelivered_of_withSram (State.pushSram_completed_delivered _ c x ws)⟩
  · simp only [State.lockRead, ssramOk_of_le hin, require_true, hws, written_some, ok_bind, res_pure]
  · rw [State.completed_eq]; rfl

theorem writeUnlock_served (hop : c.op = .sramWriteUnlock a x n) (hin : 4 * (a.toNat + n) ≤ s.board.sramBytes) :
    s.sramServe c = .ok ((s.completed c).withSram
      ({ s.sram with mem := s.sram.mem.writeWords a.toNat (s.pullSram c.xfMe x n) }.unlock a)) := by
  simp only [State.sramServe, hop, ssramOk_of_le hin, require_true, ok_bind, res_pure, completed_withSram]

theorem unlock_served (hop : c.op = .sramUnlock a) (hin : 4 * (a.toNat + 1) ≤ s.board.sramBytes) :
    s.sramServe c = .ok ((s.completed c).withSram (s.sram.unlock a)) := by
  simp only [State.sramServe, hop, ssramOk_of_le hin, require_true, ok_bind, res_pure, completed_withSram]

end

/-- Settles O43: by command; a read lock waits or is granted, and the two releases share what `unlock` does. -/
theorem lockCam : Obligations.LockCam := by
  intro s c a
  refine ⟨fun x n hop => lockCommand_outside (.inl ⟨x, hop⟩), fun hop => lockCommand_outside (.inr ⟨hop, rfl⟩),
    fun x n hop hheld hin => ?waits, fun x n hop hfree hroom hnone hin _ hwritten => ?granted,
    fun x n hop hin hspan => ?writeUnlock, fun hop hin => ?unlock⟩
  case waits =>
    rw [readLock_waits hop hin (Sram.lockFails_of_held hheld)]
    exact ⟨lockWait_room, lockWait_full⟩
  case granted =>
    rw [readLock_succeeds hop hin (Sram.lockFails_of_free hfree hroom hnone)]
    exact lockRead_ok hin hwritten
  case writeUnlock =>
    have hlen : (s.pullSram c.xfMe x n).length = n := fileGets_length _ _ _
    obtain ⟨hgone, hothers, hretry⟩ := Sram.unlock_releases
      { s.sram with mem := s.sram.mem.writeWords a.toNat (s.pullSram c.xfMe x n) } a
    refine ⟨_, writeUnlock_served hop hin, fun i hi => ?_, fun b hb => ?_, hgone, hothers, hretry, rfl⟩
    · exact (Mem.readWord_writeWords _ _ _ (hlen.symm ▸ hi)).trans (fileGets_get _ n x i hi hspan)
    · exact Mem.read_writeWords_ne _ _ _ _ (hlen.symm ▸ hb)
  case unlock =>
    obtain ⟨hgone, hothers, hretry⟩ := Sram.unlock_releases s.sram a
    exact ⟨_, unlock_served hop hin, hgone, hothers, hretry, rfl, rfl⟩

end Sys2Proof.Machine
end

section
/-! Decoding and encoding (30_encoding.md R401, R420, R430): the opcode tables against the formulas of R703, and the law
of ME_ENCODING for the words of a control store. -/

namespace Sys2Proof.Machine

/-! ### The opcode tables (R420, R430) -/

section
variable {b : Byte} {i : Instr}

theorem mem_of_lookupOpcode {t : List (Byte × Instr)} (h : lookupOpcode b t = some i) : (b, i) ∈ t := by
  induction t with
  | nil => nomatch h
  | cons row rest ih =>
    obtain ⟨k, j⟩ := row
    rw [lookupOpcode] at h
    split at h
    next hkey => cases h; exact hkey ▸ List.mem_cons_self
    next => exact List.mem_cons_of_mem _ (ih h)

theorem lookupOpcode_isSome_iff (t : List (Byte × Instr)) :
    (lookupOpcode b t).isSome = true ↔ b ∈ t.map Prod.fst := by
  induction t with
  | nil => simp [lookupOpcode]
  | cons row rest ih =>
    obtain ⟨k, j⟩ := row
    by_cases hkey : k = b
    · simp [lookupOpcode, hkey]
    · rw [lookupOpcode, if_neg hkey, ih, List.map_cons, List.mem_cons, or_iff_right (Ne.symm hkey)]

/-- Every row of the opcode tables follows the formulas of R703. -/
theorem seqTable_rows_encode : ∀ row ∈ seqTable, encodeSeq row.2 = some row.1 := by decide

theorem encodeSeq_of_decodeSeq (h : decodeSeq b = some i) : encodeSeq i = some b :=
  seqTable_rows_encode (b, i) (mem_of_lookupOpcode h)

open Laws.SeqRoundTrip in
/-- The laws of the single instructions, in the order of the opcode table. -/
theorem seqRoundTrip (i : Instr) : Statement i :=
  i.casesOn alu aluShf dblShf
    br brEq0 brNe0 brGt0 brGe0 brLt0 brLe0 brCout brNotCout brBset brBclr brEqByte brNeByte brEqCtx brNeCtx brInpState
    brNotSignal jump rtn
    csr fastWr localCsrRd localCsrWr rFifoRd pciDma scratch sdram sram tFifoWr
    findBset findBsetWithMask immed immedB0 immedB1 immedB2 immedB3 immedW0 immedW1 ldField ldFieldWClr loadAddr
    loadBsetResult1 loadBsetResult2
    ctxArb nop hash1x48 hash2x48 hash3x48 hash1x64 hash2x64 hash3x64
    nop1 nop2 nop3 nop4 nop5 nop6 nop7 nop8
    rxrdy0 rxrdy0to1 rxrdy0to2 rxrdy0to3 rxrdy0to4 rxrdy0to5 rxrdy0to6
    rxrdy1 rxrdy1to2 rxrdy1to3 rxrdy1to4 rxrdy1to5 rxrdy1to6 rxrdy2 rxrdy2to3 rxrdy2to4 rxrdy2to5 rxrdy2to6
    rxrdy3 rxrdy3to4 rxrdy3to5 rxrdy3to6 rxrdy4 rxrdy4to5 rxrdy4to6 rxrdy5 rxrdy5to6 rxrdy6
    txrdy0 txrdy0to1 txrdy0to2 txrdy0to3 txrdy0to4 txrdy0to5 txrdy0to6
    txrdy1 txrdy1to2 txrdy1to3 txrdy1to4 txrdy1to5 txrdy1to6 txrdy2 txrdy2to3 txrdy2to4 txrdy2to5 txrdy2to6
    txrdy3 txrdy3to4 txrdy3to5 txrdy3to6 txrdy4 txrdy4to5 txrdy4to6 txrdy5 txrdy5to6 txrdy6
    rxAutopush txAutopush flwctl
    get1x1 get1x2 get1x3 get1x4 get1x5 get1x6 get1x7 get1x8 get2x1 get2x2 get2x3 get2x4 get2x5 get2x6 get2x7 get2x8
    sendx1 sendx2 sendx3 sendx4 sendx5 sendx6 sendx7 sendx8

/-- An opcode byte and its instruction determine each other (R430, R703). -/
theorem decodeSeq_eq_some_iff : decodeSeq b = some i ↔ encodeSeq i = some b :=
  ⟨encodeSeq_of_decodeSeq, seqRoundTrip i b⟩

/-! ### Instructions of one byte -/

theorem decode_byte_eq_ok_iff : decode [b] = .ok i ↔ encodeSeq i = some b := by
  rw [← decodeSeq_eq_some_iff, decode]
  cases decodeSeq b <;> simp

theorem encode_of_encodeSeq (h : encodeSeq i = some b) : encode i = [b] := by simp only [encode, h]

end

/-- Settles O1: the rows of the tables and the formulas of R703 say the same of every instruction. -/
theorem sequencerDecodeEncode : Obligations.SequencerDecodeEncode :=
  ⟨fun _ _ h => ⟨encode_of_encodeSeq h, decode_byte_eq_ok_iff.2 h⟩,
    fun _ _ h => encode_of_encodeSeq (decode_byte_eq_ok_iff.1 h)⟩

/-! ### How many bytes decode (R420) -/

/-- The numbers of the opcode bytes, row by row. -/
def opcodeNumbers : List Nat := seqTable.map fun row => row.1.toNat

theorem opcodeNumbers_nodup : opcodeNumbers.Nodup := by decide

theorem mem_opcodeNumbers_iff (n : Nat) :
    n ∈ opcodeNumbers ↔ n < 256 ∧ (decodeSeq (BitVec.ofNat 8 n)).isSome = true := by
  rw [decodeSeq, lookupOpcode_isSome_iff]
  constructor
  · intro h
    obtain ⟨row, hrow, rfl⟩ := List.mem_map.1 h
    rw [BitVec.ofNat_toNat, BitVec.setWidth_eq]
    exact ⟨row.1.isLt, List.mem_map_of_mem hrow⟩
  · rintro ⟨hn, h⟩
    obtain ⟨row, hrow, hbyte⟩ := List.mem_map.1 h
    exact List.mem_map.2 ⟨row, hrow, by rw [hbyte, BitVec.toNat_ofNat, Nat.mod_eq_of_lt hn]⟩

/-- The bytes that decode are the rows' bytes, in another order. -/
theorem decoding_perm_opcodeNumbers :
    ((List.range 256).filter fun n => (decodeSeq (BitVec.ofNat 8 n)).isSome).Perm opcodeNumbers :=
  (List.perm_ext_iff_of_nodup (List.nodup_range.filter _) opcodeNumbers_nodup).2 fun n => by
    rw [List.mem_filter, List.mem_range, mem_opcodeNumbers_iff]

/-- Settles O2: each word is what R703 gives for its instruction, and no two of the 91 rows share a byte. -/
theorem sequencerWordsDecode : Obligations.SequencerWordsDecode := by
  refine ⟨?_, ?_, ?_, ?_, ?_, ?_, ?_, ?_, ?_, decoding_perm_opcodeNumbers.length_eq⟩
  all_goals exact decode_byte_eq_ok_iff.2 rfl

/-! ### Control store words (R401) -/

section
variable {w : Word} {i : Instr}

theorem lawfulEntry_iff :
    lawfulEntry i = true ↔ i.wf = true ∧ i.isSeq = false ∧ Config.meTable (Config.meEncode i) = some i := by
  simp [lawfulEntry, and_assoc]

theorem decodeMe_eq_some_iff : decodeMe w = some i ↔ Config.meTable w = some i ∧ lawfulEntry i = true :=
  Option.filter_eq_some_iff

/-- What decodes is a well-formed microengine instruction that its own encoding decodes to (R401). -/
theorem lawful_of_decodeMe (h : decodeMe w = some i) :
    i.wf = true ∧ i.isSeq = false ∧ decodeMe (Config.meEncode i) = some i := by
  obtain ⟨_, hlaw⟩ := decodeMe_eq_some_iff.1 h
  obtain ⟨hwf, hseq, hread⟩ := lawfulEntry_iff.1 hlaw
  exact ⟨hwf, hseq, decodeMe_eq_some_iff.2 ⟨hread, hlaw⟩⟩

/-- A word is made of its own bytes (D44). -/
theorem wordOfBytes_bytes (w : Word) :
    wordOfBytes (w.extractLsb' 0 8) (w.extractLsb' 8 8) (w.extractLsb' 16 8) (w.extractLsb' 24 8) = w := by
  rw [wordOfBytes, BitVec.extractLsb'_append_extractLsb'_eq_extractLsb' (show 24 = 16 + 8 from rfl),
    BitVec.extractLsb'_append_extractLsb'_eq_extractLsb' (show 16 = 8 + 8 from rfl),
    BitVec.extractLsb'_append_extractLsb'_eq_extractLsb' (show 8 = 0 + 8 from rfl)]
  exact BitVec.extractLsb'_eq_self

theorem encode_of_not_isSeq (h : i.isSeq = false) :
    encode i = [(Config.meEncode i).extractLsb' 0 8, (Config.meEncode i).extractLsb' 8 8,
      (Config.meEncode i).extractLsb' 16 8, (Config.meEncode i).extractLsb' 24 8] := by
  have hnone : encodeSeq i = none := by simpa [Instr.isSeq] using h
  simp only [encode, hnone]

theorem decode_encode_of_lawful (hseq : i.isSeq = false) (h : decodeMe (Config.meEncode i) = some i) :
    decode (encode i) = .ok i := by
  rw [encode_of_not_isSeq hseq, decode, wordOfBytes_bytes, h]

theorem ustoreEntry_of_some (h : decodeMe w = some i) : ustoreEntry w = .instr i := by rw [ustoreEntry, h]

theorem ustoreEntry_of_none (h : decodeMe w = none) : ustoreEntry w = .raw w := by rw [ustoreEntry, h]

end

/-- Settles O3: a word that decodes is kept as its instruction, whose own encoding decodes to it; any other is kept
as it is. -/
theorem controlStoreReadsBack : Obligations.ControlStoreReadsBack := by
  intro w
  cases hw : decodeMe w with
  | some i =>
    obtain ⟨hwf, hseq, hback⟩ := lawful_of_decodeMe hw
    rw [ustoreEntry_of_some hw]
    exact ⟨ustoreEntry_of_some hback, hwf, hseq, rfl, decode_encode_of_lawful hseq hback⟩
  | none =>
    rw [ustoreEntry_of_none hw]
    exact ⟨ustoreEntry_of_none hw, rfl, rfl⟩

end Sys2Proof.Machine
end

section
/-! Arithmetic, rotate and shift (40_me_alu_shift.md R450 to R459): the state `alu`, `alu_shf` and `dbl_shf` leave. -/

namespace Sys2Proof.Machine

section
variable {s : State} {d : Dest} {a b : Src} {op : AluOp} {shf : Shf}

/-! ### Which state the instruction leaves -/

theorem alu_exec {x : Option Word} {y : Word} (ha : operandIs s a x) (hb : operandIs s b (some y)) :
    exec (.alu d a op b) s = .next (s.aluDone d op x y) := by
  simp [exec, execAlu, source_of_operandIs ha, sourceVal_of_operandIs hb]

theorem aluShf_exec {x : Option Word} {y : Word} (ha : operandIs s a x) (hb : operandIs s b (some y)) :
    exec (.aluShf d a op b shf) s = .next (s.aluDone d op x (s.shifted shf y)) := by
  simp [exec, execAluShf, source_of_operandIs ha, sourceVal_of_operandIs hb]

/-- The double shift of the operands in state `s`, a free word where it is unspecified (U2). -/
def State.doubleShifted (s : State) (shf : Shf) (x y : Word) : Word :=
  shiftAB shf x y s.engine.aLatch (Config.freeWord .shiftIndirect s.free)

theorem dblShf_exec {x y : Word} (ha : operandIs s a (some x)) (hb : operandIs s b (some y)) :
    exec (.dblShf d a b shf) s = .next (s.retire (s.engine.writeDest s.engine.active d (s.doubleShifted shf x y))
      { alu := some (s.doubleShifted shf x y), a := some x
        cc := some (resultFlags s.engine.cc (s.doubleShifted shf x y)) }) := by
  simp [exec, execDblShf, State.doubleShifted, sourceVal_of_operandIs ha, sourceVal_of_operandIs hb]

end

/-! ### What is in it -/

theorem resultFlags_eq (old : Flags) (r : Word) :
    resultFlags old r = ⟨decide (r = 0), decide (r.toInt < 0), old.cout⟩ := by
  rw [resultFlags, sign_spec, beq_eq_decide]

/-- The codes of `alu` and `alu_shf`: Zero and Sign follow from the result, Carryout is R453's where it is stated. -/
theorem aluFlags_spec (op : AluOp) (x y : Word) (c p free : Bool) :
    (aluFlags op x y c p free).zero = decide (aluResult op x y c p = 0) ∧
    (aluFlags op x y c p free).sign = decide ((aluResult op x y c p).toInt < 0) ∧
    ∀ k, specCarry op x.toNat y.toNat c p = some k → (aluFlags op x y c p free).cout = k := by
  refine ⟨beq_eq_decide .., sign_spec _, fun k hk => ?_⟩
  rw [aluFlags, aluCarry_spec, hk, Option.getD_some]

/-- An instruction with an ALU result leaves it in the destination and the latch, its codes, and the A operand in its
latch (R56, R57). -/
theorem retire_result_spec (s : State) (d : Dest) (r : Word) (x : Option Word) (f : Flags) :
    let t := s.retire (s.engine.writeDest s.engine.active d r) { alu := some r, a := x, cc := some f }
    destWritten s.engine t.engine d r ∧ t.engine.cc = f ∧ t.engine.aluOut = r ∧
      (∀ v, x = some v → t.engine.aLatch = v.setWidth 5) ∧ findKept s.engine t.engine ∧ ordinary s t :=
  ⟨retire_writeDest s d r _, by simp, by simp, fun v hv => by simp [hv], findKept_retire s d r _ rfl,
    ordinary_writeDest s d r _ rfl rfl⟩

/-- The common end of `alu` and `alu_shf`, with `y` as the B operand of the operation (R450, R452, R453). -/
theorem aluDone_spec (s : State) (d : Dest) (op : AluOp) (x : Option Word) (y : Word) :
    let t := s.aluDone d op x y
    ∃ r : Word, r.toNat = specAlu op (x.getD 0).toNat y.toNat s.engine.cc.cout s.engine.prevCc.sign ∧
      destWritten s.engine t.engine d r ∧
      t.engine.cc.zero = decide (r = 0) ∧ t.engine.cc.sign = decide (r.toInt < 0) ∧
      (∀ c, specCarry op (x.getD 0).toNat y.toNat s.engine.cc.cout s.engine.prevCc.sign = some c →
        t.engine.cc.cout = c) ∧
      t.engine.aluOut = r ∧ (∀ v, x = some v → t.engine.aLatch = v.setWidth 5) ∧
      findKept s.engine t.engine ∧ ordinary s t := by
  obtain ⟨hdest, hcc, hout, hlatch, hfind, hord⟩ := retire_result_spec s d
    (aluResult op (x.getD 0) y s.engine.cc.cout s.engine.prevCc.sign) x
    (aluFlags op (x.getD 0) y s.engine.cc.cout s.engine.prevCc.sign (Config.freeBit .carry s.free))
  obtain ⟨hzero, hsign, hcarry⟩ := aluFlags_spec op (x.getD 0) y s.engine.cc.cout s.engine.prevCc.sign
    (Config.freeBit .carry s.free)
  dsimp only [State.aluDone]
  rw [hcc]
  exact ⟨_, aluResult_spec .., hdest, hzero, hsign, hcarry, hout, hlatch, hfind, hord⟩

/-! ### The statements, in a namespace of their own because `aluResult` is the model's table of operations -/

namespace AluShift

/-- Settles O7: the operands are read and the operation is done on them. -/
theorem aluResult : Obligations.AluResult := by
  intro s d a op b x y ha hb
  obtain ⟨r, hdone⟩ := aluDone_spec s d op x y
  exact ⟨_, r, alu_exec ha hb, hdone⟩

/-- Settles O8: as O7, on the shifted B operand. -/
theorem aluShfResult : Obligations.AluShfResult := by
  intro s d a op b shf x y ha hb
  obtain ⟨r, hdone⟩ := aluDone_spec s d op x (s.shifted shf y)
  exact ⟨_, r, _, aluShf_exec ha hb, fun v hv => shiftB_spec shf y _ _ v hv, hdone⟩

/-- Settles O9: the result is the double shift's, and Carryout is that of the codes before. -/
theorem dblShfResult : Obligations.DblShfResult := by
  intro s d a b shf x y hok ha hb
  obtain ⟨hdest, hcc, hout, hlatch, hfind, hord⟩ := retire_result_spec s d (s.doubleShifted shf x y) (some x)
    (resultFlags s.engine.cc (s.doubleShifted shf x y))
  exact ⟨_, _, dblShf_exec ha hb, fun n hn => shiftAB_spec shf x y _ _ n hok hn, hdest,
    hcc.trans (resultFlags_eq _ _), hout, hlatch x rfl, hfind, hord⟩

end AluShift

end Sys2Proof.Machine
end

section
/-! Branches and jumps (41_me_branch.md R481 to R506): what a branch leaves outside a deferred position, how one in it
is refused, and what the instructions in deferred positions lead to (R483, R641). -/

namespace Sys2Proof.Machine

section
variable {s : State} {l : Label} {tok : BrTok} {taken : Bool} {target : BitVec 12} {n : Fin 4}

/-! ### A branch outside a deferred position -/

/-- What the test of a branch may itself change of its engine: the signals, of which it may consume one (R499), and the
age of a test of PUSH_PROTECT (R792). -/
def tested (m m' : Me) : Prop := m' = { m with sigEvents := m'.sigEvents, ppAge := m'.ppAge }

theorem tested_refl (m : Me) : tested m m := rfl

/-- A branch moves the program counter as its decision says and leaves everything but latches, codes and what its test
changes. -/
theorem retireBranch_next {m : Me} (r : Retire) (hdefer : s.engine.defer = none) (hm : tested s.engine m)
    (hlatch : r.latch = none) (hshadow : r.shadow = none) (hfind : r.find = false) :
    ∃ t, finish (s.retireBranch m r taken target n) = .next t ∧ branched s.engine t.engine taken target n ∧
      branchFrame s t ∧ contextsKept m t.engine ∧ t.engine.cc = r.cc.getD s.engine.cc := by
  obtain ⟨e, hok, hpc, he⟩ := retireBranch_ok s m r taken target n (by rw [hm]; exact hdefer) (by rw [hm]) (by rw [hm])
  have hregs : regsKept s.engine e := fun k => by rw [he, hm]; cases k <;> rfl
  refine ⟨s.putEngine e, by rw [hok]; rfl, ?_⟩
  simp only [branchFrame, State.putEngine_engine]
  refine ⟨hpc, ⟨othersKept_putEngine s e, ?_, ?_, hregs, ?_, ?_, ?_⟩, ?_, ?_⟩
  all_goals rw [he, hm]
  · simp [controlKept]
  · simp [latchesLeft, hlatch, hshadow]
  · simp [findKept, hfind]
  · simp
  · simp
  · simp [contextsKept]
  · simp

/-- A branch whose test leaves the engine alone keeps the codes. -/
theorem branch_next (hdefer : s.engine.defer = none) :
    ∃ t, finish (s.retireBranch s.engine {} taken target n) = .next t ∧ branched s.engine t.engine taken target n ∧
      branchFrame s t ∧ contextsKept s.engine t.engine ∧ t.engine.cc = s.engine.cc :=
  retireBranch_next {} hdefer (tested_refl _) rfl rfl rfl

/-- A branch that tests a register keeps Carryout (U3). -/
theorem branchReg_next (hdefer : s.engine.defer = none) : ∃ t, finish (s.branchReg taken l tok) = .next t ∧
    branched s.engine t.engine taken (l.setWidth 12) tok.defer ∧
    branchFrame s t ∧ contextsKept s.engine t.engine ∧ t.engine.cc.cout = s.engine.cc.cout := by
  obtain ⟨t, ht, hpc, hframe, hctx, hcc⟩ := retireBranch_next
    { cc := some (unspecifiedFlags s.engine.cc s.free) } hdefer (tested_refl _) rfl rfl rfl
  exact ⟨t, ht, hpc, hframe, hctx, by rw [hcc]; rfl⟩

/-! ### A branch in a deferred position (D15) -/

theorem branch_refused {m : Me} {r : Retire} (hdefer : m.defer.isSome = true) :
    finish (s.retireBranch m r taken target n) = .refused .branchInDeferSlot := by
  rw [retireBranch_deferred s m r taken target n hdefer]; rfl

theorem retireSwap_deferred {m : Me} {r : Retire} {act : DeferAct} {defer1 : Bool} (hdefer : m.defer.isSome = true) :
    s.retireSwap m r act defer1 = .error (.refused .branchInDeferSlot) := by
  simp [State.retireSwap, hdefer]

/-! ### Which branch each instruction makes -/

/-- `br` and the branches on condition codes are one branch, on what the table says they test. -/
theorem codeBranches_exec : ∀ p ∈ codeBranches, ∀ (s : State) (l : Label) (tok : BrTok),
    exec (p.1 l tok) s = finish (s.branch (p.2 s.engine.cc) l tok) := by
  simp only [codeBranches, List.forall_mem_cons]
  exact ⟨fun _ _ _ => rfl, fun _ _ _ => rfl, fun _ _ _ => rfl, fun _ _ _ => rfl, fun _ _ _ => rfl, fun _ _ _ => rfl,
    fun _ _ _ => rfl, fun _ _ _ => rfl, fun _ _ _ => rfl, fun _ h => nomatch h⟩

theorem brEqCtx_exec (c : Fin 4) : exec (.brEqCtx c l tok) s = finish (s.branch (decide (s.engine.active = c)) l tok) :=
  rfl

theorem brNeCtx_exec (c : Fin 4) :
    exec (.brNeCtx c l tok) s = finish (s.branch (decide (s.engine.active ≠ c)) l tok) := by
  rw [decide_not]; rfl

/-- The engine once `br_inp_state` has tested `i`. -/
def State.inpTested (s : State) (i : InpState) : Me :=
  if i == .pushProtect && !s.fbi.pushProtect then { s.engine with ppAge := some 0 } else s.engine

theorem brInpState_exec (i : InpState) : exec (.brInpState i l tok) s =
    finish (s.retireBranch (s.inpTested i) {} (s.inputState i) (l.setWidth 12) tok.defer) := rfl

theorem inpTested_eq (s : State) (i : InpState) :
    s.inpTested i = { s.engine with ppAge := (s.inpTested i).ppAge } := by
  unfold State.inpTested
  split <;> rfl

theorem tested_inpTested (s : State) (i : InpState) : tested s.engine (s.inpTested i) := by
  rw [inpTested_eq]; rfl

/-- `br_inp_state` branches on the state, and keeps contexts and codes. -/
theorem brInpState_next (hdefer : s.engine.defer = none) (i : InpState) : ∃ t, exec (.brInpState i l tok) s = .next t ∧
    branched s.engine t.engine (s.inputState i) (l.setWidth 12) tok.defer ∧
    branchFrame s t ∧ contextsKept s.engine t.engine ∧ t.engine.cc = s.engine.cc := by
  obtain ⟨t, ht, hpc, hframe, hctx, hcc⟩ := retireBranch_next {} hdefer (tested_inpTested s i) rfl rfl rfl
  rw [inpTested_eq] at hctx
  exact ⟨t, ht, hpc, hframe, hctx, hcc⟩

/-- The engine once `br_!signal` has consumed its signal `e`. -/
def Me.signalTested (m : Me) (e : SigEvent) : Me :=
  { m with sigEvents := m.sigEvents.set m.active (m.sigEvents[m.active] &&& ~~~(sigMask e)) }

theorem brNotSignal_exec (e : SigEvent) : exec (.brNotSignal e l tok) s = finish (s.retireBranch
    (s.engine.signalTested e) {} (!s.engine.sigEvents[s.engine.active].getLsbD (sigBit e)) (l.setWidth 12) tok.defer) :=
  rfl

/-- The signal tested is cleared, every other flag of every context stays (R499). -/
theorem Me.signalTested_spec (m : Me) (e : SigEvent) (c : Fin 4) (f : SigEvent) :
    (m.signalTested e).sigEvents[c].getLsbD (sigBit f) =
      (m.sigEvents[c].getLsbD (sigBit f) && !(decide (c = m.active) && decide (f = e))) := by
  have hmask : (~~~(sigMask e)).getLsbD (sigBit f) = !decide (f = e) := by cases e <;> cases f <;> decide
  by_cases hc : c = m.active
  · subst hc
    simp only [Me.signalTested, Fin.getElem_fin, Vector.getElem_set_self, BitVec.getLsbD_and, hmask, decide_true,
      Bool.true_and]
  · have hne : m.active.val ≠ c.val := fun h => hc (Fin.ext h.symm)
    simp [Me.signalTested, hne, hc]

/-- Byte `k` of a longword, as a number (R501). -/
theorem byteOf_toNat (v : Word) (k : Fin 4) : (byteOf v k).toNat = v.toNat / 256 ^ k.val % 256 := by
  simp only [byteOf, BitVec.extractLsb'_toNat, Nat.shiftRight_eq_div_pow, pow_mul]
  rfl

theorem byteOf_beq (v : Word) (k : Fin 4) (b : Byte) :
    (byteOf v k == b) = decide (v.toNat / 256 ^ k.val % 256 = b.toNat) := by
  rw [beq_eq_decide, ← byteOf_toNat]
  exact decide_eq_decide.2 BitVec.toNat_inj.symm

theorem codeTarget_inStore {v : Word} (h : v.toNat < s.board.ustoreWords) :
    s.codeTarget v = .ok (BitVec.ofNat 12 v.toNat) := by
  simp only [State.codeTarget, if_pos h, BitVec.ofNat_toNat]

theorem codeTarget_beyond {v : Word} (h : s.board.ustoreWords ≤ v.toNat) :
    s.codeTarget v = .error (.fault (.pcOutOfStore v.toNat)) := by
  simp only [State.codeTarget, if_neg (Nat.not_lt.2 h), stopFault_eq]

section
variable {r : Src} {v : Word} (hr : operandIs s r (some v))
include hr

theorem brBset_exec (pos : BitVec 5) :
    exec (.brBset r pos l tok) s = finish (s.branchReg (v.getLsbD pos.toNat) l tok) := by
  simp only [exec, execBrBset, sourceVal_of_operandIs hr, ok_bind]

theorem brBclr_exec (pos : BitVec 5) :
    exec (.brBclr r pos l tok) s = finish (s.branchReg (!v.getLsbD pos.toNat) l tok) := by
  simp only [exec, execBrBclr, sourceVal_of_operandIs hr, ok_bind]

theorem brEqByte_exec (k : Fin 4) (b : Byte) : exec (.brEqByte r k b l tok) s =
    finish (s.branchReg (decide (v.toNat / 256 ^ k.val % 256 = b.toNat)) l tok) := by
  simp only [exec, execBrEqByte, sourceVal_of_operandIs hr, ok_bind, byteOf_beq]

theorem brNeByte_exec (k : Fin 4) (b : Byte) : exec (.brNeByte r k b l tok) s =
    finish (s.branchReg (decide (v.toNat / 256 ^ k.val % 256 ≠ b.toNat)) l tok) := by
  simp only [exec, execBrNeByte, sourceVal_of_operandIs hr, ok_bind, bne, byteOf_beq, decide_not, ne_eq]

theorem jump_exec (h : (l.setWidth 32 + v).toNat < s.board.ustoreWords) : exec (.jump r l tok) s =
    finish (s.retireBranch s.engine {} true (BitVec.ofNat 12 (l.setWidth 32 + v).toNat) tok.defer) := by
  simp only [exec, execJump, sourceVal_of_operandIs hr, ok_bind, codeTarget_inStore h]

theorem jump_beyond (h : s.board.ustoreWords ≤ (l.setWidth 32 + v).toNat) :
    exec (.jump r l tok) s = .fault (.pcOutOfStore (l.setWidth 32 + v).toNat) := by
  simp only [exec, execJump, sourceVal_of_operandIs hr, ok_bind, codeTarget_beyond h, error_bind, finish_fault]

theorem rtn_exec (h : v.toNat < s.board.ustoreWords) : exec (.rtn r tok) s =
    finish (s.retireBranch s.engine {} true (BitVec.ofNat 12 v.toNat) tok.defer) := by
  simp only [exec, execRtn, sourceVal_of_operandIs hr, ok_bind, codeTarget_inStore h]

theorem rtn_beyond (h : s.board.ustoreWords ≤ v.toNat) : exec (.rtn r tok) s = .fault (.pcOutOfStore v.toNat) := by
  simp only [exec, execRtn, sourceVal_of_operandIs hr, ok_bind, codeTarget_beyond h, error_bind, finish_fault]

end

/-! ### The codes and the result they came from (R489 to R494) -/

/-- An `alu` that has run is its common end, whatever its operands were. -/
theorem aluDone_of_exec {d : Dest} {a b : Src} {op : AluOp} {t : State} (h : exec (.alu d a op b) s = .next t) :
    ∃ x y, t = s.aluDone d op x y := by
  obtain ⟨x, -, hrest⟩ := bind_ok (finish_eq_next h)
  obtain ⟨y, -, hdone⟩ := bind_ok hrest
  exact ⟨x, y, (Except.ok.inj hdone).symm⟩

/-- Codes that follow from a result compare it with zero. -/
theorem holds_iff_compare {f : Flags} {r : Word} (hzero : f.zero = decide (r = 0))
    (hsign : f.sign = decide (r.toInt < 0)) :
    (Cond.holds .eq0 f = true ↔ r.toInt = 0) ∧ (Cond.holds .ne0 f = true ↔ r.toInt ≠ 0) ∧
    (Cond.holds .gt0 f = true ↔ 0 < r.toInt) ∧ (Cond.holds .ge0 f = true ↔ 0 ≤ r.toInt) ∧
    (Cond.holds .lt0 f = true ↔ r.toInt < 0) ∧ (Cond.holds .le0 f = true ↔ r.toInt ≤ 0) := by
  have hnull : r = 0#32 ↔ r.toInt = 0 := BitVec.toInt_inj.symm
  have hpos : 0 < r.toInt ↔ 0 ≤ r.toInt ∧ r.toInt ≠ 0 := lt_iff_le_and_ne.trans (and_congr_right' ne_comm)
  have hnonpos : r.toInt ≤ 0 ↔ r.toInt < 0 ∨ r.toInt = 0 := le_iff_lt_or_eq
  simp [Cond.holds, hzero, hsign, hnull, hpos, hnonpos]

/-! ### An instruction in a deferred position (R483, R641) -/

/-- The engine `w` stands at the same word of the same context, with the same deferred instructions left. -/
def inPlace (m w : Me) : Prop := w.pcs = m.pcs ∧ w.active = m.active ∧ w.defer = m.defer

/-- In place, with contexts, signals and enables as they were; the CTX_ENABLES window is one instruction shorter. -/
def quiet (m w : Me) : Prop := w.pcs = m.pcs ∧ w.defer = m.defer ∧ contextsKept m w ∧ w.enWindow = m.enWindow - 1

theorem quiet.inPlace {m w : Me} (h : quiet m w) : inPlace m w := by
  obtain ⟨hpcs, hdefer, ⟨hactive, -⟩, -⟩ := h
  exact ⟨hpcs, hactive, hdefer⟩

/-- An instruction has run: its results are in `w`, from which the engine goes on to the next. -/
def goesOn (P : Me → Me → Prop) (s t : State) : Prop := ∃ w draw, P s.engine w ∧ t.engine = w.advance draw

theorem goesOn.mono {P Q : Me → Me → Prop} {t : State} (h : goesOn P s t) (hi : ∀ m w, P m w → Q m w) :
    goesOn Q s t := by
  obtain ⟨w, draw, hw, ht⟩ := h
  exact ⟨w, draw, hi _ w hw, ht⟩

/-! #### What going on leads to -/

section
variable {t : State} {act : DeferAct}

theorem goesOn.counts {k : Nat} (h : goesOn inPlace s t) (hd : s.engine.defer = some ⟨k + 2, act⟩) :
    t.engine.defer = some ⟨k + 1, act⟩ ∧ t.engine.pcs = s.engine.pcs.set s.engine.active (s.engine.pc + 1) := by
  obtain ⟨w, draw, ⟨hpcs, hactive, hdefer⟩, ht⟩ := h
  simp [ht, Me.advance, hdefer.trans hd, Me.pc, hpcs, hactive]

theorem goesOn.jumps (h : goesOn inPlace s t) (hd : s.engine.defer = some ⟨1, .jump target⟩) :
    t.engine.defer = none ∧ t.engine.pcs = s.engine.pcs.set s.engine.active target := by
  obtain ⟨w, draw, ⟨hpcs, hactive, hdefer⟩, ht⟩ := h
  simp [ht, Me.advance, hdefer.trans hd, hpcs, hactive]

/-- The last deferred instruction of anything but a taken branch goes on to the next word and leaves as the act says. -/
theorem advance_last {w : Me} {draw : Bool} (hd : w.defer = some ⟨1, act⟩) (hno : ∀ x, act ≠ .jump x) :
    w.advance draw = ({ w.setPc (w.pc + 1) with defer := none } : Me).leave act draw := by
  cases act with
  | jump x => exact absurd rfl (hno x)
  | fall | swap | kill => simp [Me.advance, hd]

theorem goesOn.falls (h : goesOn inPlace s t) (hd : s.engine.defer = some ⟨1, act⟩) (hno : ∀ x, act ≠ .jump x) :
    t.engine.defer = none ∧ t.engine.pcs = s.engine.pcs.set s.engine.active (s.engine.pc + 1) := by
  obtain ⟨w, draw, ⟨hpcs, hactive, hdefer⟩, ht⟩ := h
  rw [ht, advance_last (hdefer.trans hd) hno]
  simp [Me.pc, hpcs, hactive]

theorem goesOn.contexts_counting {k : Nat} (h : goesOn quiet s t) (hd : s.engine.defer = some ⟨k + 2, act⟩) :
    contextsKept s.engine t.engine := by
  obtain ⟨w, draw, ⟨-, hdefer, hctx, -⟩, ht⟩ := h
  simpa [ht, Me.advance, hdefer.trans hd, contextsKept] using hctx

theorem goesOn.contexts_branch (h : goesOn quiet s t)
    (hd : s.engine.defer = some ⟨1, .jump target⟩ ∨ s.engine.defer = some ⟨1, .fall⟩) :
    contextsKept s.engine t.engine := by
  obtain ⟨w, draw, ⟨-, hdefer, hctx, -⟩, ht⟩ := h
  rcases hd with hd | hd <;> simpa [ht, Me.advance, hdefer.trans hd, Me.leave, contextsKept] using hctx

/-- After the last deferred instruction of a swap the context is left to wait. -/
theorem goesOn.swaps {wake : Wakeup} (h : goesOn quiet s t) (hd : s.engine.defer = some ⟨1, .swap wake⟩)
    (hrun : s.engine.hasRun = true) (hwin : s.engine.enWindow ≤ 1) :
    swapped s.engine t.engine s.engine.ctxEnables wake := by
  obtain ⟨w, draw, ⟨hpcs, hdefer, ⟨ha, hn, -, -, hr, hs, hw, hen, -⟩, hew⟩, ht⟩ := h
  rw [ht, advance_last (hdefer.trans hd) (fun _ => nofun), ← hen]
  exact swapped_leave s.engine { w.setPc (w.pc + 1) with defer := none } wake draw (hr.trans hrun) (by simp; omega)
    (by simp [Me.pc, hpcs, ha]) rfl hw ha hn hs

/-- After the last deferred instruction of a kill the context is left disabled (R647). -/
theorem goesOn.kills (h : goesOn quiet s t) (hd : s.engine.defer = some ⟨1, .kill⟩)
    (hrun : s.engine.hasRun = true) (hwin : s.engine.enWindow ≤ 1) :
    swapped s.engine t.engine (s.engine.ctxEnables &&& ~~~(1#4 <<< s.engine.active.val)) .voluntary := by
  obtain ⟨w, draw, ⟨hpcs, hdefer, ⟨ha, hn, -, -, hr, hs, hw, hen, -⟩, hew⟩, ht⟩ := h
  rw [ht, advance_last (hdefer.trans hd) (fun _ => nofun), ← hen, ← ha]
  exact swapped_leave s.engine
    { w.setPc (w.pc + 1) with
      defer := none
      ctxEnables := w.ctxEnables &&& ~~~(1#4 <<< w.active.val)
      oldEnables := w.oldEnables &&& ~~~(1#4 <<< w.active.val) }
    .voluntary draw (hr.trans hrun) (by simp; omega) (by simp [Me.pc, hpcs, ha]) rfl hw ha hn hs

end

/-! #### Every instruction that runs in a deferred position goes on -/

/-- A reference may stall instead (R591). -/
def stallsOr (P : State → State → Prop) (s t : State) : Prop := t = s ∨ P s t

theorem goesOn_retire {m : Me} {r : Retire} (h : quiet s.engine (m.latch r s.free)) :
    stallsOr (goesOn quiet) s (s.retire m r) := .inr ⟨_, _, h, retire_engine s m r⟩

theorem quiet_latch (m : Me) (r : Retire) (k : Nat) : quiet m (m.latch r k) := by simp [quiet, contextsKept]

theorem goesOn_writeDest (d : Dest) (v : Word) (r : Retire) :
    stallsOr (goesOn quiet) s (s.retire (s.engine.writeDest s.engine.active d v) r) :=
  goesOn_retire (by simp [quiet, contextsKept])

theorem goesOn_findStep (f : BitVec 16) (clr : Bool) (r : Retire) :
    stallsOr (goesOn quiet) s (s.retire (s.engine.findStep f clr) r) :=
  goesOn_retire (by simp [quiet, contextsKept])

/-- A command in the FIFO of an engine in which at most pending marks changed leaves it quiet. -/
theorem quiet_command {u : State} (h : u.engine = { s.engine with pending := u.engine.pending }) (cmd : Cmd) (k : Nat) :
    quiet s.engine (({ u.engine with cmdFifo := u.engine.cmdFifo ++ [cmd] } : Me).latch {} k) := by
  rw [h]; simp [quiet, contextsKept]

section
variable (hdefer : s.engine.defer.isSome = true)
include hdefer

theorem goesOn_issue (cmd : Cmd) (ev : SigEvent) (tok : RefTok) :
    Holds (stallsOr (goesOn quiet) s) (s.issue cmd ev tok) := by
  unfold State.issue
  split
  · trivial
  next hswap =>
    have hno : tok.ctxSwap = false := by simpa [hdefer] using hswap
    refine .ite (.inl rfl) (.ite trivial ?_)
    rw [hno]
    cases cmd.sig with
    | none => exact .inr ⟨_, _, quiet_command rfl cmd s.free, retire_engine s _ _⟩
    | some e =>
      exact .inr ⟨_, _, quiet_command (markPending_me s cmd.sigMe cmd.sigCtx e s.cur) cmd s.free, retire_engine _ _ _⟩

theorem holds_retireBranch_deferred {P : State → Prop} {m : Me} {r : Retire} (hm : m.defer = s.engine.defer) :
    Holds P (s.retireBranch m r taken target n) := by
  rw [retireBranch_deferred s m r taken target n (hm ▸ hdefer)]; trivial

/-- Every microengine instruction but `local_csr_wr` that runs in a deferred position goes on quietly. -/
theorem exec_goesOn (i : Instr) (hi : i.isSeq = false) (hcsr : ∀ reg src, i ≠ .localCsrWr reg src) :
    ∃ r, exec i s = finish r ∧ Holds (stallsOr (goesOn quiet) s) r := by
  have branch : ∀ {taken : Bool} {r : Retire} {x : BitVec 12} {k : Fin 4},
      Holds (stallsOr (goesOn quiet) s) (s.retireBranch s.engine r taken x k) := holds_retireBranch_deferred hdefer rfl
  have issue := goesOn_issue hdefer
  cases i with
  | alu | aluShf | dblShf => exact ⟨_, rfl, .after fun _ => .after fun _ => goesOn_writeDest _ _ _⟩
  | findBsetWithMask => exact ⟨_, rfl, .after fun _ => .after fun _ => goesOn_findStep _ _ _⟩
  | findBset => exact ⟨_, rfl, .after fun _ => goesOn_findStep _ _ _⟩
  | ldField | ldFieldWClr => exact ⟨_, rfl, .after fun _ => goesOn_writeDest _ _ _⟩
  | immed | immedB0 | immedB1 | immedB2 | immedB3 | immedW0 | immedW1 | loadAddr | loadBsetResult1
  | loadBsetResult2 => exact ⟨_, rfl, .ok (goesOn_writeDest _ _ _)⟩
  | nop | localCsrRd => exact ⟨_, rfl, .ok (goesOn_retire (quiet_latch _ _ _))⟩
  | localCsrWr reg src => exact absurd rfl (hcsr reg src)
  | br | brEq0 | brNe0 | brGt0 | brGe0 | brLt0 | brLe0 | brCout | brNotCout | brEqCtx | brNeCtx =>
    exact ⟨_, rfl, branch⟩
  | brNotSignal e => exact ⟨_, brNotSignal_exec e, holds_retireBranch_deferred hdefer rfl⟩
  | brInpState i => exact ⟨_, brInpState_exec i, holds_retireBranch_deferred hdefer (by rw [tested_inpTested s i])⟩
  | brBset | brBclr | brEqByte | brNeByte => exact ⟨_, rfl, .after fun _ => branch⟩
  | jump | rtn => exact ⟨_, rfl, .after fun _ => .after fun _ => branch⟩
  | ctxArb => exact ⟨_, rfl, by rw [retireSwap_deferred hdefer]; trivial⟩
  | csr rw =>
    refine ⟨_, rfl, .after fun _ => ?_⟩
    cases rw <;> exact issue _ _ _
  | fastWr | pciDma => exact ⟨_, rfl, issue _ _ _⟩
  | rFifoRd | tFifoWr | scratch | sdram | sram => exact ⟨_, rfl, .after fun _ => .after fun _ => issue _ _ _⟩
  | hash1x48 | hash2x48 | hash3x48 | hash1x64 | hash2x64 | hash3x64 => exact ⟨_, rfl, .after fun _ => issue _ _ _⟩
  | _ => exact absurd hi (by decide)

end

/-- The write of a local CSR leaves an executing engine in place (R1100). -/
theorem writeCsr_inPlace {m : Me} (hrun : m.executing = true) (k : LocalCsr) (v : Word) (free : Nat) :
    Holds (inPlace m) (m.writeCsr k v free) := by
  have hfields : Holds (inPlace m) (m.csrFields k v free) := by
    cases k with
    | activeCtxSts =>
      show inPlace m (if m.executing then m else { m with active := _ })
      rw [if_pos hrun]; exact ⟨rfl, rfl, rfl⟩
    | ctxWakeupEvents => exact .after fun _ => ⟨rfl, rfl, rfl⟩
    | ustoreData | aluOutput => trivial
    | _ => exact ⟨rfl, rfl, rfl⟩
  exact .bind hfields fun _ hw => hw

theorem localCsrWr_goesOn (hrun : s.engine.executing = true) (reg : LocalCsr) (src : Gpr) :
    ∃ r, exec (.localCsrWr reg src) s = finish r ∧ Holds (goesOn inPlace s) r := by
  refine ⟨_, rfl, .bind (writeCsr_inPlace (m := s.engine.latch _ s.free) hrun _ _ _) fun w hw => ?_⟩
  exact ⟨_, _, by split <;> exact hw, State.putEngine_engine _ _⟩

/-- Whichever instruction has run in a deferred position, the engine goes on from where it was. -/
theorem goesOn_of_exec {i : Instr} {t : State} (hi : i.isSeq = false) (hrun : s.engine.executing = true)
    (ht : exec i s = .next t) (hne : t ≠ s) (hdefer : s.engine.defer.isSome = true) :
    goesOn inPlace s t ∧ ((∀ reg src, i ≠ .localCsrWr reg src) → goesOn quiet s t) := by
  have hquiet : (∀ reg src, i ≠ .localCsrWr reg src) → goesOn quiet s t := fun hcsr => by
    obtain ⟨r, hr, hgo⟩ := exec_goesOn hdefer i hi hcsr
    exact (hgo.of_finish (hr ▸ ht)).resolve_left hne
  refine ⟨?_, hquiet⟩
  by_cases hcsr : ∀ reg src, i ≠ .localCsrWr reg src
  · exact (hquiet hcsr).mono fun _ _ => quiet.inPlace
  · push Not at hcsr
    obtain ⟨reg, src, rfl⟩ := hcsr
    obtain ⟨r, hr, hgo⟩ := localCsrWr_goesOn hrun reg src
    exact hgo.of_finish (hr ▸ ht)

end

/-! ### The statements, in a namespace of their own because `codeBranches` is a table of the statements -/

namespace Branch

/-- Settles O10: each is one branch, on the codes its row of the table names. -/
theorem codeBranches : Obligations.CodeBranches := by
  intro p hp s l tok hdefer
  rw [codeBranches_exec p hp]
  exact branch_next hdefer

/-- Settles O11: the codes an `alu` leaves follow from its result, which its latch holds. -/
theorem branchesCompareResultWithZero : Obligations.BranchesCompareResultWithZero := by
  intro s d a op b t ht
  obtain ⟨x, y, rfl⟩ := aluDone_of_exec ht
  obtain ⟨r, -, -, hzero, hsign, -, hout, -⟩ := aluDone_spec s d op x y
  rw [hout]
  exact holds_iff_compare hzero hsign

/-- Settles O12: each reads its register and is one branch, on a bit or a byte of it. -/
theorem registerBranches : Obligations.RegisterBranches := by
  intro s r v l tok hr hdefer
  refine ⟨fun pos => ?_, fun k b => ?_⟩
  · rw [brBset_exec hr, brBclr_exec hr]
    exact ⟨branchReg_next hdefer, branchReg_next hdefer⟩
  · rw [brEqByte_exec hr, brNeByte_exec hr]
    exact ⟨branchReg_next hdefer, branchReg_next hdefer⟩

/-- Settles O13: the first two are branches on the running context, the others tests of an input state. -/
theorem contextAndInputBranches : Obligations.ContextAndInputBranches := by
  intro s l tok hdefer
  refine ⟨fun c => ?_, fun c => ?_, brInpState_next hdefer .recReqAvail, brInpState_next hdefer .pushProtect⟩
  · rw [brEqCtx_exec]; exact branch_next hdefer
  · rw [brNeCtx_exec]; exact branch_next hdefer

/-- Settles O14: the branch is on the flag before the test, and the test clears that flag alone. -/
theorem signalBranchConsumes : Obligations.SignalBranchConsumes := by
  intro s e l tok hdefer
  obtain ⟨t, ht, hpc, hframe, ⟨hactive, -, -, hexecuting, -, hsig, hwakeup, henables, -⟩, hcc⟩ :=
    retireBranch_next (m := s.engine.signalTested e) {} hdefer rfl rfl rfl rfl
  exact ⟨t, (brNotSignal_exec e).trans ht, hpc, fun c f => hsig ▸ Me.signalTested_spec s.engine e c f, hframe, hcc,
    hactive, hexecuting, hwakeup, henables⟩

/-- Settles O15: the target is computed first, and is the branch's or the fault's. -/
theorem jumpAndReturn : Obligations.JumpAndReturn := by
  intro s r v l tok hr hdefer
  refine ⟨fun hin => ?_, jump_beyond hr, fun hin => ?_, rtn_beyond hr⟩
  · rw [jump_exec hr hin]; exact branch_next hdefer
  · rw [rtn_exec hr hin]; exact branch_next hdefer

/-- Settles O16: whichever instruction has run, the engine goes on from its place, by what is left of the deferral. -/
theorem deferredInstructionsThenTarget : Obligations.DeferredInstructionsThenTarget := by
  intro i s t hi hrun ht hne
  have run : ∀ {d}, s.engine.defer = some d →
      goesOn inPlace s t ∧ ((∀ reg src, i ≠ .localCsrWr reg src) → goesOn quiet s t) :=
    fun hd => goesOn_of_exec hi hrun ht hne (by rw [hd]; rfl)
  refine ⟨fun n act hd => (run hd).1.counts hd, fun target hd => (run hd).1.jumps hd,
    fun act hd hno => (run hd).1.falls hd hno, fun hcsr => ⟨fun n act hd => ?_, fun target hd => ?_,
      fun hhas hwin => ⟨fun w hd => ?_, fun hd => ?_⟩⟩⟩
  · exact ((run hd).2 hcsr).contexts_counting hd
  · exact (hd.elim (fun h => (run h).2 hcsr) (fun h => (run h).2 hcsr)).contexts_branch hd
  · exact ((run hd).2 hcsr).swaps hd hhas hwin
  · exact ((run hd).2 hcsr).kills hd hhas hwin

/-- Settles O17: each is one branch, or a swap, once its operand has been read. -/
theorem branchInDeferredPositionRefused : Obligations.BranchInDeferredPositionRefused := by
  intro s l tok hdefer
  have refused : ∀ {taken : Bool} {f : Retire} {x : BitVec 12} {k : Fin 4},
      finish (s.retireBranch s.engine f taken x k) = .refused .branchInDeferSlot := branch_refused hdefer
  refine ⟨fun p hp => (codeBranches_exec p hp s l tok).trans refused, fun c => ⟨refused, refused⟩, fun i => ?input,
    fun e => (brNotSignal_exec e).trans (branch_refused hdefer), fun ev d => ?swap,
    fun r v hr => ⟨fun pos => ?bits, fun k b => ?bytes, fun hin => (rtn_exec hr hin).trans refused,
      fun hin => (jump_exec hr hin).trans refused⟩⟩
  case input =>
    rw [brInpState_exec]
    exact branch_refused (by rw [inpTested_eq]; exact hdefer)
  case swap =>
    simp only [exec, execCtxArb, retireSwap_deferred hdefer, finish_refused]
  case bits => exact ⟨(brBset_exec hr pos).trans refused, (brBclr_exec hr pos).trans refused⟩
  case bytes => exact ⟨(brEqByte_exec hr k b).trans refused, (brNeByte_exec hr k b).trans refused⟩

end Branch

end Sys2Proof.Machine
end

section
/-! References (42_me_reference.md), concluded: a form whose command can be issued, and the command of each form (R540
to R547, R652 to R657). -/

namespace Sys2Proof.Machine

/-! ### A command that can be issued (R530, R580) -/

section
variable {s : State} {tok : RefTok} {i : Instr} {op : CmdOp} {q : UnitQueue} {o : Overrides} {moveXfer chain : Bool}
  {ev : SigEvent} {first regs : Nat}

/-- An instruction that issues the command of the running thread with the overrides `o`. -/
theorem issued_of_exec (h : exec i s = finish (s.issue (s.command op q o moveXfer ev tok chain) ev tok))
    (hcan : canIssue s (s.command op q o moveXfer ev tok chain) tok) :
    ∃ t, exec i s = .next t ∧ issued s t (s.command op q o moveXfer ev tok chain) ev tok := by
  obtain ⟨t, ht, hissued⟩ := issue_ok s _ ev tok hcan rfl
  exact ⟨t, by rw [h, ht]; rfl, hissued⟩

/-- The same behind the check of a burst that stays in the file (D7). -/
theorem issued_of_burst (hspan : first + regs ≤ 32)
    (h : exec i s = finish (require (spanOk first regs) .burstPastRegister31 >>= fun _ =>
      s.issue (s.command op q o moveXfer ev tok chain) ev tok))
    (hcan : canIssue s (s.command op q o moveXfer ev tok chain) tok) :
    ∃ t, exec i s = .next t ∧ issued s t (s.command op q o moveXfer ev tok chain) ev tok := by
  have hyes : spanOk first regs = true := decide_eq_true hspan
  exact issued_of_exec (by rw [h, hyes]; rfl) hcan

/-! ### Without overrides (R580, R582) -/

theorem command_eq_ownCmd (s : State) (op : CmdOp) (q : UnitQueue) (moveXfer : Bool) (ev : SigEvent) (tok : RefTok)
    (chain : Bool) : s.command op q {} moveXfer ev tok chain = ownCmd s op q ev tok chain := by
  cases moveXfer <;> rfl

theorem own_issued_of_burst (hspan : first + regs ≤ 32)
    (h : exec i s = finish (require (spanOk first regs) .burstPastRegister31 >>= fun _ =>
      s.issue (s.command op q {} moveXfer ev tok chain) ev tok)) (hcan : canIssue s (ownCmd s op q ev tok chain) tok) :
    ∃ t, exec i s = .next t ∧ issued s t (ownCmd s op q ev tok chain) ev tok := by
  rw [← command_eq_ownCmd s op q moveXfer] at hcan ⊢
  exact issued_of_burst hspan h hcan

theorem own_issued_of_exec (h : exec i s = finish (s.issue (s.command op q {} moveXfer ev tok chain) ev tok))
    (hcan : canIssue s (ownCmd s op q ev tok chain) tok) :
    ∃ t, exec i s = .next t ∧ issued s t (ownCmd s op q ev tok chain) ev tok := by
  rw [← command_eq_ownCmd s op q moveXfer] at hcan ⊢
  exact issued_of_exec h hcan

/-- Without `indirect_ref` the word overrides nothing. -/
theorem overrides_direct (m : Me) (k : IndirectKind) (h : tok.indirect = false) : m.overrides k tok.indirect = {} := by
  rw [h]; rfl

theorem bitOpOr_direct (op : BitOp) : bitOpOr {} op = op := by cases op <;> rfl

end

/-! ### The indirect word of the two transmit FIFO forms (R583, R584, R863) -/

section
variable {m : Me} {tok : RefTok} {cnt : Nat} {o : Overrides}

/-- Bit 20 lets bits 19:16 give the count, less one. -/
theorem countOr_countOverride {w : Word} (h : o.count = countOverride w) :
    countOr o cnt = if w.getLsbD 20 then w.toNat / 2 ^ 16 % 16 + 1 else cnt := by
  have hfield : (w.extractLsb' 16 4).toNat = w.toNat / 2 ^ 16 % 16 := by
    simp [BitVec.extractLsb'_toNat, Nat.shiftRight_eq_div_pow]
  rw [countOr, h, countOverride, ← hfield]
  cases w.getLsbD 20 <;> rfl

theorem countOr_tFifoWr : countOr (m.overrides .tFifoWr tok.indirect) cnt =
    if tok.indirect = true ∧ m.aluOut.getLsbD 20 = true then m.aluOut.toNat / 2 ^ 16 % 16 + 1 else cnt := by
  cases hind : tok.indirect with
  | false => rfl
  | true => simp only [true_and]; exact countOr_countOverride rfl

/-- The TFIFO quadword address stands from bit 4 on. -/
theorem fifoOr_sdramTFifo (s : State) :
    s.fifoOr (s.engine.overrides .sdramTFifo true) = s.engine.aluOut.toNat / 2 ^ 4 % 2 ^ 8 := by
  show (s.engine.aluOut.extractLsb' 4 8).toNat = _
  rw [BitVec.extractLsb'_toNat, Nat.shiftRight_eq_div_pow]

end

/-! ### The forms with an address, which is the sum of two operands (R532) -/

section
variable {s : State} {a b : Src} {u v : Word} {tok : RefTok} {o : Overrides} {op : CmdOp}
  (haddr : s.address a b = .ok (u + v))
include haddr

theorem rFifoRd_exec {x : Xfer} {cnt : Nat} : let o := s.engine.overrides .rFifoRd tok.indirect
    exec (.rFifoRd x a b cnt tok) s = finish (
      require (spanOk (xferOr o (s.xfer x)) (2 * countOr o cnt)) .burstPastRegister31 >>= fun _ =>
      s.issue (s.command (.rFifoRd (u + v) (xferOr o (s.xfer x)) (countOr o cnt)) .fbiPush o true .fbi tok false) .fbi
        tok) := by
  simp only [exec, execRFifoRd, haddr, ok_bind]

theorem tFifoWr_exec {x : Xfer} {cnt : Nat} : let o := s.engine.overrides .tFifoWr tok.indirect
    exec (.tFifoWr x a b cnt tok) s = finish (
      require (spanOk (xferOr o (s.xfer x)) (2 * countOr o cnt)) .burstPastRegister31 >>= fun _ =>
      s.issue (s.command (.tFifoWr (u + v) (xferOr o (s.xfer x)) (countOr o cnt)) .fbiPull o true .fbi tok false) .fbi
        tok) := by
  simp only [exec, execTFifoWr, haddr, ok_bind]

theorem scratch_exec {cmd : ScratchCmd} {q : UnitQueue} {check : Res Unit}
    (hop : s.scratchOp cmd (u + v) tok.indirect = check >>= fun _ => pure (op, q, o)) :
    exec (.scratch cmd a b tok) s = finish (check >>= fun _ =>
      s.issue (s.command op q o false .fbi tok false) .fbi tok) := by
  simp only [exec, execScratch, haddr, ok_bind, hop, bind_assoc, pure_bind]

theorem sdram_exec {cmd : SdramCmd} {q : SdramQueue} {chain : Bool} {check : Res Unit}
    (hop : s.sdramOp cmd (u + v) tok.indirect = check >>= fun _ => pure (op, o)) :
    exec (.sdram cmd a b q chain tok) s = finish (check >>= fun _ =>
      s.issue (s.command op (sdramQueueOf q cmd (u + v)) o true .sdram tok chain) .sdram tok) := by
  simp only [exec, execSdram, haddr, ok_bind, hop, bind_assoc, pure_bind]

theorem sram_exec {cmd : SramCmd} {q : SramQueue} {check : Res Unit}
    (hop : s.sramOp cmd (u + v) tok.indirect = check >>= fun _ => pure (op, o)) :
    exec (.sram cmd a b q tok) s = finish (check >>= fun _ =>
      s.issue (s.command op (sramQueueOf q cmd) o true .sram tok false) .sram tok) := by
  simp only [exec, execSram, haddr, ok_bind, hop, bind_assoc, pure_bind]

end

/-! ### The statements -/

/-- Settles O26: a `fast_wr` asks for no signal, so that room in the FIFO is all it needs. -/
theorem fastWriteIssues : Obligations.FastWriteIssues := by
  intro s imm reg indirect hroom o tok
  have hcan : canIssue s (s.command (.fastWr reg (o.imm.getD imm)) .fast o true .fbi tok false) tok :=
    ⟨hroom, nofun, nofun⟩
  obtain ⟨t, ht, hissued⟩ := issued_of_exec (i := .fastWr imm reg indirect) rfl hcan
  exact ⟨t, _, ht, hissued, rfl, rfl, rfl, rfl, rfl, fun hdirect => by subst hdirect; rfl⟩

/-- Settles O25: each of these references is one command of the issuing thread, `sram[pop]` with the overrides of the
indirect word. -/
theorem plainReferencesIssue : Obligations.PlainReferencesIssue := by
  intro s x tok r hr
  subst hr
  refine ⟨?hash, fun reg cnt => ⟨?csrRead, ?csrWrite⟩, fun order => own_issued_of_exec rfl, fun list q => ?pop⟩
  case hash =>
    simp only [List.forall_mem_cons]
    exact ⟨fun h => own_issued_of_burst h rfl, fun h => own_issued_of_burst h rfl, fun h => own_issued_of_burst h rfl,
      fun h => own_issued_of_burst h rfl, fun h => own_issued_of_burst h rfl, fun h => own_issued_of_burst h rfl,
      fun _ h => nomatch h⟩
  case csrRead => exact fun h => own_issued_of_burst (moveXfer := true) h (by simp [exec, execCsr])
  case csrWrite => exact fun h => own_issued_of_burst (moveXfer := true) h (by simp [exec, execCsr])
  case pop =>
    intro o rd cmd hcan
    have hqueue : sramQueueOf q (.pop x list) = rd := by cases q <;> rfl
    refine ⟨issued_of_exec (hqueue ▸ rfl) hcan, fun hdirect => ?_⟩
    simp only [cmd, o, overrides_direct _ _ hdirect]
    exact command_eq_ownCmd s _ rd true .sram tok false

/-- Settles O27: a read and a write check their burst, and each form issues one command. -/
theorem scratchIssues : Obligations.ScratchIssues := by
  intro s a b u v tok ha hb
  have haddr : s.address a b = .ok (u + v) := address_of_operandIs ha hb
  refine ⟨fun x cnt hspan => ⟨fun hcan => ⟨?read, fun hdirect => ?readOwn⟩,
      fun hcan => ⟨?write, fun hdirect => ?writeOwn⟩⟩,
    fun x op => ⟨fun hcan => ?bit, fun hdirect => ?bitOwn⟩, fun hcan => ?incr⟩
  case read => exact issued_of_burst hspan (scratch_exec haddr rfl) hcan
  case write => exact issued_of_burst hspan (scratch_exec haddr rfl) hcan
  case bit => exact issued_of_exec (scratch_exec haddr (check := .ok ()) rfl) hcan
  case incr => exact own_issued_of_exec (scratch_exec haddr (check := .ok ()) rfl) hcan
  case readOwn | writeOwn =>
    rw [overrides_direct _ _ hdirect]
    exact command_eq_ownCmd ..
  case bitOwn =>
    rw [overrides_direct _ _ hdirect, bitOpOr_direct]
    exact command_eq_ownCmd ..

/-- Settles O28: both check a burst of two registers for each quadword. -/
theorem fifoReferencesIssue : Obligations.FifoReferencesIssue := by
  intro s x a b u v cnt tok ha hb
  have haddr : s.address a b = .ok (u + v) := address_of_operandIs ha hb
  refine ⟨fun hspan hcan => issued_of_burst hspan (rFifoRd_exec haddr) hcan, ?_⟩
  intro o n
  have hcount : n = countOr o cnt := countOr_tFifoWr.symm
  rw [hcount]
  refine fun hspan hcan => ⟨issued_of_burst hspan (tFifoWr_exec haddr) hcan, fun hdirect => ?_⟩
  rw [show o = {} from overrides_direct _ _ hdirect]
  exact command_eq_ownCmd ..

/-- Settles O29: reads and writes check their burst and follow the token; the FIFO forms go to the Order queue. -/
theorem sdramIssues : Obligations.SdramIssues := by
  intro s a b u v q chain tok ha hb
  have haddr : s.address a b = .ok (u + v) := address_of_operandIs ha hb
  intro queue
  have hread : ∀ x cnt, sdramQueueOf q (.read x cnt) (u + v) = queue := fun _ _ => by cases q <;> rfl
  have hwrite : ∀ x cnt, sdramQueueOf q (.write x cnt) (u + v) = queue := fun _ _ => by cases q <;> rfl
  refine ⟨fun x cnt hspan => ⟨fun hcan => ?read, fun hcan => ⟨?write, fun hdirect => ?writeOwn⟩⟩,
    fun cnt => ⟨fun hcan => ?tFifo, fun hindirect => ?tFifoFields⟩, fun cnt hcan => ?rFifo⟩
  case read => exact issued_of_burst hspan (hread x cnt ▸ sdram_exec haddr rfl) hcan
  case write => exact issued_of_burst hspan (hwrite x cnt ▸ sdram_exec haddr rfl) hcan
  case writeOwn =>
    rw [overrides_direct _ _ hdirect]
    exact command_eq_ownCmd ..
  case tFifo => exact issued_of_exec (sdram_exec haddr (check := .ok ()) rfl) hcan
  case tFifoFields =>
    rw [hindirect]
    exact ⟨fifoOr_sdramTFifo s, countOr_countOverride rfl⟩
  case rFifo => exact issued_of_exec (sdram_exec haddr (check := .ok ()) rfl) hcan

/-- Settles O30: the forms with a burst check it; the queue is the token's but for a bit operation. -/
theorem sramIssues : Obligations.SramIssues := by
  intro s a b u v q tok ha hb
  have haddr : s.address a b = .ok (u + v) := address_of_operandIs ha hb
  intro rd wr
  have hread : ∀ x cnt, sramQueueOf q (.read x cnt) = rd := fun _ _ => by cases q <;> rfl
  have hreadLock : ∀ x cnt, sramQueueOf q (.readLock x cnt) = rd := fun _ _ => by cases q <;> rfl
  have hwrite : ∀ x cnt, sramQueueOf q (.write x cnt) = wr := fun _ _ => by cases q <;> rfl
  have hwriteUnlock : ∀ x cnt, sramQueueOf q (.writeUnlock x cnt) = wr := fun _ _ => by cases q <;> rfl
  have hunlock : sramQueueOf q .unlock = wr := by cases q <;> rfl
  have hpush : ∀ list, sramQueueOf q (.push list) = wr := fun _ => by cases q <;> rfl
  have hbit : ∀ x op, sramQueueOf q (.bitWr x op) = .sramOrder := fun _ _ => by cases q <;> rfl
  refine ⟨fun x cnt hspan => ⟨fun hcan => ?read, fun hcan => ?write⟩, fun x op hcan => ?bit,
    ⟨fun x cnt hspan => ⟨fun hcan => ⟨?readLock, fun hdirect => ?readLockOwn⟩,
        fun hcan => ⟨?writeUnlock, fun hdirect => ?writeUnlockOwn⟩⟩,
      fun hcan => ⟨?unlock, fun hdirect => ?unlockOwn⟩⟩, fun list hcan => ?push⟩
  case read => exact issued_of_burst hspan (hread x cnt ▸ sram_exec haddr rfl) hcan
  case write => exact issued_of_burst hspan (hwrite x cnt ▸ sram_exec haddr rfl) hcan
  case readLock => exact issued_of_burst hspan (hreadLock x cnt ▸ sram_exec haddr rfl) hcan
  case writeUnlock => exact issued_of_burst hspan (hwriteUnlock x cnt ▸ sram_exec haddr rfl) hcan
  case bit => exact issued_of_exec (hbit x op ▸ sram_exec haddr (check := .ok ()) rfl) hcan
  case unlock => exact issued_of_exec (hunlock ▸ sram_exec haddr (check := .ok ()) rfl) hcan
  case push => exact issued_of_exec (hpush list ▸ sram_exec haddr (check := .ok ()) rfl) hcan
  case readLockOwn | writeUnlockOwn | unlockOwn =>
    rw [overrides_direct _ _ hdirect]
    exact command_eq_ownCmd ..

end Sys2Proof.Machine
end

section
/-! Local CSRs from a microengine (11_state_csrs.md R140 to R152; 42_me_reference.md R560, R561): the selector a wakeup
word names, what a write of a register's fields leaves of the engine, and the two instructions. -/

namespace Sys2Proof.Machine

/-! ### The wakeup selector of a word (R152, U33) -/

section
variable {v : Word} {free : Nat}

theorem mem_allSignals (e : SigEvent) : e ∈ allSignals := by cases e <;> decide

/-- A word selects no event, one, or more than one. -/
theorem wakeEvents_cases (v : Word) : (∀ f, getBit (.wakeEvent f) v = false) ∨
    (∃ e, ∀ f, getBit (.wakeEvent f) v = decide (f = e)) ∨
    ∃ e f, f ≠ e ∧ getBit (.wakeEvent e) v = true ∧ getBit (.wakeEvent f) v = true := by
  by_cases hany : ∃ e, getBit (.wakeEvent e) v = true
  · obtain ⟨e, he⟩ := hany
    by_cases hother : ∃ f, f ≠ e ∧ getBit (.wakeEvent f) v = true
    · obtain ⟨f, hne, hf⟩ := hother
      exact .inr (.inr ⟨e, f, hne, he, hf⟩)
    · refine .inr (.inl ⟨e, fun f => ?_⟩)
      by_cases hfe : f = e
      · simp [hfe, he]
      · simpa [hfe] using fun hf => hother ⟨f, hfe, hf⟩
  · exact .inl fun f => by simpa using fun hf => hany ⟨f, hf⟩

/-- A word with no event bit is voluntary. -/
theorem wakeupOf_none (h : ∀ f, getBit (.wakeEvent f) v = false) : wakeupOf v free = .ok .voluntary := by
  have hsel : allSignals.filter (fun e => getBit (.wakeEvent e) v) = [] :=
    List.filter_eq_nil_iff.2 fun e _ => by simp [h e]
  simp only [wakeupOf, hsel]

theorem wakeupOf_one {e : SigEvent} (h : ∀ f, getBit (.wakeEvent f) v = decide (f = e)) :
    wakeupOf v free = .ok (if getBit .wakeVoluntary v then Config.freeWakeup free else .signal e) := by
  have hsel : allSignals.filter (fun f => getBit (.wakeEvent f) v) = [e] := by
    rw [funext h]; cases e <;> rfl
  cases hvol : getBit .wakeVoluntary v <;> simp only [wakeupOf, hsel, hvol] <;> rfl

theorem wakeupOf_many {e f : SigEvent} (hne : f ≠ e) (he : getBit (.wakeEvent e) v = true)
    (hf : getBit (.wakeEvent f) v = true) : wakeupOf v free = .error (.refused .registerAccess) := by
  have hmem : ∀ {g}, getBit (.wakeEvent g) v = true → g ∈ allSignals.filter fun g => getBit (.wakeEvent g) v :=
    fun hg => List.mem_filter.2 ⟨mem_allSignals _, hg⟩
  have hin := hmem he
  have hin' := hmem hf
  unfold wakeupOf
  split
  next hsel => rw [hsel] at hin; exact absurd hin List.not_mem_nil
  next hsel _ => rw [hsel, List.mem_singleton] at hin hin'; exact absurd (hin'.trans hin.symm) hne
  next hsel _ => rw [hsel, List.mem_singleton] at hin hin'; exact absurd (hin'.trans hin.symm) hne
  next => rfl

theorem wakeupOf_eq_ok_iff {w : Wakeup} : wakeupOf v free = .ok w ↔
    ((∀ f, getBit (.wakeEvent f) v = false) ∧ w = .voluntary) ∨
      ∃ e, (∀ f, getBit (.wakeEvent f) v = decide (f = e)) ∧
        w = if getBit .wakeVoluntary v then Config.freeWakeup free else .signal e := by
  constructor
  · intro h
    rcases wakeEvents_cases v with hnone | ⟨e, hone⟩ | ⟨e, f, hne, he, hf⟩
    · rw [wakeupOf_none hnone] at h; cases h; exact .inl ⟨hnone, rfl⟩
    · rw [wakeupOf_one hone] at h; cases h; exact .inr ⟨e, hone, rfl⟩
    · rw [wakeupOf_many hne he hf] at h; nomatch h
  · rintro (⟨hnone, rfl⟩ | ⟨e, hone, rfl⟩)
    · exact wakeupOf_none hnone
    · exact wakeupOf_one hone

end

/-! ### The signal set of a word (R151) -/

theorem sigMask_getLsbD (e f : SigEvent) : (sigMask f).getLsbD (sigBit e) = decide (e = f) := by
  cases e <;> cases f <;> decide

/-- Putting the masks of the events with `p` into a set adds these events alone. -/
theorem foldl_sigMask_getLsbD (p : SigEvent → Bool) (e : SigEvent) (es : List SigEvent) (acc : SigSet) :
    (es.foldl (fun acc f => if p f then acc ||| sigMask f else acc) acc).getLsbD (sigBit e) =
      (acc.getLsbD (sigBit e) || (decide (e ∈ es) && p e)) := by
  induction es generalizing acc with
  | nil => simp
  | cons f es ih =>
    rw [List.foldl_cons, ih]
    by_cases hef : e = f
    · subst hef
      cases hp : p e <;> simp [sigMask_getLsbD]
    · cases hp : p f <;> simp [sigMask_getLsbD, hef]

theorem sigSetOf_getLsbD (v : Word) (e : SigEvent) : (sigSetOf v).getLsbD (sigBit e) = getBit (.sigEvent e) v := by
  rw [sigSetOf, foldl_sigMask_getLsbD (fun e => getBit (.sigEvent e) v)]
  simp [mem_allSignals]

/-! ### The named fields of a register (R144 to R152) -/

section
variable {m w : Me} {reg : LocalCsr} {v : Word} {free : Nat}

/-- A write of the named fields leaves everything else of the engine. -/
def csrFieldsOnly (m w : Me) : Prop :=
  w = { m with
    uaddr := w.uaddr, cse := w.cse, ecs := w.ecs, active := w.active, journaling := w.journaling, nctx := w.nctx
    pctx := w.pctx, ctxEnables := w.ctxEnables, oldEnables := w.oldEnables, cc := w.cc, prevCc := w.prevCc
    sigEvents := w.sigEvents, wakeup := w.wakeup }

theorem csrFields_only : Holds (csrFieldsOnly m) (m.csrFields reg v free) := by
  cases reg with
  | activeCtxSts =>
    show csrFieldsOnly m (if m.executing then m else _)
    split <;> rfl
  | ctxWakeupEvents => exact .after fun _ => rfl
  | ustoreData | aluOutput => trivial
  | _ => exact rfl

/-- Every register that a thread may name takes its fields, but a wakeup register with more than one event (U33). -/
theorem csrFields_ok (haccess : reg.threadAccess = true) (hwake : ∀ n, reg = .ctxWakeupEvents n →
      ∀ e f, getBit (.wakeEvent e) v = true → getBit (.wakeEvent f) v = true → e = f) :
    ∃ w, m.csrFields reg v free = .ok w := by
  cases reg with
  | ctxWakeupEvents n =>
    rcases wakeEvents_cases v with hnone | ⟨e, hone⟩ | ⟨e, f, hne, he, hf⟩
    · exact ⟨_, by rw [Me.csrFields, wakeupOf_none hnone]; rfl⟩
    · exact ⟨_, by rw [Me.csrFields, wakeupOf_one hone]; rfl⟩
    · exact absurd (hwake n rfl f e hf he) hne
  | ustoreAddress | ustoreData | aluOutput => nomatch haccess
  | _ => exact ⟨_, rfl⟩

/-- What a write leaves beside the named fields: the whole word (log entry 5), and the window of R1165 (c). -/
def Me.csrPlaced (w : Me) (reg : LocalCsr) (v : Word) : Me :=
  { w with
    csrRaw := w.csrRaw.set (csrIndex reg) v, enWindow := if reg = .ctxEnables then 5 else w.enWindow }

theorem Me.csrPlaced_cell (k : RegCell) : (w.csrPlaced reg v).cell k = w.cell k := by
  cases k with
  | gpr bank => cases bank <;> rfl
  | _ => rfl

end

/-! ### The two instructions -/

section
variable {s : State} {reg : LocalCsr} {src : Gpr} {v : Word} {w : Me}

/-- The engine that a write finds: the latches of the instruction are left already (R55), the old value kept. -/
def State.csrWriter (s : State) (reg : LocalCsr) : Me :=
  s.engine.latch { shadow := some (reg, s.engine.csrValue s.board.pcBits reg) } s.free

theorem localCsrWr_exec (hv : v = s.engine.gpr s.engine.active src) : exec (.localCsrWr reg src) s =
    finish ((s.csrWriter reg).csrFields reg v s.free >>= fun w =>
      .ok (s.putEngine ((w.csrPlaced reg v).advance s.enableDraw))) := by
  subst hv
  simp only [exec, execLocalCsrWr, Me.writeCsr, bind_assoc, res_pure, ok_bind, State.csrWriter, Me.csrPlaced]
  congr 2
  funext w
  split <;> rfl

theorem localCsrWr_next (hv : v = s.engine.gpr s.engine.active src)
    (hw : (s.csrWriter reg).csrFields reg v s.free = .ok w) :
    exec (.localCsrWr reg src) s = .next (s.putEngine ((w.csrPlaced reg v).advance s.enableDraw)) := by
  rw [localCsrWr_exec hv, hw]; rfl

/-- Outside a deferred position the engine that took the fields goes on to the next word. -/
theorem localCsrWr_takes (hv : v = s.engine.gpr s.engine.active src) (hdefer : s.engine.defer = none)
    (hw : (s.csrWriter reg).csrFields reg v s.free = .ok w) :
    ∃ t, exec (.localCsrWr reg src) s = .next t ∧
      t.engine = (w.csrPlaced reg v).setPc ((w.csrPlaced reg v).pc + 1) := by
  have hkept : (w.csrPlaced reg v).defer = none := by
    have honly : csrFieldsOnly (s.csrWriter reg) w := csrFields_only.of_ok hw
    show w.defer = none
    rw [honly]; exact hdefer
  exact ⟨_, localCsrWr_next hv hw, by rw [State.putEngine_engine, advance_of_no_defer _ _ hkept]⟩

/-- No register changes by a write, no find result, and no command is issued. -/
theorem csrPlaced_kept (honly : csrFieldsOnly (s.csrWriter reg) w) (draw : Bool) :
    let m := (w.csrPlaced reg v).advance draw
    regsKept s.engine m ∧ findKept s.engine m ∧ m.csrLatch = none ∧
      m.csrShadow = some (reg, s.engine.csrValue s.board.pcBits reg) ∧
      m.csrRaw = s.engine.csrRaw.set (csrIndex reg) v ∧ m.cmdFifo = s.engine.cmdFifo := by
  intro m
  rw [csrFieldsOnly] at honly
  refine ⟨fun k => ?_, ⟨?_, ?_, ?_, ?_⟩, ?_, ?_, ?_, ?_⟩
  · rw [Me.advance_cell, Me.csrPlaced_cell, honly]
    exact (by cases k with | gpr bank => cases bank <;> rfl | _ => rfl)
  all_goals simp only [m, Me.advance_result1, Me.advance_result2, Me.advance_fbsCnt, Me.advance_findAge,
    Me.advance_csrLatch, Me.advance_csrShadow, Me.advance_csrRaw, Me.advance_cmdFifo, Me.csrPlaced]; rw [honly]; rfl

/-- An executing context stays the one that executes, at the next word (R1100). -/
theorem csrPlaced_next (hw : (s.csrWriter reg).csrFields reg v s.free = .ok w) (hdefer : s.engine.defer = none)
    (hrun : s.engine.executing = true) (draw : Bool) :
    let m := (w.csrPlaced reg v).advance draw
    m.pcs = s.engine.pcs.set s.engine.active (s.engine.pc + 1) ∧ m.active = s.engine.active ∧
      m.executing = true := by
  have hplace : inPlace (s.csrWriter reg) { w with csrRaw := w.csrRaw.set (csrIndex reg) v } :=
    (writeCsr_inPlace (m := s.csrWriter reg) hrun reg v s.free).of_ok (by rw [Me.writeCsr, hw]; rfl)
  have honly : csrFieldsOnly (s.csrWriter reg) w := csrFields_only.of_ok hw
  have hstill : w.executing = true := by rw [honly]; exact hrun
  obtain ⟨hpcs, hactive, hkept⟩ := hplace
  have hnone : (w.csrPlaced reg v).defer = none := hkept.trans hdefer
  have hplaced : (w.csrPlaced reg v).pcs = s.engine.pcs := hpcs
  have hctx : (w.csrPlaced reg v).active = s.engine.active := hactive
  rw [advance_of_no_defer _ _ hnone]
  exact ⟨by simp only [Me.setPc, Me.pc, hplaced, hctx], hactive, hstill⟩

theorem localCsrWr_wakeup {n : Fin 4} {w : Wakeup} (h : wakeupOf v s.free = .ok w) :
    (s.csrWriter (.ctxWakeupEvents n)).csrFields (.ctxWakeupEvents n) v s.free =
      .ok { s.csrWriter (.ctxWakeupEvents n) with wakeup := s.engine.wakeup.set n w } := by
  rw [Me.csrFields, h]; rfl

end

/-! ### The statements -/

/-- Settles O33: the instruction writes its latch alone, which the next instruction's immediate reads. -/
theorem localCsrReadLatches : Obligations.LocalCsrReadLatches := by
  intro s reg _
  refine ⟨_, rfl, ?latch, fun v c hc => ?immediate, fun k => ?regs, ?codes, ?find, othersKept_retire s _ _, ?control,
    ?fifo, fun hdefer => ?next⟩
  case latch => rw [retire_engine, Me.advance_csrLatch]; rfl
  case immediate => simp only [State.source, Me.immediate, hc, Option.getD_some]
  case regs => rw [retire_engine, Me.advance_cell, Me.latch_cell]
  case codes => simp
  case find => simp [findKept]
  case control => simp [controlKept]
  case fifo => simp
  case next =>
    rw [retire_engine, advance_of_no_defer (s.engine.latch _ s.free) _ hdefer]
    exact ⟨by simp [contextsKept], rfl⟩

/-- Settles O34: a write takes the named fields of its register and places the word; by register for the fields. -/
theorem localCsrWriteTakes : Obligations.LocalCsrWriteTakes := by
  intro s src v hv
  refine ⟨fun reg haccess hwake => ?frame, fun hdefer => ⟨?enables, ?codes, ?arbiter, ?journal, fun n => ?signals,
    fun n w hw => ?wakeup⟩, fun w => wakeupOf_eq_ok_iff, fun n => ?refused⟩
  case frame =>
    obtain ⟨w, hw⟩ := csrFields_ok (m := s.csrWriter reg) (free := s.free) haccess hwake
    have honly : csrFieldsOnly (s.csrWriter reg) w := csrFields_only.of_ok hw
    obtain ⟨hregs, hfind, hlatch, hshadow, hraw, hfifo⟩ := csrPlaced_kept (v := v) honly s.enableDraw
    refine ⟨_, localCsrWr_next hv hw, ?_⟩
    simp only [State.putEngine_engine]
    exact ⟨hregs, othersKept_putEngine s _, hfind, hlatch, hshadow, hraw, hfifo,
      fun hdefer hrun => csrPlaced_next hw hdefer hrun s.enableDraw⟩
  case enables =>
    obtain ⟨t, ht, hm⟩ := localCsrWr_takes (reg := .ctxEnables) hv hdefer rfl
    exact ⟨t, ht, by rw [hm]; exact ⟨rfl, rfl, rfl⟩⟩
  case codes =>
    obtain ⟨t, ht, hm⟩ := localCsrWr_takes (reg := .ccEnable) hv hdefer rfl
    exact ⟨t, ht, by rw [hm]; exact ⟨rfl, rfl⟩⟩
  case arbiter =>
    obtain ⟨t, ht, hm⟩ := localCsrWr_takes (reg := .ctxArbCntl) hv hdefer rfl
    exact ⟨t, ht, by rw [hm]; exact ⟨rfl, rfl⟩⟩
  case journal =>
    obtain ⟨t, ht, hm⟩ := localCsrWr_takes (reg := .enableSramJournaling) hv hdefer rfl
    exact ⟨t, ht, by rw [hm]; rfl⟩
  case signals =>
    obtain ⟨t, ht, hm⟩ := localCsrWr_takes (reg := .ctxSigEvents n) hv hdefer rfl
    refine ⟨t, ht, fun c e => ?_⟩
    have hset : t.engine.sigEvents = s.engine.sigEvents.set n (sigSetOf v) := by rw [hm]; rfl
    rw [hset]
    split
    next hcn => subst hcn; simp [sigSetOf_getLsbD]
    next hcn => rw [Fin.getElem_fin, Vector.getElem_set_ne _ _ (fun h => hcn (Fin.ext h.symm))]; rfl
  case wakeup =>
    obtain ⟨t, ht, hm⟩ := localCsrWr_takes hv hdefer (localCsrWr_wakeup (n := n) hw)
    exact ⟨t, ht, by rw [hm]; rfl⟩
  case refused =>
    constructor
    · intro hrefused
      rcases wakeEvents_cases v with hnone | ⟨e, hone⟩ | hmany
      · rw [localCsrWr_next hv (localCsrWr_wakeup (wakeupOf_none hnone))] at hrefused; nomatch hrefused
      · rw [localCsrWr_next hv (localCsrWr_wakeup (wakeupOf_one hone))] at hrefused; nomatch hrefused
      · exact hmany
    · rintro ⟨e, f, hne, he, hf⟩
      rw [localCsrWr_exec hv, Me.csrFields, wakeupOf_many hne he hf]; rfl

end Sys2Proof.Machine
end

section
/-! Bursts byte by byte (20_memory.md R300, R340; D44): the bytes of longwords and quadwords in a row, what a burst
written leaves of each byte and what a burst read takes from each. -/

namespace Sys2Proof.Machine

/-! ### The bytes of longwords and quadwords in a row -/

theorem wordBytes_get (w : Word) {k : Nat} (h : k < 4) : (wordBytes w)[k]? = some (laneOf w k) := by
  rcases k with _ | _ | _ | _ | k
  · rfl
  · rfl
  · rfl
  · rfl
  · omega

theorem wordsBytes_length (ws : List Word) : (ws.flatMap wordBytes).length = 4 * ws.length := by
  simp [List.length_flatMap, Nat.mul_comm]

theorem quadsBytes_length (qs : List Quad) : (qs.flatMap quadBytes).length = 8 * qs.length := by
  simp [List.length_flatMap, Nat.mul_comm]

/-- Byte `i` of longwords in a row is lane `i mod 4` of longword `i / 4`. -/
theorem wordsBytes_get (ws : List Word) (i : Nat) :
    (ws.flatMap wordBytes)[i]? = ws[i / 4]?.map fun w => laneOf w (i % 4) := by
  induction ws generalizing i with
  | nil => simp
  | cons w ws ih =>
    rw [List.flatMap_cons]
    by_cases hi : i < 4
    · rw [List.getElem?_append_left hi, wordBytes_get w hi, Nat.div_eq_of_lt hi, Nat.mod_eq_of_lt hi]
      rfl
    · obtain ⟨j, rfl⟩ := Nat.exists_eq_add_of_le' (Nat.le_of_not_lt hi)
      rw [List.getElem?_append_right (by simp), wordBytes_length, Nat.add_sub_cancel, ih,
        Nat.add_div_right j (by decide), Nat.add_mod_right]
      rfl

theorem quadBytes_quadOfWords (lo hi : Word) : quadBytes (quadOfWords lo hi) = wordBytes lo ++ wordBytes hi := by
  have hlo : (quadOfWords lo hi).setWidth 32 = lo := BitVec.setWidth_append_eq_right
  have hhi : (quadOfWords lo hi).extractLsb' 32 32 = hi := BitVec.extractLsb'_append_eq_left
  rw [quadBytes, hlo, hhi]

/-- Quadwords made of register contents have the registers' bytes, the low longword first (R849, D6). -/
theorem regQuads_bytes : ∀ ws : List Word, ws.length % 2 = 0 →
    (regQuads ws).flatMap quadBytes = ws.flatMap wordBytes
  | [], _ => rfl
  | [_], h => nomatch h
  | lo :: hi :: rest, h => by
    have hrest : rest.length % 2 = 0 := by
      rwa [List.length_cons, List.length_cons, Nat.add_assoc, Nat.add_mod_right] at h
    rw [regQuads, List.flatMap_cons, quadBytes_quadOfWords, regQuads_bytes rest hrest, List.append_assoc]
    rfl

theorem regQuads_length : ∀ ws : List Word, (regQuads ws).length = ws.length / 2
  | [] | [_] => by simp [regQuads]
  | _ :: _ :: rest => by
    rw [regQuads, List.length_cons, regQuads_length rest, List.length_cons, List.length_cons, Nat.add_assoc,
      Nat.add_div_right _ (by decide)]

/-- Registers filled from quadwords have the quadwords' bytes (R848, D6). -/
theorem quadRegs_bytes (qs : List Quad) : (quadRegs qs).flatMap wordBytes = qs.flatMap quadBytes := by
  rw [quadRegs, List.flatMap_assoc]
  exact List.flatMap_congr fun q _ => congrArg (wordBytes (quadLow q) ++ ·) (List.append_nil _)

theorem quadRegs_length (qs : List Quad) : (quadRegs qs).length = 2 * qs.length := by
  simp [quadRegs, List.length_flatMap, Nat.mul_comm]

/-- Eight bytes are those of the quadword they make. -/
theorem quadBytes_quadOf {bs : List Byte} (h : bs.length = 8) : quadBytes (quadOf bs) = bs := by
  match bs, h with
  | [b0, b1, b2, b3, b4, b5, b6, b7], _ =>
    simp only [quadBytes, wordBytes, quadOf, natOfBytes, List.cons_append, List.nil_append, List.cons.injEq, and_true]
    have := b0.isLt; have := b1.isLt; have := b2.isLt; have := b3.isLt
    have := b4.isLt; have := b5.isLt; have := b6.isLt; have := b7.isLt
    refine ⟨?_, ?_, ?_, ?_, ?_, ?_, ?_, ?_⟩ <;> apply BitVec.eq_of_toNat_eq <;>
      simp only [BitVec.extractLsb'_toNat, BitVec.toNat_setWidth, BitVec.toNat_ofNat, Nat.shiftRight_eq_div_pow] <;>
      omega

/-! ### A burst written -/

section
variable (m : Mem) (a : Nat) {i k : Nat}

theorem Mem.writeBytes_append (bs cs : List Byte) :
    m.writeBytes a (bs ++ cs) = (m.writeBytes a bs).writeBytes (a + bs.length) cs := by
  induction bs generalizing m a with
  | nil => rfl
  | cons b bs ih =>
    rw [List.cons_append, Mem.writeBytes, ih, List.length_cons, Mem.writeBytes, Nat.add_right_comm a 1,
      ← Nat.add_assoc]

theorem Mem.writeWords_eq_writeBytes (ws : List Word) :
    m.writeWords a ws = m.writeBytes (4 * a) (ws.flatMap wordBytes) := by
  induction ws generalizing m a with
  | nil => rfl
  | cons w ws ih =>
    rw [Mem.writeWords, ih, List.flatMap_cons, Mem.writeBytes_append]
    rfl

theorem Mem.writeQuads_eq_writeBytes (qs : List Quad) :
    m.writeQuads a qs = m.writeBytes (8 * a) (qs.flatMap quadBytes) := by
  induction qs generalizing m a with
  | nil => rfl
  | cons q qs ih =>
    rw [Mem.writeQuads, ih, List.flatMap_cons, Mem.writeBytes_append]
    rfl

/-- Byte `i` of a masked write is taken where the mask bit is set (R843, R906, D35). -/
theorem Mem.read_writeMasked (bs : List Byte) (mask : Nat) (h : i < bs.length) :
    (m.writeMasked a mask bs).read (a + i) = if mask.testBit i then bs[i]? else m.read (a + i) := by
  induction bs generalizing m a mask i with
  | nil => exact absurd h (Nat.not_lt_zero _)
  | cons b bs ih =>
    rw [Mem.writeMasked]
    cases i with
    | zero =>
      rw [Nat.add_zero, Mem.read_writeMasked_ne bs (a + 1) a _ _ (.inl (Nat.lt_succ_self a)), Nat.testBit_zero]
      by_cases hbit : mask % 2 = 1
      · simp [hbit, Mem.read_write_self]
      · simp [hbit]
    | succ i =>
      have hne : a + (i + 1) ≠ a := by omega
      rw [Nat.add_comm i, ← Nat.add_assoc, ih _ _ _ (Nat.lt_of_succ_lt_succ h), Nat.add_comm 1 i, Nat.testBit_succ,
        List.getElem?_cons_succ, Nat.add_assoc, Nat.add_comm 1 i]
      split <;> [rfl; (split <;> [exact Mem.read_write_ne b m hne; rfl])]

end

/-! ### A burst read -/

section
variable {m : Mem} {a n : Nat}

theorem Mem.readBytes_some (h : ∀ i, i < n → (m.read (a + i)).isSome = true) :
    ∃ bs, m.readBytes a n = some bs ∧ bs.length = n ∧ ∀ i, i < n → bs[i]? = m.read (a + i) := by
  induction n generalizing a with
  | zero => exact ⟨[], rfl, rfl, fun _ h => absurd h (Nat.not_lt_zero _)⟩
  | succ n ih =>
    obtain ⟨b, hb⟩ := Option.isSome_iff_exists.1 (h 0 (Nat.succ_pos n))
    have hshift : ∀ i, a + 1 + i = a + (i + 1) := fun i => by omega
    obtain ⟨bs, hbs, hlen, hget⟩ := ih (a := a + 1) fun i hi => hshift i ▸ h (i + 1) (Nat.succ_lt_succ hi)
    refine ⟨b :: bs, by simp [Mem.readBytes, show m.read a = some b from hb, hbs], congrArg (· + 1) hlen, ?_⟩
    intro i hi
    cases i with
    | zero => exact hb.symm
    | succ i => exact hshift i ▸ hget i (Nat.lt_of_succ_lt_succ hi)

/-- A burst of quadwords whose bytes have all been written is read whole, byte by byte. -/
theorem Mem.readQuads_bytes (h : ∀ i, i < 8 * n → (m.read (8 * a + i)).isSome = true) :
    ∃ qs, m.readQuads a n = some qs ∧ qs.length = n ∧
      ∀ i, i < 8 * n → (qs.flatMap quadBytes)[i]? = m.read (8 * a + i) := by
  induction n generalizing a with
  | zero => exact ⟨[], rfl, rfl, fun _ h => absurd h (Nat.not_lt_zero _)⟩
  | succ n ih =>
    have hshift : ∀ i, 8 * (a + 1) + i = 8 * a + (i + 8) := fun i => by omega
    obtain ⟨bs, hbs, hlen, hget⟩ := Mem.readBytes_some (m := m) (a := 8 * a) (n := 8) fun i hi => h i (by omega)
    obtain ⟨qs, hqs, hcount, hrest⟩ := ih (a := a + 1) fun i hi => hshift i ▸ h (i + 8) (by omega)
    refine ⟨quadOf bs :: qs, by simp [Mem.readQuads, Mem.readQuad, hbs, hqs], congrArg (· + 1) hcount,
      fun i hi => ?_⟩
    rw [List.flatMap_cons, quadBytes_quadOf hlen]
    by_cases hfirst : i < 8
    · rw [List.getElem?_append_left (hlen.symm ▸ hfirst), hget i hfirst]
    · obtain ⟨j, rfl⟩ := Nat.exists_eq_add_of_le' (Nat.le_of_not_lt hfirst)
      rw [List.getElem?_append_right (by omega), hlen, Nat.add_sub_cancel, hrest j (by omega), hshift]

end

end Sys2Proof.Machine
end

section
/-! Reads and writes served by the SDRAM and SRAM Units (51_sdram_unit.md R843, R848, R849; 52_sram_unit.md R901, R906):
what a write puts into each byte, with a mask or without, and what a read delivers. -/

namespace Sys2Proof.Machine

/-! ### What both units share -/

/-- A completion leaves a changed SDRAM or SRAM Unit and the draw counter as they are. -/
theorem completed_unit (s : State) (d : Sdram) (r : Sram) (k : Nat) (c : Cmd) :
    ({ s with sdram := d, sram := r, free := k } : State).completed c =
      { s with sdram := d, sram := r, free := k, mes := (s.completed c).mes } := by
  unfold State.completed
  split <;> rfl

/-- A mask with all bits set selects every byte. -/
theorem fullMask_getLsbD {w : Nat} {m : Byte} (h : ∀ k, k < w → m.getLsbD k = true) (hpos : 0 < w) (i : Nat) :
    m.getLsbD (i % w) = true := h _ (Nat.mod_lt i hpos)

section
variable {s : State} {c : Cmd} {m : Fin 6} {a : Word} {x n : Nat} {mask : Option Byte}

/-! ### Writes of the SDRAM Unit (R843, R849) -/

/-- Byte `i` of the quadwords pulled from register `x` on (D6). -/
theorem pullSdram_byte {i : Nat} (hi : i < 8 * n) (hspan : x + 2 * n ≤ 32) :
    ((regQuads (s.pullSdram m x (2 * n))).flatMap quadBytes)[i]? =
      ((s.me m).sdramWr[x + i / 4]?).map fun w => laneOf w (i % 4) := by
  have hlen : (s.pullSdram m x (2 * n)).length = 2 * n := fileGets_length _ _ _
  rw [regQuads_bytes _ (by omega), wordsBytes_get, State.pullSdram, fileGets_get _ _ _ _ (by omega) hspan]

theorem pullSdram_quads : (regQuads (s.pullSdram m x (2 * n))).length = n := by
  have hlen : (s.pullSdram m x (2 * n)).length = 2 * n := fileGets_length _ _ _
  rw [regQuads_length, hlen, Nat.mul_div_cancel_left n (by decide)]

/-- A write without a mask, or of one quadword, stores the bytes its mask names and no others. -/
theorem sdramPut_bytes {k : Nat} {qs : List Quad} (hlen : qs.length = n) (hone : mask = none ∨ n = 1) :
    ∃ mem, s.sdramPut k qs mask = s.withSdram (s.sdram.store mem) ∧
      (∀ i, i < 8 * n → mem.read (8 * k + i) = if (mask.getD 0xFF).getLsbD (i % 8)
        then (qs.flatMap quadBytes)[i]? else s.sdram.mem.read (8 * k + i)) ∧
      ∀ b, b < 8 * k ∨ 8 * (k + n) ≤ b → mem.read b = s.sdram.mem.read b := by
  subst hlen
  cases mask with
  | none =>
    refine ⟨_, rfl, fun i hi => ?_, fun b hb => Mem.read_writeQuads_ne qs _ k b hb⟩
    have hin : i < (qs.flatMap quadBytes).length := (quadsBytes_length qs).symm ▸ hi
    rw [Option.getD_none, fullMask_getLsbD (by decide) (by decide), if_pos rfl, Mem.writeQuads_eq_writeBytes,
      Mem.read_writeBytes _ _ _ _ hin, List.getElem?_eq_getElem hin]
  | some mk =>
    obtain ⟨q, rfl⟩ := List.length_eq_one_iff.1 (hone.resolve_left nofun)
    have hsmall : ∀ {i}, i < 8 * [q].length → i % 8 = i := Nat.mod_eq_of_lt
    refine ⟨_, rfl, fun i hi => ?_, fun b hb => Mem.read_writeMasked_ne _ _ _ _ _ ?_⟩
    · rw [Mem.read_writeMasked _ _ _ _ hi, hsmall hi, List.flatMap_singleton]
      rfl
    · simpa [Nat.mul_add] using hb

/-- A mask with more or less than one quadword writes drawn quadwords, into the range alone (log entry 21). -/
theorem sdramPut_unspecified {k : Nat} {qs : List Quad} {mk : Byte} (h : qs.length ≠ 1) :
    ∃ mem f, s.sdramPut k qs (some mk) = { s with sdram := s.sdram.store mem, free := f } ∧
      ∀ b, b < 8 * k ∨ 8 * (k + qs.length) ≤ b → mem.read b = s.sdram.mem.read b := by
  have hdrawn : (regQuads (s.drawWords .maskedBurst (2 * qs.length)).1).length = qs.length := by
    rw [regQuads_length, State.drawWords_length, Nat.mul_div_cancel_left _ (by decide)]
  refine ⟨s.sdram.mem.writeQuads k (regQuads (s.drawWords .maskedBurst (2 * qs.length)).1),
    s.free + 2 * qs.length, ?_, fun b hb => Mem.read_writeQuads_ne _ _ k b (hdrawn.symm ▸ hb)⟩
  match qs, h with
  | [], _ | _ :: _ :: _, _ => rfl
  | [_], h => exact absurd rfl h

theorem sdramWrite_served (hop : c.op = .sdramWrite a x n mask) (hin : 8 * (a.toNat + n) ≤ s.board.sdramBytes) :
    s.sdramServe c =
      .ok ((s.sdramPut a.toNat (regQuads (s.pullSdram c.xfMe x (2 * n))) mask).completed c) := by
  have hok : s.sdramOk a n = true := decide_eq_true hin
  simp only [State.sdramServe, hop, hok, require_true, ok_bind, res_pure]

/-! ### Reads of the SDRAM Unit (R848) -/

theorem sdramRead_served {qs : List Quad} (hop : c.op = .sdramRead a x n)
    (hin : 8 * (a.toNat + n) ≤ s.board.sdramBytes) (hqs : s.sdram.mem.readQuads a.toNat n = some qs) :
    s.sdramServe c = .ok ((s.pushSdram c.xfMe x (quadRegs qs)).completed c) := by
  have hok : s.sdramOk a n = true := decide_eq_true hin
  simp only [State.sdramServe, hop, hok, require_true, ok_bind, hqs, written_some, res_pure]

/-- Words pushed stand in the SDRAM read transfer registers after the completion too. -/
theorem pushSdram_completed_fileHolds (s : State) (c : Cmd) (x : Nat) (ws : List Word) :
    fileHolds (s.me c.xfMe).sdramRd (((s.pushSdram c.xfMe x ws).completed c).me c.xfMe).sdramRd x ws.length
      (ws[·]?) := by
  rw [State.completed_sdramRd, State.pushSdram_me, if_pos rfl]
  exact fileHolds_fileSets _ _ _ _ _ rfl fun _ hi => List.getElem?_eq_getElem hi

/-! ### Writes of the SRAM Unit (R901, R906) -/

theorem pullSram_byte {i : Nat} (hi : i < 4 * n) (hspan : x + n ≤ 32) :
    ((s.pullSram m x n).flatMap wordBytes)[i]? =
      ((s.me m).sramWr[x + i / 4]?).map fun w => laneOf w (i % 4) := by
  rw [wordsBytes_get, State.pullSram, fileGets_get _ _ _ _ (by omega) hspan]

/-- Longwords written one after the other below the end of the SSRAM's map. -/
theorem sramWrites_ssram (who : Option (Fin 6 × Fin 4)) (vs : List Word) {k : Nat}
    (hin : 4 * (k + vs.length) ≤ s.board.sramBytes) (hmap : k + vs.length ≤ 0x200000) :
    s.sramWrites who k vs = .ok (s.withSram { s.sram with mem := s.sram.mem.writeWords k vs }) := by
  induction vs generalizing s k with
  | nil => rfl
  | cons v vs ih =>
    rw [List.length_cons] at hin hmap
    have hlow : k < 0x200000 := by omega
    have hok : s.ssramOk k 1 = true := ssramOk_of_le (by omega)
    have hfirst : s.sramLongWrite who k v = .ok (s.withSram { s.sram with mem := s.sram.mem.writeWord k v }) := by
      rw [State.sramLongWrite, if_pos hlow, State.ssramWrite, hok]; rfl
    have hnext : k + 1 + vs.length = k + (vs.length + 1) := by omega
    rw [State.sramWrites, hfirst, ok_bind, ih (by rw [hnext]; exact hin) (by rw [hnext]; exact hmap)]
    rfl

theorem sramPut_bytes {who : Option (Fin 6 × Fin 4)} {k : Nat} {vs : List Word} (hlen : vs.length = n)
    (hin : 4 * (k + n) ≤ s.board.sramBytes) (hmap : k + n ≤ 0x200000) (hone : mask = none ∨ n = 1) :
    ∃ mem, s.sramPut who k vs mask = .ok (s.withSram { s.sram with mem := mem }) ∧
      (∀ i, i < 4 * n → mem.read (4 * k + i) = if (mask.getD 0x0F).getLsbD (i % 4)
        then (vs.flatMap wordBytes)[i]? else s.sram.mem.read (4 * k + i)) ∧
      ∀ b, b < 4 * k ∨ 4 * (k + n) ≤ b → mem.read b = s.sram.mem.read b := by
  subst hlen
  cases mask with
  | none =>
    refine ⟨_, sramWrites_ssram who vs hin hmap, fun i hi => ?_, fun b hb => Mem.read_writeWords_ne vs _ k b hb⟩
    have hbytes : i < (vs.flatMap wordBytes).length := (wordsBytes_length vs).symm ▸ hi
    rw [Option.getD_none, fullMask_getLsbD (by decide) (by decide), if_pos rfl, Mem.writeWords_eq_writeBytes,
      Mem.read_writeBytes _ _ _ _ hbytes, List.getElem?_eq_getElem hbytes]
  | some mk =>
    obtain ⟨v, rfl⟩ := List.length_eq_one_iff.1 (hone.resolve_left nofun)
    have hlow : k < 0x200000 := hmap
    have hok : s.ssramOk k 1 = true := ssramOk_of_le hin
    have hsmall : ∀ {i}, i < 4 * [v].length → i % 4 = i := Nat.mod_eq_of_lt
    refine ⟨s.sram.mem.writeMasked (4 * k) mk.toNat (wordBytes v), ?_, fun i hi => ?_,
      fun b hb => Mem.read_writeMasked_ne _ _ _ _ _ ?_⟩
    · rw [State.sramPut, if_pos hlow, hok]; rfl
    · rw [Mem.read_writeMasked _ _ _ _ hi, hsmall hi, List.flatMap_singleton]
      rfl
    · simpa [Nat.mul_add] using hb

theorem sramPut_unspecified {who : Option (Fin 6 × Fin 4)} {k : Nat} {vs : List Word} {mk : Byte}
    (hin : 4 * (k + vs.length) ≤ s.board.sramBytes) (hmap : k + vs.length ≤ 0x200000) (h : vs.length ≠ 1) :
    ∃ mem f, s.sramPut who k vs (some mk) = .ok { s with sram := { s.sram with mem := mem }, free := f } ∧
      ∀ b, b < 4 * k ∨ 4 * (k + vs.length) ≤ b → mem.read b = s.sram.mem.read b := by
  have hdrawn : (s.drawWords .maskedBurst vs.length).1.length = vs.length := State.drawWords_length _ _ _
  refine ⟨s.sram.mem.writeWords k (s.drawWords .maskedBurst vs.length).1, s.free + vs.length, ?_,
    fun b hb => Mem.read_writeWords_ne _ _ k b (hdrawn.symm ▸ hb)⟩
  have hwrites := sramWrites_ssram (s := (s.drawWords .maskedBurst vs.length).2) who
    (s.drawWords .maskedBurst vs.length).1 (k := k) (hdrawn.symm ▸ hin) (hdrawn.symm ▸ hmap)
  match vs, h with
  | [], _ | _ :: _ :: _, _ => exact hwrites
  | [_], h => exact absurd rfl h

theorem sramWrite_served (hop : c.op = .sramWrite a x n mask) {t : State}
    (hput : s.sramPut (some (c.me, c.ctx)) a.toNat (s.pullSram c.xfMe x n) mask = .ok t) :
    s.sramServe c = .ok (t.completed c) := by
  simp only [State.sramServe, hop, hput, ok_bind, res_pure]

/-! ### Reads of the SRAM Unit (R901) -/

/-- Longwords read one after the other below the end of the SSRAM's map. -/
theorem sramReads_ssram {k : Nat} {ws : List Word} (hin : 4 * (k + n) ≤ s.board.sramBytes) (hmap : k + n ≤ 0x200000)
    (hws : s.sram.mem.readWords k n = some ws) : s.sramReads k n = .ok (ws, s) := by
  induction n generalizing k ws with
  | zero => cases hws; rfl
  | succ n ih =>
    obtain ⟨v, hv, hrest⟩ := Option.bind_eq_some_iff.1 hws
    obtain ⟨vs, hvs, hcons⟩ := Option.bind_eq_some_iff.1 hrest
    cases hcons
    have hlow : k < 0x200000 := by omega
    have hok : s.ssramOk k 1 = true := ssramOk_of_le (by omega)
    have hfirst : s.sramLongRead k = .ok (v, s) := by
      rw [State.sramLongRead, if_pos hlow, State.ssramRead, hok, require_true, ok_bind, hv]; rfl
    simp only [State.sramReads, hfirst, ok_bind, ih (by omega) (by omega) hvs, res_pure]

theorem sramRead_served {ws : List Word} (hop : c.op = .sramRead a x n) (hin : 4 * (a.toNat + n) ≤ s.board.sramBytes)
    (hmap : a.toNat + n ≤ 0x200000) (hws : s.sram.mem.readWords a.toNat n = some ws) :
    s.sramServe c = .ok ((s.pushSram c.xfMe x ws).completed c) := by
  simp only [State.sramServe, hop, sramReads_ssram hin hmap hws, ok_bind, res_pure]

end

/-! ### The statements -/

/-- Settles O39: a write stores the pulled quadwords' bytes, masked or drawn; a read pushes the range's longwords. -/
theorem sdramReadsAndWrites : Obligations.SdramReadsAndWrites := by
  intro s c a x n hin hspan
  refine ⟨fun mask hop hone => ?write, fun mk hop hne => ?unspecified, fun hop hwritten => ?read⟩
  case write =>
    obtain ⟨mem, hput, hbytes, hkept⟩ := sdramPut_bytes (s := s) (k := a.toNat) (mask := mask)
      (pullSdram_quads (s := s) (m := c.xfMe) (x := x)) hone
    refine ⟨_, sdramWrite_served hop hin, ?_⟩
    rw [hput, show (s.withSdram (s.sdram.store mem)).completed c = _ from completed_unit s _ s.sram s.free c]
    refine ⟨fun b hlo hhi => ?_, hkept, rfl, rfl, rfl⟩
    obtain ⟨i, rfl⟩ := Nat.exists_eq_add_of_le hlo
    have hi : i < 8 * n := by omega
    have hlane : (8 * a.toNat + i) % 4 = i % 4 := by omega
    rw [Nat.mul_add_mod, Nat.add_sub_cancel_left, hlane, ← pullSdram_byte hi hspan]
    exact hbytes i hi
  case unspecified =>
    have hlen : (regQuads (s.pullSdram c.xfMe x (2 * n))).length = n := pullSdram_quads
    obtain ⟨mem, f, hput, hkept⟩ := sdramPut_unspecified (s := s) (k := a.toNat) (mk := mk) (hlen.symm ▸ hne)
    refine ⟨_, sdramWrite_served hop hin, ?_⟩
    rw [hput, show State.completed _ c = _ from completed_unit s _ s.sram f c]
    exact ⟨fun b hb => hkept b (hlen.symm ▸ hb), rfl, rfl, rfl⟩
  case read =>
    obtain ⟨qs, hqs, hlen, hbytes⟩ := Mem.readQuads_bytes (m := s.sdram.mem) (a := a.toNat) (n := n)
      fun i hi => hwritten _ (by omega) (by omega)
    have hregs : (quadRegs qs).length = 2 * n := by rw [quadRegs_length, hlen]
    obtain ⟨hnew, hold⟩ := pushSdram_completed_fileHolds s c x (quadRegs qs)
    rw [hregs] at hnew hold
    refine ⟨_, sdramRead_served hop hin hqs, State.completed_eq _ _, fun r hlo hhi k hk => ?_, hold,
      State.pushSdram_completed_delivered s c x (quadRegs qs)⟩
    have hreg : (4 * (r.val - x) + k) / 4 = r.val - x := by omega
    have hlane : (4 * (r.val - x) + k) % 4 = k := by omega
    have hword : (quadRegs qs)[r.val - x]? = some _ := hnew r hlo hhi
    rw [Nat.add_assoc, ← hbytes _ (by omega), ← quadRegs_bytes, wordsBytes_get, hreg, hlane, hword]
    rfl

/-- Settles O40: the same of the SSRAM's longwords. -/
theorem sramReadsAndWrites : Obligations.SramReadsAndWrites := by
  intro s c a x n hin hmap hspan
  have hpull : (s.pullSram c.xfMe x n).length = n := fileGets_length _ _ _
  refine ⟨fun hop hwritten => ?read, fun mask hop hone => ?write, fun mk hop hne => ?unspecified⟩
  case read =>
    obtain ⟨ws, hws, hlen, hget⟩ := Mem.readWords_some s.sram.mem n a.toNat hwritten
    exact ⟨_, sramRead_served hop hin hmap hws, State.completed_eq _ _, pushSram_completed_fileHolds hlen hget,
      State.pushSram_completed_delivered s c x ws⟩
  case write =>
    obtain ⟨mem, hput, hbytes, hkept⟩ := sramPut_bytes (who := some (c.me, c.ctx)) hpull hin hmap hone
    refine ⟨_, sramWrite_served hop hput, ?_⟩
    rw [show (s.withSram _).completed c = _ from completed_unit s s.sdram _ s.free c]
    refine ⟨fun b hlo hhi => ?_, hkept, rfl, rfl, rfl⟩
    obtain ⟨i, rfl⟩ := Nat.exists_eq_add_of_le hlo
    have hi : i < 4 * n := by omega
    rw [Nat.mul_add_mod, Nat.add_sub_cancel_left, ← pullSram_byte hi hspan]
    exact hbytes i hi
  case unspecified =>
    obtain ⟨mem, f, hput, hkept⟩ := sramPut_unspecified (who := some (c.me, c.ctx)) (mk := mk) (hpull.symm ▸ hin)
      (hpull.symm ▸ hmap) (hpull.symm ▸ hne)
    refine ⟨_, sramWrite_served hop hput, ?_⟩
    rw [show State.completed _ c = _ from completed_unit s s.sdram _ f c]
    exact ⟨fun b hb => hkept b (hpull.symm ▸ hb), rfl, rfl, rfl⟩

end Sys2Proof.Machine
end

section
/-! Local register instructions (43_me_local_register.md R600 to R613, R623 to R625): the constant, field and byte
loads, and the loads of the find-bit-set results. -/

namespace Sys2Proof.Machine

section
variable {s : State} {d : Dest}

/-! ### What every load keeps -/

/-- A load changes its destination, the codes it writes and the latches, and nothing else (R600). -/
theorem retire_load_spec (s : State) (d : Dest) (v : Word) (r : Retire) (hlatch : r.latch = none)
    (hshadow : r.shadow = none) (hfind : r.find = false) :
    let t := s.retire (s.engine.writeDest s.engine.active d v) r
    destWritten s.engine t.engine d v ∧ t.engine.cc = r.cc.getD s.engine.cc ∧
      findKept s.engine t.engine ∧ ordinary s t :=
  ⟨retire_writeDest s d v r, by simp, findKept_retire s d v r hfind, ordinary_writeDest s d v r hlatch hshadow⟩

/-! ### Constants (R601, R613) -/

/-- A shifted constant, positive or negative, is its product with a power of two in two's complement (R601). -/
theorem immedValue_shiftLeft_toNat (value : Int) (n : Nat) :
    (immedValue value <<< n).toNat = (value * 2 ^ n % 2 ^ 32).toNat := by
  have hpow : BitVec.twoPow 32 n = BitVec.ofInt 32 (2 ^ n) := by
    apply BitVec.eq_of_toNat_eq
    rw [BitVec.toNat_twoPow, BitVec.toNat_ofInt]
    norm_cast
  rw [immedValue, BitVec.shiftLeft_eq_mul_twoPow, hpow, ← BitVec.ofInt_mul, BitVec.toNat_ofInt]
  rfl

/-- The constant an immediate load takes where no CSR data is latched for it (R560). -/
theorem Me.immediate_of_none {m : Me} (v : Word) (h : m.csrLatch = none) : m.immediate v = v := by
  rw [Me.immediate, h, Option.getD_none]

/-- CSR data latched for an immediate load takes the constant's place (R560). -/
theorem Me.immediate_of_some {m : Me} (v : Word) {c : Word} (h : m.csrLatch = some c) : m.immediate v = c := by
  rw [Me.immediate, h, Option.getD_some]

/-- A constant is in the destination and the ALU output latch (R600, R56). -/
def State.constantLoaded (s : State) (d : Dest) (v : Word) : State :=
  s.retire (s.engine.writeDest s.engine.active d v) { alu := some v }

theorem constantLoaded_spec (s : State) (d : Dest) (v : Word) :
    let t := s.constantLoaded d v
    destWritten s.engine t.engine d v ∧ t.engine.cc = s.engine.cc ∧ findKept s.engine t.engine ∧ ordinary s t :=
  retire_load_spec s d v { alu := some v } rfl rfl rfl

theorem constantLoaded_aluOut (s : State) (d : Dest) (v : Word) : (s.constantLoaded d v).engine.aluOut = v := by
  simp [State.constantLoaded]

theorem immed_exec (value : Int) (n : Nat) : exec (.immed d value n) s =
    .next (s.constantLoaded d (s.engine.immediate (immedValue value) <<< n)) := rfl

theorem loadAddr_exec (l : Label) : exec (.loadAddr d l) s = .next (s.constantLoaded d (l.setWidth 32)) := rfl

/-! ### Fields (R602 to R608) -/

/-- A value widened to a longword fills its own width. -/
theorem setWidth_fits {w : Nat} (v : BitVec w) (h : w ≤ 32) : (v.setWidth 32).toNat % 2 ^ w = v.toNat := by
  rw [BitVec.toNat_setWidth_of_le h, Nat.mod_eq_of_lt v.isLt]

/-- Each field load is the common one of its row's field, with a value that fills that field and keeping the rest
where the row says that it is known to stay (U4). -/
theorem fieldLoads_exec (s : State) (d : Dest) (v8 : Byte) (v16 : BitVec 16) : ∀ p ∈ fieldLoads d v8 v16,
    ∃ v keep, exec p.1 s = .next (s.immedField d v p.2.1 p.2.2.1 keep) ∧ p.2.1 + p.2.2.1 ≤ 32 ∧
      v.toNat % 2 ^ p.2.2.1 = p.2.2.2.1 ∧ (p.2.2.2.2 = true → keep = true) := by
  have byteFits := setWidth_fits v8 (by decide)
  have wordFits := setWidth_fits v16 (by decide)
  simp only [fieldLoads, List.forall_mem_cons]
  exact ⟨⟨_, _, rfl, by decide, byteFits, nofun⟩, ⟨_, _, rfl, by decide, byteFits, nofun⟩,
    ⟨_, _, rfl, by decide, byteFits, nofun⟩, ⟨_, _, rfl, by decide, byteFits, nofun⟩,
    ⟨_, _, rfl, by decide, wordFits, nofun⟩, ⟨_, _, rfl, by decide, wordFits, fun _ => rfl⟩,
    fun _ h => nomatch h⟩

/-- Outside its field a field load that keeps the rest has the old bits, and one that clears it zeros (U4). -/
theorem loadField_rest (old v : Word) (lo w : Nat) (keep : Bool) (hw : w ≤ 32) :
    (keep = true ∧ ∀ i, i < lo ∨ lo + w ≤ i → i < 32 → (loadField old v lo w keep).getLsbD i = old.getLsbD i) ∨
    (keep = false ∧ ∀ i, i < lo ∨ lo + w ≤ i → (loadField old v lo w keep).getLsbD i = false) := by
  cases keep with
  | true =>
    exact .inl ⟨rfl, fun i hout hi => by
      rw [loadField_out _ _ _ _ _ i hout hw, if_pos rfl, decide_eq_true hi, Bool.true_and]⟩
  | false => exact .inr ⟨rfl, fun i hout => loadField_out _ _ _ _ _ i hout hw⟩

/-! ### Bytes (R610, R611) -/

theorem laneOf_getLsbD (v : Word) (k : Nat) {i : Nat} (hi : i < 8) :
    (laneOf v k).getLsbD i = v.getLsbD (8 * k + i) := by
  rw [laneOf, BitVec.getLsbD_extractLsb', decide_eq_true hi, Bool.true_and]

section
variable {mask : BitVec 4} {k : Nat} (hk : k < 4)
include hk

/-- A word within the selected lanes: those bytes stay, the others are cleared. -/
theorem laneOf_and_byteLanes (z : Word) :
    laneOf (z &&& byteLanes mask) k = if mask.getLsbD k then laneOf z k else 0 := by
  apply BitVec.eq_of_getLsbD_eq
  intro i hi
  rw [laneOf_getLsbD _ _ hi, BitVec.getLsbD_and, byteLanes_bit mask k i hk hi]
  cases mask.getLsbD k <;> simp [laneOf_getLsbD _ _ hi]

/-- Two words merged by the selected lanes. -/
theorem laneOf_merge_byteLanes (old z : Word) :
    laneOf (old &&& ~~~(byteLanes mask) ||| z &&& byteLanes mask) k =
      if mask.getLsbD k then laneOf z k else laneOf old k := by
  apply BitVec.eq_of_getLsbD_eq
  intro i hi
  have hbit : 8 * k + i < 32 := by omega
  rw [laneOf_getLsbD _ _ hi, BitVec.getLsbD_or, BitVec.getLsbD_and, BitVec.getLsbD_and, BitVec.getLsbD_not,
    byteLanes_bit mask k i hk hi]
  cases mask.getLsbD k <;> simp [laneOf_getLsbD _ _ hi, hbit]

end

/-- A result of a byte field load is in the destination, and Zero and Sign are unspecified (U3). -/
def State.bytesLoaded (s : State) (d : Dest) (v : Word) : State :=
  s.retire (s.engine.writeDest s.engine.active d v) { cc := some (unspecifiedFlags s.engine.cc s.free) }

theorem bytesLoaded_spec (s : State) (d : Dest) (v : Word) :
    let t := s.bytesLoaded d v
    destWritten s.engine t.engine d v ∧ t.engine.cc.cout = s.engine.cc.cout ∧ findKept s.engine t.engine ∧
      ordinary s t := by
  obtain ⟨hdest, hcc, hfind, hord⟩ := retire_load_spec s d v
    { cc := some (unspecifiedFlags s.engine.cc s.free) } rfl rfl rfl
  exact ⟨hdest, (congrArg Flags.cout hcc).trans rfl, hfind, hord⟩

section
variable {src : Src} {mask : BitVec 4} {shf : Shf} {v : Word} (hsrc : operandIs s src (some v))
include hsrc

theorem ldField_exec : exec (.ldField d mask src shf) s = .next (s.bytesLoaded d
    (s.engine.readDest s.engine.active d &&& ~~~(byteLanes mask) ||| s.shifted shf v &&& byteLanes mask)) := by
  simp only [exec, execLdField, sourceVal_of_operandIs hsrc, ok_bind, res_pure, finish_ok, State.bytesLoaded]

theorem ldFieldWClr_exec : exec (.ldFieldWClr d mask src shf) s =
    .next (s.bytesLoaded d (s.shifted shf v &&& byteLanes mask)) := by
  simp only [exec, execLdFieldWClr, sourceVal_of_operandIs hsrc, ok_bind, res_pure, finish_ok, State.bytesLoaded]

end

/-! ### Find-bit-set results (R623 to R625) -/

/-- Three instructions after the last search a load reads the result register itself (R625). -/
theorem bsetRead_of_age (h : 3 ≤ s.engine.findAge) (r : Word) : s.bsetRead r = r := if_neg (Nat.not_lt.2 h)

theorem loadBsetResult1_exec (h : 3 ≤ s.engine.findAge) :
    exec (.loadBsetResult1 d) s = .next (s.loadBset d s.engine.result1) := by
  simp only [exec, execLoadBsetResult1, bsetRead_of_age h, finish_ok]

theorem loadBsetResult2_exec (h : 3 ≤ s.engine.findAge) :
    exec (.loadBsetResult2 d) s = .next (s.loadBset d s.engine.result2) := by
  simp only [exec, execLoadBsetResult2, bsetRead_of_age h, finish_ok]

/-- A load of a result: destination, codes and frame (R623). -/
theorem loadBset_spec (s : State) (d : Dest) (r : Word) :
    let t := s.loadBset d r
    destWritten s.engine t.engine d r ∧ t.engine.cc = ⟨decide (r = 0), decide (r.toInt < 0), s.engine.cc.cout⟩ ∧
      findKept s.engine t.engine ∧ ordinary s t := by
  obtain ⟨hdest, hcc, hfind, hord⟩ := retire_load_spec s d r
    { alu := some r, cc := some (resultFlags s.engine.cc r) } rfl rfl rfl
  exact ⟨hdest, hcc.trans (resultFlags_eq _ r), hfind, hord⟩

end

/-! ### The statements, in a namespace of their own because `fieldLoads` is a table of the statements -/

namespace LocalReg

/-- Settles O18: the result is the shifted constant, or latched CSR data shifted, or the label. -/
theorem constantLoads : Obligations.ConstantLoads := by
  intro s d
  refine ⟨fun value n _ => ?immed, fun l => ?addr⟩
  case immed =>
    obtain ⟨hdest, hrest⟩ := constantLoaded_spec s d (s.engine.immediate (immedValue value) <<< n)
    refine ⟨_, _, immed_exec value n, fun h => ?_, fun c h => ?_, hdest, constantLoaded_aluOut s d _, hrest⟩
    · rw [Me.immediate_of_none _ h, immedValue_shiftLeft_toNat]
    · rw [Me.immediate_of_some _ h]
  case addr =>
    exact ⟨_, _, loadAddr_exec l, BitVec.toNat_setWidth_of_le (by decide), constantLoaded_spec s d _⟩

/-- Settles O19: the field of the row takes the value, and the rest is kept or cleared. -/
theorem fieldLoads : Obligations.FieldLoads := by
  intro s d v8 v16 p hp
  obtain ⟨v, keep, hexec, hfits, hv, hkeep⟩ := fieldLoads_exec s d v8 v16 p hp
  refine ⟨_, _, hexec, ?field, fun k hk => ?rest, retire_load_spec s d _ {} rfl rfl rfl⟩
  case field =>
    refine (loadField_in _ _ _ _ _ hfits).trans ?_
    split
    next hnone => rw [Me.immediate_of_none v hnone, hv]
    next c hsome => rw [Me.immediate_of_some v hsome]
  case rest =>
    rw [← readDest_eq_cell s.engine d k hk]
    refine (loadField_rest _ _ p.2.1 p.2.2.1 keep (by omega)).imp (fun ⟨_, hold⟩ => hold) fun ⟨hclear, hzero⟩ => ?_
    exact ⟨Bool.eq_false_iff.2 fun hkept => by simp [hkeep hkept] at hclear, hzero⟩

/-- Settles O20: the result is taken byte by byte from the shifted source and the old value, or from zero. -/
theorem byteFieldLoads : Obligations.ByteFieldLoads := by
  intro s d mask src shf v z cell hsrc hshf hcell
  have hz : s.shifted shf v = z := shiftB_spec shf v _ _ z hshf
  refine ⟨⟨_, _, ldField_exec hsrc, fun k hk => ?merged, bytesLoaded_spec s d _⟩,
    ⟨_, _, ldFieldWClr_exec hsrc, fun k hk => ?cleared, bytesLoaded_spec s d _⟩⟩
  case merged => rw [laneOf_merge_byteLanes hk, hz, readDest_eq_cell s.engine d cell hcell]
  case cleared => rw [laneOf_and_byteLanes hk, hz]

/-- Settles O22: after three instructions the register itself is read, and its load sets Zero and Sign. -/
theorem loadFindResults : Obligations.LoadFindResults := by
  intro s d hage
  exact ⟨⟨_, loadBsetResult1_exec hage, loadBset_spec s d _⟩, ⟨_, loadBsetResult2_exec hage, loadBset_spec s d _⟩⟩

end LocalReg

end Sys2Proof.Machine
end

section
/-! Context arbitration and `nop` (44_me_misc.md R640 to R648): the arbiter of an engine with no running context as the
swap to what its last context waits for, `ctx_arb` as the departure of the running context, and what `nop` keeps. -/

namespace Sys2Proof.Machine

/-! ### The arbiter of an engine that has run (R642, D18) -/

section
variable {m : Me} (hidle : m.executing = false)
include hidle

/-- To arbitrate is to leave once more for what the last context already waits for. -/
theorem arbitrate_eq_leave (draw : Bool) : m.arbitrate draw = m.leave (.swap m.wakeup[m.active]) draw := by
  have hsame : m = { m with wakeup := m.wakeup.set m.active m.wakeup[m.active], executing := false } := by
    simp [← hidle]
  exact congrArg (Me.arbitrate · draw) hsame

theorem arbitrate_eq (hran : m.hasRun = true) (hwin : m.enWindow = 0) (draw : Bool) :
    m.arbitrate draw = match nextContext m m.ctxEnables m.wakeup[m.active] with
      | none => m
      | some k => { m with
          pctx := m.active, active := k, nctx := k + 1, executing := true
          sigEvents := consumed m m.wakeup[m.active] k } := by
  rw [arbitrate_eq_leave hidle, leave_swap m _ draw hran hwin]
  cases nextContext m m.ctxEnables m.wakeup[m.active] with
  | none => simp [← hidle]
  | some k => simp

end

/-- The step of a microengine in reset (R125). -/
theorem meStep_of_reset {s : State} {m : Fin 6} (h : (s.me m).inReset = true) : s.meStep m = .next s := by
  simp [State.meStep, h]

/-- The step of a microengine with no running context is its arbiter's. -/
theorem meStep_of_idle {s : State} {m : Fin 6} (hreset : (s.me m).inReset = false) (hidle : (s.me m).executing = false) :
    s.meStep m = .next { s.setMe m ((s.me m).arbitrate s.enableDraw) with free := s.free + 1 } := by
  simp [State.meStep, hreset, hidle]

/-- Settles O6: the step of an idle engine is its arbiter's, which touches that engine and the draw counter alone. -/
theorem arbiterTakesNextReadyContext : Obligations.ArbiterTakesNextReadyContext := by
  intro s m rest hin
  refine ⟨fun hreset => (step_me hin).trans (meStep_of_reset hreset), fun hreset hidle hran hwin => ?_⟩
  refine ⟨_, (step_me hin).trans (meStep_of_idle hreset hidle), rfl, fun k hk => State.setMe_me_ne _ _ hk, ?engine⟩
  have hengine := (State.setMe_me_self ({ s with inputs := rest } : State) m _).trans
    (arbitrate_eq hidle hran hwin s.enableDraw)
  split
  next hnone => exact hengine.trans (by rw [hnone])
  next k hsome => exact hengine.trans (by rw [hsome])

/-! ### `ctx_arb` (R640 to R642, R646, R647) -/

/-- What the context waits for after `ctx_arb`: a killed one for nothing (R647). -/
def ctxWaits : CtxEvent → Wakeup
  | .signal e => .signal e
  | _ => .voluntary

/-- The enables after `ctx_arb`: a killed context is disabled (R647). -/
def ctxEnabled (m : Me) : CtxEvent → BitVec 4
  | .kill => m.ctxEnables &&& ~~~(1#4 <<< m.active.val)
  | _ => m.ctxEnables

/-- The engine after a `ctx_arb`, before its context leaves. -/
def State.atNext (s : State) : Me := (s.engine.latch {} s.free).setPc (s.engine.pc + 1)

@[simp] theorem State.atNext_cell (s : State) (k : RegCell) : s.atNext.cell k = s.engine.cell k := by
  simp [State.atNext]

@[simp] theorem Me.withDefer_cell (m : Me) (d : Option Deferred) (k : RegCell) :
    ({ m with defer := d } : Me).cell k = m.cell k := by
  cases k <;> rfl

/-- The running context leaves as each `ctx_arb` says, killed ones with the enable cleared. -/
theorem leave_ctxEventAct (s : State) (ev : CtxEvent) (draw : Bool) (hdefer : s.engine.defer = none)
    (hran : s.engine.hasRun = true) (hwin : s.engine.enWindow ≤ 1) :
    swapped s.engine (s.atNext.leave (ctxEventAct ev) draw) (ctxEnabled s.engine ev) (ctxWaits ev) := by
  have hclosed : s.engine.enWindow - 1 = 0 := by omega
  cases ev with
  | signal | voluntary => exact swapped_leave s.engine s.atNext _ draw hran hclosed rfl hdefer rfl rfl rfl rfl
  | kill =>
    exact swapped_leave s.engine
      { s.atNext with
        ctxEnables := s.engine.ctxEnables &&& ~~~(1#4 <<< s.engine.active.val)
        oldEnables := s.engine.oldEnables &&& ~~~(1#4 <<< s.engine.active.val) }
      .voluntary draw hran hclosed rfl hdefer rfl rfl rfl rfl

section
variable {s : State} (ev : CtxEvent) (hdefer : s.engine.defer = none)
include hdefer

theorem ctxArb_now :
    exec (.ctxArb ev false) s = .next (s.putEngine (s.atNext.leave (ctxEventAct ev) s.enableDraw)) := by
  show finish (s.retireSwap _ _ _ _) = _
  simp [State.retireSwap, hdefer, State.atNext, Me.pc]

theorem ctxArb_deferred :
    exec (.ctxArb ev true) s = .next (s.putEngine { s.atNext with defer := some ⟨1, ctxEventAct ev⟩ }) := by
  show finish (s.retireSwap _ _ _ _) = _
  simp [State.retireSwap, hdefer, State.atNext, Me.pc]

end

/-- Settles O24: at once the context leaves, and with `defer[1]` its departure waits. -/
theorem contextArbitration : Obligations.ContextArbitration := by
  intro s ev hdefer
  refine ⟨fun hran hwin => ⟨_, ctxArb_now ev hdefer, ?now⟩, ⟨_, ctxArb_deferred ev hdefer, ?deferred⟩⟩
  case now =>
    rw [State.putEngine_engine]
    refine ⟨?swap, fun k => by simp, by simp [State.atNext], by simp [State.atNext, findKept],
      by simp [State.atNext, controlKept], by simp [State.atNext, latchesLeft], by simp [State.atNext],
      othersKept_putEngine s _⟩
    cases ev <;> exact leave_ctxEventAct s _ s.enableDraw hdefer hran hwin
  case deferred =>
    rw [State.putEngine_engine]
    refine ⟨fun k => by simp, rfl, ⟨rfl, rfl, rfl, rfl⟩, ⟨rfl, rfl, rfl, rfl, rfl, rfl, rfl⟩,
      ⟨rfl, rfl, rfl, rfl, rfl, rfl, rfl, rfl, rfl⟩, rfl, ?act, othersKept_putEngine s _⟩
    cases ev <;> rfl

/-! ### `nop` (R648) -/

/-- Settles O23: `nop` retires the engine as it is. -/
theorem nopOnlyAdvances : Obligations.NopOnlyAdvances := by
  intro s
  refine ⟨s.retire s.engine {}, rfl, fun k => by simp, by simp, by simp [findKept], ?frame⟩
  apply ordinary_retire <;> simp [controlKept, contextsKept]

end Sys2Proof.Machine
end

section
/-! The hash unit (44_me_misc.md R649 to R651): polynomials over GF(2) as numbers, the remainder that the machine's
carry-less product and reduction compute, the index of an operand, and how it reaches its registers. -/

namespace Sys2Proof.Machine

/-! ### Sums over GF(2) -/

/-- The sum of the first `n` bits of `f` over GF(2). -/
def bitSum (f : Nat → Bool) (n : Nat) : Bool := (List.range n).foldl (fun acc i => acc ^^ f i) false

theorem productBit_eq_bitSum (a b k : Nat) :
    productBit a b k = bitSum (fun i => a.testBit i && b.testBit (k - i)) (k + 1) := rfl

theorem bitSum_succ (f : Nat → Bool) (n : Nat) : bitSum f (n + 1) = (bitSum f n ^^ f n) := by
  simp [bitSum, List.range_succ]

theorem bitSum_false (n : Nat) : bitSum (fun _ => false) n = false := by
  induction n with
  | zero => rfl
  | succ n ih => rw [bitSum_succ, ih, Bool.xor_false]

theorem bitSum_xor (f g : Nat → Bool) (n : Nat) :
    bitSum (fun i => f i ^^ g i) n = (bitSum f n ^^ bitSum g n) := by
  induction n with
  | zero => rfl
  | succ n ih => simp only [bitSum_succ, ih, Bool.xor_assoc, Bool.xor_left_comm]

/-- A sum with one term. -/
theorem bitSum_single (c : Nat) (f : Nat → Bool) (n : Nat) :
    bitSum (fun i => decide (c = i) && f i) n = (decide (c < n) && f c) := by
  induction n with
  | zero => simp [bitSum]
  | succ n ih =>
    rw [bitSum_succ, ih]
    by_cases hc : c = n
    · simp [hc]
    · have hlt : c < n + 1 ↔ c < n := by omega
      simp [hc, hlt]

/-! ### Products of polynomials (R649) -/

/-- The monomial x^c, or 0. -/
def monomial (b : Bool) (c : Nat) : Nat := if b then 2 ^ c else 0

theorem testBit_monomial (b : Bool) (c i : Nat) : (monomial b c).testBit i = (b && decide (c = i)) := by
  cases b <;> simp [monomial, Nat.testBit_two_pow]

theorem productBit_zero (m k : Nat) : productBit 0 m k = false := by
  simp [productBit_eq_bitSum, bitSum_false]

theorem productBit_monomial (b : Bool) (c m k : Nat) :
    productBit (monomial b c) m k = (b && (m <<< c).testBit k) := by
  cases b with
  | false => simp [monomial, productBit_zero]
  | true =>
    simp only [productBit_eq_bitSum, testBit_monomial, Bool.true_and, bitSum_single, Nat.testBit_shiftLeft,
      Nat.lt_succ_iff, ge_iff_le]

/-- A product distributes over a sum on its left. -/
theorem productBit_xor (a b m k : Nat) : productBit (a ^^^ b) m k = (productBit a m k ^^ productBit b m k) := by
  simp only [productBit_eq_bitSum, Nat.testBit_xor, Bool.and_xor_distrib_right, bitSum_xor]

/-- One more coefficient of the left factor. -/
theorem mod_two_pow_succ_eq_xor (a n : Nat) : a % 2 ^ (n + 1) = a % 2 ^ n ^^^ monomial (a.testBit n) n := by
  apply Nat.eq_of_testBit_eq
  intro i
  simp only [Nat.testBit_xor, Nat.testBit_mod_two_pow, testBit_monomial]
  rcases Nat.lt_trichotomy i n with h | rfl | h
  · simp [h, Nat.lt_succ_of_lt h, h.ne']
  · simp
  · simp [Nat.not_lt.2 h.le, Nat.not_lt.2 (Nat.succ_le_of_lt h), h.ne]

/-! ### The machine's product and reduction -/

section
variable {d : Nat}

/-- A shift that stays within the 128 bits loses nothing. -/
theorem shiftLeft_toNat_of_lt {v : BitVec 128} {n c : Nat} (hv : v.toNat < 2 ^ n) (hfit : n + c ≤ 128) :
    (v <<< c).toNat = v.toNat <<< c ∧ (v <<< c).toNat < 2 ^ (n + c) := by
  have hlt : v.toNat <<< c < 2 ^ (n + c) := by
    rw [Nat.shiftLeft_eq, Nat.pow_add]
    exact Nat.mul_lt_mul_of_pos_right hv (Nat.two_pow_pos c)
  have heq : (v <<< c).toNat = v.toNat <<< c := by
    rw [BitVec.toNat_shiftLeft, Nat.mod_eq_of_lt (hlt.trans_le (Nat.pow_le_pow_right (by decide) hfit))]
  exact ⟨heq, heq ▸ hlt⟩

/-- The carry-less product of the low `n` coefficients of `a` with `m`, whose degree is at most `d`. -/
theorem clmul_spec (a : BitVec 128) {m : BitVec 128} (hm : m.toNat < 2 ^ (d + 1)) (n : Nat) (hfit : d + n ≤ 128) :
    (clmul a m n).toNat < 2 ^ (d + n) ∧
      ∀ k, (clmul a m n).toNat.testBit k = productBit (a.toNat % 2 ^ n) m.toNat k := by
  induction n with
  | zero => exact ⟨by simp [clmul], fun k => by simp [clmul, Nat.mod_one, productBit_zero]⟩
  | succ n ih =>
    obtain ⟨hlt, hbits⟩ := ih (by omega)
    obtain ⟨hshift, hshiftLt⟩ := shiftLeft_toNat_of_lt hm (c := n) (by omega)
    have hterm : (if a.getLsbD n then m <<< n else 0).toNat = if a.toNat.testBit n then m.toNat <<< n else 0 := by
      rw [← hshift]; exact apply_ite BitVec.toNat _ _ _
    refine ⟨?degree, fun k => ?coefficient⟩
    case degree =>
      rw [clmul, BitVec.toNat_xor, hterm, ← hshift, show d + (n + 1) = d + 1 + n by omega]
      refine Nat.xor_lt_two_pow (hlt.trans_le (Nat.pow_le_pow_right (by decide) (by omega))) ?_
      split
      · exact hshiftLt
      · exact Nat.two_pow_pos _
    case coefficient =>
      rw [clmul, BitVec.toNat_xor, hterm, Nat.testBit_xor, hbits, mod_two_pow_succ_eq_xor, productBit_xor,
        productBit_monomial]
      cases a.toNat.testBit n <;> simp

/-- The polynomial `g` has degree `n`. -/
def hasDegree (g n : Nat) : Prop := g.testBit n = true ∧ g < 2 ^ (n + 1)

/-- A number whose leading coefficient is 0 has a lower degree. -/
theorem lt_two_pow_of_no_lead {p j : Nat} (hp : p < 2 ^ (j + 1)) (hlead : p.testBit j = false) : p < 2 ^ j := by
  refine Nat.lt_pow_two_of_testBit _ fun i hi => ?_
  rcases Nat.eq_or_lt_of_le hi with rfl | hi
  · exact hlead
  · exact Nat.testBit_lt_two_pow (hp.trans_le (Nat.pow_le_pow_right (by decide) hi))

/-- Reducing leaves the remainder: a number below x^n that differs from `p` by a multiple of the generator. -/
theorem polyReduce_spec {g : BitVec 128} {n : Nat} (hg : hasDegree g.toNat n) (c : Nat) (hfit : n + c + 1 ≤ 128) :
    ∀ p : BitVec 128, p.toNat < 2 ^ (n + c) → (polyReduce g n c p).toNat < 2 ^ n ∧
      ∃ q, ∀ k, p.toNat.testBit k = (productBit q g.toNat k ^^ (polyReduce g n c p).toNat.testBit k) := by
  induction c with
  | zero => exact fun p hp => ⟨hp, 0, fun k => by simp [polyReduce, productBit_zero]⟩
  | succ c ih =>
    intro p hp
    rw [polyReduce]
    split
    next hlead =>
      obtain ⟨hgLead, hgLt⟩ := hg
      obtain ⟨hshift, hshiftLt⟩ := shiftLeft_toNat_of_lt hgLt (c := c) (by omega)
      have hsub : (p ^^^ (g <<< c)).toNat = p.toNat ^^^ (g.toNat <<< c) := by rw [BitVec.toNat_xor, hshift]
      have hlead' : p.toNat.testBit (n + c) = true := hlead
      have hlower : (p ^^^ (g <<< c)).toNat < 2 ^ (n + c) := by
        refine lt_two_pow_of_no_lead ?_ (by simp [hsub, hlead', hgLead])
        rw [hsub]
        exact Nat.xor_lt_two_pow hp (by rwa [← hshift, show n + c + 1 = n + 1 + c by omega])
      obtain ⟨hlt, q, hq⟩ := ih (by omega) _ hlower
      refine ⟨hlt, q ^^^ monomial true c, fun k => ?_⟩
      have hk := hq k
      rw [hsub, Nat.testBit_xor] at hk
      rw [productBit_xor, productBit_monomial, Bool.true_and, Bool.xor_right_comm, ← hk, Bool.xor_assoc, Bool.xor_self,
        Bool.xor_false]
    next hlead => exact ih (by omega) p (lt_two_pow_of_no_lead hp (Bool.eq_false_iff.2 hlead))

/-- The product reduced by the generator is the remainder of R649. -/
theorem isHash_polyReduce {a m g : BitVec 128} (ha : a.toNat < 2 ^ (d + 1)) (hm : m.toNat < 2 ^ (d + 1))
    (hg : hasDegree g.toNat (d + 1)) (hfit : d + 1 + (d + 1) ≤ 128) :
    isHash (d + 1) g.toNat a.toNat m.toNat (polyReduce g (d + 1) d (clmul a m (d + 1))).toNat := by
  obtain ⟨hlt, hbits⟩ := clmul_spec a hm (d + 1) (by omega)
  obtain ⟨hrem, q, hq⟩ := polyReduce_spec hg d (by omega) (clmul a m (d + 1))
    (by rwa [show d + 1 + d = d + (d + 1) by omega])
  refine ⟨hrem, q, fun k => ?_⟩
  rw [← hq, hbits, Nat.mod_eq_of_lt ha]

end

/-! ### The index of an operand (R649, R225) -/

/-- The index of `d + 1`-bit operands. -/
theorem isHash_setWidth {d : Nat} {g : BitVec 128} (hg : hasDegree g.toNat (d + 1)) (hfit : d + 1 + (d + 1) ≤ 128)
    (a m : BitVec (d + 1)) :
    isHash (d + 1) g.toNat a.toNat m.toNat
      ((polyReduce g (d + 1) d (clmul (a.setWidth 128) (m.setWidth 128) (d + 1))).setWidth (d + 1)).toNat := by
  have hwide : ∀ b : BitVec (d + 1), (b.setWidth 128).toNat = b.toNat := fun b =>
    BitVec.toNat_setWidth_of_le (by omega)
  have h := isHash_polyReduce ((hwide a).trans_lt a.isLt) ((hwide m).trans_lt m.isLt) hg hfit
  rw [hwide, hwide] at h
  rwa [BitVec.toNat_setWidth, Nat.mod_eq_of_lt h.1]

theorem hash48_isHash (a m : BitVec 48) : isHash 48 (hashGenerator false) a.toNat m.toNat (hash48 a m).toNat :=
  isHash_setWidth (d := 47) (g := 0x1001002000401) ⟨by decide, by decide⟩ (by decide) a m

theorem hash64_isHash (a m : Quad) : isHash 64 (hashGenerator true) a.toNat m.toNat (hash64 a m).toNat :=
  isHash_setWidth (d := 63) (g := 0x10040000800020001) ⟨by decide, by decide⟩ (by decide) a m

theorem append_word_toNat {n : Nat} (hi : BitVec n) (lo : Word) :
    (hi ++ lo).toNat = hi.toNat * 2 ^ 32 + lo.toNat := by
  rw [BitVec.toNat_append, Nat.shiftLeft_eq, Nat.mul_comm, ← Nat.two_pow_add_eq_or_of_lt lo.isLt]

/-- The index of operand `a`, of which a 48-bit hash takes the low 48 bits, and leaves the high 16 of its own free. -/
theorem hashValue_isHash (s : State) (is64 : Bool) (a : Quad) (free : Word) :
    isHash (hashDegree is64) (hashGenerator is64) (a.toNat % 2 ^ hashDegree is64) (hashMultiplier s.fbi is64)
      ((s.hashValue is64 a free).toNat % 2 ^ hashDegree is64) := by
  cases is64 with
  | true =>
    have h := hash64_isHash a (s.fbi.mult64Hi ++ s.fbi.mult64Lo)
    rw [append_word_toNat] at h
    have hmod : ∀ v : Quad, v.toNat % 2 ^ hashDegree true = v.toNat := fun v => Nat.mod_eq_of_lt v.isLt
    rwa [hmod, hmod]
  | false =>
    have h := hash48_isHash (a.setWidth 48) (s.fbi.mult48Hi.setWidth 16 ++ s.fbi.mult48Lo)
    rw [append_word_toNat, BitVec.toNat_setWidth, BitVec.toNat_setWidth] at h
    have hlow : (s.hashValue false a free).toNat % 2 ^ hashDegree false
        = (hash48 (a.setWidth 48) (s.fbi.mult48Hi.setWidth 16 ++ s.fbi.mult48Lo)).toNat := by
      rw [← BitVec.toNat_setWidth]
      exact congrArg BitVec.toNat (BitVec.setWidth_append_eq_right ..)
    rwa [hlow]

/-- The number two registers hold, in the order of HASH_WORD_ORDER (D19). -/
theorem hashOperand_toNat (highFirst : Bool) (r0 r1 : Word) : (hashOperand highFirst r0 r1).toNat =
    (if highFirst then r0 else r1).toNat * 2 ^ 32 + (if highFirst then r1 else r0).toNat := by
  cases highFirst <;> exact append_word_toNat _ _

/-- What a hash takes of the number in its registers. -/
theorem operand_mod (is64 : Bool) (hi lo : Word) : (hi.toNat * 2 ^ 32 + lo.toNat) % 2 ^ hashDegree is64 =
    if is64 then hi.toNat * 2 ^ 32 + lo.toNat else hi.toNat % 2 ^ 16 * 2 ^ 32 + lo.toNat := by
  have hhi := hi.isLt
  have hlo := lo.isLt
  cases is64 <;> simp only [hashDegree, Bool.false_eq_true, if_true, if_false] <;> omega

/-! ### The hash service of the Pull Engine (R651) -/

section
variable {s : State} {c : Cmd} {is64 : Bool} {total x k : Nat}

/-- The Pull Engine goes on with the command it has begun, or begins the next one. -/
theorem fbiPullStep_hash (hop : c.op = .hash is64 total x) (hjob : s.fbi.hashJob = some ⟨c, k⟩ ∨
      k = 0 ∧ s.fbi.hashJob = none ∧ s.fbi.hashQ.head? = some c) :
    ∃ q, s.fbiPullStep = .ok ((s.withFbi { s.fbi with hashQ := q }).hashStep c is64 total x k) := by
  unfold State.fbiPullStep
  rcases hjob with hjob | ⟨rfl, hnone, hhead⟩
  · exact ⟨s.fbi.hashQ, by simp only [hjob, hop]; rfl⟩
  · obtain ⟨rest, hq⟩ := List.head?_eq_some_iff.1 hhead
    exact ⟨rest, by simp only [hnone, hq, hop]⟩

/-- A hash service reads its operand from the registers of its number. -/
theorem hashStep_eq {r0 r1 : Word} (h0 : (s.me c.xfMe).sramWr[x + 2 * k]? = some r0)
    (h1 : (s.me c.xfMe).sramWr[x + 2 * k + 1]? = some r1) : s.hashStep c is64 total x k =
      { s.withFbi { s.fbi with
          hashJob := if k + 1 < total then some ⟨c, k + 1⟩ else none
          hashOut := s.fbi.hashOut ++
            [⟨c, k, s.hashValue is64 (hashOperand s.board.hashHighFirst r0 r1) (Config.freeWord .hashHigh s.free)⟩] }
        with free := s.free + 1 } := by
  have hread : s.pullSram c.xfMe (x + 2 * k) 2 = [r0, r1] := by simp [State.pullSram, fileGets, fileGet, h0, h1]
  simp only [State.hashStep, hread]
  rfl

end

/-! ### The return of an index by the Push Engine (R651) -/

theorem fbiPushStep_hash {s : State} {o : HashOut} {rest : List HashOut} (htas : s.fbi.tasRet = [])
    (hauto : s.fbi.autopushWork = false) (hout : s.fbi.hashOut = o :: rest) :
    s.fbiPushStep = .ok ((s.withFbi { s.fbi with hashOut := rest }).pushHash o) := by
  simp [State.fbiPushStep, htas, hauto, hout]

/-- The registers hold the index in the order of HASH_WORD_ORDER (D19). -/
theorem fileHolds_hashPair (f : Vector Word 32) (x : Nat) (highFirst : Bool) (v : Quad) :
    fileHolds f (fileSets f x (hashPair highFirst v)) x 2 (fun i =>
      some (if (i == 0) == highFirst then v.extractLsb' 32 32 else v.extractLsb' 0 32)) := by
  have hlow : quadLow v = v.extractLsb' 0 32 := BitVec.setWidth_eq_extractLsb' (by decide)
  apply fileHolds_fileSets
  · cases highFirst <;> rfl
  · intro i hi
    have hi2 : i < 2 := by cases highFirst <;> exact hi
    obtain rfl | rfl : i = 0 ∨ i = 1 := by omega
    · cases highFirst <;> simp [hashPair, hlow, quadHigh]
    · cases highFirst <;> simp [hashPair, hlow, quadHigh]

section
variable (s : State) (c : Cmd) (rest : List HashOut) (x : Nat) (v : Quad)

/-- The state once index `v` stands in its registers. -/
def State.hashPushed : State :=
  (s.withFbi { s.fbi with hashOut := rest }).pushSram c.xfMe x (hashPair s.board.hashHighFirst v)

/-- A push of an index reaches the file of the command's microengine. -/
theorem hashPushed_me (j : Fin 6) : (s.hashPushed c rest x v).me j = if j = c.xfMe
    then { s.me j with sramRd := fileSets (s.me j).sramRd x (hashPair s.board.hashHighFirst v) } else s.me j :=
  State.pushSram_me ..

theorem hashPushed_sramRd : ((s.hashPushed c rest x v).me c.xfMe).sramRd
    = fileSets (s.me c.xfMe).sramRd x (hashPair s.board.hashHighFirst v) := by
  rw [hashPushed_me, if_pos rfl]

theorem hashPushed_sigEvents (j : Fin 6) : ((s.hashPushed c rest x v).me j).sigEvents = (s.me j).sigEvents := by
  rw [hashPushed_me]; split <;> rfl

theorem pushHash_eq {o : HashOut} {is64 : Bool} {total y : Nat} (hop : o.cmd.op = .hash is64 total y) :
    (s.withFbi { s.fbi with hashOut := rest }).pushHash o =
      if o.k + 1 = total then (s.hashPushed o.cmd rest (y + 2 * o.k) o.value).completed o.cmd
      else s.hashPushed o.cmd rest (y + 2 * o.k) o.value := by
  simp only [State.pushHash, hop]
  rfl

end

/-- Settles O45: the Pull Engine leaves the remainder with its operand's number, and the Push Engine moves it to the
registers of that number, completing the command after its last. -/
theorem hashResults : Obligations.HashResults := by
  intro s c is64 total x k hop _ _
  refine ⟨fun r0 r1 h0 h1 hjob => ?pull, fun v rest htas hauto hout => ?push⟩
  case pull =>
    obtain ⟨q, hstep⟩ := fbiPullStep_hash hop hjob
    refine ⟨_, _, hstep.trans (congrArg Except.ok (hashStep_eq h0 h1)), rfl, rfl, rfl, ?_⟩
    have hindex := hashValue_isHash s is64 (hashOperand s.board.hashHighFirst r0 r1) (Config.freeWord .hashHigh s.free)
    rwa [hashOperand_toNat, operand_mod] at hindex
  case push =>
    have hstep := (fbiPushStep_hash htas hauto hout).trans (congrArg Except.ok (pushHash_eq s rest hop))
    have hfile := hashPushed_sramRd s c rest (x + 2 * k) v
    have hsig := hashPushed_sigEvents s c rest (x + 2 * k) v
    refine ⟨_, hstep, ?_⟩
    by_cases hlast : k + 1 = total
    · simp only [if_pos hlast]
      refine ⟨by rw [State.completed_eq]; rfl, by rw [State.completed_eq]; rfl, ?_,
        State.completed_sigEvents s _ c hsig⟩
      rw [State.completed_sramRd, hfile]
      exact fileHolds_hashPair ..
    · simp only [if_neg hlast]
      refine ⟨rfl, rfl, ?_, hsig⟩
      rw [hfile]
      exact fileHolds_hashPair ..

end Sys2Proof.Machine
end

section
/-! Ready Bus sequencer (46_ready_bus_sequencer.md): its step, what each family of its 91 instructions does, and the reach
they have in common. -/

namespace Sys2Proof.Machine

/-! ### The step (R700) -/

section
variable {s : State} {rest : List Event} (hin : s.inputs = .readyBus :: rest)
include hin

/-- The step of the sequencer is that of the state without the event. -/
theorem step_readyBus : step s = ({ s with inputs := rest } : State).readyBusStep := by
  simp only [step, State.nextEvent, hin, State.run]

theorem step_readyBus_of_waiting (h : s.fbi.seqRuns = false) : step s = .next { s with inputs := rest } := by
  simp [step_readyBus hin, State.readyBusStep, h]

theorem step_readyBus_of_running (h : s.fbi.seqRuns = true) {i : Instr} (hi : decodeSeq s.fbi.seqByte = some i) :
    step s = exec i { s with inputs := rest } := by
  simp [step_readyBus hin, State.readyBusStep, h, hi]

theorem step_readyBus_of_undefined (h : s.fbi.seqRuns = true) (hnone : decodeSeq s.fbi.seqByte = none) :
    step s = .refused (.undefinedOpcode s.fbi.seqByte) := by
  simp [step_readyBus hin, State.readyBusStep, h, hnone]

end

/-- Settles O5: the sequencer waits exactly in the statement's case, and else runs what its byte decodes to. -/
theorem stepRunsSequencerInstruction : Obligations.StepRunsSequencerInstruction := by
  intro s rest hin henable hmaster
  have hruns := seqRuns_iff s.fbi
  split
  next hwait =>
    refine step_readyBus_of_waiting hin (Bool.eq_false_iff.2 fun h => ?_)
    obtain ⟨-, -, hgo⟩ := hruns.1 h
    exact hgo hwait
  next hgo =>
    have hrun : s.fbi.seqRuns = true := hruns.2 ⟨henable, hmaster, hgo⟩
    exact ⟨fun i hi => step_readyBus_of_running hin hrun (decodeSeq_eq_some_iff.2 (decode_byte_eq_ok_iff.1 hi)),
      fun hnone => step_readyBus_of_undefined hin hrun hnone⟩

/-! ### Where an instruction leaves the FBI Unit (R700, R704, R717) -/

theorem seqBegin_eq (f : Fbi) : f.seqBegin = { f with
    seqWait := f.seqBegin.seqWait, seqTime := f.seqBegin.seqTime, seqExpired := f.seqBegin.seqExpired
    captured := decide (f.seqPos ≠ 0) && f.captured, apHold := false } := by
  have hcaptured : (f.captured && f.seqPos != 0) = (decide (f.seqPos ≠ 0) && f.captured) := by
    rw [Bool.and_comm, decide_not]; rfl
  unfold Fbi.seqBegin
  dsimp only
  rw [hcaptured]
  split <;> rfl

theorem seqNext_eq (f : Fbi) (n : Nat) : f.seqNext n = { f with
    seqPos := (f.seqNext n).seqPos, seqWait := (f.seqNext n).seqWait, seqTime := (f.seqNext n).seqTime } := by
  unfold Fbi.seqNext
  dsimp only
  split <;> rfl

/-- Before an instruction's effect and after it the sequencer moves; all else is the effect. -/
theorem seqRun_fbi_eq (s : State) (n : Nat) (g : Fbi → Fbi) : (s.seqRun n g).fbi =
    { g { s.fbi with
        seqWait := s.fbi.seqBegin.seqWait, seqTime := s.fbi.seqBegin.seqTime, seqExpired := s.fbi.seqBegin.seqExpired
        captured := decide (s.fbi.seqPos ≠ 0) && s.fbi.captured, apHold := false } with
      seqPos := ((g s.fbi.seqBegin).seqNext n).seqPos, seqWait := ((g s.fbi.seqBegin).seqNext n).seqWait
      seqTime := ((g s.fbi.seqBegin).seqNext n).seqTime } := by
  rw [State.seqRun_fbi, seqNext_eq, ← seqBegin_eq]

theorem seqRun_loopOpened (s : State) (n : Nat) {g : Fbi → Fbi} (hg : ∀ f, (g f).captured = f.captured) :
    loopOpened s.fbi (s.seqRun n g).fbi := by
  rw [seqRun_fbi_eq]
  exact hg _

/-! ### NOP, `flwctl` and `send` (R704, R705, R710, R713) -/

/-- What `takeWords` answers: the oldest words, none for those that are missing, and the words left. -/
theorem takeWords_eq (n : Nat) (ws : List Word) :
    takeWords n ws = ((ws.take n).map some ++ List.replicate (n - ws.length) none, ws.drop n) := by
  fun_induction takeWords n ws with
  | case1 => simp
  | case2 n ih => simp [ih, List.replicate_succ]
  | case3 n w ws ih => simp [ih]

/-- With zeros for those that are missing. -/
theorem takeWords_getD_zero (n : Nat) (ws : List Word) :
    (takeWords n ws).1.map (·.getD 0) = ws.take n ++ List.replicate (n - ws.length) 0 := by
  simp [takeWords_eq, Function.comp_def]

theorem mapIdx_getD_map_some (ws : List Word) (d : Nat → Word) :
    (ws.map some).mapIdx (fun i w => w.getD (d i)) = ws :=
  List.ext_getElem (by simp) fun i _ _ => by simp

theorem nop_exec (s : State) : ∀ p ∈ nopRows, exec p.1 s = .next (s.seqNop p.2) := by
  simp only [nopRows, List.forall_mem_cons]
  exact ⟨rfl, rfl, rfl, rfl, rfl, rfl, rfl, rfl, fun _ h => nomatch h⟩

theorem send_exec (s : State) : ∀ p ∈ sendRows, exec p.1 s = .next (s.send p.2) := by
  simp only [sendRows, List.forall_mem_cons]
  exact ⟨rfl, rfl, rfl, rfl, rfl, rfl, rfl, rfl, fun _ h => nomatch h⟩

theorem flwctl_exec (s : State) : exec .flwctl s = .next s.flwctl := rfl

/-- The state after a `send` of `n` longwords, but for the longwords on the Ready Bus. -/
def State.sentWords (s : State) (n : Nat) : State :=
  s.seqRun (8 * n + 1) fun f => { f with sendCmd := s.fbi.sendCmd.drop n }

theorem sentWords_moved (s : State) (n : Nat) :
    seqMoved (8 * n + 1) s.fbi (s.sentWords n).fbi ∧ loopOpened s.fbi (s.sentWords n).fbi ∧
      (s.sentWords n).fbi = { seqTouched s.fbi (s.sentWords n).fbi with sendCmd := (s.sentWords n).fbi.sendCmd } :=
  ⟨seqRun_moved _ _ _ fun _ => ⟨rfl, rfl, rfl, rfl⟩, seqRun_loopOpened _ _ fun _ => rfl,
    by rw [State.sentWords, seqRun_fbi_eq]; rfl⟩

theorem sentWords_sendCmd (s : State) (n : Nat) : (s.sentWords n).fbi.sendCmd = s.fbi.sendCmd.drop n := by
  rw [State.sentWords, seqRun_fbi_eq]

theorem send_eq (s : State) (n : Nat) :
    s.send n = { s.sentWords n with
      outputs := s.outputs ++
        (s.fbi.sendCmd.take n ++ List.replicate (n - s.fbi.sendCmd.length) 0).map Output.readyBusSend } := by
  rw [← takeWords_getD_zero, List.map_map]
  simp only [State.send, takeWords_eq]
  rfl

/-- The state after a `flwctl`, with valid data or without, but for what it sends on the Ready Bus. -/
def State.flowSent (s : State) : State :=
  s.seqRun (if s.fbi.fcma = true then 6 else 1) fun f => { f with fcma := false }

theorem flowSent_moved (s : State) :
    seqMoved (if s.fbi.fcma = true then 6 else 1) s.fbi s.flowSent.fbi ∧ loopOpened s.fbi s.flowSent.fbi ∧
      s.flowSent.fbi = { seqTouched s.fbi s.flowSent.fbi with fcma := s.flowSent.fbi.fcma } :=
  ⟨seqRun_moved _ _ _ fun _ => ⟨rfl, rfl, rfl, rfl⟩, seqRun_loopOpened _ _ fun _ => rfl,
    by rw [State.flowSent, seqRun_fbi_eq]; rfl⟩

theorem flowSent_fcma (s : State) : s.flowSent.fbi.fcma = false := by
  rw [State.flowSent, seqRun_fbi_eq]

/-- Without valid data FCMA is clear already. -/
theorem flwctl_eq (s : State) :
    s.flwctl = { s.flowSent with
      outputs := if s.fbi.fcma = true
        then s.outputs ++ [.flowControl (getField .fcMac 3 s.fbi.flowMask) (getField .fcMask 8 s.fbi.flowMask)]
        else s.outputs } := by
  unfold State.flwctl State.flowSent
  split
  next => rfl
  next hclear =>
    have hkept : s.fbi.seqBegin = { s.fbi.seqBegin with fcma := false } := by
      rw [seqBegin_eq, ← Bool.eq_false_iff.2 hclear]
    exact congrArg (fun f => s.withFbi (f.seqNext 1)) hkept

/-- Settles O35: each is one run of the sequencer, with the effect its equation shows. -/
theorem sequencerNopsFlowControlAndSend : Obligations.SequencerNopsFlowControlAndSend := by
  refine ⟨fun p hp s => ⟨_, nop_exec s p hp, ?nop⟩,
    fun s => ⟨_, (flwctl_exec s).trans (congrArg _ (flwctl_eq s)), ?flwctl⟩,
    fun p hp s => ⟨_, (send_exec s p hp).trans (congrArg _ (send_eq s p.2)), ?send⟩⟩
  case nop =>
    unfold State.seqNop
    exact ⟨rfl, seqRun_moved _ _ _ fun _ => ⟨rfl, rfl, rfl, rfl⟩, seqRun_loopOpened _ _ fun _ => rfl,
      by rw [seqRun_fbi_eq]; rfl⟩
  case flwctl => exact ⟨rfl, rfl, flowSent_fcma s, flowSent_moved s⟩
  case send => exact ⟨rfl, sentWords_sendCmd s p.2, rfl, sentWords_moved s p.2⟩

/-! ### Ready flags (R706, R707, R717) -/

theorem capture_eq (f : Fbi) : f.capture = { f with
    reqCapture := if f.captured = true then f.reqCapture else f.reqCount, captured := true } := by
  unfold Fbi.capture
  split
  next hdone => rw [← hdone]
  next => rfl

theorem seqRun_captureDone (s : State) (n : Nat) {g : Fbi → Fbi} (hcaptured : ∀ f, (g f).captured = true)
    (hcount : ∀ f, (g f).reqCapture = if f.captured = true then f.reqCapture else f.reqCount) :
    captureDone s.fbi (s.seqRun n g).fbi := by
  rw [seqRun_fbi_eq]
  refine ⟨hcaptured _, (hcount _).trans ?_⟩
  simp only [Bool.and_eq_true, decide_eq_true_eq]

theorem rxrdy_exec (s : State) : ∀ p ∈ rxrdyRows, exec p.1 s = .next (s.rxrdy p.2.1 p.2.2) := by
  intro p hp
  fin_cases hp <;> rfl

theorem txrdy_exec (s : State) : ∀ p ∈ txrdyRows, exec p.1 s = .next (s.txrdy p.2.1 p.2.2) := by
  intro p hp
  fin_cases hp <;> rfl

/-- The MACs from `a` to `b` are those collected. -/
theorem collect_range_byte (fl : Vector Byte 7) (a b : Nat) (p : Word × Word) (k : Fin 7) :
    readyByte (collect fl a (b + 1 - a) p).1 (collect fl a (b + 1 - a) p).2 k
      = if a ≤ k.val ∧ k.val ≤ b then fl[k] else readyByte p.1 p.2 k := by
  rw [collect_byte]
  exact if_congr (by omega) rfl rfl

/-- Settles O36: the pair of the row takes what is collected, and the capture is of the loop's first. -/
theorem readyFlagsCollected : Obligations.ReadyFlagsCollected := by
  refine ⟨fun p hp s => ⟨_, rxrdy_exec s p hp, rfl, ?rx⟩, fun p hp s => ⟨_, txrdy_exec s p hp, rfl, ?tx⟩⟩
  case rx =>
    simp only [State.rxrdy, capture_eq]
    refine ⟨fun k => ?_, seqRun_moved _ _ _ fun _ => ⟨rfl, rfl, rfl, rfl⟩,
      seqRun_captureDone _ _ (fun _ => rfl) fun _ => rfl, by rw [seqRun_fbi_eq]; rfl⟩
    rw [seqRun_fbi_eq]
    exact collect_range_byte ..
  case tx =>
    simp only [State.txrdy, capture_eq]
    refine ⟨fun k => ?_, seqRun_moved _ _ _ fun _ => ⟨rfl, rfl, rfl, rfl⟩,
      seqRun_captureDone _ _ (fun _ => rfl) fun _ => rfl, by rw [seqRun_fbi_eq]; rfl⟩
    rw [seqRun_fbi_eq]
    exact collect_range_byte ..

/-! ### Autopush requests (R708, R709) -/

theorem rxAutopush_eq (s : State) : s.rxAutopush = s.seqRun 3 fun f => { f with
    rdyCount := f.rdyCount + 1, rxPush := f.rxPush || f.rxApEnable
    apJoined := if f.rxApEnable = true then s.fbi.apHold else f.apJoined
    apHold := if f.rxApEnable = true then f.autopushNext else f.apHold } := by
  refine congrArg (s.seqRun 3) (funext fun f => ?_)
  by_cases henable : f.rxApEnable = true
  · have hpush : (f.rxPush || f.rxApEnable) = true := by rw [henable, Bool.or_true]
    simp only [hpush, if_pos henable]
    rfl
  · have hpush : (f.rxPush || f.rxApEnable) = f.rxPush := by rw [Bool.eq_false_iff.2 henable, Bool.or_false]
    simp only [hpush, if_neg henable]

theorem txAutopush_eq (s : State) : s.txAutopush = s.seqRun 3 fun f => { f with
    txPush := f.txPush || f.txApEnable
    apJoined := if f.txApEnable = true then s.fbi.apHold else f.apJoined
    apHold := if f.txApEnable = true then f.autopushNext else f.apHold } := by
  refine congrArg (s.seqRun 3) (funext fun f => ?_)
  by_cases henable : f.txApEnable = true
  · have hpush : (f.txPush || f.txApEnable) = true := by rw [henable, Bool.or_true]
    simp only [hpush, if_pos henable]
    rfl
  · have hpush : (f.txPush || f.txApEnable) = f.txPush := by rw [Bool.eq_false_iff.2 henable, Bool.or_false]
    simp only [hpush, if_neg henable]

theorem rxAutopush_exec (s : State) : exec .rxAutopush s = .next s.rxAutopush := rfl
theorem txAutopush_exec (s : State) : exec .txAutopush s = .next s.txAutopush := rfl

/-- Settles O37: either is one run of the sequencer, whose marks change only where the push is enabled. -/
theorem autopushRequested : Obligations.AutopushRequested := by
  refine fun s => ⟨⟨_, rxAutopush_exec s, rfl, ?rx⟩, ⟨_, txAutopush_exec s, rfl, ?tx⟩⟩
  case rx =>
    rw [rxAutopush_eq]
    exact ⟨by rw [seqRun_fbi_eq], by rw [seqRun_fbi_eq], seqRun_moved _ _ _ fun _ => ⟨rfl, rfl, rfl, rfl⟩,
      seqRun_loopOpened _ _ fun _ => rfl, fun h => by rw [seqRun_fbi_eq]; exact if_pos h,
      fun h => by rw [seqRun_fbi_eq]; exact if_neg (Bool.eq_false_iff.1 h), by rw [seqRun_fbi_eq]; rfl⟩
  case tx =>
    rw [txAutopush_eq]
    exact ⟨by rw [seqRun_fbi_eq], seqRun_moved _ _ _ fun _ => ⟨rfl, rfl, rfl, rfl⟩,
      seqRun_loopOpened _ _ fun _ => rfl, fun h => by rw [seqRun_fbi_eq]; exact if_pos h,
      fun h => by rw [seqRun_fbi_eq]; exact if_neg (Bool.eq_false_iff.1 h), by rw [seqRun_fbi_eq]; rfl⟩

/-! ### `get1` and `get2` (R711, R712) -/

theorem get1_exec (s : State) : ∀ p ∈ get1Rows, exec p.1 s = finish (s.get1 p.2) := by
  simp only [get1Rows, List.forall_mem_cons]
  exact ⟨rfl, rfl, rfl, rfl, rfl, rfl, rfl, rfl, fun _ h => nomatch h⟩

theorem get2_exec (s : State) : ∀ p ∈ get2Rows, exec p.1 s = finish (s.get2 p.2) := by
  simp only [get2Rows, List.forall_mem_cons]
  exact ⟨rfl, rfl, rfl, rfl, rfl, rfl, rfl, rfl, fun _ h => nomatch h⟩

/-- The state once `vs` are at the end of GET_CMD, after a `get` of `n` longwords. -/
def State.gotWords (s : State) (n : Nat) (vs : List Word) : State :=
  s.seqRun (8 * n + 1) fun f => { f with getCmd := f.getCmd ++ vs }

theorem gotWords_getCmd (s : State) (n : Nat) (vs : List Word) :
    (s.gotWords n vs).fbi.getCmd = s.fbi.getCmd ++ vs := by
  rw [State.gotWords, seqRun_fbi_eq]

theorem gotWords_moved (s : State) (n : Nat) (vs : List Word) :
    seqMoved (8 * n + 1) s.fbi (s.gotWords n vs).fbi ∧ loopOpened s.fbi (s.gotWords n vs).fbi ∧
      (s.gotWords n vs).fbi =
        { seqTouched s.fbi (s.gotWords n vs).fbi with getCmd := (s.gotWords n vs).fbi.getCmd } :=
  ⟨seqRun_moved _ _ _ fun _ => ⟨rfl, rfl, rfl, rfl⟩, seqRun_loopOpened _ _ fun _ => rfl,
    by rw [State.gotWords, seqRun_fbi_eq]; rfl⟩

/-- The unspecified longwords of a `get2` for which the external FIFO has none: draws, each numbered by its place among the
`n`. -/
def State.drawnWords (s : State) (n : Nat) : List Word :=
  (List.replicate (n - s.env.chained.length) none).mapIdx fun i w =>
    w.getD (Config.freeWord .readyBusData (s.free + (i + (s.env.chained.take n).length)))

theorem drawnWords_length (s : State) (n : Nat) : (s.drawnWords n).length = n - s.env.chained.length := by
  simp [State.drawnWords]

section
variable {s : State} {n : Nat}

theorem get1_of_room (h : s.fbi.getCmd.length + n ≤ 8) : s.get1 n = .ok
    { s.gotWords n (s.env.slave.take n ++ List.replicate (n - s.env.slave.length) 0) with
      env := { s.env with slave := s.env.slave.drop n } } := by
  rw [← takeWords_getD_zero]
  simp only [State.get1, h, decide_true, require_true, takeWords_eq]
  rfl

theorem get2_of_room (h : s.fbi.getCmd.length + n ≤ 8) : s.get2 n = .ok
    { s.gotWords n (s.env.chained.take n ++ s.drawnWords n) with
      env := { s.env with chained := s.env.chained.drop n }, free := s.free + n } := by
  have hwords : (takeWords n s.env.chained).1.mapIdx (fun i w => w.getD (Config.freeWord .readyBusData (s.free + i)))
      = s.env.chained.take n ++ s.drawnWords n := by
    rw [takeWords_eq, List.mapIdx_append, mapIdx_getD_map_some, List.length_map]
    rfl
  rw [← hwords]
  simp only [State.get2, h, decide_true, require_true, takeWords_eq]
  rfl

theorem get1_of_full (h : 8 < s.fbi.getCmd.length + n) : s.get1 n = .error (.refused .ringOverflow) := by
  simp only [State.get1, Nat.not_le.2 h, decide_false, require_false]
  rfl

theorem get2_of_full (h : 8 < s.fbi.getCmd.length + n) : s.get2 n = .error (.refused .ringOverflow) := by
  simp only [State.get2, Nat.not_le.2 h, decide_false, require_false]
  rfl

end

/-- Settles O38: with room the words are appended, those missing as zeros or as draws; without, the check refuses. -/
theorem getAppends : Obligations.GetAppends := by
  refine ⟨fun p hp s => ⟨fun hroom => ⟨_, (get1_exec s p hp).trans (congrArg finish (get1_of_room hroom)), ?get1⟩,
      fun hfull => (get1_exec s p hp).trans (congrArg finish (get1_of_full hfull))⟩,
    fun p hp s => ⟨fun hroom => ⟨_, s.drawnWords p.2,
        (get2_exec s p hp).trans (congrArg finish (get2_of_room hroom)), ?get2⟩,
      fun hfull => (get2_exec s p hp).trans (congrArg finish (get2_of_full hfull))⟩⟩
  case get1 =>
    exact ⟨by rw [List.append_assoc]; exact gotWords_getCmd .., rfl, rfl, gotWords_moved ..⟩
  case get2 =>
    exact ⟨by rw [List.append_assoc]; exact gotWords_getCmd .., drawnWords_length s p.2, rfl, rfl,
      gotWords_moved ..⟩

/-! ### The reach of a sequencer instruction (R700, R706 to R713) -/

/-- The family of an instruction of the sequencer, in the order of its opcode tables. -/
theorem seqFamily {i : Instr} (h : i.isSeq = true) :
    (∃ p ∈ nopRows, p.1 = i) ∨ (∃ p ∈ rxrdyRows, p.1 = i) ∨ (∃ p ∈ txrdyRows, p.1 = i) ∨
      (i = .rxAutopush ∨ i = .txAutopush ∨ i = .flwctl) ∨
      (∃ p ∈ get1Rows, p.1 = i) ∨ (∃ p ∈ get2Rows, p.1 = i) ∨ (∃ p ∈ sendRows, p.1 = i) := by
  obtain ⟨b, hb⟩ := Option.isSome_iff_exists.1 h
  have hmem : i ∈ seqTable.map Prod.snd :=
    List.mem_map_of_mem (f := Prod.snd) (mem_of_lookupOpcode (decodeSeq_eq_some_iff.2 hb))
  have hsingle : i ∈ singleTable.map Prod.snd ↔ i = .rxAutopush ∨ i = .txAutopush ∨ i = .flwctl := by
    simp [singleTable]
  simp only [← hsingle, ← List.mem_map (f := Prod.fst)]
  simp only [seqTable, List.map_append, List.mem_append, or_assoc] at hmem
  exact hmem

/-- `f` with every field that some sequencer instruction changes taken from `f'`. -/
def seqReach (f f' : Fbi) : Fbi :=
  { seqTouched f f' with
    reqCapture := f'.reqCapture, rcvRdyHi := f'.rcvRdyHi, rcvRdyLo := f'.rcvRdyLo
    xmitRdyHi := f'.xmitRdyHi, xmitRdyLo := f'.xmitRdyLo, rdyCount := f'.rdyCount
    rxPush := f'.rxPush, txPush := f'.txPush, apJoined := f'.apJoined
    getCmd := f'.getCmd, sendCmd := f'.sendCmd, fcma := f'.fcma }

/-- `s` with everything that some sequencer instruction reaches taken from `t`: the FBI Unit, the longwords offered on the
Ready Bus, the outputs and the draw counter. -/
def seqReachState (s t : State) : State :=
  { s with fbi := t.fbi, env := t.env, outputs := t.outputs, free := t.free }

/-- What every sequencer instruction keeps. -/
def seqLocal (s t : State) : Prop := t = seqReachState s t ∧ t.fbi = seqReach s.fbi t.fbi

/-- A frame that leaves less to the new state than `seqReachState` and `seqReach` do is within them. -/
theorem seqLocal_of_frame {s t state : State} {fbi : Fbi} (hstate : t = state)
    (hstateReach : seqReachState state t = seqReachState s t) (hfbi : t.fbi = fbi)
    (hreach : seqReach fbi t.fbi = seqReach s.fbi t.fbi) : seqLocal s t where
  left :=
    calc t = seqReachState t t := rfl
      _ = seqReachState state t := congrArg (seqReachState · t) hstate
      _ = seqReachState s t := hstateReach
  right :=
    calc t.fbi = seqReach t.fbi t.fbi := rfl
      _ = seqReach fbi t.fbi := congrArg (seqReach · t.fbi) hfbi
      _ = seqReach s.fbi t.fbi := hreach

section
variable {s t : State} (h : seqLocal s t)
include h

theorem seqLocal.sameMemory : sameMemory s t := by
  obtain ⟨hstate, hfbi⟩ := h
  have hscratch : t.fbi.scratch = s.fbi.scratch := by rw [hfbi]; rfl
  have hrfifo : t.fbi.rfifo = s.fbi.rfifo := by rw [hfbi]; rfl
  have htfifo : t.fbi.tfifo = s.fbi.tfifo := by rw [hfbi]; rfl
  have hsdram : t.sdram = s.sdram := by rw [hstate]; rfl
  have hsram : t.sram = s.sram := by rw [hstate]; rfl
  intro a
  simp only [hscratch, hrfifo, htfifo, hsdram, hsram, and_self]

theorem seqLocal.me (k : Fin 6) : t.me k = s.me k := by
  obtain ⟨hstate, -⟩ := h
  rw [hstate]; rfl

theorem seqLocal.fbi_eq : t.fbi = seqReach s.fbi t.fbi := by
  obtain ⟨-, hfbi⟩ := h
  exact hfbi

theorem seqLocal.state_eq :
    t = { s with fbi := t.fbi, mes := t.mes, env := t.env, outputs := t.outputs, free := t.free } := by
  obtain ⟨hstate, -⟩ := h
  have hmes : t.mes = s.mes := by rw [hstate]; rfl
  rw [hmes]
  exact hstate

end

/-- Every sequencer instruction that completes is local: the frames of O35 to O38, family by family. -/
theorem seqLocal_of_exec {i : Instr} {s t : State} (hi : i.isSeq = true) (ht : exec i s = .next t) : seqLocal s t := by
  obtain ⟨hnop, hflwctl, hsend⟩ := sequencerNopsFlowControlAndSend
  obtain ⟨hrxrdy, htxrdy⟩ := readyFlagsCollected
  obtain ⟨hrx, htx⟩ := autopushRequested s
  obtain ⟨hget1, hget2⟩ := getAppends
  have of_next : ∀ {u : State}, exec i s = .next u → seqLocal s u → seqLocal s t := fun hu hlocal => by
    cases hu.symm.trans ht; exact hlocal
  rcases seqFamily hi with ⟨p, hp, rfl⟩ | ⟨p, hp, rfl⟩ | ⟨p, hp, rfl⟩ | (rfl | rfl | rfl) | ⟨p, hp, rfl⟩ |
    ⟨p, hp, rfl⟩ | ⟨p, hp, rfl⟩
  · obtain ⟨u, hu, hstate, -, -, hfbi⟩ := hnop p hp s
    exact of_next hu (seqLocal_of_frame hstate rfl hfbi rfl)
  · obtain ⟨u, hu, hstate, -, -, -, hfbi⟩ := hrxrdy p hp s
    exact of_next hu (seqLocal_of_frame hstate rfl hfbi rfl)
  · obtain ⟨u, hu, hstate, -, -, -, hfbi⟩ := htxrdy p hp s
    exact of_next hu (seqLocal_of_frame hstate rfl hfbi rfl)
  · obtain ⟨u, hu, hstate, -, -, -, -, -, -, hfbi⟩ := hrx
    exact of_next hu (seqLocal_of_frame hstate rfl hfbi rfl)
  · obtain ⟨u, hu, hstate, -, -, -, -, -, hfbi⟩ := htx
    exact of_next hu (seqLocal_of_frame hstate rfl hfbi rfl)
  · obtain ⟨u, hu, hstate, -, -, -, -, hfbi⟩ := hflwctl s
    exact of_next hu (seqLocal_of_frame hstate rfl hfbi rfl)
  · obtain ⟨hroom, hfull⟩ := hget1 p hp s
    by_cases hfits : s.fbi.getCmd.length + p.2 ≤ 8
    · obtain ⟨u, hu, -, -, hstate, -, -, hfbi⟩ := hroom hfits
      exact of_next hu (seqLocal_of_frame hstate rfl hfbi rfl)
    · exact nomatch (hfull (Nat.lt_of_not_le hfits)).symm.trans ht
  · obtain ⟨hroom, hfull⟩ := hget2 p hp s
    by_cases hfits : s.fbi.getCmd.length + p.2 ≤ 8
    · obtain ⟨u, _, hu, -, -, -, hstate, -, -, hfbi⟩ := hroom hfits
      exact of_next hu (seqLocal_of_frame hstate rfl hfbi rfl)
    · exact nomatch (hfull (Nat.lt_of_not_le hfits)).symm.trans ht
  · obtain ⟨u, hu, -, -, hstate, -, -, hfbi⟩ := hsend p hp s
    exact of_next hu (seqLocal_of_frame hstate rfl hfbi rfl)

/-- Settles O60: what every sequencer instruction keeps, by its family. -/
theorem sequencerInstructionIsLocal : Obligations.SequencerInstructionIsLocal := by
  intro i s t hi ht
  have hlocal : seqLocal s t := seqLocal_of_exec hi ht
  refine ⟨hlocal.sameMemory, hlocal.state_eq, hlocal.fbi_eq, fun k => ?_⟩
  rw [hlocal.me k]
  exact ⟨regsKept_refl _, rfl⟩

end Sys2Proof.Machine
end

section
/-! Bit operations and push-pop of the SRAM Unit (52_sram_unit.md R890 to R893, R920): one SSRAM longword replaced,
what a bit operation leaves of it and returns, and a pop as the inverse of a push. -/

namespace Sys2Proof.Machine

/-! ### Bit operations (R753, R754, R920) -/

theorem bitResult_eq (op : BitOp) (old m : Word) :
    bitResult op old m = if op = .setBits ∨ op = .testAndSet then old ||| m else old &&& ~~~m := by
  cases op <;> simp [bitResult]

theorem bitTests_iff (op : BitOp) : bitTests op = true ↔ op = .testAndSet ∨ op = .testAndClear := by
  cases op <;> simp [bitTests]

/-! ### Delivery -/

/-- A completion that pushes nothing delivers nothing. -/
theorem completed_sramDelivered (s : State) (c : Cmd) : sramDelivered s (s.completed c) c := fun k =>
  ⟨by rw [State.completed_sramRd]; exact State.completed_me s c k, fun _ => State.completed_sramRd s c k⟩

/-- One register pushed is the only one that changes. -/
theorem pushSram_one_completed_get (s : State) (c : Cmd) (x : Nat) (v : Word) (r : Fin 32) :
    (((s.pushSram c.xfMe x [v]).completed c).me c.xfMe).sramRd[r] =
      if r.val = x then v else (s.me c.xfMe).sramRd[r] := by
  obtain ⟨hin, hout⟩ := pushSram_completed_fileHolds (s := s) (d := c) (y := x) (n := 1) rfl (singleton_get v)
  split
  next heq => exact (Option.some.inj (hin r (by omega) (by omega))).symm
  next hne => exact hout r (by omega)

section
variable {s : State} {c : Cmd} {a old m v : Word} {k x : Nat} {op : BitOp}

/-! ### One SSRAM longword -/

/-- The state with one SSRAM longword replaced. -/
def State.ssramPut (s : State) (k : Nat) (v : Word) : State :=
  s.withSram { s.sram with mem := s.sram.mem.writeWord k v }

theorem ssramRead_ok (hin : 4 * (k + 1) ≤ s.board.sramBytes) (hv : s.sram.mem.readWord k = some v) :
    s.ssramRead k = .ok v := by
  rw [State.ssramRead, ssramOk_of_le hin, hv]; rfl

theorem ssramWrite_ok (v : Word) (hin : 4 * (k + 1) ≤ s.board.sramBytes) :
    s.ssramWrite k v = .ok (s.ssramPut k v) := by
  rw [State.ssramWrite, ssramOk_of_le hin]; rfl

/-- A bit operation on a longword that has been written; the test forms also push the value from before. -/
theorem sramBit_served (hop : c.op = .sramBit a x op) (hin : 4 * (a.toNat + 1) ≤ s.board.sramBytes)
    (hold : s.sram.mem.readWord a.toNat = some old) (hm : (s.me c.xfMe).sramWr[x]? = some m) :
    s.sramServe c = .ok ((if bitTests op then (s.ssramPut a.toNat (bitResult op old m)).pushSram c.xfMe x [old]
      else s.ssramPut a.toNat (bitResult op old m)).completed c) := by
  simp only [State.sramServe, hop, State.sramBits, pullSram_one hm, ssramRead_ok hin hold, ssramWrite_ok _ hin, ok_bind,
    res_pure, List.headD_cons]

/-! ### Push and pop (R892, R893) -/

theorem sramPush_served {k : Fin 8} (hop : c.op = .sramPush m k) (hin : 4 * (m.toNat + 1) ≤ s.board.sramBytes) :
    s.sramServe c = .ok ((s.withSram { s.sram with
      mem := s.sram.mem.writeWord m.toNat s.sram.pushPop[k], pushPop := s.sram.pushPop.set k m }).completed c) := by
  simp only [State.sramServe, hop, State.push, ssramWrite_ok _ hin, ok_bind, res_pure]
  rfl

theorem sramPop_served {k : Fin 8} (hop : c.op = .sramPop x k) (hm : s.sram.pushPop[k] = m)
    (hin : 4 * (m.toNat + 1) ≤ s.board.sramBytes) (hv : s.sram.mem.readWord m.toNat = some v) :
    s.sramServe c = .ok (((s.withSram { s.sram with pushPop := s.sram.pushPop.set k v }).pushSram c.xfMe x
      [m]).completed c) := by
  simp only [State.sramServe, hop, State.pop, hm, ssramRead_ok hin hv, ok_bind, res_pure]

end

/-- Settles O41: the operation writes the longword, and the test forms push its value from before. -/
theorem sramBitOperation : Obligations.SramBitOperation := by
  intro s c a x op old m hop _ hin hold hm
  have hword : (s.sram.mem.writeWord a.toNat (bitResult op old m)).readWord a.toNat = _ :=
    (Mem.readWord_writeWord _ _ _).trans (congrArg some (bitResult_eq op old m))
  have hkept := fun b hb => Mem.read_writeWord_ne s.sram.mem a.toNat b (bitResult op old m) hb
  refine ⟨_, sramBit_served hop hin hold hm, ?_⟩
  by_cases htest : op = .testAndSet ∨ op = .testAndClear
  · rw [(bitTests_iff op).2 htest, if_pos rfl, State.completed_eq]
    refine ⟨hword, hkept, rfl, rfl, fun r => ?_,
      sramDelivered_of_withSram (State.pushSram_completed_delivered _ c x [old])⟩
    simp only [htest, and_true]
    exact pushSram_one_completed_get _ c x old r
  · rw [if_neg (mt (bitTests_iff op).1 htest), State.completed_eq]
    refine ⟨hword, hkept, rfl, rfl, fun r => ?_, sramDelivered_of_withSram (completed_sramDelivered _ c)⟩
    simp only [htest, and_false, if_false]
    exact congrArg (·[r]) (State.completed_sramRd (s.ssramPut _ _) c c.xfMe)

/-- Settles O42: the longword the push stores is the one the pop reads. -/
theorem pushThenPop : Obligations.PushThenPop := by
  intro s c d m k x hc hd hx hin
  have hlink := Mem.readWord_writeWord s.sram.mem m.toNat s.sram.pushPop[k]
  have hpush := sramPush_served hc hin
  rw [State.completed_eq] at hpush
  refine ⟨_, _, hpush, sramPop_served hd (Vector.getElem_set_self _) hin hlink, hlink, rfl,
    fun b hb => Mem.read_writeWord_ne _ _ b _ hb, ?delivered, ?restored, ?kept⟩
  case delivered =>
    refine (getElem?_pos _ x hx).trans (congrArg some ?_)
    exact (pushSram_one_completed_get _ d x m ⟨x, hx⟩).trans (if_pos rfl)
  case restored =>
    rw [State.completed_eq]
    show (s.sram.pushPop.set k m).set k s.sram.pushPop[k] = s.sram.pushPop
    simp
  case kept => rw [State.completed_eq]; rfl

end Sys2Proof.Machine
end

section
/-! The scratchpad of the FBI Unit (50_fbi_unit.md R750 to R755): bursts read and written, and the read-modify-writes,
whose test forms return the value from before through the Push Engine. -/

namespace Sys2Proof.Machine

section
variable {s t : State} {c : Cmd} {f : Fbi} {a old m : Word} {x n : Nat} {op : BitOp}

/-! ### What the FBI's engines share -/

/-- A completion after a change of the FBI Unit changes the microengines alone. -/
theorem completed_fbi_eq (s : State) (f : Fbi) (c : Cmd) :
    (s.withFbi f).completed c = { s with fbi := f, mes := (s.completed c).mes } := by
  rw [completed_withFbi, s.completed_eq c]
  rfl

/-- A replaced FBI Unit is no part of what a delivery leaves of the microengines. -/
theorem sramDelivered_of_withFbi (h : sramDelivered (s.withFbi f) t c) : sramDelivered s t c := by
  intro k
  have hk := h k
  rwa [completed_withFbi] at hk

/-! ### Bursts (R751, R752) -/

theorem scratchOk_of_le (h : a.toNat + n ≤ 1024) : scratchOk a n = true := decide_eq_true h

theorem scratchOk_of_lt (h : 1024 < a.toNat + n) : scratchOk a n = false := decide_eq_false (Nat.not_le.2 h)

theorem scratchRead_served {ws : List Word} (hop : c.op = .scratchRead a x n) (hin : a.toNat + n ≤ 1024)
    (hws : s.fbi.scratch.readWords a.toNat n = some ws) :
    s.pushServe c = .ok ((s.pushSram c.xfMe x ws).completed c) := by
  simp only [State.pushServe, hop, scratchOk_of_le hin, require_true, hws, written_some, ok_bind, res_pure]

theorem scratchWrite_served (hop : c.op = .scratchWrite a x n) (hin : a.toNat + n ≤ 1024) :
    s.pullServe c = .ok ((s.withFbi { s.fbi with
      scratch := s.fbi.scratch.writeWords a.toNat (s.pullSram c.xfMe x n) }).completed c) := by
  simp only [State.pullServe, hop, scratchOk_of_le hin, require_true, ok_bind, res_pure]

/-- A burst outside the scratchpad is refused (U11). -/
theorem scratchRead_outside (hop : c.op = .scratchRead a x n) (hout : 1024 < a.toNat + n) :
    s.pushServe c = .error (.refused .addressRange) := by
  simp only [State.pushServe, hop, scratchOk_of_lt hout, require_false, error_bind]

theorem scratchWrite_outside (hop : c.op = .scratchWrite a x n) (hout : 1024 < a.toNat + n) :
    s.pullServe c = .error (.refused .addressRange) := by
  simp only [State.pullServe, hop, scratchOk_of_lt hout, require_false, error_bind]

/-! ### Read-modify-writes (R753 to R755) -/

theorem scratchOld_ok (hin : a.toNat < 1024) (hold : s.fbi.scratch.readWord a.toNat = some old) :
    s.scratchOld a = .ok old := by
  have hok : scratchOk a 1 = true := scratchOk_of_le hin
  simp only [State.scratchOld, hok, require_true, hold, written_some, ok_bind]

/-- The longword put is read back, and every other byte of the scratchpad stays. -/
theorem scratchPut_spec (s : State) (a v : Word) :
    (s.scratchPut a v).fbi.scratch.readWord a.toNat = some v ∧
      ∀ b, b < 4 * a.toNat ∨ 4 * a.toNat + 4 ≤ b → (s.scratchPut a v).fbi.scratch.read b = s.fbi.scratch.read b :=
  ⟨Mem.readWord_writeWord .., fun b hb => Mem.read_writeWord_ne _ _ b _ hb⟩

theorem completed_scratchPut (s : State) (a v : Word) (c : Cmd) : (s.scratchPut a v).completed c =
    { s with fbi := (s.scratchPut a v).fbi, mes := (s.completed c).mes } := completed_fbi_eq s _ c

theorem scratchIncr_served (hop : c.op = .scratchIncr a) (hin : a.toNat < 1024)
    (hold : s.fbi.scratch.readWord a.toNat = some old) :
    s.pullServe c = .ok ((s.scratchPut a (old + 1)).completed c) := by
  simp only [State.pullServe, hop, scratchOld_ok hin hold, ok_bind, res_pure]

section
variable (hop : c.op = .scratchBit a x op) (hin : a.toNat < 1024)
  (hold : s.fbi.scratch.readWord a.toNat = some old) (hm : (s.me c.xfMe).sramWr[x]? = some m)
include hop hin hold hm

/-- A test form leaves the value from before to the Push Engine, which completes the command (R754). -/
theorem scratchTest_served (htest : bitTests op = true) :
    let t := s.scratchPut a (bitResult op old m)
    s.pullServe c = .ok (t.withFbi { t.fbi with tasRet := s.fbi.tasRet ++ [(c, x, old)] }) := by
  simp only [State.pullServe, hop, scratchOld_ok hin hold, pullSram_one hm, htest, if_true, ok_bind, res_pure,
    List.headD_cons]
  rfl

theorem scratchSet_served (htest : bitTests op = false) :
    s.pullServe c = .ok ((s.scratchPut a (bitResult op old m)).completed c) := by
  simp only [State.pullServe, hop, scratchOld_ok hin hold, pullSram_one hm, htest, Bool.false_eq_true, if_false,
    ok_bind, res_pure, List.headD_cons]

end

end

/-- Settles O44, by service. -/
theorem scratchpadOperations : Obligations.ScratchpadOperations := by
  intro s c a
  refine ⟨fun x n hop hspan => ⟨fun hin hwritten => ?read, scratchRead_outside hop⟩,
    fun x n hop hspan => ⟨fun hin => ?write, scratchWrite_outside hop⟩, fun x op old m hop hin hold hm => ?bits,
    fun x old rest _ hret => ?returned, fun old hop hin hold => ?increment⟩
  case read =>
    obtain ⟨ws, hws, hlen, hget⟩ := Mem.readWords_some s.fbi.scratch n a.toNat hwritten
    exact ⟨_, scratchRead_served hop hin hws, State.completed_eq _ _, pushSram_completed_fileHolds hlen hget,
      State.pushSram_completed_delivered s c x ws⟩
  case write =>
    have hlen : (s.pullSram c.xfMe x n).length = n := fileGets_length _ _ _
    refine ⟨_, scratchWrite_served hop hin, ?_⟩
    rw [completed_fbi_eq]
    refine ⟨fun i hi => ?_, fun b hb => Mem.read_writeWords_ne _ _ _ b (hlen.symm ▸ hb), rfl, rfl, rfl⟩
    exact (Mem.readWord_writeWords _ _ _ (hlen.symm ▸ hi)).trans (fileGets_get _ n x i hi hspan)
  case bits =>
    obtain ⟨hword, hkept⟩ := scratchPut_spec s a (bitResult op old m)
    have hresult := hword.trans (congrArg some (bitResult_eq op old m))
    cases htest : bitTests op with
    | true =>
      refine ⟨_, scratchTest_served hop hin hold hm htest, rfl, hresult, hkept, fun hset => ?_, fun _ => ⟨rfl, rfl⟩⟩
      rcases hset with rfl | rfl <;> cases htest
    | false =>
      refine ⟨_, scratchSet_served hop hin hold hm htest, ?_⟩
      rw [completed_scratchPut]
      refine ⟨rfl, hresult, hkept, fun _ => ⟨rfl, rfl⟩, fun hret => ?_⟩
      rw [(bitTests_iff op).2 hret] at htest
      cases htest
  case returned =>
    refine ⟨((s.withFbi { s.fbi with tasRet := rest }).pushSram c.xfMe x [old]).completed c, ?_, ?_, ?_,
      pushSram_completed_fileHolds (s := s.withFbi _) rfl (singleton_get old),
      sramDelivered_of_withFbi (State.pushSram_completed_delivered _ c x [old])⟩
    · simp only [State.fbiPushStep, hret]
    · rw [State.completed_eq]; rfl
    · rw [State.completed_eq]; rfl
  case increment =>
    obtain ⟨hword, hkept⟩ := scratchPut_spec s a (old + 1)
    refine ⟨_, scratchIncr_served hop hin hold, ?_⟩
    rw [completed_scratchPut]
    exact ⟨hword, hkept, rfl, rfl⟩

end Sys2Proof.Machine
end

section
/-! The FIFO transfers (50_fbi_unit.md R801, R817; 51_sdram_unit.md R850, R851, R861, R862): quadwords between registers
and a FIFO in either register order, the byte aligner, and quadwords between SDRAM and a FIFO. -/

namespace Sys2Proof.Machine

/-! ### Quadwords of a block written -/

section
variable (m : Mem) (a : Nat) {qs : List Quad} {k i : Nat}

theorem Mem.readQuad_writeQuads (h : k < qs.length) : (m.writeQuads a qs).readQuad (a + k) = some qs[k] := by
  have hlen : ((qs.take k).flatMap quadBytes).length = 8 * k := by
    rw [quadsBytes_length, List.length_take_of_le (Nat.le_of_lt h)]
  have hsplit : qs.flatMap quadBytes =
      (qs.take k).flatMap quadBytes ++ (quadBytes qs[k] ++ (qs.drop (k + 1)).flatMap quadBytes) := by
    rw [← List.flatMap_cons, List.getElem_cons_drop, ← List.flatMap_append, List.take_append_drop]
  rw [Mem.readQuad, Mem.writeQuads_eq_writeBytes, hsplit, Mem.writeBytes_append, Mem.writeBytes_append, hlen,
    ← Nat.mul_add, quadBytes_length, Mem.readBytes_writeBytes_ne _ _ _ 8 _ (.inl (Nat.le_refl _))]
  exact Mem.readQuad_writeQuad _ (a + k) qs[k]

theorem Mem.read_writeQuads (h : i < 8 * qs.length) :
    (m.writeQuads a qs).read (8 * a + i) = (qs.flatMap quadBytes)[i]? := by
  have hin : i < (qs.flatMap quadBytes).length := (quadsBytes_length qs).symm ▸ h
  rw [Mem.writeQuads_eq_writeBytes, Mem.read_writeBytes _ _ _ _ hin, List.getElem?_eq_getElem hin]

end

/-! ### Register order (D27) -/

/-- The longword that register `i` of a transfer exchanges with its quadword. -/
def fifoHalf (lowFirst : Bool) (i : Nat) (q : Quad) : Word :=
  if (i % 2 == 0) == lowFirst then quadLow q else quadHigh q

theorem fifoLong_eq (lowFirst : Bool) (m : Mem) (a i : Nat) :
    fifoLong lowFirst m a i = (m.readQuad (a + i / 2)).map (fifoHalf lowFirst i) := rfl

/-- Register `i` holds a half of quadword `i / 2`. -/
theorem fifoPairs_get (lowFirst : Bool) : ∀ (qs : List Quad) (i : Nat),
    (qs.flatMap (fifoPair lowFirst))[i]? = qs[i / 2]?.map (fifoHalf lowFirst i)
  | [], _ => rfl
  | q :: _, 0 => by cases lowFirst <;> rfl
  | q :: _, 1 => by cases lowFirst <;> rfl
  | q :: qs, i + 2 => by
    have htail := fifoPairs_get lowFirst qs i
    have hhalf : fifoHalf lowFirst (i + 2) = fifoHalf lowFirst i := by
      funext q; rw [fifoHalf, Nat.add_mod_right]; rfl
    rw [Nat.add_div_right i (by decide), hhalf, List.getElem?_cons_succ, ← htail]
    cases lowFirst <;> rfl

theorem fifoPairs_length (lowFirst : Bool) (qs : List Quad) :
    (qs.flatMap (fifoPair lowFirst)).length = 2 * qs.length := by
  have hpair : ∀ q, (fifoPair lowFirst q).length = 2 := fun q => by cases lowFirst <;> rfl
  simp [List.length_flatMap, hpair, Nat.mul_comm]

theorem fifoQuads_length (lowFirst : Bool) : ∀ ws : List Word, (fifoQuads lowFirst ws).length = ws.length / 2
  | [] | [_] => by simp [fifoQuads]
  | _ :: _ :: rest => by
    rw [fifoQuads, List.length_cons, fifoQuads_length lowFirst rest, List.length_cons, List.length_cons, Nat.add_assoc,
      Nat.add_div_right _ (by decide)]

theorem quadLow_quadOfWords (lo hi : Word) : quadLow (quadOfWords lo hi) = lo := BitVec.setWidth_append_eq_right

theorem quadHigh_quadOfWords (lo hi : Word) : quadHigh (quadOfWords lo hi) = hi := BitVec.extractLsb'_append_eq_left

/-- Quadwords made of an even number of registers give those registers back. -/
theorem fifoPairs_fifoQuads (lowFirst : Bool) : ∀ ws : List Word, ws.length % 2 = 0 →
    (fifoQuads lowFirst ws).flatMap (fifoPair lowFirst) = ws
  | [], _ => rfl
  | [_], h => nomatch h
  | r0 :: r1 :: rest, h => by
    have hrest : rest.length % 2 = 0 := by
      rwa [List.length_cons, List.length_cons, Nat.add_assoc, Nat.add_mod_right] at h
    rw [fifoQuads, List.flatMap_cons, fifoPairs_fifoQuads lowFirst rest hrest]
    cases lowFirst <;> simp [fifoPair, quadLow_quadOfWords, quadHigh_quadOfWords]

/-! ### The byte aligner (R850, R851) -/

section
variable {d : Sdram} {c : Cmd} {a : Word} {n : Nat} {align : BitVec 4}

theorem unstream_length (big : Bool) (bs : List Byte) : (unstream big bs n).length = n := by
  induction n generalizing bs with
  | zero => rfl
  | succ n ih => exact congrArg (· + 1) (ih _)

/-- In little-endian order the output quadwords have the stream's bytes. -/
theorem unstream_little {bs : List Byte} (h : 8 * n ≤ bs.length) :
    (unstream false bs n).flatMap quadBytes = bs.take (8 * n) := by
  induction n generalizing bs with
  | zero => rfl
  | succ n ih =>
    have hfirst : (bs.take 8).length = 8 := List.length_take_of_le (by omega)
    have hrest : 8 * n ≤ (bs.drop 8).length := by rw [List.length_drop]; omega
    rw [unstream, List.flatMap_cons, ih hrest, Nat.mul_succ, Nat.add_comm, List.take_add]
    exact congrArg (· ++ _) (quadBytes_quadOf hfirst)

/-- Byte `i` of the aligner's output is byte `k + i` of the quadwords read. -/
theorem alignQuads_little {k i : Nat} {qs : List Quad} (h : 8 * n + k ≤ 8 * qs.length) (hi : i < 8 * n) :
    ((alignQuads false k n qs).flatMap quadBytes)[i]? = (qs.flatMap quadBytes)[k + i]? := by
  have hlen := quadsBytes_length qs
  have hstream : (qs.flatMap fun q => streamOrder false (quadBytes q)) = qs.flatMap quadBytes := rfl
  rw [alignQuads, hstream, unstream_little (by rw [List.length_drop]; omega), List.getElem?_take_of_lt hi,
    List.getElem?_drop]

/-- A reference outside a chain reads one quadword more where it starts inside one (R851). -/
theorem alignSpan_unlinked (n : Nat) (align : BitVec 4) :
    alignSpan none n align = if align = 0 then n else n + 1 := by
  by_cases h : align = 0 <;> simp [alignSpan, h]

/-- The aligner's output for a reference outside a chain, byte by byte, in little-endian order. -/
theorem alignRead_little (hlittle : d.bigEndian = false) (halign : align.toNat ≤ 7)
    (hwritten : ∀ b, b < 8 * alignSpan none n align → (d.mem.read (8 * a.toNat + b)).isSome = true) :
    ∃ qs r, d.alignRead none a n align = .ok (qs, r) ∧ qs.length = n ∧
      ∀ i, i < 8 * n → (qs.flatMap quadBytes)[i]? = d.mem.read (8 * a.toNat + align.toNat + i) := by
  obtain ⟨qs, hqs, hlen, hbytes⟩ := Mem.readQuads_bytes hwritten
  by_cases hzero : align = 0
  · subst hzero
    have hall : d.mem.readQuads a.toNat n = some qs := hqs
    exact ⟨qs, none, by simp only [Sdram.alignRead, if_true, hall]; rfl, hlen, hbytes⟩
  · have hspan : alignSpan none n align = n + 1 := by rw [alignSpan_unlinked, if_neg hzero]
    rw [hspan] at hqs hlen hbytes
    refine ⟨alignQuads false align.toNat n qs, some ⟨qs.getLastD 0, align⟩, ?_, unstream_length _ _, fun i hi => ?_⟩
    · simp only [Sdram.alignRead, if_neg hzero, hqs, written_some, ok_bind, hlittle, res_pure]
    · rw [alignQuads_little (by omega) hi, hbytes _ (by omega), Nat.add_assoc]

/-! ### A reference outside a chain (R844, R851) -/

theorem residue_unlinked (d : Sdram) (h : c.link = none) : d.residue c = none := by
  have hnone : (d.chains.find? fun k => c.link == some k.num) = none :=
    List.find?_eq_none.2 fun _ _ => by simp [h]
  rw [Sdram.residue, hnone]; rfl

theorem keepResidue_unlinked (d : Sdram) (r : Option Residue) (h : c.link = none) : d.keepResidue c r = d := by
  simp [Sdram.keepResidue, h]

end

/-! ### The second valid flag (R818, R861) -/

theorem secondValid_eq (f : Fbi) (addr : Nat) (sig : Bool) :
    f.secondValid addr sig = { f with txValid2 := (f.secondValid addr sig).txValid2 } := by
  unfold Fbi.secondValid
  split <;> rfl

theorem secondValid_bit (f : Fbi) (addr : Nat) (sig : Bool) {e : Nat} (he : e < 16) :
    (f.secondValid addr sig).txValid2.getLsbD e =
      (f.txValid2.getLsbD e || decide (e = addr / 8) && sig && f.dualValid) := by
  have hone : ((1#16) <<< (addr / 8)).getLsbD e = decide (e = addr / 8) := by
    rw [← BitVec.twoPow_eq, BitVec.getLsbD_twoPow]
    by_cases h : e = addr / 8
    · simp [← h, he]
    · simp [h, Ne.symm h]
  unfold Fbi.secondValid
  split
  next hset =>
    rw [Bool.and_assoc, hset, Bool.and_true]
    exact (BitVec.getLsbD_or ..).trans (congrArg _ hone)
  next hunset => rw [Bool.and_assoc, Bool.eq_false_iff.2 hunset, Bool.and_false, Bool.or_false]

/-! ### The commands served -/

section
variable {s t : State} {c : Cmd} {a : Word} {x n f : Nat} {align : BitVec 4} {qs : List Quad} {r : Option Residue}

theorem fifoOk_of_le {k : Nat} (h : k + n ≤ 160) : fifoOk k n = true := decide_eq_true h

theorem fifoOk_of_lt {k : Nat} (h : 160 < k + n) : fifoOk k n = false := decide_eq_false (Nat.not_le.2 h)

theorem rFifoRd_served (hop : c.op = .rFifoRd a x n) (hin : a.toNat + n ≤ 160)
    (hqs : s.fbi.rfifo.readQuads a.toNat n = some qs) :
    s.pushServe c = .ok ((s.pushSram c.xfMe x (qs.flatMap (fifoPair s.board.fifoLowFirst))).completed c) := by
  simp only [State.pushServe, hop, fifoOk_of_le hin, require_true, hqs, written_some, ok_bind, res_pure]

theorem tFifoWr_served (hop : c.op = .tFifoWr a x n) (hin : a.toNat + n ≤ 160) :
    s.pullServe c = .ok ((s.withFbi { s.fbi with
      tfifo := s.fbi.tfifo.writeQuads a.toNat
        (fifoQuads s.board.fifoLowFirst (s.pullSram c.xfMe x (2 * n))) }).completed c) := by
  simp only [State.pullServe, hop, fifoOk_of_le hin, require_true, ok_bind, res_pure]

theorem rFifoRd_outside (hop : c.op = .rFifoRd a x n) (hout : 160 < a.toNat + n) :
    s.pushServe c = .error (.refused .addressRange) := by
  simp only [State.pushServe, hop, fifoOk_of_lt hout, require_false, error_bind]

theorem tFifoWr_outside (hop : c.op = .tFifoWr a x n) (hout : 160 < a.toNat + n) :
    s.pullServe c = .error (.refused .addressRange) := by
  simp only [State.pullServe, hop, fifoOk_of_lt hout, require_false, error_bind]

/-- `sdram[t_fifo_wr]` outside a chain: what the aligner gives goes into the TFIFO (R861). -/
theorem sdramTFifo_served (hop : c.op = .sdramTFifo a n f align) (hlink : c.link = none) (hf : f + n ≤ 128)
    (hin : 8 * (a.toNat + alignSpan none n align) ≤ s.board.sdramBytes)
    (hout : s.alignOut none a n align = .ok (qs, r, t)) :
    s.sdramServe c = .ok ((t.withFbi (({ t.fbi with tfifo := t.fbi.tfifo.writeQuads f qs } : Fbi).secondValid f
      c.sig.isSome)).completed c) := by
  have hok : (s.sdramOk a (alignSpan none n align) && tFifoDataOk f n) = true := by
    simp [State.sdramOk, tFifoDataOk, hin, hf]
  simp only [State.sdramServe, hop, residue_unlinked s.sdram hlink, hok, require_true, hout, ok_bind, res_pure,
    keepResidue_unlinked t.sdram r hlink]
  rfl

theorem sdramTFifo_outside (hop : c.op = .sdramTFifo a n f align) (hout : 128 < f + n) :
    s.sdramServe c = .error (.refused .addressRange) := by
  have hno : tFifoDataOk f n = false := decide_eq_false (Nat.not_le.2 hout)
  simp only [State.sdramServe, hop, hno, Bool.and_false, require_false, error_bind]

/-- With an alignment of 0 to 7 the aligner's quadwords are memory's (R850). -/
theorem alignOut_memory (halign : align.toNat ≤ 7) (hread : s.sdram.alignRead none a n align = .ok (qs, r)) :
    s.alignOut none a n align = .ok (qs, r, s) := by
  simp only [State.alignOut, Option.map_none, Option.getD_none, halign, if_true, hread, ok_bind, res_pure]

/-- With an alignment of 8 to 15 they are drawn (log entry 21). -/
theorem alignOut_drawn (s : State) (a : Word) (n : Nat) (halign : 7 < align.toNat) : ∃ qs r k,
    s.alignOut none a n align = .ok (qs, r, { s with free := k }) ∧ qs.length = n := by
  refine ⟨regQuads (s.drawWords .aligner (2 * n)).1, some _, s.free + 2 * n, if_neg (Nat.not_le.2 halign), ?_⟩
  rw [regQuads_length, State.drawWords_length, Nat.mul_div_cancel_left _ (by decide)]

theorem sdramRFifo_served (hop : c.op = .sdramRFifo a n f) (hf : f + n ≤ 128)
    (hin : 8 * (a.toNat + n) ≤ s.board.sdramBytes) (hqs : s.fbi.rfifo.readQuads f n = some qs) :
    s.sdramServe c =
      .ok ((s.withSdram (s.sdram.store (s.sdram.mem.writeQuads a.toNat qs))).completed c) := by
  have hfifo : fifoOk f n = true := fifoOk_of_le (by omega)
  have hok : (s.sdramOk a n && directFifoOk f n) = true := by simp [State.sdramOk, directFifoOk, hfifo, hin, hf]
  simp only [State.sdramServe, hop, hok, require_true, hqs, written_some, ok_bind, res_pure]

end

/-- Settles O46, by command. -/
theorem fifoTransfers : Obligations.FifoTransfers := by
  intro s c a x n hspan
  refine ⟨fun hop => ⟨fun hin hwritten => ?toRegisters, rFifoRd_outside hop⟩,
    fun hop => ⟨fun hin => ?fromRegisters, tFifoWr_outside hop⟩, fun f align hop halign hlink hf hin => ?drawn,
    fun f align hop hlink hlittle halign => ⟨fun hf hin hwritten => ?aligned, sdramTFifo_outside hop⟩,
    fun f hop hf hin hwritten => ?fromFifo⟩
  case toRegisters =>
    obtain ⟨qs, hqs, hlen, hget⟩ := Mem.readQuads_some s.fbi.rfifo n a.toNat hwritten
    have hregs := fifoPairs_length s.board.fifoLowFirst qs
    refine ⟨_, rFifoRd_served hop hin hqs, State.completed_eq _ _,
      pushSram_completed_fileHolds (hlen ▸ hregs) fun i hi => ?_, State.pushSram_completed_delivered s c x _⟩
    have hquad : i / 2 < qs.length := by omega
    rw [fifoLong_eq, hget _ hquad, ← List.getElem?_eq_getElem hi, fifoPairs_get, List.getElem?_eq_getElem hquad]
  case fromRegisters =>
    have hregs : (s.pullSram c.xfMe x (2 * n)).length = 2 * n := fileGets_length _ _ _
    have hlen := fifoQuads_length s.board.fifoLowFirst (s.pullSram c.xfMe x (2 * n))
    rw [hregs, Nat.mul_div_cancel_left n (by decide)] at hlen
    refine ⟨_, tFifoWr_served hop hin, ?_⟩
    rw [completed_fbi_eq]
    refine ⟨fun i hi => ?_, fun b hb => Mem.read_writeQuads_ne _ _ _ b (hlen.symm ▸ hb), rfl, rfl, rfl⟩
    have hquad : i / 2 < (fifoQuads s.board.fifoLowFirst (s.pullSram c.xfMe x (2 * n))).length := by omega
    rw [fifoLong_eq, Mem.readQuad_writeQuads _ _ hquad, ← List.getElem?_eq_getElem hquad, ← fifoPairs_get,
      fifoPairs_fifoQuads _ _ (by omega), State.pullSram, fileGets_get _ _ _ _ hi hspan]
  case drawn =>
    obtain ⟨qs, r, k, hout, hlen⟩ := alignOut_drawn s a n halign
    have hwhole : alignSpan none n align ≤ n + 1 := by rw [alignSpan_unlinked]; split <;> omega
    refine ⟨_, sdramTFifo_served hop hlink hf (by omega) hout, ?_⟩
    rw [completed_fbi_eq, secondValid_eq]
    have hmes : (({ s with free := k } : State).completed c).mes = (s.completed c).mes := by
      rw [show State.completed _ c = _ from completed_unit s s.sdram s.sram k c]
    exact ⟨fun b hb => Mem.read_writeQuads_ne _ _ _ b (hlen.symm ▸ hb), rfl, rfl, rfl, hmes⟩
  case aligned =>
    have hwhole := alignSpan_unlinked n align
    obtain ⟨qs, r, hread, hlen, hbytes⟩ := alignRead_little (a := a) (n := n) hlittle halign
      fun b hb => hwritten b (hwhole ▸ hb)
    refine ⟨_, sdramTFifo_served hop hlink hf (hwhole.symm ▸ hin) (alignOut_memory halign hread), ?_⟩
    rw [completed_fbi_eq, secondValid_eq]
    refine ⟨fun b hb => ?_, fun b hb => Mem.read_writeQuads_ne _ _ _ b (hlen.symm ▸ hb),
      fun e he => secondValid_bit _ f _ he, rfl, rfl, rfl, rfl⟩
    exact (Mem.read_writeQuads _ _ (hlen.symm ▸ hb)).trans (hbytes b hb)
  case fromFifo =>
    obtain ⟨qs, hqs, hlen, hbytes⟩ := Mem.readQuads_bytes hwritten
    refine ⟨_, sdramRFifo_served hop hf hin hqs, ?_⟩
    rw [show (s.withSdram _).completed c = _ from completed_unit s _ s.sram s.free c]
    exact ⟨fun b hb => (Mem.read_writeQuads _ _ (hlen.symm ▸ hb)).trans (hbytes b hb),
      fun b hb => Mem.read_writeQuads_ne _ _ _ b (hlen.symm ▸ hb), rfl, rfl, rfl⟩

end Sys2Proof.Machine
end

section
/-! Timers, doorbell and UART (53_pci_unit.md R982; 60_exceptions.md R1090, R1093, R1095; 11_state_csrs.md R244): one
tick by the timer's value, the watchdog's reset, the doorbell's interrupts bit by bit, and the two FIFOs of the UART. -/

namespace Sys2Proof.Machine

/-! ### Timers (R1090, R1093) -/

section
variable {t : Timer} {s : State}

theorem Timer.tick_disabled (h : t.enable = false) : t.tick = (t, false) := by
  rw [Timer.tick, h]; rfl

theorem Timer.tick_reload (h : t.enable = true) (hv : t.value = 0) :
    t.tick = ({ t with value := if t.periodic then t.load else 0xFFFFFF }, false) := by
  rw [Timer.tick, h, hv]; rfl

theorem Timer.tick_zero (h : t.enable = true) (hv : t.value = 1) :
    t.tick = ({ t with value := 0, int := true }, true) := by
  rw [Timer.tick, h, hv]; rfl

theorem Timer.tick_down (h : t.enable = true) (hv : 1 < t.value.toNat) :
    t.tick = ({ t with value := t.value - 1 }, false) := by
  have hzero : t.value ≠ 0 := fun h0 => by simp [h0] at hv
  have hone : t.value ≠ 1 := fun h1 => by simp [h1] at hv
  rw [Timer.tick, h, if_neg hzero, if_neg hone]; rfl

theorem run_timerTick (s : State) (n : Fin 4) : s.run (.timerTick n) = .next ((s.timerTick n).noteLevels s) := rfl

theorem timerTick_zero {n : Fin 4} (h : s.pci.timers[n].tick.2 = true) : s.timerTick n =
    if n == 3 && s.pci.watchdog then (s.setTimer n s.pci.timers[n].tick.1).chipReset
    else s.setTimer n s.pci.timers[n].tick.1 := by
  unfold State.timerTick
  simp only [h, Bool.true_and]
  rfl

/-- Timer 4 reaching zero under the watchdog enable resets the chip (R1093). -/
theorem timerTick_watchdog (henable : s.pci.timers[3].enable = true) (hv : s.pci.timers[3].value = 1)
    (hdog : s.pci.watchdog = true) : s.timerTick 3 = (s.setTimer 3 s.pci.timers[3].tick.1).chipReset :=
  (timerTick_zero (n := 3) (congrArg Prod.snd (Timer.tick_zero henable hv))).trans (if_pos hdog)

end

/-- Settles O54: a tick by the timer's value, and the chip as a reset leaves it. -/
theorem timerTicks : Obligations.TimerTicks := by
  refine ⟨fun t => ⟨Timer.tick_disabled, fun henable hv => ?down, fun henable hv => ?zero,
    fun henable hv hperiodic => ?periodic, fun henable hv hfree => ?freeRunning⟩, fun s henable hv hdog => ?watchdog⟩
  case down =>
    rw [Timer.tick_down henable hv]
    exact ⟨BitVec.toNat_sub_of_le (Nat.le_of_lt hv), rfl, rfl⟩
  case zero => rw [Timer.tick_zero henable hv]; exact ⟨rfl, rfl, rfl⟩
  case periodic => rw [Timer.tick_reload henable hv, hperiodic]; exact ⟨rfl, rfl⟩
  case freeRunning => rw [Timer.tick_reload henable hv, hfree]; exact ⟨rfl, rfl⟩
  case watchdog =>
    obtain ⟨os, hos⟩ := (s.timerTick 3).noteLevels_eq s
    obtain ⟨hmode, -, -⟩ := chipReset_mode (s.setTimer 3 s.pci.timers[3].tick.1)
    have hengines := fun m => congrArg Me.inReset (chipReset_me (s.setTimer 3 s.pci.timers[3].tick.1) m)
    refine ⟨_, run_timerTick s 3, ?_⟩
    rw [hos, timerTick_watchdog henable hv hdog]
    exact ⟨rfl, hmode, hengines, rfl, rfl, List.prefix_append _ os⟩

/-! ### The doorbell (R982) -/

/-- Two words share a set bit where their conjunction is not zero. -/
theorem and_bne_zero_iff (a b : Word) :
    ((a &&& b) != 0) = true ↔ ∃ i : Nat, i < 32 ∧ a.getLsbD i = true ∧ b.getLsbD i = true := by
  rw [bne_iff_ne]
  constructor
  · intro hne
    by_contra hnone
    refine hne (BitVec.eq_of_getLsbD_eq fun i hi => ?_)
    rw [BitVec.ofNat_eq_ofNat, BitVec.getLsbD_zero, Bool.eq_false_iff, BitVec.getLsbD_and, ne_eq, Bool.and_eq_true]
    exact fun hbits => hnone ⟨i, hi, hbits⟩
  · rintro ⟨i, -, ha, hb⟩ hzero
    have hbit := congrArg (·.getLsbD i) hzero
    simp [ha, hb] at hbit

theorem doorbellPci_iff (p : Pci) : p.doorbellPci = true ↔
    ∃ i : Nat, i < 32 ∧ p.doorbell.getLsbD i = true ∧ p.dbellPciMask.getLsbD i = true := and_bne_zero_iff _ _

/-- The core's interrupt follows clear bits. -/
theorem doorbellSa_iff (p : Pci) : p.doorbellSa = true ↔
    ∃ i : Nat, i < 32 ∧ p.doorbell.getLsbD i = false ∧ p.dbellSaMask.getLsbD i = true := by
  refine (and_bne_zero_iff _ _).trans (exists_congr fun i => and_congr_right fun hi => ?_)
  simp [hi]

/-- A write of the whole doorbell sets or clears the bits written as 1, by who writes. -/
theorem pciRegWrite_doorbell (s : State) (arm : Bool) (v : Word) : s.pciRegWrite arm .doorbell v 0xFFFFFFFF =
    .ok (s.withPci { s.pci with doorbell := if arm then s.pci.doorbell ||| v else s.pci.doorbell &&& ~~~v }) := by
  have hall : v &&& 0xFFFFFFFF = v := BitVec.and_allOnes
  simp only [State.pciRegWrite, hall]

/-! ### The UART (R244, R1095) -/

/-- Where the pins are as before nothing is recorded (R1191). -/
theorem noteLevels_of_pins_eq {s old : State} (hirq : s.pci.irqPin = old.pci.irqPin) (hout : s.gpioOut = old.gpioOut)
    (hdriven : s.sys.gpioDriven = old.sys.gpioDriven) : s.noteLevels old = s := by
  simp [State.noteLevels, hirq, hout, hdriven]

theorem run_uartTx (s : State) : s.run .uartTx = .next (s.uartTransmit.noteLevels s) := rfl

/-- The transmitter takes the oldest byte, and no pin changes. -/
theorem uartTransmit_noteLevels {s : State} {b : Byte} {rest : List Byte} (henable : s.sys.uartEnable = true)
    (hbreak : getBit .uaBreak s.sys.uartCr = false) (htx : s.sys.uartTx = b :: rest) :
    s.uartTransmit.noteLevels s = (s.withSys { s.sys with uartTx := rest }.uartLatch).emit (.uart b) := by
  have hsent : s.uartTransmit = (s.withSys { s.sys with uartTx := rest }.uartLatch).emit (.uart b) := by
    simp only [State.uartTransmit, henable, hbreak, htx, Bool.not_true, Bool.false_eq_true, if_false]
  rw [hsent]
  exact noteLevels_of_pins_eq rfl rfl rfl

theorem uartPut_tx (y : Sys) (b : Byte) :
    (y.uartPut b).uartTx = if y.uartTx.length < 8 then y.uartTx ++ [b] else y.uartTx := rfl

/-- A byte received by an enabled UART goes behind those before it, or marks the last one where there is no room. -/
theorem uartReceive_rx {y : Sys} (b : Byte) (p f : Bool) (henable : y.uartEnable = true) :
    (y.uartReceive b p f).uartRx =
      if y.uartRx.length < 8 then y.uartRx ++ [⟨b, p, f, false⟩] else markOverrun y.uartRx := by
  simp only [Sys.uartReceive, henable, Bool.not_true, Bool.false_eq_true, if_false]
  rfl

theorem markOverrun_data : ∀ bs : List UartByte, (markOverrun bs).map (·.data) = bs.map (·.data)
  | [] => rfl
  | [_] => rfl
  | b :: b' :: rest => congrArg (b.data :: ·) (markOverrun_data (b' :: rest))

theorem markOverrun_last : ∀ {bs : List UartByte}, bs ≠ [] → (markOverrun bs).getLast?.map (·.overrun) = some true
  | [], h => absurd rfl h
  | [_], _ => rfl
  | b :: b' :: rest, _ => by
    have ih := markOverrun_last (bs := b' :: rest) (List.cons_ne_nil _ _)
    change (b :: markOverrun (b' :: rest)).getLast?.map (·.overrun) = some true
    cases h : markOverrun (b' :: rest) with
    | nil => rw [h] at ih; cases ih
    | cons x xs => rwa [List.getLast?_cons_cons, ← h]

/-- Settles O55: the doorbell's registers and interrupts, then the UART's two FIFOs. -/
theorem doorbellAndUart : Obligations.DoorbellAndUart := by
  refine ⟨fun s v => ⟨⟨_, pciRegWrite_doorbell s true v, rfl, rfl⟩, ⟨_, pciRegWrite_doorbell s false v, rfl, rfl⟩,
    doorbellPci_iff s.pci, doorbellSa_iff s.pci⟩, fun s b rest henable hbreak htx => ?sent,
    fun y b => ⟨fun hroom => ?_, fun hfull => ?_, rfl⟩, fun y b p f henable => ⟨fun hroom => ?_, fun hfull => ?_⟩⟩
  case sent =>
    refine ⟨_, run_uartTx s, ?_⟩
    rw [uartTransmit_noteLevels henable hbreak htx]
    exact ⟨rfl, rfl, rfl⟩
  · rw [uartPut_tx, if_pos hroom]
  · rw [uartPut_tx, if_neg (Nat.not_lt.2 hfull)]
  · rw [uartReceive_rx b p f henable, if_pos hroom]
  · rw [uartReceive_rx b p f henable, if_neg (Nat.not_lt.2 hfull)]
    exact ⟨markOverrun_data _, markOverrun_last fun hnil => by simp [hnil] at hfull⟩

end Sys2Proof.Machine
end

section
/-! Taking an exception and returning from it (60_exceptions.md R1041, R1050 to R1058): CPSR on entry bit by bit, the
link register and the SPSR of the mode entered, and what entry leaves of the register banks. -/

namespace Sys2Proof.Machine

/-! ### CPSR on entry (R1041) -/

/-- Above the mode bits entry sets I, and F for Reset and FIQ; every other bit stays. -/
theorem entryCpsr_getLsbD (e : ArmException) (v : Word) {i : Nat} (hmode : 5 ≤ i) (hi : i < 32) :
    (entryCpsr e v).getLsbD i =
      (v.getLsbD i || decide (i = 7) || (decide (i = 6) && (decide (e = .reset) || decide (e = .fiq)))) := by
  have hclear : ∀ i < 32, 5 ≤ i → (~~~(0x1F : Word)).getLsbD i = true := by decide
  have hirq : ∀ i < 32, (0x80 : Word).getLsbD i = decide (i = 7) := by decide
  have hfiq : ∀ i < 32, (0x40 : Word).getLsbD i = decide (i = 6) := by decide
  have hnumber : ((modeNumber e.mode).setWidth 32).getLsbD i = false := by
    rw [BitVec.getLsbD_setWidth, BitVec.getLsbD_of_ge _ _ hmode, Bool.and_false]
  unfold entryCpsr
  dsimp only
  split
  next hboth =>
    rw [BitVec.getLsbD_or, BitVec.getLsbD_or, BitVec.getLsbD_or, BitVec.getLsbD_and, hclear i hi hmode, hirq i hi,
      hfiq i hi, hnumber, hboth, Bool.and_true, Bool.and_true, Bool.or_false]
  next hneither =>
    rw [BitVec.getLsbD_or, BitVec.getLsbD_or, BitVec.getLsbD_and, hclear i hi hmode, hirq i hi, hnumber,
      Bool.eq_false_iff.2 hneither, Bool.and_true, Bool.and_false, Bool.or_false, Bool.or_false]

section
variable (c : Arm) (e : ArmException) (v : Word)

theorem takeException_cpsr : (c.takeException e v).cpsr = entryCpsr e c.cpsr := rfl

theorem takeException_pc : (c.takeException e v).pc = c.vectorBase + e.vector := rfl

theorem takeException_irqMasked : (c.takeException e v).irqMasked = true := by
  rw [Arm.irqMasked, takeException_cpsr, entryCpsr_getLsbD e c.cpsr (by decide) (by decide)]
  simp

theorem takeException_fiqMasked (he : e ≠ .reset) :
    (c.takeException e v).fiqMasked = (decide (e = .fiq) || c.fiqMasked) := by
  rw [Arm.fiqMasked, takeException_cpsr, entryCpsr_getLsbD e c.cpsr (by decide) (by decide), Arm.fiqMasked]
  simp [he, Bool.or_comm]

/-! ### The mode entered, and the other modes (R1041, R80) -/

theorem takeException_spsr : (c.takeException e v).spsr e.mode = c.cpsr := by cases e <;> rfl

/-- R14 of the mode entered holds the interrupted address plus the exception's offset (R1041). -/
theorem takeException_link : (c.takeException e v).reg 14 = v + e.offset := by
  rw [Arm.reg, takeException_mode]
  cases e <;> simp [Arm.takeException, ArmException.mode, Arm.setLink, Arm.setSpsr, Arm.regOf]

/-- Entry writes no register but R14 of the mode entered. -/
theorem takeException_banks : (c.takeException e v).usr = c.usr ∧
    (∀ i : Fin 7, i.val ≠ 6 → (c.takeException e v).fiq[i] = c.fiq[i]) ∧
    (c.takeException e v).svc[0] = c.svc[0] ∧ (c.takeException e v).abt[0] = c.abt[0] ∧
    (c.takeException e v).irq[0] = c.irq[0] ∧ (c.takeException e v).und[0] = c.und[0] := by
  have hsp : ∀ bank : Vector Word 2, (bank.set 1 (v + e.offset))[0] = bank[0] := fun bank =>
    Vector.getElem_set_ne (by decide) (by decide) (by decide)
  cases e
  case fiq => exact ⟨rfl, fun i hi => Vector.getElem_set_ne (by decide) i.isLt (Ne.symm hi), rfl, rfl, rfl, rfl⟩
  case irq => exact ⟨rfl, fun _ _ => rfl, rfl, rfl, hsp _, rfl⟩
  case undefined => exact ⟨rfl, fun _ _ => rfl, rfl, rfl, rfl, hsp _⟩
  case reset | swi => exact ⟨rfl, fun _ _ => rfl, hsp _, rfl, rfl, rfl⟩
  case prefetchAbort | dataAbort => exact ⟨rfl, fun _ _ => rfl, rfl, hsp _, rfl, rfl⟩

/-- Entry leaves the control, fault status and fault address registers. -/
theorem takeException_system : (c.takeException e v).control = c.control ∧ (c.takeException e v).fsr = c.fsr ∧
    (c.takeException e v).far = c.far := by
  cases e <;> exact ⟨rfl, rfl, rfl⟩

/-! ### The return (R1057) -/

theorem returnFrom_takeException (target : Word) : (c.takeException e v).returnFrom target =
    { c.takeException e v with pc := target, cpsr := c.cpsr } := by
  rw [Arm.returnFrom, takeException_mode, takeException_spsr]

end

/-- Settles O50: what entry saves is what the return restores. -/
theorem exceptionEntryAndReturn : Obligations.ExceptionEntryAndReturn := by
  intro c e at_ he
  obtain ⟨husr, hfiq, hsvc, habt, hirq, hund⟩ := takeException_banks c e at_
  obtain ⟨hcontrol, hfsr, hfar⟩ := takeException_system c e at_
  have hmode := takeException_mode c e at_
  have hlink := takeException_link c e at_
  dsimp only
  rw [returnFrom_takeException, hlink, BitVec.add_sub_cancel]
  refine ⟨hmode, hmode.symm ▸ takeException_spsr c e at_, rfl, takeException_pc c e at_,
    takeException_irqMasked c e at_,
    takeException_fiqMasked c e at_ he, fun i hlow hhigh => ?_, fun i => congrArg (·[i]) husr, hfiq, hsvc, habt, hirq,
    hund, hcontrol, hfsr, hfar, takeException_wb c e at_, rfl, rfl, rfl⟩
  have h7 : i ≠ 7 := by omega
  have h6 : i ≠ 6 := by omega
  rw [takeException_cpsr, entryCpsr_getLsbD e c.cpsr (by omega) hhigh]
  simp [h7, h6]

end Sys2Proof.Machine
end
